-- ==== Sys2Proof/Word.lean ====
section
/-! DEFINITION. The word types of the KT9 and their plainest arithmetic (R4, R7).
Nothing here carries a rule of the spec beyond widths: helpers that a rule gives stand in Machine/. -/

namespace Sys2Proof

/-- One byte of memory (R7). -/
abbrev Byte := BitVec 8
/-- A 32-bit register word (R42). -/
abbrev Word := BitVec 32
/-- A 64-bit word: two 32-bit words, low word first (R7, R43). -/
abbrev DWord := BitVec 64
/-- A fixed table of `n` units. -/
abbrev Tab (α : Type) (n : Nat) := Vector α n

/-- The unit `i` of a table, read. -/
def Tab.at {α : Type} {n : Nat} (t : Tab α n) (i : Fin n) : α := t[i]

/-- The table with unit `i` changed by `f`, every other unit as before. -/
def Tab.upd {α : Type} {n : Nat} (t : Tab α n) (i : Fin n) (f : α → α) : Tab α n :=
  Vector.set t i (f t[i])

/-- A table that holds the same value for every unit. -/
def Tab.all {α : Type} (n : Nat) (a : α) : Tab α n := Vector.replicate n a

theorem Tab.at_upd_same {α : Type} {n : Nat} (t : Tab α n) (i : Fin n) (f : α → α) :
    Tab.at (Tab.upd t i f) i = f (Tab.at t i) := by
  simp [Tab.at, Tab.upd]

theorem Tab.at_upd_other {α : Type} {n : Nat} (t : Tab α n) (i j : Fin n) (f : α → α) (h : i ≠ j) :
    Tab.at (Tab.upd t i f) j = Tab.at t j := by
  have h' : (i : Nat) ≠ j := fun e => h (Fin.ext e)
  simp [Tab.at, Tab.upd, h']

theorem Tab.at_all {α : Type} {n : Nat} (a : α) (i : Fin n) : Tab.at (Tab.all n a) i = a := by
  simp [Tab.at, Tab.all]

end Sys2Proof
end

