-- ==== Sys2Proof/Syntax.lean ====
section
/-! DEFINITION. The commands of the KT9: one constructor of `Instr` per row of spec/opcode_table.json, with the
row's operands. A command is one whole, indivisible step of the part (95_what_each_step_holds.md): a write or read by
a bus master, an operation of a thread, a message from a peer, an event on a pin, or the end of something the
hardware was doing. What an outside agent supplies is an operand; what the part already holds is in State. -/

namespace Sys2Proof

/-- A host function (R57): the physical function, or virtual function p + 1 of partition p. -/
inductive Fn where
  | pf
  | vf (p : Fin 64)
deriving DecidableEq, Repr

/-- A bus master that writes registers (R49, writer codes of R53). -/
inductive Writer where
  | host (f : Fn)
  | hart (h : Fin 4)
  | col (c : Fin 16)
  | supervisor
deriving DecidableEq, Repr

/-- A ring: ring `q` of a partition, or of the physical function (R62, R87). -/
structure RingId where
  fn : Fn
  q  : Fin 4
deriving DecidableEq, Repr

/-- The size of a register access (R42 to R48). `wide n` is a request of `n` 32-bit words, n at least 2 (R43, R44). -/
inductive AccSize where
  | b1 | b2 | b4
  | wide (words : Nat)
deriving DecidableEq, Repr

/-- Where a bus write goes: to registers, in BAR0 or on the fabric; to BAR2, where a host function's doorbell pages lie (R58, R63);
or to PCI Express configuration space, where the physical function's SR-IOV capability holds the number of enabled virtual functions
(R57) and its Resizable BAR capability the exponent of BAR4's size (R249). -/
inductive BusSpace where
  | registers | bar2 | enabledVfs | bar4Size
deriving DecidableEq, Repr

/-- A register write on the fabric: `off` is an offset in the BAR0 of the function that writes, and in the physical
function's BAR0 for every other writer (R53); `be` the byte enables of a 4-byte access and of the first word of a longer one,
`lastBe` those of a longer one's last word (R47). -/
structure BusWrite where
  writer : Writer
  off    : Nat
  size   : AccSize
  be     : BitVec 4
  lastBe : BitVec 4
  data   : List Word
  space  : BusSpace
deriving DecidableEq, Repr

/-- How a register is read: the byte lane and the size of the access (R46); a longer read begins at that register. -/
structure ReadAcc where
  reader : Writer
  lane   : Fin 4
  size   : AccSize
deriving DecidableEq, Repr

/-- The four map families of R59 and R87. -/
inductive MapKind where
  | plain | barrier | dale | basin
deriving DecidableEq, Repr

/-- What a fill of R61 is filling. -/
inductive FillUnit where
  | plain (i : Fin 64)
  | dale  (g : Fin 576)
  | basin (g : Fin 384)
deriving DecidableEq, Repr

/-- A memory tier (R16, R372). -/
inductive Tier where
  | dale | basin
deriving DecidableEq, Repr

/-- A unit of device memory that may fail its initialisation (R412). -/
inductive MemUnit where
  | stack (s : Fin 12)
  | channel (c : Fin 24)
deriving DecidableEq, Repr

/-- A scrubber (R372). -/
inductive ScrubUnit where
  | sram (i : Fin 64)
  | dale (s : Fin 12)
  | basin (c : Fin 24)
deriving DecidableEq, Repr

/-- Who waits for a far clock (R407, R408): a register access of a writer, or a transfer of a ring's command. -/
inductive CdcVictim where
  | access (w : Writer) (off : Nat)
  | command (r : RingId)
deriving DecidableEq, Repr

/-- Who waits on a SYN counter (R214, R217): a thread, the sequencer of a plain, a DMA request of a plain, or a
command of a ring. -/
inductive Waiter where
  | thread (i : Fin 64) (t : Fin 64)
  | descriptor (i : Fin 64)
  | request (i : Fin 64) (id : Nat)
  | command (r : RingId) (index : BitVec 16)
deriving DecidableEq, Repr

/-- The cause of a group abort (R307). -/
inductive AbortCause where
  | partitionReset | watchdog | colLost
deriving DecidableEq, Repr

/-- A group reduction message (R305): the group, its generation, the axis it travels, whether it travels plus-ward,
the hops it has made, whether it is a sum of arrivals or an OR of flags, and the value. -/
structure GroupMsg where
  part  : Fin 64
  group : BitVec 24
  gen   : Nat
  axis  : Fin 4
  plus  : Bool
  hops  : Nat
  isOr  : Bool
  value : Nat
deriving DecidableEq, Repr

/-- A collective data message (R312): the op, whether it belongs to the gathering phase, the direction it travels,
the first element it carries, whether its values are BF16, the values on the wire, the elements whose bytes carry poison, and the
non-finite bit of R315. -/
structure DataMsg where
  op      : Nat
  gather  : Bool
  plus    : Bool
  first   : Nat
  bf16    : Bool
  vals    : List Word
  marked  : List Nat
  nf      : Bool
deriving DecidableEq, Repr

/-- A gather on a col (R320): the partition, the requesting and owning ranks, the shard, the first parameter and the
count; `data` is none in a request, and the BF16 data with its offset in a response. -/
structure GatherMsg where
  part   : Fin 64
  src    : BitVec 24
  dst    : BitVec 24
  plain  : Fin 64
  req    : Nat
  shard  : BitVec 16
  first  : Nat
  count  : Nat
  offset : Nat
  data   : Option (List (BitVec 16))
  marked : List Nat
deriving DecidableEq, Repr

/-- What a flit carries (R293): one payload of its virtual channel, or none, in an unnumbered flit that only acknowledges. -/
inductive Payload where
  | data (ring : Fin 4) (m : DataMsg)
  | gather (m : GatherMsg)
  | snapshot (addr : Nat) (bytes : List Byte)
  | remoteAdd (w : Word)
  | group (m : GroupMsg)
  | abort (group : BitVec 24) (cause : AbortCause)
  | regWrite (off : Nat) (val : Word) (be : BitVec 4)
  | ackOnly
deriving DecidableEq, Repr

/-- A flit (R292 to R294, R299): its sequence number, the number of the first flit that its sender has not received (log entry 48), whether its CRC is good, its sender's bank bit, the partition
it carries and its payload. -/
structure Flit where
  seq  : Nat
  ack  : Nat
  crcOk : Bool
  bank : Bool
  part : Fin 64
  body : Payload
deriving DecidableEq, Repr

/-- The kind of an Ethernet frame (R333, R335, R337). -/
inductive FrameKind where
  | arp
  | neighbour
  | pfc
  | roce (opcode : BitVec 8)
  | other
deriving DecidableEq, Repr

/-- A received Ethernet frame, as far as R335 and R337 judge it: its kind, whether it is addressed to the port, its
source address as one number, the destination queue pair, its priority and its length in bytes; whether its FCS is right, and how
many of its codewords the FEC corrected (R332). -/
structure Frame where
  kind   : FrameKind
  toPort : Bool
  src    : BitVec 128
  qpn    : BitVec 24
  prio   : Fin 8
  bytes  : Nat
  fcsOk  : Bool
  corrected : Nat
deriving DecidableEq, Repr

/-- The commands of the KT9, one constructor per row of the table, in the table's order. -/
inductive Instr where
  -- rings, admission and completion (03)
  | sqTail (r : RingId) (val : Word) (narrow : Bool)
  | cqHead (r : RingId) (val : Word) (narrow : Bool)
  | admission (r : RingId)
  | commandStart (r : RingId)
  | completionRecordWrite (r : RingId)
  | loadImage (p : Fin 64) (q : Fin 4)
  | unloadImage (p : Fin 64) (q : Fin 4)
  | run (p : Fin 64) (q : Fin 4)
  | serveMix (p : Fin 64) (q : Fin 4)
  | sampleJob (p : Fin 64) (q : Fin 4)
  | encode (p : Fin 64) (q : Fin 4)
  | update (p : Fin 64) (q : Fin 4)
  | snapshot (p : Fin 64) (q : Fin 4)
  | copy (r : RingId)
  | nop (r : RingId)
  -- partition reset, grants, accounting, rings and journal (02, 03)
  | partitionReset (w : Writer) (p : Fin 64)
  | vfFlr (p : Fin 64)
  | partitionResetEnd (p : Fin 64)
  | mapWrite (w : Writer) (m : MapKind) (k : Fin 144) (val : Word) (be : BitVec 4)
  | grantFillDone (u : FillUnit)
  | acctSnap (w : Writer)
  | acctSnapDone
  | ringEnable (w : Writer) (r : RingId) (cfg : Word)
  | ringDisable (w : Writer) (r : RingId) (cfg : Word)
  | jrnEnable (w : Writer) (val : Word)
  | jrnDisable (w : Writer) (val : Word)
  -- register accesses (02)
  | registerWrite (ws : List BusWrite)
  | atomicPairLowWrite (w : Writer) (off : Nat) (val : Word)
  | atomicPairHighWrite (w : Writer) (off : Nat) (val : Word)
  | atomicPairLowRead (w : Writer) (off : Nat) (size : AccSize)
  | hifJrnLostRead (a : ReadAcc)
  | prtPDropRead (p : Fin 64) (a : ReadAcc)
  | tilParCntRead (i : Fin 64) (a : ReadAcc)
  | dleSTmaxRead (s : Fin 12) (a : ReadAcc)
  | dlePWaitRead (p : Fin 64) (a : ReadAcc)
  | bsnPWaitRead (p : Fin 64) (a : ReadAcc)
  | glnPRepairRead (p : Fin 64) (a : ReadAcc)
  | colCReplayRead (c : Fin 16) (a : ReadAcc)
  | colCDropRead (c : Fin 16) (a : ReadAcc)
  | netPortFecCorrRead (n : Fin 2) (a : ReadAcc)
  | netPortFecUncorrRead (n : Fin 2) (a : ReadAcc)
  | netPortStrangerRead (n : Fin 2) (a : ReadAcc)
  | smpPCorruptRead (p : Fin 64) (a : ReadAcc)
  | rasEvDropRead (src : Fin 128) (a : ReadAcc)
  | rasEccCntRead (a : ReadAcc)
  | bar4Read (f : Fn) (off : Nat) (len : Nat)
  | bar4Write (f : Fn) (off : Nat) (data : List Byte) (ep : Bool)
  | clockStartDone (dom : Fin 100)
  | cdcTimeout (dom : Fin 100) (v : CdcVictim)
  -- register writes that are steps of their own
  | tilSrSeedWrite (w : Writer) (i : Fin 64) (lo hi : Word)
  | tilDtWinWrite (w : Writer) (i : Fin 64) (k : Fin 64) (val : Word)
  | synPCtrAdd (w : Writer) (p : Fin 64) (val : Word)
  | synBarCtrlClear (w : Writer) (s : Fin 32)
  | colCRetrain (w : Writer) (c : Fin 16)
  | colCDisable (w : Writer) (c : Fin 16)
  | colAxArm (w : Writer) (a : Fin 4) (val : Word)
  | colPGclrClear (w : Writer) (p : Fin 64)
  | netTgtWord0Write (w : Writer) (val : Word)
  | medEFail (w : Writer) (e : Fin 4)
  | medEReturn (w : Writer) (e : Fin 4)
  | medPKeyreq (w : Writer) (p : Fin 64) (val : Word)
  | medPShareWrite (w : Writer) (p : Fin 64) (val : Word)
  | rasEvEnable (w : Writer) (val : Word)
  | rasEvDisable (w : Writer) (val : Word)
  | rasFlipGo (w : Writer)
  | flipDone
  | rasPlainFence (w : Writer) (i : Fin 64)
  | plainFenceRecords (p : Fin 64)
  | plainPortTimeout (i : Fin 64)
  | rasPlainReturn (w : Writer) (i : Fin 64)
  | plainBistDone (i : Fin 64) (ok : Bool)
  | ccxSupFence (w : Writer)
  | hartHeartbeat (h : Fin 4)
  | heartbeatTimeout (h : Fin 4)
  | fenceWaitExpiry
  | controlComplexReloadDone (ok : Bool)
  -- resets, start-up and pins (14)
  | pwrRstModule (w : Writer)
  | moduleReset
  | perstAssert
  | hotReset
  | pfFlr
  | standbyPowerOn (straps : BitVec 4)
  | standbyPowerLoss
  | pwrPinmuxWrite (w : Writer) (val : Word)
  | pinmuxWindowEnd (n : Fin 8)
  | mainSupplyConfirmed
  | firmwareCheckDone (ok : Bool)
  | memoryFillDone (fail : Option MemUnit)
  | hartRelease
  | tableReady
  | linkTrained
  -- threads (04) and their SYN and DMA ports (07, 08)
  | threadInstruction (i : Fin 64) (vector : Bool)
  | ecall (i : Fin 64) (t : Fin 64)
  | threadLoadReturn (i : Fin 64) (t : Fin 64)
  | synAdd (i : Fin 64) (t : Fin 64) (val : Word)
  | synWait (i : Fin 64) (t : Fin 64) (val : Word)
  | readSel (i : Fin 64) (t : Fin 64) (val : Word)
  | synRead (i : Fin 64) (t : Fin 64) (rd : Fin 32)
  | remoteCol (i : Fin 64) (t : Fin 64) (val : Word)
  | remoteAdd (i : Fin 64) (t : Fin 64) (val : Word)
  | barArrive (i : Fin 64) (t : Fin 64) (val : Word)
  | barSync (i : Fin 64) (t : Fin 64) (val : Word)
  | dmaCopy (i : Fin 64) (t : Fin 64) (req : Tab Word 16)
  | kvAppend (i : Fin 64) (t : Fin 64) (req : Tab Word 16)
  | pageLoad (i : Fin 64) (t : Fin 64) (req : Tab Word 16)
  | halo (i : Fin 64) (t : Fin 64) (req : Tab Word 16)
  | expand (i : Fin 64) (t : Fin 64) (req : Tab Word 16)
  | gather (i : Fin 64) (t : Fin 64) (req : Tab Word 16)
  | dmaRequestStart (i : Fin 64) (id : Nat)
  | kvCommit (i : Fin 64) (id : Nat)
  | dmaRequestDone (i : Fin 64) (id : Nat)
  -- the sequencer and the matrix engine (04, 05)
  | descriptorStart (i : Fin 64) (idle : DWord)
  | sequencerStep (i : Fin 64)
  | tileDrainDone (i : Fin 64) (half : Fin 2)
  | descriptorComplete (i : Fin 64)
  | plainClockStop (i : Fin 64) (idle : DWord)
  | plainWakeDone (i : Fin 64)
  -- counters and barriers (08)
  | counterAddApply (p : Fin 64) (ctr : BitVec 12)
  | counterWaitRelease (who : Waiter)
  | counterWatchdog (who : Waiter)
  | barrierArrival (i : Fin 64) (t : Fin 64)
  | barrierComplete (s : Fin 32)
  | barrierWatchdog (s : Fin 32)
  | remoteAddReceive (c : Fin 16) (val : Word)
  | groupMessageReceive (c : Fin 16) (m : GroupMsg)
  | groupAbortReceive (c : Fin 16) (group : BitVec 24) (cause : AbortCause)
  -- device memory (09, 13)
  | regulatorPass (p : Fin 64) (tier : Tier) (cycles : Nat)
  | demandRead (addr : BitVec 44)
  | readModifyWrite (addr : BitVec 44) (data : List Byte)
  | scrubRead (u : ScrubUnit)
  | daleTempReadout (s : Fin 12) (temp : Byte) (cycles : Nat)
  | basinModeRead (c : Fin 24) (mr4 : Byte) (atLimit : Bool)
  -- glens and snapshots (10)
  | glenChunkDone (c : Fin 24)
  | shardPhaseAdvance (p : Fin 64) (shard : BitVec 16)
  | snapshotChunkRead (p : Fin 64) (q : Fin 4)
  | snapshotWriteTimeout (p : Fin 64) (q : Fin 4)
  -- cols and collectives (11)
  | colFlitReceive (c : Fin 16) (f : Flit)
  | colReplay (c : Fin 16) (acked : Nat)
  | colFastRetrain (c : Fin 16)
  | colRetrainDone (c : Fin 16) (ok : Bool)
  | colLaneLoss (c : Fin 16) (lanes : Byte)
  | colReady (c : Fin 16)
  | collectiveArrivalSend (p : Fin 64) (q : Fin 4)
  | collectiveStart (p : Fin 64) (q : Fin 4)
  | collectiveOpStart (p : Fin 64) (q : Fin 4)
  | collectiveDataReceive (c : Fin 16) (p : Fin 64) (q : Fin 4) (m : DataMsg)
  | collectiveOpDone (p : Fin 64) (q : Fin 4)
  | gatherForward (c : Fin 16) (m : GatherMsg)
  | gatherServe (c : Fin 16) (m : GatherMsg)
  | gatherDataReceive (m : GatherMsg)
  | remoteRegisterWrite (c : Fin 16) (off : Nat) (val : Word) (be : BitVec 4)
  | snapshotTreeForward (c : Fin 16) (p : Fin 64) (addr : Nat) (bytes : List Byte)
  -- ingest, media and samples (12)
  | ethFrameReceive (n : Fin 2) (f : Frame)
  | rxBufferRelease (n : Fin 2) (prio : Fin 8) (bytes : Nat)
  | pfcFrameReceive (n : Fin 2) (enable : Byte) (quanta : Tab (BitVec 16) 8)
  | roceReadResponse (tgt : Fin 256) (psn : BitVec 24) (offset : Nat) (data : List Byte) (ce : Bool)
  | roceAckReceive (tgt : Fin 256) (psn : BitVec 24)
  | roceNakReceive (tgt : Fin 256) (psn : BitVec 24)
  | cnpReceive (tgt : Fin 256)
  | roceAckTimeout (tgt : Fin 256)
  | rateIncrease (tgt : Fin 256)
  | sampleReadDone (p : Fin 64) (q : Fin 4) (k : Nat)
  | sampleReadTimeout (p : Fin 64) (q : Fin 4)
  | sampleDecodeDone (p : Fin 64) (q : Fin 4) (k : Nat)
  | sampleJobClose (p : Fin 64) (q : Fin 4)
  | mediaEngineFail (e : Fin 4)
  | mediaPictureTimeout (e : Fin 4)
  | mediaBistDone (e : Fin 4) (ok : Bool)
  | encodeFrameDone (p : Fin 64) (q : Fin 4)
  -- the event log (13), power and pins (14)
  | eventRecordCommit
  | supplySample (v10 : BitVec 16)
  | dieHeatStep (d : Fin 4) (temp : Byte)
  | designPowerStep (watts : BitVec 16)
  | throttleNInput (level : Bool)
  | leakDetect
  | ppsEdge
  | flowPulse
  | flowWindowEnd
  | pllPowerDown (dom : Fin 100)
  | smbReadIdentity (pecOk : Bool)
  | smbReadStatus (pecOk : Bool)
  | smbReadTemperatures (pecOk : Bool)
  | smbReadSupply (pecOk : Bool)
  | smbReset (val : Byte) (pecOk : Bool)
  | smbAlertResponse
  | bypass
  | idcode
  | samplePreload
  | extest
  | extestPulse
  | extestTrain
  | dbgRead (sram : Option (Fin 64)) (off : Nat)
  -- the sealed metering block (15)
  | meterSample (mv : Tab Word 10) (ma : Tab Word 10)
  | meterIntervalEnd
  | activityFrame
  | activityFrameTimeout
  | meterLogWriteDone
  | meterStatus
  | meterRead (seq : DWord) (count : Nat)
  | readAudit
  | calWrite (param : BitVec 16) (val : Word)
  | perstDeassert
  | netPortLinkChange (n : Fin 2) (link fecLock : Bool)
  | leakClear
  | domainClockGate (dom : Fin 100)
  | pfcPauseExpiry (n : Fin 2) (prio : Fin 8)
  | calEnChange (shorted : Bool)
deriving DecidableEq, Repr

end Sys2Proof
end

