-- ==== Sys2Proof/Decode.lean ====
section
/-! DEFINITION. Decoding a word into a command. No row of spec/opcode_table.json gives bits: the commands of the KT9 are
bus accesses, doorbells, messages and events, and none is spelled by a word. -/

namespace Sys2Proof

/-- The command that a word of the table's bits spells: none, for no row gives bits. -/
def decodeTableWord (_nbits _w : Nat) : Option Instr := none

end Sys2Proof
end

