-- ==== Sys2Proof/Config.lean ====
section
/-! DEFINITION. What the spec leaves open: one constant without a body for each, so that a claim holds whatever its
value. Each is named in a log entry (notes/assumptions). -/

namespace Sys2Proof

/-- A picture as a decoder gives it: its size, the size of its chroma planes, the bits of a sample, the colour matrix and range
that the stream names, whether its planes are R, G and B, its three planes row by row, and how many pictures the stream has
coded when it is complete. -/
structure Picture where
  w      : Nat
  h      : Nat
  cw     : Nat
  ch     : Nat
  depth  : Nat
  matrix : Option (Nat × Bool)
  rgb    : Bool
  planes : List (List Nat)
  coded  : Nat
deriving DecidableEq, Repr, Inhabited

/-- What a decoder makes of a stream: a feature outside R340, an error, pictures in display order, or sound by channel. -/
inductive Decoded where
  | unsupported
  | bitstream
  | pictures (l : List Picture)
  | sound (rate : Nat) (chans : List (List (BitVec 32)))
deriving DecidableEq, Repr, Inhabited

end Sys2Proof

namespace Sys2Proof.Config

/-- A fresh 64-bit value for the n-th open choice of a run (log entry 5). -/
opaque freeValue : Nat → BitVec 64

/-- Whether a word with an even number (four or more) of wrong bits is seen as uncorrectable (R431, log entry 6). -/
opaque eccEvenSeen : BitVec 72 → Bool

/-- What the check matrix makes of a word with three, five or seven wrong bits: none when it is detected, else the bit
that the decoder flips (R431, log entry 6). -/
opaque eccOddFlip : BitVec 72 → Option (Fin 72)

/-- The device key, written at manufacture (R425), and its identifier. -/
opaque deviceKey : Fin 32 → BitVec 8
opaque keyId : BitVec 32

/-- The versions (major and minor) and the capability bits of a block's Pelvilen entry, by the block's place in R18: no chapter
gives them (R34, log entry 9). -/
opaque blockVersion : Nat → BitVec 16
opaque blockCap : Nat → BitVec 32
/-- Where a virtual function's BAR0 holds the blocks that its table lists: the part chooses (R39). By partition, GEN, and the bytes
that each block takes; `vfBases` of Machine/Table.lean takes the choice only where it keeps R39's bounds. -/
opaque vfBases : Fin 64 → BitVec 32 → List Nat → List Nat
/-- The frequency of TCK as PWR_DOM_STAT shows it: TCK is an input, of up to 50 MHz (R25, R417, log entry 46). -/
opaque tckMhz : BitVec 12
/-- The module serial number (R416). -/
opaque serial : BitVec 32


/-- The row functions whose values the spec bounds and does not fix (R113, log entry 8): the exponential, GELU and SILU of an FP32
number. Machine/Bounded.lean takes them only within the bound. -/
opaque exp32 : BitVec 32 → BitVec 32
opaque gelu32 : BitVec 32 → BitVec 32
opaque silu32 : BitVec 32 → BitVec 32

/-- The decoders of R340: codec, film grain, the pictures decoded at most, and the stream (log entry 9). -/
opaque decode : Nat → Bool → Nat → List (BitVec 8) → Decoded
/-- Colour conversion of one pixel: matrix, full range, bits of a sample, Y', Cb and Cr (R348 names the matrices and not the
order of their operations). -/
opaque toRgb : Nat → Bool → Nat → Nat → Nat → Nat → BitVec 32 × BitVec 32 × BitVec 32
/-- A sample of an R, G or B plane as FP32: bits of a sample, value. -/
opaque fromRgb : Nat → Nat → BitVec 32
/-- Bilinear interpolation at num / den between two values (R348 does not give the order of its operations). -/
opaque lerp : Nat → Nat → BitVec 32 → BitVec 32 → BitVec 32
/-- An s16 or s24 sample as FP32: bits, value. -/
opaque fromPcm : Nat → Nat → BitVec 32
/-- Resampling of R349: from rate, to rate, the samples. -/
opaque resample : Nat → Nat → List (BitVec 32) → List (BitVec 32)
/-- The mel energies of one windowed frame: rate, NFFT, NMEL, FMIN, FMAX, the WIN samples (R349). -/
opaque melEnergy : Nat → Nat → Nat → BitVec 32 → BitVec 32 → List (BitVec 32) → List (BitVec 32)
/-- The natural logarithm of an FP32 number. -/
opaque ln32 : BitVec 32 → BitVec 32
/-- The unordered FP32 sum of a vector reduction, whose order of additions is open (log entry 22): the rounding mode, the scalar,
the elements; the sum and its flags. -/
opaque redUsum : Nat → BitVec 32 → List (BitVec 32) → BitVec 32 × BitVec 5
/-- Coding of one frame (R360): the record's words, the frame number, key or inter, QP, what the engine keeps of the last picture,
and the samples of the Y′, Cb and Cr planes, row by row; the coded bytes, and what the engine keeps. -/
opaque codeFrame : List (BitVec 32) → Nat → Bool → Nat → Nat → List (List Nat) → List (BitVec 8) × Nat
/-- What a NaN among the source values of an ENCODE counts as, in units of 2^-149 of full scale (R360 does not say). -/
opaque nanPixel : BitVec 32 → Nat
/-- 2^(n / d) in FP64 (R361). -/
opaque exp2 : Int → Nat → BitVec 64

end Sys2Proof.Config
end

