-- ==== Sys2Proof/Machine/Float.lean ====
section
/-! DEFINITION. The floating-point arithmetic of the KT9: the formats of R93, IEEE 754 rounding (R97 to R101), the
conversions of R102 to R107 and the block scales of R104. A finite value is held exactly as a sign, a natural
significand and a power of two; one rounding at the end narrows it. -/

namespace Sys2Proof.Machine

/-- A binary format: exponent and fraction widths, and the largest finite significand with its power of two. -/
structure Fmt where
  ebits : Nat
  mbits : Nat
  maxM  : Nat
  maxE  : Int
deriving DecidableEq, Repr

def Fmt.fp32 : Fmt := { ebits := 8, mbits := 23, maxM := 2 ^ 24 - 1, maxE := 104 }
def Fmt.fp64 : Fmt := { ebits := 11, mbits := 52, maxM := 2 ^ 53 - 1, maxE := 971 }
def Fmt.bf16 : Fmt := { ebits := 8, mbits := 7, maxM := 255, maxE := 120 }
/-- OCP E4M3: 448 is the largest finite magnitude (R103). -/
def Fmt.e4m3 : Fmt := { ebits := 4, mbits := 3, maxM := 14, maxE := 5 }
def Fmt.e5m2 : Fmt := { ebits := 5, mbits := 2, maxM := 7, maxE := 13 }
/-- OCP E2M1: 6 is the largest magnitude and every code is finite. -/
def Fmt.e2m1 : Fmt := { ebits := 2, mbits := 1, maxM := 3, maxE := 1 }

def Fmt.bias (f : Fmt) : Int := 2 ^ (f.ebits - 1) - 1
/-- The power of two of the smallest normal number's leading bit. -/
def Fmt.emin (f : Fmt) : Int := 1 - f.bias

/-- A number as the arithmetic sees it. -/
inductive Val where
  | nan
  | inf (neg : Bool)
  | fin (neg : Bool) (m : Nat) (e : Int)
deriving DecidableEq, Repr

/-- Rounding modes: the three deterministic ones of R102 and those of the thread's frm (R116). -/
inductive Rm where
  | rne | rtz | rdn | rup | rmm
deriving DecidableEq, Repr, Inhabited

/-- Whether the exponent code with all ones is special: it is in the IEEE formats (FP64, FP32, BF16, E5M2). -/
def Fmt.ieee (f : Fmt) : Bool := f.ebits ≠ 2 && f.ebits ≠ 4

/-- The number that `bits` codes in format `f` (R93). -/
def Fmt.decode (f : Fmt) (bits : Nat) : Val :=
  let frac := bits % 2 ^ f.mbits
  let ex := bits / 2 ^ f.mbits % 2 ^ f.ebits
  let neg := bits / 2 ^ (f.mbits + f.ebits) % 2 == 1
  if f.ieee && ex == 2 ^ f.ebits - 1 then (if frac == 0 then .inf neg else .nan)
  else if f.ebits == 4 && ex == 15 && frac == 7 then .nan
  else if ex == 0 then .fin neg frac (f.emin - f.mbits)
  else .fin neg (2 ^ f.mbits + frac) ((ex : Int) - f.bias - f.mbits)

def signBit (f : Fmt) (neg : Bool) : Nat := if neg then 2 ^ (f.mbits + f.ebits) else 0

/-- The canonical NaN of R101 and the NaN results of R103. -/
def Fmt.nanBits (f : Fmt) : Nat :=
  if f.ebits == 4 then 0x7F
  else if f.ebits == 2 then 0
  else (2 ^ f.ebits - 1) * 2 ^ f.mbits + 2 ^ (f.mbits - 1)

def Fmt.infBits (f : Fmt) (neg : Bool) : Nat := signBit f neg + (2 ^ f.ebits - 1) * 2 ^ f.mbits

/-- The exponent of the unit in the last place at the magnitude m·2^e (R107). -/
def Fmt.ulpExp (f : Fmt) (m : Nat) (e : Int) : Int :=
  max ((Nat.log2 m : Int) + e) f.emin - f.mbits

/-- The code of the finite magnitude m·2^q, where m < 2^(mbits+2) and q is a legal unit exponent. -/
def Fmt.encode (f : Fmt) (neg : Bool) (m : Nat) (q : Int) : Nat :=
  let (m, q) := if m ≥ 2 ^ (f.mbits + 1) then (m / 2, q + 1) else (m, q)
  if m < 2 ^ f.mbits then signBit f neg + m
  else signBit f neg + (q + f.mbits + f.bias).toNat * 2 ^ f.mbits + (m - 2 ^ f.mbits)

/-- m·2^e is above the largest finite magnitude. -/
def Fmt.beyond (f : Fmt) (m : Nat) (e : Int) : Bool :=
  let k := min e f.maxE
  m * 2 ^ (e - k).toNat > f.maxM * 2 ^ (f.maxE - k).toNat

/-- Whether a discarded part `r` of `2^d` rounds the magnitude `m` up. -/
def Rm.up (rm : Rm) (neg : Bool) (m r d : Nat) : Bool :=
  match rm with
  | .rne => 2 * r > 2 ^ d || (2 * r == 2 ^ d && m % 2 == 1)
  | .rmm => 2 * r ≥ 2 ^ d && r ≠ 0
  | .rtz => false
  | .rdn => neg && r ≠ 0
  | .rup => !neg && r ≠ 0

/-- The magnitude m·2^e cut to the unit 2^q and rounded; with it, whether anything was discarded. -/
def cutTo (rm : Rm) (neg : Bool) (m : Nat) (e q : Int) : Nat × Bool :=
  if e ≥ q then (m * 2 ^ (e - q).toNat, false)
  else
    let d := (q - e).toNat
    let t := m / 2 ^ d
    let r := m % 2 ^ d
    (if rm.up neg t r d then t + 1 else t, r ≠ 0)

/-- Exception flags in the order of RISC-V fflags: NX 1, UF 2, OF 4, DZ 8, NV 16. -/
abbrev FFlags := Nat

/-- The IEEE 754 rounding of an exact number to a code of format `f`, with its flags. Tininess is detected after
rounding. -/
def Fmt.round (f : Fmt) (rm : Rm) (v : Val) : Nat × FFlags :=
  match v with
  | .nan => (f.nanBits, 0)
  | .inf n => (f.infBits n, 0)
  | .fin neg m e =>
    if m == 0 then (signBit f neg, 0)
    else
      let q := f.ulpExp m e
      let (t, inexact) := cutTo rm neg m e q
      if f.beyond t q then
        let toMax := match rm with
          | .rtz => true
          | .rdn => !neg
          | .rup => neg
          | _ => false
        (if toMax then f.encode neg f.maxM f.maxE else f.infBits neg, 5)
      else
        let lead := (Nat.log2 m : Int) + e
        let (u, _) := cutTo rm neg m e (lead - f.mbits)
        let tiny := lead < f.emin && !(u == 2 ^ (f.mbits + 1) && lead + 1 == f.emin)
        (f.encode neg t q, (if inexact then 1 else 0) + (if inexact && tiny then 2 else 0))

def Val.isNan : Val → Bool | .nan => true | _ => false
def Val.isInf : Val → Bool | .inf _ => true | _ => false
def Val.isZero : Val → Bool | .fin _ 0 _ => true | _ => false
def Val.finite : Val → Bool | .fin _ _ _ => true | _ => false
def Val.neg : Val → Val | .nan => .nan | .inf n => .inf (!n) | .fin n m e => .fin (!n) m e
def Val.isNeg : Val → Bool | .nan => false | .inf n => n | .fin n _ _ => n

/-- A signed significand over a common exponent. -/
def Val.scaled (v : Val) (k : Int) : Int :=
  match v with
  | .fin n m e => let x : Int := m * 2 ^ (e - k).toNat; if n then -x else x
  | _ => 0

def Val.exp : Val → Int | .fin _ _ e => e | _ => 0

/-- Exact sum of two numbers under R101; a zero sum of opposite signs is −0 only when rounding downward. -/
def Val.add (rm : Rm) (a b : Val) : Val × FFlags :=
  match a, b with
  | .nan, _ => (.nan, 0)
  | _, .nan => (.nan, 0)
  | .inf x, .inf y => if x == y then (.inf x, 0) else (.nan, 16)
  | .inf x, _ => (.inf x, 0)
  | _, .inf y => (.inf y, 0)
  | .fin na ma _, .fin nb mb _ =>
    let k := min a.exp b.exp
    let s := a.scaled k + b.scaled k
    if s == 0 then (.fin (if ma == 0 && mb == 0 && na == nb then na else rm == .rdn) 0 k, 0)
    else (.fin (s < 0) s.natAbs k, 0)

/-- Exact product under R101: infinity times zero is NaN. -/
def Val.mul (a b : Val) : Val × FFlags :=
  match a, b with
  | .nan, _ => (.nan, 0)
  | _, .nan => (.nan, 0)
  | .inf x, .inf y => (.inf (x != y), 0)
  | .inf x, .fin n m _ => if m == 0 then (.nan, 16) else (.inf (x != n), 0)
  | .fin n m _, .inf y => if m == 0 then (.nan, 16) else (.inf (n != y), 0)
  | .fin na ma ea, .fin nb mb eb => (.fin (na != nb) (ma * mb) (ea + eb), 0)

/-- The quotient to 70 more bits than the operands need, with a sticky last bit, so that one rounding is exact. -/
def Val.div (a b : Val) : Val × FFlags :=
  match a, b with
  | .nan, _ => (.nan, 0)
  | _, .nan => (.nan, 0)
  | .inf _, .inf _ => (.nan, 16)
  | .inf x, .fin n _ _ => (.inf (x != n), 0)
  | .fin n _ _, .inf y => (.fin (n != y) 0 0, 0)
  | .fin na ma ea, .fin nb mb eb =>
    if mb == 0 then (if ma == 0 then (.nan, 16) else (.inf (na != nb), 8))
    else
      let k := 70 + Nat.log2 mb
      let q := ma * 2 ^ k / mb
      let r := ma * 2 ^ k % mb
      (.fin (na != nb) (2 * q + (if r == 0 then 0 else 1)) (ea - eb - k - 1), 0)

/-- Newton's integer square root, by fuel. -/
def isqrtAux (n : Nat) : Nat → Nat → Nat
  | 0, x => x
  | k + 1, x => let y := (x + n / x) / 2; if y < x then isqrtAux n k y else x

def isqrt (n : Nat) : Nat := if n == 0 then 0 else isqrtAux n 400 (2 ^ (Nat.log2 n / 2 + 1))

/-- The square root to 2^70 of its unit with a sticky last bit. -/
def Val.sqrt (a : Val) : Val × FFlags :=
  match a with
  | .nan => (.nan, 0)
  | .inf n => if n then (.nan, 16) else (.inf false, 0)
  | .fin n m e =>
    if m == 0 then (.fin n 0 0, 0)
    else if n then (.nan, 16)
    else
      let odd := e % 2 == 1
      let m := (if odd then 2 * m else m) * 2 ^ 140
      let e := (if odd then e - 1 else e) - 140
      let r := isqrt m
      (.fin false (2 * r + (if r * r == m then 0 else 1)) (e / 2 - 1), 0)

/-! ### FP32 and FP64 operations, round-to-nearest-even (R97, R98, R101, R271) -/

def Fmt.op2 (f : Fmt) (rm : Rm) (op : Val → Val → Val × FFlags) (a b : Nat) : Nat × FFlags :=
  let (v, fl) := op (f.decode a) (f.decode b)
  let (r, fr) := f.round rm v
  (r, fl + fr)

def f32 (w : Word) : Val := Fmt.fp32.decode w.toNat
def toF32 (v : Val) : Word := BitVec.ofNat 32 (Fmt.fp32.round .rne v).1
def fadd (a b : Word) : Word := toF32 (Val.add .rne (f32 a) (f32 b)).1
def fneg (a : Word) : Word := a ^^^ 0x80000000
def fsub (a b : Word) : Word := fadd a (fneg b)
def fmul (a b : Word) : Word := toF32 (Val.mul (f32 a) (f32 b)).1
def fdiv (a b : Word) : Word := toF32 (Val.div (f32 a) (f32 b)).1
def fsqrt (a : Word) : Word := toF32 (Val.sqrt (f32 a)).1
def f64 (w : DWord) : Val := Fmt.fp64.decode w.toNat
def toF64 (v : Val) : DWord := BitVec.ofNat 64 (Fmt.fp64.round .rne v).1
def dadd (a b : DWord) : DWord := toF64 (Val.add .rne (f64 a) (f64 b)).1
def dmul (a b : DWord) : DWord := toF64 (Val.mul (f64 a) (f64 b)).1

/-- The value of a natural number. -/
def Val.ofNat (n : Nat) : Val := .fin false n 0
def Val.ofInt (n : Int) : Val := .fin (n < 0) n.natAbs 0
def f32OfNat (n : Nat) : Word := toF32 (Val.ofNat n)

/-- a < b as numbers; false when either is a NaN. -/
def Val.lt (a b : Val) : Bool :=
  match a, b with
  | .nan, _ => false
  | _, .nan => false
  | .inf x, .inf y => x && !y
  | .inf x, _ => x
  | _, .inf y => !y
  | .fin .., .fin .. => let k := min a.exp b.exp; a.scaled k < b.scaled k

def Val.eq (a b : Val) : Bool :=
  match a, b with
  | .nan, _ => false
  | _, .nan => false
  | .inf x, .inf y => x == y
  | .inf _, _ => false
  | _, .inf _ => false
  | .fin .., .fin .. => let k := min a.exp b.exp; a.scaled k == b.scaled k

def flt (a b : Word) : Bool := (f32 a).lt (f32 b)
def isNonFinite (a : Word) : Bool := !(f32 a).finite
def isNanW (a : Word) : Bool := (f32 a).isNan

/-- The larger of two FP32 values; a NaN in either propagates (R114). -/
def fmaxProp (a b : Word) : Word :=
  if isNanW a || isNanW b then 0x7FC00000 else if flt a b then b else a

/-! ### Stochastic rounding (R105 to R107) -/

/-- The draw of stream `s` at counter value `n` (R105). -/
def srDraw (seed : DWord) (s : Nat) (n : DWord) : DWord :=
  let z := (seed ^^^ (BitVec.ofNat 64 s <<< 56)) + 0x9E3779B97F4A7C15 * (n + 1)
  let z := (z ^^^ (z >>> 30)) * 0xBF58476D1CE4E5B9
  let z := (z ^^^ (z >>> 27)) * 0x94D049BB133111EB
  z ^^^ (z >>> 31)

/-- The magnitude m·2^e cut to the unit 2^q with a draw (R107): the top 32 discarded bits at most take part. -/
def srCut (m : Nat) (e q : Int) (draw : DWord) : Nat :=
  if e ≥ q then m * 2 ^ (e - q).toNat
  else
    let d := (q - e).toNat
    let (m, d) := if d > 32 then (m / 2 ^ (d - 32), 32) else (m, d)
    (m + draw.toNat / 2 ^ (64 - d)) / 2 ^ d

/-! ### Conversion to narrower formats (R102, R103) -/

/-- A rounding code of R102 with its draw when it is stochastic. -/
inductive Rnd where
  | nearest | stochastic (draw : DWord) | zero
deriving DecidableEq, Repr

/-- What a conversion sets in TIL_NF_STAT (R103). -/
structure ConvFlags where
  nf  : Bool
  sat : Bool
deriving DecidableEq, Repr, Inhabited

def ConvFlags.none : ConvFlags := { nf := false, sat := false }
def ConvFlags.or (a b : ConvFlags) : ConvFlags := { nf := a.nf || b.nf, sat := a.sat || b.sat }

/-- The result of an overflow of R103's table. -/
def Fmt.overflow (f : Fmt) (sat : Bool) (neg : Bool) : Nat :=
  if sat || f.ebits == 2 then f.encode neg f.maxM f.maxE
  else if f.ebits == 4 then signBit f neg + 0x7F
  else f.infBits neg

/-- A number converted to the format `f` (R102, R103): a finite magnitude above the largest one overflows whatever the
rounding code makes of it. -/
def Fmt.convert (f : Fmt) (rnd : Rnd) (sat : Bool) (v : Val) : Nat × ConvFlags :=
  match v with
  | .nan => (f.nanBits, { nf := true, sat := false })
  | .inf n => (f.overflow sat n, { nf := true, sat := false })
  | .fin neg m e =>
    if m == 0 then (signBit f neg, ConvFlags.none)
    else
      let q := f.ulpExp m e
      let t := match rnd with
        | .nearest => (cutTo .rne neg m e q).1
        | .zero => (cutTo .rtz neg m e q).1
        | .stochastic draw => srCut m e q draw
      if f.beyond m e || f.beyond t q then (f.overflow sat neg, { nf := false, sat := true })
      else (f.encode neg t q, ConvFlags.none)

/-- A format code of R93. -/
def fmtOf (code : Nat) : Fmt :=
  match code with
  | 0 => .fp32
  | 1 => .bf16
  | 2 => .e4m3
  | 3 => .e5m2
  | 4 => .e4m3
  | 5 => .e5m2
  | _ => .e2m1

def isMx (code : Nat) : Bool := 4 ≤ code && code ≤ 6
def isFp8 (code : Nat) : Bool := code == 2 || code == 3
/-- Bits of one element of a format code. -/
def elemBits (code : Nat) : Nat :=
  match code with
  | 0 => 32
  | 1 => 16
  | 6 => 4
  | _ => 8

/-- The power of two of an E8M0 scale byte; 0xFF is NaN (R101). -/
def e8m0 (b : Byte) : Option Int := if b == 0xFF then none else some ((b.toNat : Int) - 127)

/-- A number times a power of two, exactly. -/
def Val.ldexp (v : Val) (k : Int) : Val :=
  match v with
  | .fin n m e => .fin n m (e + k)
  | w => w

/-- floor(log2 |v|) of a finite non-zero number. -/
def Val.floorLog2 (v : Val) : Int :=
  match v with
  | .fin _ m e => (Nat.log2 m : Int) + e
  | _ => 0

/-- The larger finite magnitude of two numbers; a non-finite one does not count (R104). -/
def maxMag (a b : Val) : Val :=
  match a, b with
  | .fin _ ma ea, .fin _ mb eb => if Val.lt (.fin false ma ea) (.fin false mb eb) then .fin false mb eb else .fin false ma ea
  | .fin .., _ => a
  | _, .fin .. => b
  | _, _ => .fin false 0 0

def amaxOf (vs : List Val) : Val := vs.foldl maxMag (.fin false 0 0)

/-- The E8M0 scale byte that R104 derives for a block, with emax of its element format. -/
def mxScale (emax : Int) (vs : List Val) : Byte :=
  if vs.any (fun v => !v.finite) then 0xFF
  else
    let a := amaxOf vs
    if a.isZero then 0x00
    else BitVec.ofInt 8 (max (-127) (min 127 (a.floorLog2 - emax)) + 127)

/-- emax of R104. -/
def emaxOf (code : Nat) : Int := if code == 4 then 8 else if code == 5 then 15 else 2

/-- A block of values converted to an MX format (R104): its scale and its elements, with one rounding each. -/
def mxBlock (code : Nat) (rnds : List Rnd) (sat : Bool) (vs : List Val) : Byte × List Nat × ConvFlags :=
  let sc := mxScale (emaxOf code) vs
  if sc == 0xFF then (sc, vs.map (fun _ => 0), { nf := true, sat := false })
  else
    let k : Int := (sc.toNat : Int) - 127
    let rs := (vs.zip rnds).map (fun p => (fmtOf code).convert p.2 sat (p.1.ldexp (-k)))
    (sc, rs.map (·.1), rs.foldl (fun a r => a.or r.2) ConvFlags.none)

/-! ### Balanced sums (R98, R113) -/

/-- One level of a balanced tree: neighbouring pairs added. -/
def pairSums : List Word → List Word
  | a :: b :: r => fadd a b :: pairSums r
  | r => r

/-- The balanced binary tree over an aligned group of 2^k values, k levels. -/
def treeSum : Nat → List Word → Word
  | 0, l => l.headD 0
  | k + 1, l => treeSum k (pairSums l)

/-- Integers from numbers (R116): rounded under `rm`, clamped to [lo, hi]; flags NV when clamped, NX when inexact. -/
def Val.toInt (rm : Rm) (lo hi : Int) (v : Val) : Int × FFlags :=
  match v with
  | .nan => (hi, 16)
  | .inf n => (if n then lo else hi, 16)
  | .fin neg m e =>
    let (t, ix) := cutTo rm neg m e 0
    let r : Int := if neg then -(t : Int) else t
    if r < lo then (lo, 16) else if r > hi then (hi, 16) else (r, if ix then 1 else 0)

end Sys2Proof.Machine
end

