-- ==== Sys2Proof/Machine/Bounded.lean ====
section
/-! DEFINITION. The functions that R113 bounds and does not fix: the exponential to 2 units in the last place, GELU and SILU to 4. Each
takes the free value of Config where that lies within the bound of the exact result, and the result rounded to nearest where it does
not, so that every value the spec allows, and no other, can come (log entry 8). -/

namespace Sys2Proof.Machine

open Sys2Proof

/-- The fraction bits of the fixed-point numbers below: far more than FP32 needs over its whole range. -/
def fixBits : Nat := 512

/-- The partial sums of y^n / n! in fixed point: steps left, n, the present term, the sum. -/
def expSum (y : Int) : Nat → Nat → Int → Int → Int
  | 0, _, _, s => s
  | k + 1, n, t, s => expSum y k (n + 1) (t * y / 2 ^ fixBits / (n + 1)) (s + t)

/-- A fixed-point number squared `k` times. -/
def squareFix : Nat → Int → Int
  | 0, s => s
  | k + 1, s => squareFix k (s * s / 2 ^ fixBits)

/-- e^x for |x| below 200: the series at x / 512, squared nine times. -/
def expFix (x : Int) : Nat := (squareFix 9 (expSum (x / 512) 60 0 (2 ^ fixBits) 0)).toNat

/-- The partial sums of x (−x²/2)^n / (n! (2n + 1)). -/
def phiSum (u : Int) : Nat → Nat → Int → Int → Int
  | 0, _, _, s => s
  | k + 1, n, t, s => phiSum u k (n + 1) (-(t * u / 2 ^ fixBits) / (n + 1)) (s + t / (2 * n + 1))

/-- 1 / sqrt(2π). -/
def invSqrtTwoPi : Int :=
  0x662114cf50d942343f2cf1402eae38bfd3829f30512706d8c0471b4802639d2e9df8ac55447d3db723f5d3abb374e88deb14277970be1513278e993445f08cff

/-- The standard normal distribution function for |x| below 15. -/
def phiFix (x : Int) : Nat :=
  (2 ^ (fixBits - 1) + invSqrtTwoPi * phiSum (x * x / 2 ^ (fixBits + 1)) 700 0 x 0 / 2 ^ fixBits).toNat

/-- Whether a code lies within `n` units in the last place of an exact result. -/
def withinUlps (n : Nat) (exact : Val) (w : BitVec 32) : Bool :=
  match exact, f32 w with
  | .fin _ m e, .fin neg m' e' =>
    let q := Fmt.fp32.ulpExp m e
    let k := min (min e e') q
    decide ((Val.scaled (.fin neg m' e') k - exact.scaled k).natAbs ≤ n * 2 ^ (q - k).toNat)
  | .fin neg m e, .inf neg' => neg == neg' && Fmt.fp32.beyond m e
  | _, _ => false

/-- A free value where it keeps the bound, else the exact result rounded. -/
def boundedBy (n : Nat) (exact : Val) (free : BitVec 32) : BitVec 32 := if withinUlps n exact free then free else toF32 exact

/-- A finite number in fixed point. -/
def Val.fix (v : Val) : Int := v.scaled (-(fixBits : Int))

/-- Whether a number is at or beyond a whole number in magnitude. -/
def Val.atLeast (v : Val) (n : Nat) : Bool := (n * 2 ^ fixBits : Nat) ≤ v.fix.natAbs

/-- The exponential of R113, with the values that R114 states: exp(−∞) = 0, and a NaN propagates. -/
def fexp (w : BitVec 32) : BitVec 32 :=
  match f32 w with
  | .nan => 0x7FC00000
  | .inf neg => if neg then 0 else w
  | v =>
    let exact : Val := if v.atLeast 200 then (if v.isNeg then .fin false 0 0 else .fin false 1 200)
      else .fin false (expFix v.fix) (-(fixBits : Int))
    boundedBy 2 exact (Config.exp32 w)

/-- GELU of R113; of −∞ the spec states no result. -/
def gelu (w : BitVec 32) : BitVec 32 :=
  match f32 w with
  | .nan => 0x7FC00000
  | .inf neg => if neg then Config.gelu32 w else w
  | .fin neg m e =>
    let v : Val := .fin neg m e
    let exact : Val := if v.atLeast 15 then (if neg then .fin true 0 0 else v)
      else .fin neg (m * phiFix v.fix) (e - fixBits)
    boundedBy 4 exact (Config.gelu32 w)

/-- SILU of R113; of −∞ the spec states no result. -/
def silu (w : BitVec 32) : BitVec 32 :=
  match f32 w with
  | .nan => 0x7FC00000
  | .inf neg => if neg then Config.silu32 w else w
  | .fin neg m e =>
    let v : Val := .fin neg m e
    let exact : Val := if v.atLeast 199 then (if neg then .fin true 0 0 else v)
      else .fin neg (m * 2 ^ (3 * fixBits) / (2 ^ fixBits + expFix (-v.fix))) (e - 2 * fixBits)
    boundedBy 4 exact (Config.silu32 w)

end Sys2Proof.Machine
end

