-- ==== Sys2Proof/Machine/State.lean ====
section
/-! DEFINITION. The state of the KT9: every register, memory, table, queue, mode and pin the spec names (INVENTORY.md,
heading State, lists them with their rules and reset values), the model's own fields (`free`, `images`, `out`), and the
queue of commands that wait. All of it is plain data. -/

namespace Sys2Proof.Machine

open Sys2Proof

/-- Sparse storage: (address, value) pairs, addresses strictly rising, no value equal to what an unlisted address
reads as (Machine/Ops.lean gives the operations, `Sparse.wf` the form). -/
abbrev Sparse (α : Type) := List (Nat × α)

/-- Byte memory; an unlisted byte reads 0x00, the contents of the start-up fill (R411). -/
abbrev Memory := List Host.Cell

/-- Who may stop: no meaning raises a fault in this model. The one name is kept for the host's interface: it would be
raised by a step that reads storage the module does not have, which the operand types exclude. Safe. -/
inductive Fault where
  | absentStorage
deriving DecidableEq, Repr

/-- `notModelled`: an arm of exec that has no meaning yet; every arm has one, so nothing raises it. Safe: it claims nothing. -/
inductive Refusal where
  | notModelled (mnemonic : String)
deriving DecidableEq, Repr

/-- The completion status codes of R11. -/
inductive Status where
  | ok | okSkippedNonfinite | okReplacedSamples
  | refusedFit | refusedPromise | refusedFormat
  | notRun | partialEnd
  | poisonConsumed | plainLost | shardLost
  | partitionReset | watchdog | thermalTrip | colLost | cdcTimeout
  | promiseBreach | deviceFenced
deriving DecidableEq, Repr, Inhabited

/-- The wait classes an image declares for a counter (R323 item 5), and the idle causes of R23. -/
inductive IdleCause where
  | peerData | peerLate | memory | host | ingest | thermal | power | bubble
deriving DecidableEq, Repr, Inhabited

/-! ### Migevo images. The spec states what an image declares and not its byte layout; State holds the decoded form. -/

/-- A monomial: a coefficient times the product of the listed shape parameters (R72); 8 stands for the M that a length table
gives (R151). -/
structure Mono where
  coef : Nat
  vars : List (Fin 9)
deriving DecidableEq, Repr, Inhabited

/-- A polynomial in the shape parameters (R72). -/
abbrev Poly := List Mono

/-- One cost phase (R72). -/
structure Phase where
  cycles : Poly
  dale   : Poly
  spreadS : Poly
  basin  : Poly
  spreadC : Poly
  col    : Poly
  hostRd : Poly
  hostWr : Poly
deriving DecidableEq, Repr, Inhabited

/-- A thread that a thread map names (R119). `thread` is checked by R433. -/
structure ThreadStart where
  plain  : Fin 64
  thread : Nat
  addr   : DWord
deriving DecidableEq, Repr

/-- The static range of one plain (R132). -/
structure StaticRange where
  plain : Fin 64
  first : Nat
  last  : Nat
deriving DecidableEq, Repr

/-- A tiling group: a template (R148) and the plains that share it, in ascending index. -/
structure TilingGroup where
  template : Tab Word 16
  plains   : List (Fin 64)
deriving DecidableEq, Repr

/-- A collective entry point: the header of R308 and the op descriptors of R309. -/
structure CollectiveDef where
  header : Tab Word 8
  ops    : List (Tab Word 16)
deriving DecidableEq, Repr

/-- The range an entry point declares for a shape parameter (R70). -/
structure ParamRange where
  param : Fin 8
  lo    : Nat
  hi    : Nat
deriving DecidableEq, Repr

/-- An entry point of an image (R70 to R73, R119, R132, R148, R201, R206, R283, R308), with the axes that its gathers need
(R296). -/
structure EntryPoint where
  num        : BitVec 16
  params     : List ParamRange
  phases     : List Phase
  plains     : List (Fin 64)
  threads    : List ThreadStart
  ranges     : List StaticRange
  tiling     : List TilingGroup
  collective : Option CollectiveDef
  stepStart  : Bool
  stepParam  : Option (Fin 8)
  maskParam  : Option (Fin 8)
  headGroup  : Option Nat
  gatherAxes : List (Fin 4)
deriving DecidableEq, Repr

/-- A counter that an image places (R212, R323). `home` is checked against the grant. -/
structure CounterDef where
  num   : BitVec 12
  home  : Fin 64
  cls   : Option IdleCause
deriving DecidableEq, Repr

/-- What one pipeline stage needs on one plain (R75, R76). -/
structure StageNeed where
  stage  : BitVec 8
  plain  : Fin 64
  sram   : Nat
  rowBuf : Nat
  descs  : Nat
deriving DecidableEq, Repr

/-- A static descriptor entry (R131). -/
structure StaticEntry where
  plain : Fin 64
  index : Nat
  words : Tab Word 64
deriving DecidableEq, Repr

/-- Bytes that an image places in a plain's SRAM: the code of threads (R119), parameter blocks (R111). -/
structure SramPart where
  plain : Fin 64
  addr  : Nat
  bytes : List Byte
deriving DecidableEq, Repr

/-- A Migevo image, decoded. `extent` is the highest byte that a length, offset or count inside the image reaches
(R433), `clean` is whether every reserved field is 0 (R10). -/
structure Image where
  extent   : Nat
  clean    : Bool
  sram     : List SramPart
  dynFirst : Nat
  entries  : List EntryPoint
  statics  : List StaticEntry
  seeds    : List (Fin 64 × DWord)
  counters : List CounterDef
  plains   : List (Fin 64)
  needs    : List StageNeed
  dale     : Nat
  basin    : Nat
  barSlots : Nat
  layers   : List (List Nat)
deriving DecidableEq, Repr

/-- Where host or device memory holds an image: the model's own field (the layout is not in the spec). -/
structure ImageAt where
  host  : Bool
  addr  : Nat
  image : Image
deriving DecidableEq, Repr

/-! ### Commands on a ring -/

/-- A shortfall entry (R75). -/
structure Shortfall where
  res   : BitVec 8
  scope : BitVec 8
  need  : Nat
  grant : Nat
deriving DecidableEq, Repr

/-- Where a command stands (R64, R65, R70, R71). -/
inductive Stage where
  | fetched | admitted | started | done
deriving DecidableEq, Repr, Inhabited

/-- The stages of one UPDATE (R265). -/
inductive UpdStage where
  | begin | repair | apply | refresh
deriving DecidableEq, Repr, Inhabited

/-- A RUN or SERVE_MIX in progress: its entry point, its shape parameters, why it stops early (R119), whether its
sequencers and threads have begun, and the entries that it completed on plains whose sequencers went on to a later command (R64). -/
structure RunWork where
  entry  : EntryPoint
  shape  : Tab Nat 8
  stop   : Option Status
  begun  : Bool
  done   : List (Fin 64 × List Nat)
deriving DecidableEq, Repr

/-- An UPDATE in progress: shards still to repair and to update, the shards changed, poison met, the step skipped, the chunks
that a REFRESH has still to rewrite of its present shard (channel, chunk), and the direction entry point that runs on the
plains, with its shape (R275). -/
structure UpdateWork where
  stage   : UpdStage
  repairs : List Nat
  todo    : List Nat
  changed : List Nat
  poison  : Bool
  skipped : Bool
  left    : List (Fin 24 × Nat)
  dir     : Option RunWork
deriving DecidableEq, Repr

/-- One record of a snapshot (R286). -/
structure SnapRec where
  shard : Nat
  remote : Bool
  lost   : Bool
  poison : Bool
  skipped : Bool
  incomplete : Bool
  step   : Word
  params : Word
  offset : Nat
  bytes  : Nat
deriving DecidableEq, Repr, Inhabited

/-- A SNAPSHOT in progress (R285, R286, R288): shards still to read, the chunk of the first of them, the records made,
poison met, whether the header has been sent, and whether a write was lost with its queue pair (R363). -/
structure SnapWork where
  begun  : Bool
  todo   : List Nat
  chunk  : Nat
  recs   : List SnapRec
  poison : Bool
  header : Bool
  failed : Bool
deriving DecidableEq, Repr, Inhabited

/-- Where one sample of a job stands (R347, R350). -/
inductive SampleState where
  | reading | read | written | corrupt (cause : BitVec 4)
deriving DecidableEq, Repr, Inhabited

/-- One entry of a sample job: its words (R345), where its bytes lie in BS_BUF, how many have arrived, its state, the engine
that decodes it and the tick it was assigned, whether it moved (R357), whether its audio was padded, and the output of a
reserve sample that waits for the close. -/
structure Sample where
  words   : Tab Word 16
  at'     : Nat
  arrived : Nat
  state   : SampleState
  engine  : Option (Fin 4)
  since   : DWord
  last    : Fin 4
  moved   : Bool
  short   : Bool
  output  : List (Byte × Bool)
deriving DecidableEq, Repr

/-- A SAMPLE_JOB in progress (R343 to R356): the layout record, its samples, the reserve rings' HEAD and TAIL read at START by
class, and whether a poison mark was met. -/
structure SampleWork where
  begun   : Bool
  layout  : Tab Word 64
  samples : List Sample
  heads   : List (Nat × Word × Word)
  poison  : Bool
deriving DecidableEq, Repr

/-- An ENCODE in progress (R359 to R362): its record, its engine, the next frame and the tick it began, the place in the
bitstream, rate control, the frames at which key requests took effect, and what the engine keeps of the last picture. -/
structure EncodeWork where
  begun    : Bool
  record   : Tab Word 32
  engine   : Fin 4
  frame    : Nat
  pos      : Nat
  fill     : Nat
  bitsPrev : Nat
  lastKey  : Option (Nat × Nat)
  lastInter : Option (Nat × Nat)
  keys     : Nat
  capMiss  : Nat
  keyAt    : List Nat
  recon    : Nat
  since    : DWord
  poison   : Bool
deriving DecidableEq, Repr

/-- An element of a collective op: its number, its value, and whether its bytes were marked. -/
structure CElem where
  elem : Nat
  val  : Word
  bad  : Bool
deriving DecidableEq, Repr, Inhabited

/-- A collective command in progress (R311 to R318): whether its wait began, its arrival was sent and START was reached; the
op that runs and the tick it began; the op's input, widened to FP32, the FP32 sums of its owned chunk, the partials that a
chain's owner holds (from the minus side or not), how many elements it has received, the shards it has landed in; the
non-finite bit and whether a marked element was written. -/
structure CollWork where
  waitBegun : Bool
  sent      : Bool
  reached   : Bool
  op        : Nat
  opRunning : Bool
  since     : DWord
  input     : List CElem
  reduced   : List CElem
  partials  : List (Bool × CElem)
  handled   : Nat
  landed    : List Nat
  nf        : Bool
  poison    : Bool
deriving DecidableEq, Repr, Inhabited

/-- Where a transfer stands (R81, R184): issued; started, its reads in flight; moved, its reads back and its writes issued. -/
inductive ReqStage where
  | issued | started | moved
deriving DecidableEq, Repr, Inhabited

/-- What a started command is doing; `copy`: where a COPY's transfer stands, and whether it met a mark. -/
inductive Work where
  | none
  | run (w : RunWork)
  | update (w : UpdateWork)
  | snapshot (w : SnapWork)
  | sample (w : SampleWork)
  | encode (w : EncodeWork)
  | collective (r : RunWork) (w : CollWork)
  | copy (stage : ReqStage) (poison : Bool)
deriving DecidableEq, Repr

/-- A command on a ring (R64 to R70): its ring position, its descriptor, its stage, the tick at which it was admitted,
its promise, its plains, whether its WAIT has begun, what it is doing, and the fields of its completion record. -/
structure Cmd where
  index     : BitVec 16
  words     : Tab Word 16
  stage     : Stage
  admTick   : DWord
  promise   : BitVec 24
  plains    : List (Fin 64)
  waited    : Bool
  held      : Bool
  r64Tick   : DWord
  startTick : DWord
  doneTick  : DWord
  status    : Status
  lastDesc  : BitVec 9
  info      : BitVec 16
  aux       : Word
  work      : Work
deriving DecidableEq, Repr

/-- A ring (R62 to R66, R87): its registers, its free-running counts of records written and consumed, its phase, the
commands fetched and not yet recorded, and the shortfall slots whose record the host has not consumed (R77). -/
structure Ring where
  sqBaseLo  : Word
  sqBaseHi  : Word
  cqBaseLo  : Word
  cqBaseHi  : Word
  cfg       : Word
  sqHead    : BitVec 16
  sqTail    : BitVec 16
  written   : Nat
  consumed  : Nat
  phase     : Bool
  cmds      : List Cmd
  shortUsed : List (BitVec 16 × Nat)
deriving DecidableEq, Repr

/-! ### Partitions -/

/-- The partition states of R60. -/
inductive PState where
  | empty | idle | loaded | resetting
deriving DecidableEq, Repr, Inhabited

/-- An addition on its way to a counter (R213, R216): the plain and the thread that issued it, where one did, and its amount. -/
structure CtrAdd where
  plain  : Option (Fin 64)
  thread : Option (Fin 64)
  amt    : Int
deriving DecidableEq, Repr

/-- A placed SYN counter (R211 to R213): its number, its home, its value, its sticky flags, its declared wait class, and
the additions that are not yet applied. -/
structure Counter where
  num   : BitVec 12
  home  : Fin 64
  value : BitVec 16
  satHi : Bool
  satLo : Bool
  cls   : IdleCause
  adds  : List CtrAdd
deriving DecidableEq, Repr

/-- Who asked for a device-memory request that a regulator holds (R238, R243). -/
inductive MemOwner where
  | request (i : Fin 64) (id : Nat)
  | command (r : RingId)
  | glen (c : Fin 24)
  | host
deriving DecidableEq, Repr

/-- A device-memory request at a regulator (R235, R236): its owner, its address, its bytes and its direction. -/
structure MemReq where
  owner : MemOwner
  addr  : Nat
  bytes : Nat
  write : Bool
deriving DecidableEq, Repr

/-- A bandwidth regulator (R238 to R240): its configuration, its tokens in eighths of a byte, the charges it passed, its
hold count and its queue. -/
structure Regulator where
  cfg    : Word
  tokens : Nat
  charge : DWord
  wait   : Word
  queue  : List MemReq
deriving DecidableEq, Repr

/-- A shard table entry in the glen store (R257): its 64 words, held as the table lays them out. -/
abbrev Shard := Tab Word 64

/-- The accounting counters of one partition (R85). -/
structure Acct where
  engineNs  : Tab DWord 8
  daleRd    : DWord
  daleWr    : DWord
  basinRd   : DWord
  basinWr   : DWord
  hostRd    : DWord
  hostWr    : DWord
  colSent   : DWord
  colRecv   : DWord
  ethRecv   : DWord
  energyMj  : DWord
  completed : DWord
  refused   : DWord
  runCycles : DWord
deriving DecidableEq, Repr

/-- One partition (R57 to R61, R80 to R87 and the partition instances of the other chapters). -/
structure Part where
  state     : PState
  imageId   : BitVec 16
  image     : Option Image
  use       : List (Fin 64)
  bars      : List (Fin 32)
  fills     : List FillUnit
  lost      : Bool
  rings     : Tab Ring 4
  shortLo   : Word
  shortHi   : Word
  drop      : Word
  quota     : Word
  vfGen     : Word
  acct      : Acct
  counters  : List Counter
  ctrQ      : Nat
  ctrSel    : BitVec 12
  synStat   : Word
  ctrWdog   : Word
  dale      : Regulator
  basin     : Regulator
  glnQuota  : BitVec 17
  tblLo     : Word
  tblHi     : Word
  tblCount  : BitVec 17
  rank      : BitVec 24
  nf        : BitVec 2
  seed      : DWord
  glnStat   : Word
  repair    : Word
  land      : Word
  shards    : List Shard
  abort     : Word
  aborted   : List (BitVec 24 × AbortCause)
  share     : Word
  keyReq    : BitVec 4
  corrupt   : Word
deriving DecidableEq, Repr

/-! ### Plains -/

/-- The states of TIL_STATE (R130). -/
inductive PlainState where
  | fenced | stopped | idle | busy | waking | bist
deriving DecidableEq, Repr, Inhabited

/-- Why a thread does not issue (R118, R217): it has no reason, or it waits for a load, a vector load, a counter, a barrier release,
a free DMA place, or an arrival held for the next generation (R222). -/
inductive Stall where
  | none
  | load (isF : Bool) (rd : Fin 32) (addr : Nat) (size : Nat) (signed : Bool)
  | vload
  | synWait
  | barSync (s : Fin 32)
  | barHeld (s : Fin 32)
  | dmaFull (words : Tab Word 16) (pc : DWord)
deriving DecidableEq, Repr

/-- A hardware thread (R116 to R121, R181, R215): the command that started it, its registers, its CSRs, its ports, and why it
waits. -/
structure Thread where
  live     : Bool
  job      : Option (RingId × BitVec 16)
  pc       : DWord
  x        : Tab DWord 32
  f        : Tab Word 32
  v        : Tab (BitVec 1024) 32
  fcsr     : Byte
  vl       : Nat
  vtype    : DWord
  vstart   : Nat
  vfield   : Nat
  vxrm     : BitVec 2
  vxsat    : Bool
  tsrctl   : BitVec 2
  stall    : Stall
  slot     : Tab Word 16
  readSel  : BitVec 12
  remoteCol : BitVec 4
deriving DecidableEq, Repr

/-- A DMA request in flight (R181 to R186): its number, its thread, the command that started the thread, the pc of the issuing
store, its words, the stream block that it named as it stood at issue (R189), what its check read at its start (R183): the directory
entry, the page-list entries by number, the staging header and whether that was poisoned (R186); the stream-1 counter before its first
draw (R210), its stage, its page commits still to be made (directory entry address and value, R194), the parameters of a gather still to
come (R320), and the tick at which it started. -/
structure DmaReq where
  id      : Nat
  thread  : Fin 64
  job     : Option (RingId × BitVec 16)
  pc      : DWord
  words   : Tab Word 16
  block   : Tab Word 16
  dir     : Tab Word 4
  list    : List (Nat × Word)
  head    : Tab Word 16
  headBad : Bool
  draw    : DWord
  stage   : ReqStage
  commits : List (Nat × Word)
  toCome  : Nat
  since   : DWord
deriving DecidableEq, Repr

/-- An accumulator half (R92, R138): its FP32 values by row × 512 + column, the C address and the height of the tile it
holds, the entry that the tile belongs to, whether it accumulates, is kept, or drains, and the format and pitch of the tile at c
that a tensor scale leaves for its drain to add (R96). -/
inductive HalfState where
  | free | filling | kept | draining
deriving DecidableEq, Repr, Inhabited

/-- `out`: the bytes that its drain has converted and not yet written, with their SRAM addresses (R138). -/
structure AccHalf where
  vals   : Sparse Word
  out    : List (Nat × List Byte)
  state  : HalfState
  cAddr  : Int
  rows   : Nat
  entry  : Nat
  bands  : Nat
  cIn    : Option (Nat × Nat)
deriving DecidableEq, Repr, Inhabited

/-- A weight block as the array holds it (R89, R139): the bytes of its stored rows, and of its scale rows. -/
structure Block where
  rows   : List (List Byte)
  scales : List (List Byte)
deriving DecidableEq, Repr, Inhabited

/-- The sequencer of a plain (R131 to R143, R154): the entries of the command still to run, those it has completed, the entry that runs, the step it has
reached, its flags and counts, the tick from which its wait's cycles are not yet counted (R221), the half of the last tile started (none
before the first of a command), whether it must stop after the entry (R119, R127, R205), and its clock in plain cycles since the
command began on it, with the cycles at which its halves have drained and the length of the last step when the next entry's first
weight load runs under it (R145, R147). -/
structure Seq where
  list     : List Nat
  cur      : Option Nat
  finishing : List Nat
  done     : List Nat
  lastDone : BitVec 9
  waiting  : Bool
  waitFrom : DWord
  first    : BitVec 9
  last     : BitVec 9
  step     : DWord
  busy     : DWord
  half     : Option (Fin 2)
  held     : Block
  poison   : Bool
  poisonAt : List Nat
  halt     : Bool
  clock    : Nat
  drained  : Nat × Nat
  hide     : Nat
deriving DecidableEq, Repr

/-- One plain (R88 to R155). `coreBad`: a parity error stands in its descriptor table, sequencer state, instruction cache
or register files (R385). -/
structure Plain where
  state     : PlainState
  lastOwner : Option (Fin 64)
  job       : Option (RingId × BitVec 16)
  ctrl      : Word
  seed      : DWord
  ctrs      : Tab DWord 66
  srSel     : BitVec 7
  nf        : BitVec 5
  thrFault  : Word
  faultPc   : DWord
  parCnt    : BitVec 16
  parLast   : Word
  table     : Sparse Word
  dynFirst  : BitVec 9
  dynCount  : BitVec 9
  dtSel     : BitVec 8
  seq       : Seq
  acc       : Tab AccHalf 2
  rowBuf    : Sparse Word
  sram      : Memory
  parity    : Sparse DWord
  icache    : Memory
  threads   : Tab Thread 64
  rrScalar  : Fin 64
  rrVector  : Fin 64
  reqs      : List DmaReq
  nextReq   : Nat
  scrubLine : Nat
  coreBad   : Bool
  idle      : Tab DWord 8
deriving DecidableEq, Repr

/-! ### Synchronisation -/

/-- A wait on a counter in progress (R214, R225); `met`: the counter has held the wait value since the wait began, and the release is on
its way. -/
structure Wait where
  part  : Fin 64
  who   : Waiter
  ctr   : BitVec 12
  val   : BitVec 16
  since : DWord
  met   : Bool
deriving DecidableEq, Repr

/-- The states of a barrier slot (R231). -/
inductive BarState where
  | idle | active | failed
deriving DecidableEq, Repr, Inhabited

/-- A thread's arrival at a slot (R222): the plain, the thread, whether it waits for the release, the pc of the store that issued it, and
the command that started the thread: none once the thread has stopped or ended, for its arrival then stalls nobody. -/
structure Arrival where
  plain  : Fin 64
  thread : Fin 64
  sync   : Bool
  pc     : DWord
  job    : Option (RingId × BitVec 16)
deriving DecidableEq, Repr

/-- A barrier slot (R222 to R231): its registers, its state, the arrivals counted per plain in this generation, the
threads stalled for the release, the arrivals held for the next generation, the arrivals on their way to the hub, the
tick of the generation's first arrival, and whether its module's arrival was sent into the group. -/
structure Barrier where
  maskLo   : Word
  maskHi   : Word
  cfg      : Word
  group    : BitVec 24
  members  : BitVec 24
  wdog     : Word
  state    : BarState
  gen      : BitVec 16
  counts   : Tab (BitVec 7) 64
  stalled  : List Arrival
  held     : List Arrival
  flying   : List Arrival
  first    : DWord
  sent     : Bool
deriving DecidableEq, Repr

/-! ### Device memory units -/

/-- The states of a dale stack (R254). -/
inductive StackState where
  | full | throttled | tripped
deriving DecidableEq, Repr, Inhabited

/-- A dale stack and its controller (R244 to R247, R254, R372). -/
structure Stack where
  temp   : Byte
  slots  : Byte
  state  : StackState
  tmax   : Byte
  thrCyc : DWord
  armed  : Bool
  scrub  : Nat
deriving DecidableEq, Repr

/-- A basin channel and its controller (R248, R372). -/
structure Channel where
  mr4     : Byte
  tripped : Bool
  scrub   : Nat
deriving DecidableEq, Repr

/-- The states of a glen (R291). -/
inductive GlenState where
  | idle | busy | stopping
deriving DecidableEq, Repr, Inhabited

/-- A glen (R269, R291). -/
structure Glen where
  state : GlenState
  part  : Option (Fin 64)
  shard : BitVec 16
  cyc   : DWord
deriving DecidableEq, Repr

/-! ### Cols -/

/-- The states of a col (R331). -/
inductive ColState where
  | down | training | ready | active
deriving DecidableEq, Repr, Inhabited

/-- A col and its retry layer (R292 to R297, R299, R331): the number of the next flit sent and expected, the payloads that wait for a
place in the replay buffer or for the end of a fast retrain (with the sender's bank bit and partition), the flits sent
and not acknowledged, the flits that wait in its input buffer, the ticks of recent replays, and whether a replay has been
asked for and not yet begun. -/
structure Col where
  state   : ColState
  lanes   : Byte
  bank    : Bool
  disable : Bool
  fast    : Bool
  replays : Word
  drops   : Word
  txSeq   : Nat
  rxSeq   : Nat
  txWait  : List (Bool × Fin 64 × Payload)
  unacked : List Flit
  rxWait  : List Flit
  recent  : List DWord
  asked   : Bool
deriving DecidableEq, Repr

/-- One configuration bank of an axis (R298 to R301, R331). -/
structure Bank where
  mode : Word
  len  : BitVec 24
  pos  : BitVec 24
deriving DecidableEq, Repr

/-- A torus axis (R298, R299, R331); `hurt`: a col that its active bank named went DOWN (R296). -/
structure Axis where
  active : Fin 2
  arm    : Bool
  hurt   : Bool
  slot   : Fin 32
  banks  : Tab Bank 2
deriving DecidableEq, Repr

/-- Who joined a group reduction (R305). -/
inductive GroupJoin where
  | slot (s : Fin 32)
  | command (r : RingId) (index : BitVec 16)
  | nfSync (r : RingId) (index : BitVec 16)
deriving DecidableEq, Repr

/-- A group reduction in progress on this module (R305): the axes still to run, the running value, what has come in on
the present axis from either side by hop, the messages of it that are for a later axis, and the result once it is known. -/
structure GroupRun where
  part    : Fin 64
  group   : BitVec 24
  gen     : Nat
  join    : GroupJoin
  members : Nat
  axes    : List (Fin 4)
  isOr    : Bool
  value   : Nat
  gotPlus  : List Nat
  gotMinus : List Nat
  ahead    : List GroupMsg
  result  : Option Nat
deriving DecidableEq, Repr

/-! ### Ingest and media -/

/-- A queue pair's state (R334, R336). -/
inductive QpState where
  | reset | rts | error
deriving DecidableEq, Repr, Inhabited

/-- A read or write request on a queue pair (R336, R363): what it serves, where it lies from the target's base or the
sample's source address, its bytes that have arrived, the data of a write, and whether it has been issued. -/
structure NetReq where
  psn     : BitVec 24
  packets : Nat
  ring    : RingId
  sample  : Option Nat
  offset  : Nat
  remote  : Nat
  bytes   : Nat
  got     : Nat
  write   : Bool
  data    : List Byte
  issued  : Bool
  since   : DWord
deriving DecidableEq, Repr

/-- A target entry and its queue pair (R334, R336, R338). The rate is in GB/s, exactly. -/
structure Target where
  words   : Tab Word 16
  qp      : QpState
  nextPsn : BitVec 24
  reqs    : List NetReq
  retries : Nat
  rate    : Rat
  lastCnpRx : Option DWord
  lastCnpTx : Option DWord
  paceAt  : DWord
deriving DecidableEq, Repr

/-- An Ethernet port (R332 to R337, R367): its record, its status, its counters, the bytes held in its receive buffer
by priority, the priorities it has sent XOFF for and those that a peer has paused. -/
structure Port where
  words    : Tab Word 16
  link     : Bool
  fecLock  : Bool
  cause    : BitVec 4
  fecCorr  : Word
  fecUncorr : Word
  stranger : Word
  held     : Tab Nat 8
  xoff     : Byte
  paused   : Byte
deriving DecidableEq, Repr

/-- The states of a media engine (R367). -/
inductive EngineState where
  | off | ready | busy | failed | bist
deriving DecidableEq, Repr, Inhabited

/-- A media engine (R341, R357, R367): its state, and how many samples and ENCODEs are assigned to it. -/
structure Engine where
  state   : EngineState
  streams : Nat
deriving DecidableEq, Repr

/-! ### Protection and recovery -/

/-- An event record (R379). -/
structure Event where
  source : BitVec 7
  test   : Bool
  part   : Byte
  rep    : BitVec 16
  epoch  : BitVec 16
  unit   : BitVec 16
  time   : DWord
  arg0   : Word
  arg1   : Word
  arg2   : Word
  seq    : Word
deriving DecidableEq, Repr

/-- The events dropped since the last OVERFLOW record (R382): the first one's time and epoch, how many, and their
sources. -/
structure Dropped where
  time    : DWord
  epoch   : BitVec 16
  count   : Nat
  sources : List (BitVec 7)
deriving DecidableEq, Repr

/-- The protection block (R372 to R384, R396). `trips` are the trip records written, by source and TIME; `inForce` the entry records
whose condition still holds, by source and unit (R384). -/
structure Ras where
  evBaseLo : Word
  evBaseHi : Word
  evCfg    : Word
  prod     : BitVec 16
  cons     : BitVec 16
  dropped  : Bool
  staging  : List Event
  seq      : Word
  writing  : Option Event
  slots    : List Event
  drops    : Tab (BitVec 16) 128
  lost     : Option Dropped
  scrubCfg : Tab Word 3
  scrubPass : Tab Word 3
  eccDale  : BitVec 16
  eccBasin : BitVec 16
  flipLo   : Word
  flipHi   : Word
  flipCfg  : Word
  flipBusy : Bool
  flipMiss : Bool
  tests    : List (Nat × Nat)
  trips    : List (BitVec 7 × DWord)
  inForce  : List (Nat × Nat)
deriving DecidableEq, Repr

/-- The supervisor's states (R396). -/
inductive SupState where
  | ready | fencing | failed
deriving DecidableEq, Repr, Inhabited

/-- A module fence in progress (R389 to R391): its cause, its hart, when it was decided, the plains halted at
FENCE_WAIT, and whether FENCE_WAIT has passed. -/
structure Fence where
  cause  : BitVec 4
  hart   : BitVec 16
  tick   : DWord
  halted : DWord
  waited : Bool
deriving DecidableEq, Repr

/-- The control complex and the recovery supervisor (R152, R389 to R392). `staging` holds the dynamic entries of
admitted tiled commands that have not started. -/
structure Staged where
  ring    : RingId
  index   : BitVec 16
  entries : List (Fin 64 × Nat × Tab Word 64)
deriving DecidableEq, Repr

structure Ccx where
  sup       : SupState
  lastCause : BitVec 4
  epoch     : BitVec 16
  fenceWait : Word
  fence     : Option Fence
  beats     : Tab DWord 4
  harts     : Bool
  staging   : List Staged
deriving DecidableEq, Repr

/-! ### Host interface -/

/-- A journal entry (R53). -/
structure JEntry where
  seq      : Word
  off      : Word
  written  : Word
  result   : Word
  time     : DWord
  writer   : Byte
  be       : BitVec 4
  conflict : Bool
  ignored  : Bool
  pair     : Bool
  lost     : BitVec 16
deriving DecidableEq, Repr

/-- The entry written to the journal ring last, with the index, the phase and the final word of its place before it: what R54
needs to abandon it. -/
structure JSlot where
  entry : JEntry
  prod  : BitVec 16
  phase : Bool
  old   : Word
deriving DecidableEq, Repr

/-- The host interface (R45, R53 to R57, R87, R249): the journal, the physical function's rings, how many virtual functions are
enabled, the BAR4 base and window, and every writer's staged low words and readers' shadows of high words, by register offset. -/
structure Hif where
  jBaseLo : Word
  jBaseHi : Word
  jCfg    : Word
  jProd   : BitVec 16
  jCons   : BitVec 16
  jPhase  : Bool
  jLost   : Bool
  jOvf    : Bool
  jLostCnt : Word
  jSeq    : Word
  jGap    : Nat
  jLast   : Option JSlot
  staging : List JEntry
  rings   : Tab Ring 4
  vfs     : Nat
  bar4Lo  : Word
  bar4Hi  : Word
  bar4Log : Nat
  staged  : List (Writer × Nat × Word)
  shadow  : List (Writer × Nat × Word)
deriving DecidableEq, Repr

/-! ### Power, clocks and pins -/

/-- The states of a clock domain (R418). -/
inductive DomState where
  | pllOff | gated | running | held
deriving DecidableEq, Repr, Inhabited

/-- A clock domain (R25, R406, R418); `starting`: something demands its clock, which is on its way (R41, R406). -/
structure Dom where
  state : DomState
  mhz   : BitVec 12
  starting : Bool
deriving DecidableEq, Repr

/-- A supply condition's sample counts (R400): consecutive samples below its threshold, and at or above the leaving
level. -/
structure Sag where
  below : Nat
  above : Nat
  inForce : Bool
deriving DecidableEq, Repr

/-- The start-up steps of PWR_BOOT_STAT (R411, R418), in order. -/
structure Boot where
  step   : BitVec 3
  fwOk   : Bool
  filled : Bool
  fail   : Bool
  unit   : BitVec 5
  basin  : Bool
deriving DecidableEq, Repr

/-- The instruction that the JTAG TAP holds (R417). -/
inductive Jtag where
  | bypass | idcode | samplePreload | extest | extestPulse | extestTrain | dbgRead
deriving DecidableEq, Repr, Inhabited

/-- Power, clocks, reset and pins (R397 to R418). `aon` counts always-on ticks. -/
structure Pwr where
  aon      : DWord
  pps      : DWord
  standby  : Bool
  main     : Bool
  perst    : Bool
  link     : Bool
  vin      : BitVec 16
  v12      : BitVec 16
  watts    : BitVec 16
  nvw      : Sag
  capSag   : Sag
  shut     : Sag
  capped   : Bool
  throttle : Bool
  leak     : Bool
  boot     : Boot
  rstPend  : Bool
  strap    : BitVec 4
  doms     : Tab Dom 100
  heatMhz  : Tab Nat 4
  powerMhz : Nat
  powerDown : Bool
  dieTemp  : Tab Byte 4
  pinmux   : Word
  gpioOut  : Byte
  gpioIn   : Byte
  winOld   : Tab (BitVec 4) 8
  winBusy  : Byte
  pulses   : BitVec 16
  flow     : BitVec 16
  alertN   : Bool
  jtag     : Jtag
deriving DecidableEq, Repr

/-! ### Metering -/

/-- A metering record (R424), without its MAC words, which R424 computes. -/
structure MRec where
  kind     : BitVec 8
  part     : BitVec 8
  gap    : Bool
  held   : Bool
  sag    : Bool
  scaled : Bool
  seq      : DWord
  boot     : Word
  paramVer : Word
  tEnd     : DWord
  tStart   : DWord
  aon      : DWord
  eInt     : DWord
  eTotal   : DWord
  rails    : Tab Word 8
deriving DecidableEq, Repr

/-- The metering block (R419 to R430): energy counts in units of 2^-30 µW for one sample time so that each sample is exact, the interval,
the counts of the previous frame, its queue, log and audit region, and its parameters (those of the next interval
apart). -/
structure Mtr where
  on       : Bool
  energy   : Tab Int 10
  ticks    : DWord
  tStart   : DWord
  prev     : Tab (Tab DWord 6) 64
  awaiting : Bool
  held     : Bool
  sagSeen  : Bool
  nvw      : Bool
  pending  : List MRec
  writing  : Bool
  log      : List MRec
  audit    : List MRec
  auditFull : Bool
  seq      : DWord
  boot     : Word
  paramVer : Word
  eTotal   : Tab DWord 64
  eLogged  : Tab DWord 64
  gain     : Tab Word 10
  offset   : Tab Word 10
  trim     : Word
  next     : List (BitVec 16 × Word)
  calEn    : Bool
deriving DecidableEq, Repr

/-! ### What leaves the module -/

/-- What a bus master or a port reader gets back (R41, R46, R48, R371, R416, R417, R427). -/
inductive Reply where
  | words (w : List Word)
  | bytes (b : List Byte)
  | poisoned
  | unsupported
  | abort
  | nack
  | records (r : List (List Word))
deriving DecidableEq, Repr

/-- What the KT9 transmits on an Ethernet port (R333, R337, R338). -/
inductive NetTx where
  | arpReply (n : Fin 2)
  | pfc (n : Fin 2) (prio : Fin 8) (xoff : Bool)
  | cnp (tgt : Fin 256)
  | read (tgt : Fin 256) (psn : BitVec 24) (off : Nat) (bytes : Nat)
  | write (tgt : Fin 256) (psn : BitVec 24) (off : Nat) (data : List Byte)
deriving DecidableEq, Repr

/-- The module's outward interfaces, newest first: the model's own record of what left the module. `naks` are the replay
requests sent on cols, with the number of the first flit not received (R294). -/
structure Out where
  replies : List Reply
  irqs    : List (Fn × BitVec 5)
  cols    : List (Fin 16 × Flit)
  naks    : List (Fin 16 × Nat)
  net     : List NetTx
deriving DecidableEq, Repr

/-- The KT9. -/
structure Dev where
  free     : Nat
  images   : List ImageAt
  out      : Out
  hostMem  : Memory
  hif      : Hif
  plainMap : Tab Byte 64
  barMap   : Tab Byte 32
  daleMap  : Tab Byte 576
  basinMap : Tab Byte 384
  daleLast : Sparse Byte
  basinLast : Sparse Byte
  acctLo   : Word
  acctHi   : Word
  acctBusy : Bool
  parts    : Tab Part 64
  plains   : Tab Plain 64
  waits    : List Wait
  bars     : Tab Barrier 32
  mem      : Memory
  ecc      : Sparse (BitVec 72)
  warnC    : Byte
  trip     : Word
  daleStacks   : Tab Stack 12
  channels : Tab Channel 24
  glens    : Tab Glen 24
  cols     : Tab Col 16
  axes     : Tab Axis 4
  early    : List GroupMsg
  pendFull : Bool
  groups   : List GroupRun
  groupGen : List (Fin 64 × BitVec 24 × Nat)
  tgtSel   : BitVec 9
  targets  : Tab Target 256
  ports    : Tab Port 2
  engines  : Tab Engine 4
  ras      : Ras
  ccx      : Ccx
  pwr      : Pwr
  mtr      : Mtr
deriving DecidableEq, Repr

/-- The block: the KT9 and the commands that wait, first in, first out. -/
structure State where
  dev     : Dev
  pending : List Instr
deriving DecidableEq, Repr

/-! ### Reset. The values are the spec's reset columns; where the spec gives none the value is a log entry's. -/

/-- A ring at reset (R87): SIZE_LOG2 is 6, everything else 0. -/
def Ring.reset : Ring :=
  { sqBaseLo := 0, sqBaseHi := 0, cqBaseLo := 0, cqBaseHi := 0, cfg := 0x600, sqHead := 0, sqTail := 0,
    written := 0, consumed := 0, phase := true, cmds := [], shortUsed := [] }

/-- A regulator at reset (R254): BURST 4 KiB, a full bucket. -/
def Regulator.reset : Regulator :=
  { cfg := 0x00040000, tokens := 32768, charge := 0, wait := 0, queue := [] }

/-- Accounting counters at module reset (R85). -/
def Acct.reset : Acct :=
  { engineNs := Tab.all 8 0, daleRd := 0, daleWr := 0, basinRd := 0, basinWr := 0, hostRd := 0, hostWr := 0,
    colSent := 0, colRecv := 0, ethRecv := 0, energyMj := 0, completed := 0, refused := 0, runCycles := 0 }

/-- A partition at reset: EMPTY, with its registers at the values of R87, R231, R254, R291, R331 and R367. -/
def Part.reset : Part :=
  { state := .empty, imageId := 0, image := none, use := [], bars := [], fills := [], lost := false,
    rings := Tab.all 4 Ring.reset, shortLo := 0, shortHi := 0, drop := 0, quota := 0, vfGen := 0,
    acct := Acct.reset, counters := [], ctrQ := 0, ctrSel := 0, synStat := 0, ctrWdog := 0x0249F000,
    dale := Regulator.reset, basin := Regulator.reset, glnQuota := 0, tblLo := 0, tblHi := 0, tblCount := 0,
    rank := 0, nf := 0, seed := 0, glnStat := 0, repair := 0, land := 0, shards := [], abort := 0, aborted := [],
    share := 0, keyReq := 0, corrupt := 0 }

/-- A thread that does not exist (R119): the spec gives its registers no value before it starts. -/
def Thread.reset : Thread :=
  { live := false, job := none, pc := 0, x := Tab.all 32 0, f := Tab.all 32 0, v := Tab.all 32 0, fcsr := 0, vl := 0,
    vtype := 0x8000000000000000, vstart := 0, vfield := 0, vxrm := 0, vxsat := false, tsrctl := 0, stall := .none,
    slot := Tab.all 16 0, readSel := 0, remoteCol := 0 }

/-- An accumulator half that holds nothing (R92). -/
def AccHalf.reset : AccHalf :=
  { vals := [], out := [], state := .free, cAddr := 0, rows := 0, entry := 0, bands := 0, cIn := none }

/-- A sequencer with nothing to run (R154). -/
def Seq.reset : Seq :=
  { list := [], cur := none, finishing := [], done := [], lastDone := 0x1FF, waiting := false, waitFrom := 0, first := 0x1FF, last := 0x1FF,
    step := 0, busy := 0, half := none, held := { rows := [], scales := [] }, poison := false, poisonAt := [],
    halt := false, clock := 0, drained := (0, 0), hide := 0 }

/-- A plain at reset (R130, R154): its clock stopped, unowned. -/
def Plain.reset : Plain :=
  { state := .stopped, lastOwner := none, job := none, ctrl := 0x00010001, seed := 0,
    ctrs := Tab.all 66 0, srSel := 0, nf := 0, thrFault := 0, faultPc := 0, parCnt := 0, parLast := 0, table := [],
    dynFirst := 0x100, dynCount := 0, dtSel := 0, seq := Seq.reset, acc := Tab.all 2 AccHalf.reset, rowBuf := [],
    sram := [], parity := [], icache := [], threads := Tab.all 64 Thread.reset, rrScalar := 63, rrVector := 63,
    reqs := [], nextReq := 0, scrubLine := 0, coreBad := false, idle := Tab.all 8 0 }

/-- A barrier slot at reset (R231). -/
def Barrier.reset : Barrier :=
  { maskLo := 0, maskHi := 0, cfg := 1, group := 0, members := 0, wdog := 0x0249F000, state := .idle, gen := 0,
    counts := Tab.all 64 0, stalled := [], held := [], flying := [], first := 0, sent := false }

/-- A dale stack at reset (R254). -/
def Stack.reset : Stack :=
  { temp := 0, slots := 200, state := .full, tmax := 0, thrCyc := 0, armed := true, scrub := 0 }

/-- A col at reset (R331): DOWN. -/
def Col.reset : Col :=
  { state := .down, lanes := 0, bank := false, disable := false, fast := false, replays := 0, drops := 0,
    txSeq := 0, rxSeq := 0, txWait := [], unacked := [], rxWait := [], recent := [], asked := false }

/-- An axis bank at reset (R331): OFF, bound to no partition, length 1. -/
def Bank.reset : Bank := { mode := 0xFF00, len := 1, pos := 0 }

/-- A target entry at reset (R334, R338). -/
def Target.reset : Target :=
  { words := Tab.all 16 0, qp := .reset, nextPsn := 0, reqs := [], retries := 0, rate := 50, lastCnpRx := none,
    lastCnpTx := none, paceAt := 0 }

/-- An Ethernet port at reset (R367). -/
def Port.reset : Port :=
  { words := Tab.all 16 0, link := false, fecLock := false, cause := 0, fecCorr := 0, fecUncorr := 0, stranger := 0,
    held := Tab.all 8 0, xoff := 0, paused := 0 }

/-- The protection block at reset (R380, R396). -/
def Ras.reset : Ras :=
  { evBaseLo := 0, evBaseHi := 0, evCfg := 0x60, prod := 0, cons := 0, dropped := false, staging := [], seq := 1,
    writing := none, slots := [], drops := Tab.all 128 0, lost := none,
    scrubCfg := ⟨#[0x00010001, 0x00004001, 0x00004001], rfl⟩, scrubPass := Tab.all 3 0, eccDale := 0, eccBasin := 0,
    flipLo := 0, flipHi := 0, flipCfg := 0x00010000, flipBusy := false, flipMiss := false, 
    tests := [], trips := [], inForce := [] }

/-- The control complex at reset (R394, R396): epoch 0, the harts not released (R411). -/
def Ccx.reset : Ccx :=
  { sup := .ready, lastCause := 0, epoch := 0, fenceWait := 192000, fence := none, beats := Tab.all 4 0,
    harts := false, staging := [] }

/-- The host interface at reset (R53, R56, R249). -/
def Hif.reset : Hif :=
  { jBaseLo := 0, jBaseHi := 0, jCfg := 0x60, jProd := 0, jCons := 0, jPhase := true, jLost := false, jOvf := false,
    jLostCnt := 0, jSeq := 0, jGap := 0, jLast := none, staging := [], rings := Tab.all 4 Ring.reset, vfs := 0, bar4Lo := 0, bar4Hi := 0,
    bar4Log := 36, staged := [], shadow := [] }

/-- A supply condition not in force (R400). -/
def Sag.reset : Sag := { below := 0, above := 0, inForce := false }

/-- Start-up not begun (R418). -/
def Boot.reset : Boot := { step := 0, fwOk := false, filled := false, fail := false, unit := 0, basin := false }

/-- Power, clocks and pins at standby power-on (R411, R418): the tick counter 0, straps low (R399). -/
def Pwr.reset : Pwr :=
  { aon := 0, pps := 0, standby := true, main := false, perst := true, link := false, vin := 0, v12 := 12000,
    watts := 0, nvw := Sag.reset, capSag := Sag.reset, shut := Sag.reset, capped := false, throttle := true,
    leak := false, boot := Boot.reset, rstPend := false, strap := 0, doms := Tab.all 100 { state := .pllOff, mhz := 0, starting := false },
    heatMhz := Tab.all 4 1200, powerMhz := 1200, powerDown := false, dieTemp := Tab.all 4 0, pinmux := 0, gpioOut := 0, gpioIn := 0,
    winOld := Tab.all 8 0, winBusy := 0, pulses := 0, flow := 0, alertN := true, jtag := .idcode }

/-- The metering block at its first power-on (R419 to R430): unit gains, zero offsets, an empty log. -/
def Mtr.reset : Mtr :=
  { on := true, energy := Tab.all 10 0, ticks := 0, tStart := 0, prev := Tab.all 64 (Tab.all 6 0), awaiting := false,
    held := false, sagSeen := false, nvw := false, pending := [], writing := false, log := [], audit := [], auditFull := false,
    seq := 0, boot := 0, paramVer := 0, eTotal := Tab.all 64 0, eLogged := Tab.all 64 0, gain := Tab.all 10 0x40000000,
    offset := Tab.all 10 0, trim := 0, next := [], calEn := false }

/-- The KT9 right after reset. -/
def Dev.reset : Dev :=
  { free := 0, images := [], out := { replies := [], irqs := [], cols := [], naks := [], net := [] }, hostMem := [],
    hif := Hif.reset, plainMap := Tab.all 64 0xFF, barMap := Tab.all 32 0xFF, daleMap := Tab.all 576 0xFF,
    basinMap := Tab.all 384 0xFF, daleLast := [], basinLast := [], acctLo := 0, acctHi := 0, acctBusy := false,
    parts := Tab.all 64 Part.reset, plains := Tab.all 64 Plain.reset, waits := [], bars := Tab.all 32 Barrier.reset,
    mem := [], ecc := [], warnC := 80, trip := 0, daleStacks := Tab.all 12 Stack.reset,
    channels := Tab.all 24 { mr4 := 0, tripped := false, scrub := 0 },
    glens := Tab.all 24 { state := .idle, part := none, shard := 0, cyc := 0 },
    cols := Tab.all 16 Col.reset, axes := Tab.all 4 { active := 0, arm := false, hurt := false, slot := 0, banks := Tab.all 2 Bank.reset },
    early := [], pendFull := false, groups := [], groupGen := [], tgtSel := 0, targets := Tab.all 256 Target.reset,
    ports := Tab.all 2 Port.reset, engines := Tab.all 4 { state := .ready, streams := 0 }, ras := Ras.reset,
    ccx := Ccx.reset, pwr := Pwr.reset, mtr := Mtr.reset }

/-- The block right after reset: every register at its reset value, no command waiting. -/
def State.reset : State := { dev := Dev.reset, pending := [] }

end Sys2Proof.Machine
end

