-- ==== Sys2Proof/Machine/Ops.lean ====
section
/-! DEFINITION. The named operations over the module's storage: sparse memories, bit fields, the updates of one unit,
the event log (R379 to R382), the change journal (R52 to R55), device memory with its check bits (R368 to R371), plain
SRAM with its parity (R122 to R124), accounting (R85) and counter additions (R213). -/

namespace Sys2Proof.Machine

open Sys2Proof

/-! ### Sparse storage -/

/-- What address `a` holds, `d` where nothing is listed. -/
def Sparse.get {α : Type} (d : α) : Sparse α → Nat → α
  | [], _ => d
  | (b, v) :: r, a => if a = b then v else if a < b then d else Sparse.get d r a

/-- Store `v` at `a`, keeping the canonical form. -/
def Sparse.set {α : Type} [DecidableEq α] (d : α) : Sparse α → Nat → α → Sparse α
  | [], a, v => if v = d then [] else [(a, v)]
  | (b, w) :: r, a, v =>
    if a = b then (if v = d then r else (a, v) :: r)
    else if a < b then (if v = d then (b, w) :: r else (a, v) :: (b, w) :: r)
    else (b, w) :: Sparse.set d r a v

/-- The canonical form from address `lo` up: addresses strictly rising, no default value listed. -/
def Sparse.wfFrom {α : Type} [DecidableEq α] (d : α) : Nat → Sparse α → Bool
  | _, [] => true
  | lo, (b, v) :: r => decide (lo ≤ b) && decide (v ≠ d) && Sparse.wfFrom d (b + 1) r

def Sparse.wf {α : Type} [DecidableEq α] (d : α) (m : Sparse α) : Bool := Sparse.wfFrom d 0 m

/-- The entries outside [lo, hi), which then read the default. -/
def Sparse.clear {α : Type} (m : Sparse α) (lo hi : Nat) : Sparse α :=
  m.filter (fun c => c.1 < lo || hi ≤ c.1)

/-- The canonical form of a byte memory. -/
def Memory.wf (m : Memory) : Bool := Sparse.wf (0 : Byte) m

def readByte (m : Memory) (a : Nat) : Byte := Sparse.get 0 m a
def writeByte (m : Memory) (a : Nat) (b : Byte) : Memory := Sparse.set 0 m a b

/-- `n` bytes from `a` up. -/
def readBytes (m : Memory) (a n : Nat) : List Byte := (List.range n).map (fun k => readByte m (a + k))

/-- Bytes stored from `a` up. -/
def writeBytes (m : Memory) (a : Nat) : List Byte → Memory
  | [] => m
  | b :: r => writeBytes (writeByte m a b) (a + 1) r

/-! The compiled forms of the two: one walk to the first address, and on from there. -/

theorem Sparse.get_dropWhile {α : Type} (d : α) (m : Sparse α) (lo a : Nat) (h : lo ≤ a) :
    Sparse.get d (m.dropWhile (fun c => decide (c.1 < lo))) a = Sparse.get d m a := by
  induction m with
  | nil => rfl
  | cons c r ih =>
    obtain ⟨b, v⟩ := c
    by_cases hb : b < lo
    · have h1 : a ≠ b := by omega
      have h2 : ¬ a < b := by omega
      simp [List.dropWhile, hb, Sparse.get, h1, h2, ih]
    · simp [List.dropWhile, hb]

/-- The first `n` bytes from `a` up of a memory that is walked once, onto a reversed list. -/
def readRun : Memory → Nat → Nat → List Byte → List Byte
  | _, _, 0, acc => acc.reverse
  | m, a, n + 1, acc =>
    let r := m.dropWhile (fun c => decide (c.1 < a))
    readRun r (a + 1) n (readByte r a :: acc)

theorem readRun_eq (n : Nat) : ∀ (m : Memory) (a : Nat) (acc : List Byte),
    readRun m a n acc = acc.reverse ++ readBytes m a n := by
  induction n with
  | zero => intro m a acc; simp [readRun, readBytes]
  | succ n ih =>
    intro m a acc
    simp only [readRun]
    rw [ih]
    have e : ∀ k, readByte (m.dropWhile (fun c => decide (c.1 < a))) (a + k) = readByte m (a + k) :=
      fun k => Sparse.get_dropWhile 0 m a (a + k) (by omega)
    have e0 := e 0
    simp only [Nat.add_zero] at e0
    simp only [readBytes, List.range_succ_eq_map, List.map_cons, List.map_map, List.reverse_cons, List.append_assoc,
      List.singleton_append, Nat.add_zero, e0]
    congr 2
    apply List.map_congr_left
    intro k _
    have e1 := e (k + 1)
    simp only [Function.comp, Nat.succ_eq_add_one]
    rw [show a + 1 + k = a + (k + 1) by omega, e1]

def readBytesRun (m : Memory) (a n : Nat) : List Byte := readRun m a n []

@[csimp] theorem readBytes_run : @readBytes = @readBytesRun := by
  funext m a n
  simp [readBytesRun, readRun_eq]

theorem writeBytes_cons (b : Nat) (w : Byte) (l : List Byte) :
    ∀ (a : Nat) (r : Memory), b < a → writeBytes ((b, w) :: r) a l = (b, w) :: writeBytes r a l := by
  induction l with
  | nil => intro a r _; rfl
  | cons x l ih =>
    intro a r h
    have h1 : a ≠ b := by omega
    have h2 : ¬ a < b := by omega
    have e : writeByte ((b, w) :: r) a x = (b, w) :: writeByte r a x := by simp [writeByte, Sparse.set, h1, h2]
    simp only [writeBytes]
    rw [e, ih (a + 1) (writeByte r a x) (by omega)]

/-- Bytes stored from `a` up in the part of a memory from `a` on; what stands below is walked once. -/
def writeBytesRun (m : Memory) (a : Nat) (l : List Byte) : Memory :=
  m.takeWhile (fun c => decide (c.1 < a)) ++ writeBytes (m.dropWhile (fun c => decide (c.1 < a))) a l

@[csimp] theorem writeBytes_run : @writeBytes = @writeBytesRun := by
  funext m a l
  induction m with
  | nil => simp [writeBytesRun]
  | cons c r ih =>
    obtain ⟨b, w⟩ := c
    by_cases h : b < a
    · rw [writeBytes_cons b w l a r h, ih]
      simp [writeBytesRun, List.takeWhile, List.dropWhile, h]
    · simp [writeBytesRun, List.takeWhile, List.dropWhile, h]

/-! ### Bits, bytes and words (R7) -/

/-- The `n` bits of a word from bit `lo` up, as a number. -/
def bits (w : Word) (lo n : Nat) : Nat := w.toNat / 2 ^ lo % 2 ^ n
def bit (w : Word) (k : Nat) : Bool := w.toNat / 2 ^ k % 2 == 1
/-- A word with the `n` bits from `lo` up replaced. -/
def setBits (w : Word) (lo n : Nat) (v : Nat) : Word :=
  (w &&& ~~~ (BitVec.ofNat 32 ((2 ^ n - 1) * 2 ^ lo))) ||| BitVec.ofNat 32 ((v % 2 ^ n) * 2 ^ lo)
def b2n (b : Bool) : Nat := if b then 1 else 0
def lo32 (d : DWord) : Word := d.setWidth 32
def hi32 (d : DWord) : Word := (d >>> 32).setWidth 32
def dword (lo hi : Word) : DWord := hi.setWidth 64 <<< 32 ||| lo.setWidth 64

/-- A number from little-endian bytes. -/
def leNat : List Byte → Nat
  | [] => 0
  | b :: r => b.toNat + 256 * leNat r

/-- `n` little-endian bytes of a number. -/
def leBytes : Nat → Nat → List Byte
  | 0, _ => []
  | n + 1, v => BitVec.ofNat 8 v :: leBytes n (v / 256)

def wordBytes (w : Word) : List Byte := leBytes 4 w.toNat
def dwordBytes (w : DWord) : List Byte := leBytes 8 w.toNat
def bytesWord (b : List Byte) : Word := BitVec.ofNat 32 (leNat b)
def readWord (m : Memory) (a : Nat) : Word := bytesWord (readBytes m a 4)
def writeWord (m : Memory) (a : Nat) (w : Word) : Memory := writeBytes m a (wordBytes w)
def writeWords (m : Memory) (a : Nat) (ws : List Word) : Memory := writeBytes m a (ws.flatMap wordBytes)

/-- `n` words of a byte memory from `a` up. -/
def readTab (m : Memory) (a n : Nat) : Tab Word n := Vector.ofFn (fun k => readWord m (a + 4 * k.val))

/-- Word `k` of a table of words, 0 beyond its end. -/
def wd {n : Nat} (t : Tab Word n) (k : Nat) : Word := t.toList.getD k 0
/-- The 64-bit field at word `k`. -/
def wd64 {n : Nat} (t : Tab Word n) (k : Nat) : DWord := dword (wd t k) (wd t (k + 1))
def setWd {n : Nat} (t : Tab Word n) (k : Nat) (w : Word) : Tab Word n :=
  if h : k < n then Tab.upd t ⟨k, h⟩ (fun _ => w) else t

/-- The 32-bit saturating increment of an RC counter. -/
def satInc (w : Word) (n : Nat := 1) : Word := BitVec.ofNat 32 (min (w.toNat + n) 0xFFFFFFFF)
def satInc16 (w : BitVec 16) (n : Nat := 1) : BitVec 16 := BitVec.ofNat 16 (min (w.toNat + n) 0xFFFF)

/-- The bytes of a write enabled by `be`, merged into the old value (R47). -/
def mergeBe (old new : Word) (be : BitVec 4) : Word :=
  bytesWord ((List.range 4).map (fun k =>
    BitVec.ofNat 8 ((if be.toNat / 2 ^ k % 2 == 1 then new else old).toNat / 256 ^ k)))

/-- A unit number from a word's field, none when the field is out of range. -/
def finOf (n : Nat) (v : Nat) : Option (Fin n) := if h : v < n then some ⟨v, h⟩ else none

/-! ### Updates of one unit -/

def Dev.part (d : Dev) (p : Fin 64) : Part := Tab.at d.parts p
def Dev.plain (d : Dev) (i : Fin 64) : Plain := Tab.at d.plains i
def Dev.updPart (d : Dev) (p : Fin 64) (f : Part → Part) : Dev := { d with parts := Tab.upd d.parts p f }
/-- Change every partition. -/
def Dev.updParts (d : Dev) (f : Part → Part) : Dev := { d with parts := Vector.map f d.parts }
def Dev.updPlain (d : Dev) (i : Fin 64) (f : Plain → Plain) : Dev := { d with plains := Tab.upd d.plains i f }
def Dev.updThread (d : Dev) (i t : Fin 64) (f : Thread → Thread) : Dev :=
  d.updPlain i (fun p => { p with threads := Tab.upd p.threads t f })
def Dev.thread (d : Dev) (i t : Fin 64) : Thread := Tab.at (d.plain i).threads t
def Dev.updBar (d : Dev) (s : Fin 32) (f : Barrier → Barrier) : Dev := { d with bars := Tab.upd d.bars s f }
def Dev.updCol (d : Dev) (c : Fin 16) (f : Col → Col) : Dev := { d with cols := Tab.upd d.cols c f }
def Dev.updTarget (d : Dev) (t : Fin 256) (f : Target → Target) : Dev := { d with targets := Tab.upd d.targets t f }
def Dev.updPort (d : Dev) (n : Fin 2) (f : Port → Port) : Dev := { d with ports := Tab.upd d.ports n f }
def Dev.updRas (d : Dev) (f : Ras → Ras) : Dev := { d with ras := f d.ras }
def Dev.updPwr (d : Dev) (f : Pwr → Pwr) : Dev := { d with pwr := f d.pwr }
def Dev.updHif (d : Dev) (f : Hif → Hif) : Dev := { d with hif := f d.hif }
def Dev.updMtr (d : Dev) (f : Mtr → Mtr) : Dev := { d with mtr := f d.mtr }
def Dev.updCcx (d : Dev) (f : Ccx → Ccx) : Dev := { d with ccx := f d.ccx }

/-- The ring of a ring identifier. -/
def Dev.ring (d : Dev) (r : RingId) : Ring :=
  match r.fn with
  | .pf => Tab.at d.hif.rings r.q
  | .vf p => Tab.at (d.part p).rings r.q

def Dev.updRing (d : Dev) (r : RingId) (f : Ring → Ring) : Dev :=
  match r.fn with
  | .pf => d.updHif (fun h => { h with rings := Tab.upd h.rings r.q f })
  | .vf p => d.updPart p (fun x => { x with rings := Tab.upd x.rings r.q f })

def allRings : List RingId :=
  (List.finRange 4).map (fun q => { fn := .pf, q := q }) ++
  (List.finRange 64).flatMap (fun p => (List.finRange 4).map (fun q => { fn := .vf p, q := q }))

def partRings (p : Fin 64) : List RingId := (List.finRange 4).map (fun q => { fn := .vf p, q := q })

/-- Apply a step to every unit of a list, in order. -/
def Dev.each {α : Type} (d : Dev) (l : List α) (f : Dev → α → Dev) : Dev := l.foldl f d

/-- A free value, and the device with the counter of free values advanced (log entry 5). -/
def Dev.fresh (d : Dev) : DWord × Dev := (Config.freeValue d.free, { d with free := d.free + 1 })

def Dev.reply (d : Dev) (r : Reply) : Dev := { d with out := { d.out with replies := r :: d.out.replies } }
def Dev.sendNet (d : Dev) (t : NetTx) : Dev := { d with out := { d.out with net := t :: d.out.net } }
def Dev.irq (d : Dev) (f : Fn) (v : BitVec 5) : Dev := { d with out := { d.out with irqs := (f, v) :: d.out.irqs } }

/-- One always-on tick: the tick counter counts while standby power is up (R398, R411). -/
def Dev.tick (d : Dev) : Dev :=
  if d.pwr.standby then d.updPwr (fun p => { p with aon := p.aon + 1 }) else d

/-- Ownership (R59): the partition that a map byte names. -/
def ownerOf (b : Byte) : Option (Fin 64) := finOf 64 b.toNat
def ownerByte (o : Option (Fin 64)) : Byte := match o with | some p => BitVec.ofNat 8 p.val | none => 0xFF
def Dev.plainOwner (d : Dev) (i : Fin 64) : Option (Fin 64) := ownerOf (Tab.at d.plainMap i)
def Dev.barOwner (d : Dev) (s : Fin 32) : Option (Fin 64) := ownerOf (Tab.at d.barMap s)

/-! ### Clock domains (R25, R406) -/

def Dev.dom (d : Dev) (k : Fin 100) : Dom := Tab.at d.pwr.doms k
def Dev.updDom (d : Dev) (k : Fin 100) (f : Dom → Dom) : Dev := d.updPwr (fun p => { p with doms := Tab.upd p.doms k f })

/-- Domains 94 to 97 and 99 run whenever their supply is up, and domain 98 runs on TCK (R406). -/
def alwaysRuns (k : Nat) : Bool := 94 ≤ k

/-- Something needs the clock of a domain: PWR starts it if it is gated or its PLL is off (R41, R406). -/
def Dom.demand (x : Dom) : Dom := if x.state = .gated || x.state = .pllOff then { x with starting := true } else x
def Dev.wantClock (d : Dev) (k : Nat) : Dev :=
  match finOf 100 k with
  | some k => if alwaysRuns k.val then d else d.updDom k Dom.demand
  | none => d

/-- The numbers of the domains (14): a stack's controller, a channel's group, a col's group, the reduce engines, a port's MAC, a
media engine, the sample pipeline. -/
def stackDom (s : Fin 12) : Nat := 64 + s.val
def channelDom (c : Fin 24) : Nat := 76 + c.val / 4
def colDom (c : Fin 16) : Nat := 82 + c.val / 4
def reduceDom : Nat := 86
def macDom (n : Fin 2) : Nat := 87 + n.val
def mediaDom (e : Fin 4) : Nat := 89 + e.val
def sampleDom : Nat := 93

/-! ### Device addresses (R232) -/

/-- Where a device address lies: a dale granule, a basin granule, or a hole. -/
inductive Place where
  | dale (g : Fin 576)
  | basin (g : Fin 384)
  | hole
deriving DecidableEq, Repr

def place (a : Nat) : Place :=
  if h : a / 2 ^ 30 < 576 then .dale ⟨a / 2 ^ 30, h⟩
  else if a < 0x10000000000 then .hole
  else if h : (a - 0x10000000000) / 2 ^ 32 < 384 then .basin ⟨(a - 0x10000000000) / 2 ^ 32, h⟩
  else .hole

def Dev.ownerAt (d : Dev) (a : Nat) : Option (Fin 64) :=
  match place a with
  | .dale g => ownerOf (Tab.at d.daleMap g)
  | .basin g => ownerOf (Tab.at d.basinMap g)
  | .hole => none

/-- The stack of a dale granule and the channel of a basin granule (R232). -/
def stackOf (g : Fin 576) : Fin 12 := ⟨g.val / 48, by omega⟩
def channelOf (g : Fin 384) : Fin 24 := ⟨g.val / 16, by omega⟩

/-- The unit number of a device address in an event: its stack or its channel. -/
def unitAt (a : Nat) : Nat :=
  match place a with
  | .dale g => (stackOf g).val
  | .basin g => (channelOf g).val
  | .hole => 0

/-- The tier code of the address form of R379. -/
def tierCode (a : Nat) : Nat := match place a with | .basin _ => 2 | _ => 1

/-- Whether `n` bytes from `a` lie in granules of partition `p` (R233). -/
def Dev.inGrant (d : Dev) (p : Fin 64) (a n : Nat) : Bool :=
  decide (a + n ≤ 2 ^ 44) &&
  (List.range ((a + (n - 1)) / 2 ^ 30 + 1 - a / 2 ^ 30)).all (fun k => d.ownerAt ((a / 2 ^ 30 + k) * 2 ^ 30) == some p)

/-- Whether `n` bytes lie in dale granules of partition `p` (R189, R344, R351). -/
def Dev.inDale (d : Dev) (p : Fin 64) (a n : Nat) : Bool := decide (a + n ≤ 576 * 2 ^ 30) && d.inGrant p a n
/-- Whether `n` bytes lie in basin granules of partition `p` (R255). -/
def Dev.inBasin (d : Dev) (p : Fin 64) (a n : Nat) : Bool := decide (0x10000000000 ≤ a) && d.inGrant p a n

/-- The granules a partition holds (R59). -/
def Dev.daleOf (d : Dev) (p : Fin 64) : List (Fin 576) :=
  (List.finRange 576).filter (fun g => ownerOf (Tab.at d.daleMap g) == some p)
def Dev.basinOf (d : Dev) (p : Fin 64) : List (Fin 384) :=
  (List.finRange 384).filter (fun g => ownerOf (Tab.at d.basinMap g) == some p)
def Dev.plainsOf (d : Dev) (p : Fin 64) : List (Fin 64) :=
  (List.finRange 64).filter (fun i => d.plainOwner i == some p)
def Dev.barsOf (d : Dev) (p : Fin 64) : List (Fin 32) :=
  (List.finRange 32).filter (fun s => d.barOwner s == some p)

/-! ### The event log (R379 to R382) -/

namespace Ev
def overflow : Nat := 0x01
def accessHole : Nat := 0x10
def accessSize : Nat := 0x11
def accessAlign : Nat := 0x12
def conflictWrite : Nat := 0x13
def cdcTimeout : Nat := 0x14
def threadFault : Nat := 0x20
def maskFault : Nat := 0x21
def plainFenced : Nat := 0x22
def plainReturn : Nat := 0x23
def synSaturate : Nat := 0x28
def counterWatchdog : Nat := 0x29
def barrierWatchdog : Nat := 0x2A
def sramParity : Nat := 0x30
def eccCorrected : Nat := 0x31
def eccUncorr : Nat := 0x32
def scrubPoison : Nat := 0x33
def poisonConsumed : Nat := 0x34
def shardMarkedLost : Nat := 0x35
def daleHot : Nat := 0x38
def thermalTrip : Nat := 0x39
def spreadOver : Nat := 0x3A
def colDegraded : Nat := 0x40
def colDown : Nat := 0x41
def colUnbound : Nat := 0x42
def groupMismatch : Nat := 0x43
def netQpError : Nat := 0x48
def netTimeout : Nat := 0x49
def mediaFail : Nat := 0x4A
def partitionReset : Nat := 0x50
def supervisorFence : Nat := 0x51
def supplyNvw : Nat := 0x58
def powerCap : Nat := 0x59
def supplyShutdown : Nat := 0x5A
def clockHeld : Nat := 0x5B
def leakDetect : Nat := 0x5C
end Ev

def ringSize (cfg : Word) (lo : Nat) : Nat := 2 ^ bits cfg lo 5
def Ras.en (r : Ras) : Bool := bit r.evCfg 0
def Ras.size (r : Ras) : Nat := ringSize r.evCfg 4
def Ras.full (r : Ras) : Bool := (r.prod.toNat + 1) % r.size == r.cons.toNat % r.size
/-- SEQ passes over 0 when it wraps (R380). -/
def nextSeq (s : Word) : Word := if s + 1 = 0 then 1 else s + 1

/-- An event that is not recorded (R382). -/
def Ras.drop (r : Ras) (e : Event) : Ras :=
  { r with
    dropped := true
    drops := Tab.upd r.drops ⟨e.source.toNat % 128, Nat.mod_lt _ (by decide)⟩ (fun n => satInc16 n)
    lost := some (match r.lost with
      | none => { time := e.time, epoch := e.epoch, count := 1, sources := [e.source] }
      | some l =>
        { l with
          count := min (l.count + 1) 0xFFFFFFFF
          sources := if l.sources.contains e.source then l.sources else e.source :: l.sources }) }

/-- The OVERFLOW record of R382. -/
def overflowEvent (l : Dropped) : Event :=
  { source := BitVec.ofNat 7 Ev.overflow, test := false, part := 0xFF, rep := 1, epoch := l.epoch, unit := 0,
    time := l.time, arg0 := BitVec.ofNat 32 l.count, arg1 := BitVec.ofNat 32 l.sources.length,
    arg2 := BitVec.ofNat 32 (l.sources.foldl (fun m s => min m s.toNat) 127), seq := 0 }

/-- Begin the next record when none is being written and the ring has room: the staged ones first, then OVERFLOW,
then the pending slots in the order of their first arrival (R380 to R382). -/
def Ras.advance (r : Ras) : Ras :=
  if !r.en || r.writing.isSome || r.full then r
  else match r.staging with
    | e :: rest => { r with writing := some e, staging := rest }
    | [] => match r.lost with
      | some l => { r with writing := some { overflowEvent l with seq := r.seq }, seq := nextSeq r.seq, lost := none }
      | none => match r.slots with
        | e :: rest => { r with writing := some { e with seq := r.seq }, seq := nextSeq r.seq, slots := rest }
        | [] => r

/-- Insert a new pending slot: first arrival first, ties to the lower source code (R381). -/
def slotInsert (e : Event) : List Event → List Event
  | [] => [e]
  | x :: r => if x.time == e.time && e.source < x.source then e :: x :: r else x :: slotInsert e r

/-- One event reaches RAS (R380 to R382). -/
def Ras.accept (r : Ras) (e : Event) : Ras :=
  if !r.en then
    if r.staging.length < 64 then { r with staging := r.staging ++ [{ e with seq := r.seq }], seq := nextSeq r.seq }
    else r.drop e
  else if r.writing.isNone then
    if r.full then r.drop e
    else { r with writing := some { e with seq := r.seq }, seq := nextSeq r.seq }
  else if r.slots.any (fun x => x.source == e.source) then
    { r with slots := r.slots.map (fun x => if x.source == e.source then { x with rep := satInc16 x.rep } else x) }
  else { r with slots := slotInsert e r.slots }

/-- The sources whose entry pulls SMB_ALERT_N low (R416). -/
def alerts (src : Nat) (arg0 : Word) : Bool :=
  src == Ev.thermalTrip || src == Ev.supervisorFence || src == Ev.supplyShutdown ||
  ((src == Ev.powerCap || src == Ev.leakDetect) && arg0 == 1)

/-- The trips of R384, entry records only for the two conditions that are entered and left. -/
def isTrip (src : Nat) (arg0 : Word) : Bool :=
  src == Ev.thermalTrip || src == Ev.spreadOver || src == Ev.colDegraded || src == Ev.mediaFail ||
  ((src == Ev.powerCap || src == Ev.clockHeld) && arg0 == 1)

/-- Whether an event becomes a record of its own: it is neither dropped nor counted in the REPEAT of a pending slot (R381, R382). -/
def Ras.records (r : Ras) (e : Event) : Bool :=
  if !r.en then r.staging.length < 64
  else if r.writing.isNone then !r.full
  else !r.slots.any (fun x => x.source == e.source)

/-- The trip records and the entries in force after an event (R384): only a record that is written covers a breach (R12). -/
def Ras.noteTrip (r : Ras) (src unit : Nat) (a0 : Word) (time : DWord) (kept : Bool) : Ras :=
  let r := if isTrip src a0 && kept then { r with trips := (BitVec.ofNat 7 src, time) :: r.trips } else r
  if src == Ev.powerCap || src == Ev.clockHeld then
    if a0 == 1 then (if kept && !r.inForce.contains (src, unit) then { r with inForce := (src, unit) :: r.inForce } else r)
    else { r with inForce := r.inForce.filter (fun x => x != (src, unit)) }
  else r

/-- Log one event (R379). -/
def Dev.log (d : Dev) (src : Nat) (part : Byte) (unit : Nat) (a0 a1 a2 : Word) (test : Bool := false) : Dev :=
  let e : Event :=
    { source := BitVec.ofNat 7 src, test := test, part := part, rep := 1, epoch := d.ccx.epoch,
      unit := BitVec.ofNat 16 unit, time := d.pwr.aon, arg0 := a0, arg1 := a1, arg2 := a2, seq := 0 }
  let d := d.updRas (fun r => (r.accept e).noteTrip src unit a0 d.pwr.aon (r.records e))
  if alerts src a0 then d.updPwr (fun p => { p with alertN := false }) else d

/-- The eight words of an event record (R379). -/
def Event.words (e : Event) : List Word :=
  [BitVec.ofNat 32 (e.source.toNat + 128 * b2n e.test + 256 * e.part.toNat + 65536 * e.rep.toNat),
   BitVec.ofNat 32 (e.epoch.toNat + 65536 * e.unit.toNat), lo32 e.time, hi32 e.time, e.arg0, e.arg1, e.arg2, e.seq]

/-! ### The change journal (R52 to R55) -/

def Writer.code : Writer → Byte
  | .host .pf => 0x00
  | .host (.vf p) => BitVec.ofNat 8 (p.val + 1)
  | .hart h => BitVec.ofNat 8 (0x80 + h.val)
  | .col c => BitVec.ofNat 8 (0xC0 + c.val)
  | .supervisor => 0xF0

def Hif.jSize (h : Hif) : Nat := ringSize h.jCfg 4
def Hif.jEn (h : Hif) : Bool := bit h.jCfg 0
def Hif.jFull (h : Hif) : Bool := (h.jProd.toNat + 1) % h.jSize == h.jCons.toNat % h.jSize
def Hif.jBase (h : Hif) : Nat := (dword h.jBaseLo h.jBaseHi).toNat

def JEntry.words (e : JEntry) (phase : Bool) : List Word :=
  [e.seq, e.off, e.written, e.result, lo32 e.time, hi32 e.time,
   BitVec.ofNat 32 (e.writer.toNat + 256 * e.be.toNat + 4096 * b2n e.conflict + 8192 * b2n e.ignored +
     16384 * b2n e.pair + 65536 * e.lost.toNat),
   BitVec.ofNat 32 (2 ^ 31 * b2n phase)]

/-- An entry that is lost (R54, R55): it and what was lost before it stand in LOST of the next entry written. -/
def Hif.jDrop (h : Hif) (e : JEntry) (staged : Bool) : Hif :=
  { h with
    jLostCnt := satInc h.jLostCnt
    jGap := h.jGap + e.lost.toNat + 1
    jLost := h.jLost || !staged
    jOvf := h.jOvf || staged }

/-- Write an entry into the journal ring, or lose it when the ring is full. -/
def Dev.jrnPut (d : Dev) (e : JEntry) : Dev :=
  let h := d.hif
  if h.jFull then d.updHif (fun h => h.jDrop e false)
  else
    let e := { e with lost := satInc16 e.lost h.jGap }
    let next := (h.jProd.toNat + 1) % h.jSize
    let a := h.jBase + 32 * h.jProd.toNat
    { d with
      hostMem := writeWords d.hostMem a (e.words h.jPhase)
      hif := { h with
        jProd := BitVec.ofNat 16 next, jPhase := if next = 0 then !h.jPhase else h.jPhase, jGap := 0
        jLast := some { entry := e, prod := h.jProd, phase := h.jPhase, old := readWord d.hostMem (a + 28) } } }

/-- An entry that comes while EN is 0 waits in the staging buffer, or is lost when that is full (R54). -/
def Hif.jStage (h : Hif) (e : JEntry) : Hif :=
  if h.staging.length < 256 then { h with staging := h.staging ++ [{ e with lost := satInc16 e.lost h.jGap }], jGap := 0 }
  else h.jDrop e true

/-- Journal one write (R52, R53): it takes its SEQ whether its entry is kept or lost. -/
def Dev.journal (d : Dev) (w : Writer) (off : Nat) (written result : Word) (be : BitVec 4)
    (conflict ignored pair : Bool) : Dev :=
  let e : JEntry :=
    { seq := d.hif.jSeq, off := BitVec.ofNat 32 off, written := written, result := result,
      time := d.pwr.aon, writer := Writer.code w, be := be, conflict := conflict, ignored := ignored, pair := pair, lost := 0 }
  let d := d.updHif (fun h => { h with jSeq := h.jSeq + 1 })
  if d.hif.jEn then d.jrnPut e else d.updHif (fun h => h.jStage e)

/-- EN of the journal is set (R54): the staged entries go to the ring, oldest first. What the staging buffer lost after them stands
before the entry that follows them. DESIGN CHOICE: staged entries for which the ring has no room are lost as R55 says of a full ring (log
entry 15). -/
def Dev.jrnEnable (d : Dev) : Dev :=
  let staged := d.hif.staging
  let gap := d.hif.jGap
  let d := d.updHif (fun h => { h with
    jCfg := h.jCfg ||| 1, jProd := 0, jCons := 0, jPhase := true, staging := [], jGap := 0, jLast := none })
  (d.each staged Dev.jrnPut).updHif (fun h => { h with jGap := h.jGap + gap })

/-- EN of the journal is cleared (R54). The entry written last may still be on its way, as long as the host has not consumed it
(log entry 5): its write is then abandoned before its PHASE word, and it waits at the head of the staging buffer. -/
def Dev.jrnDisable (d : Dev) : Dev :=
  let (v, d) := d.fresh
  let h := { d.hif with jCfg := setBits d.hif.jCfg 0 1 0, jLast := none }
  match d.hif.jLast with
  | some s =>
    if v.toNat % 2 = 1 && h.jProd != h.jCons then
      { d with
        hostMem := writeWord d.hostMem (h.jBase + 32 * s.prod.toNat + 28) s.old
        hif := { h with jProd := s.prod, jPhase := s.phase, staging := s.entry :: h.staging } }
    else { d with hif := h }
  | none => { d with hif := h }

/-! ### Accounting (R85) -/

def Dev.acct (d : Dev) (p : Fin 64) (f : Acct → Acct) : Dev := d.updPart p (fun x => { x with acct := f x.acct })

/-- Bytes of partition `p` moved in device memory, by tier and direction. -/
def Acct.devBytes (a : Acct) (addr n : Nat) (write : Bool) : Acct :=
  match place addr, write with
  | .basin _, true => { a with basinWr := a.basinWr + BitVec.ofNat 64 n }
  | .basin _, false => { a with basinRd := a.basinRd + BitVec.ofNat 64 n }
  | _, true => { a with daleWr := a.daleWr + BitVec.ofNat 64 n }
  | _, false => { a with daleRd := a.daleRd + BitVec.ofNat 64 n }

def Acct.host (a : Acct) (n : Nat) (write : Bool) : Acct :=
  if write then { a with hostWr := a.hostWr + BitVec.ofNat 64 n } else { a with hostRd := a.hostRd + BitVec.ofNat 64 n }

/-- The engine classes of R85, in order. -/
inductive EngClass where
  | plain | glen | collective | dma | decode | encode | sample | net
deriving DecidableEq, Repr

def EngClass.idx : EngClass → Fin 8
  | .plain => 0 | .glen => 1 | .collective => 2 | .dma => 3 | .decode => 4 | .encode => 5 | .sample => 6 | .net => 7

def Acct.engine (a : Acct) (c : EngClass) (ns : Nat) : Acct :=
  { a with engineNs := Tab.upd a.engineNs c.idx (fun x => x + BitVec.ofNat 64 ns) }

/-- Host memory written for a partition. -/
def Dev.hostWrite (d : Dev) (p : Option (Fin 64)) (a : Nat) (b : List Byte) : Dev :=
  let d := { d with hostMem := writeBytes d.hostMem a b }
  match p with
  | some p => d.acct p (fun x => x.host b.length true)
  | none => d

/-! ### Check bits of the dale and the basin (R368 to R371, R431) -/

/-- A mark: the eight check bits of a word inverted, its data correct. -/
def markWord : BitVec 72 := (0xFF : BitVec 72) <<< 64

def popcount : Nat → Nat → Nat
  | 0, _ => 0
  | k + 1, v => v % 2 + popcount k (v / 2)

/-- What the SEC-DED code makes of a word with the given wrong bits. -/
inductive EccClass where
  | clean | corrected | uncorrectable | miscorrected (data : DWord)
deriving DecidableEq, Repr

def eccClass (err : BitVec 72) : EccClass :=
  let n := popcount 72 err.toNat
  if n = 0 then .clean
  else if n = 1 then .corrected
  else if n = 2 || err = markWord then .uncorrectable
  else if n % 2 = 0 then (if Config.eccEvenSeen err then .uncorrectable else .miscorrected (err.setWidth 64))
  else match Config.eccOddFlip err with
    | none => .uncorrectable
    | some k => .miscorrected ((err ^^^ (1#72 <<< k.val)).setWidth 64)

def Dev.eccAt (d : Dev) (a : Nat) : BitVec 72 := Sparse.get 0 d.ecc (a / 8)
def lineOf (a : Nat) : Nat := a / 64 * 64
def lineWords (line : Nat) : List Nat := (List.range 8).map (fun k => line + 8 * k)

/-- A line that holds a mark (R369). -/
def Dev.isMark (d : Dev) (line : Nat) : Bool := (lineWords line).all (fun a => d.eccAt a == markWord)

def Dev.setEcc (d : Dev) (a : Nat) (e : BitVec 72) : Dev := { d with ecc := Sparse.set 0 d.ecc (a / 8) e }

/-- Make the line a mark, or free of wrong bits. -/
def Dev.putMark (d : Dev) (line : Nat) : Dev := d.each (lineWords line) (fun d a => d.setEcc a markWord)
def Dev.cleanLine (d : Dev) (line : Nat) : Dev := d.each (lineWords line) (fun d a => d.setEcc a 0)

/-- Whether the line is in the test table (R377): device lines carry key 0, SRAM lines 1 + plain. -/
def Dev.tested (d : Dev) (key line : Nat) : Bool := d.ras.tests.any (fun t => t == (key, line))
def Dev.untest (d : Dev) (key line : Nat) : Dev :=
  d.updRas (fun r => { r with tests := r.tests.filter (fun t => t != (key, line)) })

/-- An event about a device address in the address form of R379. -/
def Dev.logAddr (d : Dev) (src : Nat) (a : Nat) (arg2 : Word := 0) : Dev :=
  d.log src (ownerByte (d.ownerAt a)) (unitAt a) (BitVec.ofNat 32 a)
    (BitVec.ofNat 32 (a / 2 ^ 32 % 2 ^ 12 + 4096 * tierCode a)) arg2 (d.tested 0 (lineOf a))

/-- Count a correction (R396). -/
def Dev.countEcc (d : Dev) (a : Nat) : Dev :=
  d.updRas (fun r => if tierCode a = 2 then { r with eccBasin := satInc16 r.eccBasin } else { r with eccDale := satInc16 r.eccDale })

/-- XOR a data error into stored bytes: a word that the code delivers wrong (R431). -/
def Dev.xorWord (d : Dev) (a : Nat) (x : DWord) : Dev :=
  { d with mem := writeBytes d.mem a ((readBytes d.mem a 8).zipWith (fun p q => p ^^^ q) (dwordBytes x)) }

/-- Correct what the code can correct in one word of a line that is not marked (R370, R373). -/
def Dev.correctWord (d : Dev) (a : Nat) : Dev :=
  match eccClass (d.eccAt a) with
  | .corrected => ((d.setEcc a 0).countEcc a).logAddr Ev.eccCorrected a
  | .miscorrected x =>
    if popcount 72 (d.eccAt a).toNat % 2 = 0 then d
    else (((d.setEcc a 0).xorWord a x).countEcc a).logAddr Ev.eccCorrected a
  | _ => d

def Dev.lineUncorr (d : Dev) (line : Nat) : Bool :=
  (lineWords line).any (fun a => eccClass (d.eccAt a) == .uncorrectable)

/-! ### Plain SRAM and its parity (R122 to R124) -/

def sramBytes : Nat := 0x1400000
def allBad : DWord := BitVec.allOnes 64

def Plain.parAt (p : Plain) (line : Nat) : DWord := Sparse.get 0 p.parity (line / 64)
def Plain.setPar (p : Plain) (line : Nat) (e : DWord) : Plain := { p with parity := Sparse.set 0 p.parity (line / 64) e }
def Plain.marked (p : Plain) (line : Nat) : Bool := p.parAt line == allBad

/-- An event about an SRAM line in the address form of R379. -/
def Dev.logSram (d : Dev) (src : Nat) (i : Fin 64) (line : Nat) : Dev :=
  d.log src (ownerByte (d.plainOwner i)) i.val (BitVec.ofNat 32 line) (BitVec.ofNat 32 (i.val * 65536)) 0
    (d.tested (i.val + 1) line)

/-- Count a bad line found on read and hold it in TIL_PAR_LAST (R130). -/
def Plain.noteBad (p : Plain) (line : Nat) (mark : Bool) : Plain :=
  { p with parCnt := satInc16 p.parCnt,
           parLast := BitVec.ofNat 32 (line / 64 + 2 ^ 24 * b2n mark + 2 ^ 31) }

/-- The read of one SRAM line (R124): whether it is poisoned. -/
def Dev.sramLine (d : Dev) (i : Fin 64) (line : Nat) : Dev × Bool :=
  let e := (d.plain i).parAt line
  if e = 0 then (d, false)
  else if e = allBad then (d.updPlain i (fun p => p.noteBad line true), true)
  else ((d.updPlain i (fun p => (p.setPar line allBad).noteBad line false)).logSram Ev.sramParity i line, true)

/-- The lines that `n` bytes from `a` touch. -/
def linesOf (a n : Nat) : List Nat := (List.range ((a % 64 + n + 63) / 64)).map (fun k => lineOf a + 64 * k)

/-- Read SRAM bytes: the bytes, and the lines of them that are poisoned. -/
def Dev.sramRead (d : Dev) (i : Fin 64) (a n : Nat) : Dev × List Byte × List Nat :=
  let r := (linesOf a n).foldl (fun (acc : Dev × List Nat) line =>
    let (d', bad) := acc.1.sramLine i line
    (d', if bad then acc.2 ++ [line] else acc.2)) (d, [])
  (r.1, readBytes (r.1.plain i).sram a n, r.2)

/-- Store bytes that lie in one SRAM line (R124): a full line replaces a mark, a narrower write leaves it. -/
def Plain.storeLine (p : Plain) (a : Nat) (b : List Byte) : Plain :=
  let line := lineOf a
  if b.length = 64 then { p.setPar line 0 with sram := writeBytes p.sram a b }
  else if p.marked line then p
  else
    let mask := (List.range b.length).foldl (fun m k => m ||| (1#64 <<< (a - line + k))) (0 : DWord)
    { p.setPar line (p.parAt line &&& ~~~ mask) with sram := writeBytes p.sram a b }

/-- Cut bytes at line boundaries: (address, bytes) pieces. -/
def cutLines : Nat → Nat → List Byte → List (Nat × List Byte)
  | 0, _, _ => []
  | _, _, [] => []
  | k + 1, a, b :: r =>
    let n := 64 - a % 64
    (a, (b :: r).take n) :: cutLines k (a + n) ((b :: r).drop n)

def Dev.sramWrite (d : Dev) (i : Fin 64) (a : Nat) (b : List Byte) : Dev :=
  d.each (cutLines (b.length / 64 + 2) a b) (fun d c =>
    let d := d.updPlain i (fun p => p.storeLine c.1 c.2)
    if c.2.length = 64 then d.untest (i.val + 1) c.1 else d)

def Dev.sramMark (d : Dev) (i : Fin 64) (lines : List Nat) : Dev :=
  d.updPlain i (fun p => lines.foldl (fun p l => p.setPar (lineOf l) allBad) p)

/-! ### SYN counters (R211 to R213) -/

def Part.counter (p : Part) (n : BitVec 12) : Option Counter := p.counters.find? (fun c => c.num == n)
def Part.updCounter (p : Part) (n : BitVec 12) (f : Counter → Counter) : Part :=
  { p with counters := p.counters.map (fun c => if c.num == n then f c else c) }

/-- Q of R211, as evaluated at LOAD_IMAGE. -/
def Dev.quotaQ (d : Dev) (p : Fin 64) : Nat := (d.part p).ctrQ

/-- A plain wakes when something reaches it (R125): its clock is demanded, and it runs after its wake. -/
def Dev.wakePlain (d : Dev) (i : Fin 64) : Dev :=
  if (d.plain i).state = .stopped then (d.updPlain i (fun x => { x with state := .waking })).wantClock i.val else d

/-- An addition goes to a counter's home, where it joins the net amount of its cycle (R213). It is dropped where the counter is
not placed (R212), its home is fenced (R229) or its partition is resetting (R228); a stopped home wakes for it (R125, R219). -/
def Dev.addCounter (d : Dev) (p : Fin 64) (n : BitVec 12) (amt : Int) (src : Option (Fin 64) := none) (thread : Option (Fin 64) := none) : Dev :=
  match (d.part p).counter n with
  | none => d
  | some c =>
    if (d.part p).state = .resetting || (d.plain c.home).state = .fenced then d
    else (d.updPart p (fun x => x.updCounter n (fun c => { c with adds := c.adds ++ [{ plain := src, thread := thread, amt := amt }] }))).wakePlain c.home

/-- The WAIT and POST words of R133. -/
def ctrOf (w : Word) : BitVec 12 := BitVec.ofNat 12 (bits w 0 12)
def enOf (w : Word) : Bool := bit w 12
def valOf (w : Word) : BitVec 16 := BitVec.ofNat 16 (bits w 16 16)

/-- Apply a POST word (R142, R184): a signed addition (R213), its amount in two's complement (log entry 47). `src`: the plain whose
sequencer or engine posts. -/
def Dev.post (d : Dev) (p : Fin 64) (w : Word) (src : Option (Fin 64) := none) : Dev :=
  if enOf w then d.addCounter p (ctrOf w) (valOf w).toInt src else d

/-- Whether a wait is satisfied now (R214): a wait value of 0, or a counter that holds enough. -/
def Dev.waitMet (d : Dev) (p : Fin 64) (ctr : BitVec 12) (val : BitVec 16) : Bool :=
  val == 0 || (match (d.part p).counter ctr with | some c => val ≤ c.value | none => false)

def Dev.waiting (d : Dev) (who : Waiter) : Bool := d.waits.any (fun w => w.who == who)
def Dev.endWait (d : Dev) (who : Waiter) : Dev := { d with waits := d.waits.filter (fun w => w.who != who) }

/-- Begin a wait unless its value is 0 (R214); the watchdog counts from now (R225). A counter that meets it already releases it. -/
def Dev.beginWait (d : Dev) (p : Fin 64) (who : Waiter) (ctr : BitVec 12) (val : BitVec 16) : Dev :=
  if val == 0 then d
  else { d with waits := d.waits ++ [{ part := p, who := who, ctr := ctr, val := val, since := d.pwr.aon, met := d.waitMet p ctr val }] }

/-- A counter's value has changed: the waits that it now meets are satisfied, whatever is added later (R214). -/
def Dev.meetWaits (d : Dev) (p : Fin 64) (n : BitVec 12) : Dev :=
  { d with waits := d.waits.map (fun w => if w.part == p && w.ctr == n then { w with met := w.met || d.waitMet p n w.val } else w) }

/-- Where a thread stands that nothing else stalls: held at a barrier slot that holds an arrival of it which does not wait
(R222), or free to run. -/
def Dev.heldIn (d : Dev) (i t : Fin 64) : Stall :=
  match (List.finRange 32).find? (fun s => (Tab.at d.bars s).held.any (fun a => a.plain == i && a.thread == t && !a.sync)) with
  | some s => .barHeld s
  | none => .none

/-- R434: an enabled WAIT or POST word must name a counter below Q. -/
def Dev.ctrOk (d : Dev) (p : Fin 64) (w : Word) : Bool := !enOf w || (ctrOf w).toNat < d.quotaQ p

end Sys2Proof.Machine
end

