-- ==== Sys2Proof/Machine/Sha.lean ====
section
/-! DEFINITION. SHA-256 and HMAC-SHA-256, which sign the metering records (R424). The spec names the function; the
published standard FIPS 180-4 defines it (log entry 20). -/

namespace Sys2Proof.Machine

open Sys2Proof

/-- The greatest number of at most `n` bits whose `k`-th power does not pass `v`, bit by bit. -/
def intRoot (k v : Nat) : Nat → Nat
  | 0 => 0
  | n + 1 =>
    let r := 2 * intRoot k (v / 2 ^ k) n + 1
    if r ^ k ≤ v then r else r - 1

/-- The primes below `n`. -/
def primesBelow (n : Nat) : List Nat := (List.range n).filter (fun p => 2 ≤ p && (List.range p).all (fun q => q < 2 || p % q != 0))

/-- The first 32 bits of the fraction of a prime's `k`-th root. -/
def rootFraction (k p : Nat) : Word := BitVec.ofNat 32 (intRoot k (p * 2 ^ (32 * k)) 40)

/-- The round constants of SHA-256: the fractions of the cube roots of the first 64 primes. -/
def shaK : List Word := (primesBelow 312).map (rootFraction 3)

/-- The initial hash of SHA-256: the fractions of the square roots of the first 8 primes. -/
def shaInit : List Word := (primesBelow 20).map (rootFraction 2)

def rotr (w : Word) (n : Nat) : Word := w.rotateRight n

/-- The message schedule: the newest 16 words, newest first, extended `n` times. -/
def shaExtend : Nat → List Word → List Word
  | 0, ws => ws
  | n + 1, ws =>
    let a := ws.getD 1 0
    let b := ws.getD 14 0
    let s1 := rotr a 17 ^^^ rotr a 19 ^^^ (a >>> 10)
    let s0 := rotr b 7 ^^^ rotr b 18 ^^^ (b >>> 3)
    shaExtend n ((ws.getD 15 0 + s0 + ws.getD 6 0 + s1) :: ws)

/-- One round. -/
def shaRound (h : List Word) (kw : Word × Word) : List Word :=
  match h with
  | [a, b, c, d, e, f, g, i] =>
    let t1 := i + (rotr e 6 ^^^ rotr e 11 ^^^ rotr e 25) + ((e &&& f) ^^^ (~~~ e &&& g)) + kw.1 + kw.2
    let t2 := (rotr a 2 ^^^ rotr a 13 ^^^ rotr a 22) + ((a &&& b) ^^^ (a &&& c) ^^^ (b &&& c))
    [t1 + t2, a, b, c, d + t1, e, f, g]
  | h => h

/-- One block of sixteen big-endian words. -/
def shaBlock (h : List Word) (block : List Word) : List Word :=
  let ws := (shaExtend 48 block.reverse).reverse
  h.zipWith (fun x y => x + y) ((shaK.zip ws).foldl shaRound h)

def beNat (b : List Byte) : Nat := b.foldl (fun n x => 256 * n + x.toNat) 0

/-- Big-endian words of a byte list. -/
def beWords : Nat → List Byte → List Word
  | 0, _ => []
  | n + 1, b => BitVec.ofNat 32 (beNat (b.take 4)) :: beWords n (b.drop 4)

def beBytes (w : Word) : List Byte := (leBytes 4 w.toNat).reverse

/-- The padding of SHA-256. -/
def shaPad (b : List Byte) : List Byte :=
  b ++ [0x80] ++ List.replicate ((119 - b.length % 64) % 64) 0 ++ (leBytes 8 (8 * b.length)).reverse

def shaBlocks : Nat → List Word → List Word → List Word
  | 0, h, _ => h
  | n + 1, h, ws => shaBlocks n (shaBlock h (ws.take 16)) (ws.drop 16)

def sha256 (b : List Byte) : List Byte :=
  let p := shaPad b
  (shaBlocks (p.length / 64) shaInit (beWords (p.length / 4) p)).flatMap beBytes

/-- HMAC-SHA-256 with a key of 32 bytes. -/
def hmac (key msg : List Byte) : List Byte :=
  let k := key ++ List.replicate 32 0
  sha256 (k.map (fun x => x ^^^ 0x5C) ++ sha256 (k.map (fun x => x ^^^ 0x36) ++ msg))

end Sys2Proof.Machine
end

