-- ==== Sys2Proof/Machine/Metering.lean ====
section
/-! DEFINITION. The sealed metering block (R419 to R430): samples, intervals, apportioning, signed records, the pending
queue, the log and the metering port. -/

namespace Sys2Proof.Machine

open Sys2Proof

/-! ### Records (R424) -/

/-- The 24 words of a record that its MAC covers. -/
def MRec.body (r : MRec) : List Word :=
  [BitVec.ofNat 32 (r.kind.toNat + 256 * r.part.toNat + 65536 * b2n r.gap + 131072 * b2n r.held + 262144 * b2n r.sag +
     524288 * b2n r.scaled), Config.keyId, lo32 r.seq, hi32 r.seq, r.boot, r.paramVer, lo32 r.tEnd, hi32 r.tEnd,
   lo32 r.tStart, hi32 r.tStart, lo32 r.aon, hi32 r.aon, lo32 r.eInt, hi32 r.eInt, lo32 r.eTotal, hi32 r.eTotal] ++
  r.rails.toList

/-- The 32 words of a record, its MAC last. -/
def MRec.words (r : MRec) : List Word :=
  let mac := hmac ((List.finRange 32).map Config.deviceKey) (r.body.flatMap wordBytes)
  r.body ++ (List.range 8).map (fun k => bytesWord ((mac.drop (4 * k)).take 4))

/-- A record of the present moment, with the fields that every type shares. -/
def Mtr.record (m : Mtr) (kind : BitVec 8) : MRec :=
  { kind := kind, part := 0xFF, gap := false, held := false, sag := false, scaled := false,
    seq := m.seq + BitVec.ofNat 64 (m.pending.length + 1), boot := m.boot, paramVer := m.paramVer, tEnd := m.ticks,
    tStart := m.tStart, aon := 0, eInt := 0, eTotal := 0, rails := Tab.all 8 0 }

/-- A record enters the pending queue; a log write starts unless SUPPLY_NVW holds it (R428). -/
def Mtr.enqueue (m : Mtr) (r : MRec) : Mtr :=
  { m with
    pending := m.pending ++ [{ r with seq := m.seq + BitVec.ofNat 64 (m.pending.length + 1) }]
    writing := m.writing || !m.nvw }

/-- The OVERFLOW record, and the end of closing intervals (R428). -/
def Mtr.overflow (m : Mtr) : Mtr :=
  if m.pending.length < 256 && !m.pending.any (fun r => r.kind == 4) then
    { m.enqueue { m.record 4 with eInt := BitVec.ofNat 64 m.pending.length } with held := true }
  else { m with held := true }

/-- The oldest pending record is logged: the log keeps its newest 1,048,576 records. -/
def Mtr.logOne (m : Mtr) : Mtr :=
  match m.pending with
  | [] => { m with writing := false }
  | r :: rest =>
    { m with
      pending := rest
      log := (r :: m.log).take 1048576
      seq := r.seq
      eLogged := if r.kind = 1 then (match finOf 64 r.part.toNat with
        | some p => Tab.upd m.eLogged p (fun _ => r.eTotal)
        | none => m.eLogged) else m.eLogged
      writing := !rest.isEmpty && !m.nvw }

/-- SUPPLY_NVW is entered or left (R419, R428). -/
def Mtr.setNvw (m : Mtr) (on : Bool) : Mtr :=
  { m with nvw := on, sagSeen := m.sagSeen || on, writing := m.writing || (!on && !m.pending.isEmpty) }

/-! ### Samples and intervals (R421, R422) -/

/-- The energy of one sample of one shunt, in units of 2^-30 µW for one sample time: V × I with its gain, and its
offset. -/
def shuntEnergy (mv ma gain offset : Word) : Int :=
  mv.toInt * ma.toInt * (gain.toNat : Int) + offset.toInt * 1000 * 2 ^ 30

/-- The units of `energy` in one µJ: 2^30 × 16,000. -/
def perMicroJ : Nat := 2 ^ 30 * 16000

def meterSample (mv ma : Tab Word 10) (d : Dev) : Dev :=
  if d.mtr.on then d.updMtr (fun m => { m with
    energy := Vector.ofFn (fun r => Tab.at m.energy r +
      shuntEnergy (Tab.at mv r) (Tab.at ma r) (Tab.at m.gain r) (Tab.at m.offset r)) })
  else d

/-- The whole µJ of each shunt. -/
def Mtr.microJ (m : Mtr) (r : Nat) : Nat := (m.energy.toList.getD r 0).toNat / perMicroJ

/-- The present cumulative activity of a partition on rails 0 to 5 (R421, R422). -/
def Part.activity (p : Part) : Tab DWord 6 :=
  ⟨#[p.acct.runCycles, p.dale.charge, p.basin.charge, p.acct.colSent + p.acct.colRecv,
     Tab.at p.acct.engineNs 4 + Tab.at p.acct.engineNs 5 + Tab.at p.acct.engineNs 6, p.acct.ethRecv], rfl⟩

/-- The increase of a count; a lower count is taken whole (R422). -/
def increase (cur prev : DWord) : Nat := if cur < prev then cur.toNat else cur.toNat - prev.toNat

def meterIntervalEnd (d : Dev) : Dev :=
  if !d.mtr.on || d.mtr.awaiting then d
  else d.updMtr (fun m =>
    let m := { m with ticks := m.ticks + 960000000 }
    if 255 ≤ m.pending.length then m.overflow else { m with awaiting := true })

/-! ### Apportioning (R423) -/

structure Shares where
  direct : List (List Nat)
  common : List Nat
  un     : Nat
  scaled : Bool
deriving DecidableEq, Repr

def sumN (l : List Nat) : Nat := l.foldl (fun a b => a + b) 0

/-- The rule of R423 over the measured energies of rails 0 to 5, the input energy, and the activity a[r][p]. -/
def apportion (e : List Nat) (eIn : Nat) (a : List (List Nat)) : Shares :=
  let s := sumN e
  let scaled := decide (eIn < s)
  let e := if scaled then e.map (fun x => x * eIn / s) else e
  let d := e.zipWith (fun er ar => let t := sumN ar; ar.map (fun x => if t = 0 then 0 else er * x / t)) a
  let un := sumN (e.zipWith (fun er dr => er - sumN dr) d)
  let c := eIn - sumN e
  let dp := (List.range 64).map (fun p => sumN (d.map (fun dr => dr.getD p 0)))
  let ds := sumN dp
  let cp := dp.map (fun x => if ds = 0 then 0 else c * x / ds)
  { direct := d, common := cp, un := un + (c - sumN cp), scaled := scaled }

/-- The energy carried into the next interval: what is below one µJ. -/
def Mtr.carry (m : Mtr) : Tab Int 10 :=
  Vector.ofFn (fun r => Tab.at m.energy r - ((Tab.at m.energy r).toNat / perMicroJ * perMicroJ : Nat))

/-- Parameters written during the interval take effect at the start of the next one (R427). -/
def Mtr.applyParams (m : Mtr) : Mtr :=
  { m.next.foldl (fun m c =>
      let k := c.1.toNat
      if k < 10 then { m with gain := setWd m.gain k c.2 }
      else if 16 ≤ k && k < 26 then { m with offset := setWd m.offset (k - 16) c.2 }
      else { m with trim := c.2 }) m with next := [] }

/-- The next interval starts. -/
def Mtr.nextInterval (m : Mtr) : Mtr :=
  ({ m with tStart := m.ticks, energy := m.carry, awaiting := false, held := false, sagSeen := m.nvw }).applyParams

/-- Close the interval with the given activity (none: the frame is missing, GAP). -/
def closeInterval (d : Dev) (frame : Bool) : Dev :=
  let m := d.mtr
  let cur : Tab (Tab DWord 6) 64 := Vector.ofFn (fun p => (d.part p).activity)
  let act : List (List Nat) := (List.finRange 6).map (fun r => (List.finRange 64).map (fun p =>
    if frame then increase (Tab.at (Tab.at cur p) r) (Tab.at (Tab.at m.prev p) r) else 0))
  let rails := (List.range 8).map (fun r => m.microJ r)
  let eIn := m.microJ 8 + m.microJ 9
  let sh := apportion (rails.take 6) eIn act
  let sh := if frame then sh else { sh with un := eIn, common := List.replicate 64 0, direct := List.replicate 6 [] }
  let mj (l : List Nat) : Tab Word 8 := Vector.ofFn (fun k => BitVec.ofNat 32 (l.getD k.val 0 / 1000))
  let stamp (r : MRec) : MRec :=
    { r with gap := !frame, held := m.held, sag := m.sagSeen || m.nvw, aon := if frame then d.pwr.aon else 0 }
  let module := stamp { m.record 2 with
    eInt := BitVec.ofNat 64 eIn, eTotal := BitVec.ofNat 64 sh.un, scaled := sh.scaled, rails := mj rails }
  let part (p : Nat) : Nat := sumN (sh.direct.map (fun r => r.getD p 0)) + sh.common.getD p 0
  let totals : Tab DWord 64 := Vector.ofFn (fun p => Tab.at m.eTotal p + BitVec.ofNat 64 (part p.val))
  let parts := ((List.finRange 64).filter (fun p => part p.val != 0 || act.any (fun r => r.getD p.val 0 != 0))).map
    (fun p => stamp { m.record 1 with
      part := BitVec.ofNat 8 p.val, eInt := BitVec.ofNat 64 (part p.val), eTotal := Tab.at totals p
      rails := mj (sh.direct.map (fun r => r.getD p.val 0) ++ [sh.common.getD p.val 0]) })
  let recs := module :: parts
  if 255 < m.pending.length + recs.length then { d with mtr := { m with awaiting := false }.overflow }
  else
    let d := d.each (List.finRange 64) (fun d p => d.acct p (fun a => { a with
      energyMj := a.energyMj + BitVec.ofNat 64 ((Tab.at totals p).toNat / 1000 - (Tab.at m.eTotal p).toNat / 1000) }))
    let m := { recs.foldl Mtr.enqueue m with eTotal := totals, prev := if frame then cur else m.prev }
    let m := m.nextInterval
    { d with mtr := if 255 ≤ m.pending.length then m.overflow else m }

def activityFrame (d : Dev) : Dev := if d.mtr.on && d.mtr.awaiting then closeInterval d true else d
def activityFrameTimeout (d : Dev) : Dev := if d.mtr.on && d.mtr.awaiting then closeInterval d false else d

def meterLogWriteDone (d : Dev) : Dev :=
  if d.mtr.on && d.mtr.writing then d.updMtr Mtr.logOne else d

/-! ### Power (R429) -/

/-- Standby power is lost: a log write under way completes, pending records and the open interval are lost. -/
def Mtr.powerLoss (m : Mtr) : Mtr :=
  let m := if m.writing then m.logOne else m
  { m with on := false, pending := [], writing := false, energy := Tab.all 10 0, awaiting := false, held := false,
           sagSeen := false, nvw := false, eTotal := m.eLogged, prev := Tab.all 64 (Tab.all 6 0) }

/-- Standby power-on: BOOT is new, and one START record with GAP is appended. -/
def Mtr.powerOn (m : Mtr) : Mtr :=
  let last := match m.log with | r :: _ => r.tEnd | [] => 0
  let m := ({ m with on := true, boot := m.boot + 1, tStart := m.ticks }).applyParams
  m.enqueue { m.record 5 with gap := true, tStart := last }

/-! ### The MTR window and the metering port (R426, R427, R430) -/

def Mtr.stat (m : Mtr) : Word :=
  BitVec.ofNat 32 (b2n m.held + 2 * b2n m.calEn + 4 * b2n m.auditFull + 256 * m.pending.length)

/-- Word `w` of the MTR_REC window: the 256 most recent records by SEQ mod 256. -/
def Mtr.window (m : Mtr) (w : Nat) : Word :=
  match (m.log.take 256).find? (fun r => r.seq.toNat % 256 == w / 32) with
  | some r => r.words.getD (w % 32) 0
  | none => 0

def meterStatus (d : Dev) : Dev :=
  if d.mtr.on then
    d.reply (.words [d.mtr.stat, Config.keyId, d.mtr.paramVer, lo32 d.mtr.seq, hi32 d.mtr.seq])
  else d

/-- The port answers a READ of up to 64 records and refuses a longer one (R427). -/
def meterRead (seq : DWord) (n : Nat) (d : Dev) : Dev :=
  if !d.mtr.on then d
  else if 64 < n then d.reply .nack
  else
    d.reply (.records ((d.mtr.log.reverse.filter (fun r => seq ≤ r.seq && r.seq.toNat < seq.toNat + n)).map MRec.words))

def readAudit (d : Dev) : Dev :=
  if d.mtr.on then d.reply (.records (d.mtr.audit.reverse.map MRec.words)) else d

/-- The range of a parameter (R426): gains 0.9 to 1.1 in Q2.30, offsets of ±1.0 W in mW, the trim ±50 ppm. -/
def paramOk (param : BitVec 16) (v : Word) : Bool :=
  let k := param.toNat
  if k < 10 then 966367642 ≤ v.toNat && v.toNat ≤ 1181116006
  else if 16 ≤ k && k < 26 then -1000 ≤ v.toInt && v.toInt ≤ 1000
  else k == 32 && -500 ≤ v.toInt && v.toInt ≤ 500

/-- The value last written to a parameter. -/
def Mtr.param (m : Mtr) (param : BitVec 16) : Word :=
  match m.next.reverse.find? (fun c => c.1 == param) with
  | some c => c.2
  | none =>
    let k := param.toNat
    if k < 10 then wd m.gain k else if k < 26 then wd m.offset (k - 16) else m.trim

def calWrite (param : BitVec 16) (v : Word) (d : Dev) : Dev :=
  let m := d.mtr
  if !m.on then d
  else if !m.calEn || m.auditFull || !paramOk param v || 255 ≤ m.pending.length then d.reply .nack
  else
    let m1 := { m with paramVer := m.paramVer + 1, next := m.next ++ [(param, v)] }
    let r : MRec := { m1.record 3 with eInt := param.setWidth 64, eTotal := dword (m.param param) v }
    let m2 := { m1.enqueue r with audit := r :: m.audit, auditFull := decide (1024 ≤ m.audit.length + 1) }
    { d with mtr := if 255 ≤ m2.pending.length then m2.overflow else m2 }.reply (.words [])

def calEnChange (shorted : Bool) (d : Dev) : Dev := d.updMtr (fun m => { m with calEn := shorted })

/-! ### Meanings -/

def execMeterSample (mv ma : Tab Word 10) (s : State) : Host.Outcome State Fault Refusal :=
  .next { s with dev := meterSample mv ma s.dev }
def execMeterIntervalEnd (s : State) : Host.Outcome State Fault Refusal :=
  .next { s with dev := meterIntervalEnd s.dev }
def execActivityFrame (s : State) : Host.Outcome State Fault Refusal := .next { s with dev := activityFrame s.dev }
def execActivityFrameTimeout (s : State) : Host.Outcome State Fault Refusal :=
  .next { s with dev := activityFrameTimeout s.dev }
def execMeterLogWriteDone (s : State) : Host.Outcome State Fault Refusal :=
  .next { s with dev := meterLogWriteDone s.dev }
def execMeterStatus (s : State) : Host.Outcome State Fault Refusal := .next { s with dev := meterStatus s.dev }
def execMeterRead (seq : DWord) (count : Nat) (s : State) : Host.Outcome State Fault Refusal :=
  .next { s with dev := meterRead seq count s.dev }
def execReadAudit (s : State) : Host.Outcome State Fault Refusal := .next { s with dev := readAudit s.dev }
def execCalWrite (param : BitVec 16) (val : Word) (s : State) : Host.Outcome State Fault Refusal :=
  .next { s with dev := calWrite param val s.dev }
def execCalEnChange (shorted : Bool) (s : State) : Host.Outcome State Fault Refusal :=
  .next { s with dev := calEnChange shorted s.dev }

end Sys2Proof.Machine
end

