-- ==== Sys2Proof/Machine/RegMap.lean ====
section
/-! DEFINITION. The register space (R18, R32 to R56, and the Registers section of every chapter): which register lies at
an offset of the physical function's BAR0, its attributes and whose window it belongs to. Offsets are the reference offsets of
stepping A1. -/

namespace Sys2Proof.Machine

open Sys2Proof

/-- The registers of one plain (R130, R154). -/
inductive TilReg where
  | id | state | ctrl | seedLo | seedHi | srSel | ctrLo | ctrHi | nfStat | runLo | runHi | waitLo | waitHi
  | fault | pcLo | pcHi | parCnt | parLast | seqStat | seqRange | stepLo | stepHi | busyLo | busyHi | dtCfg | dtSel
  | dtWin (w : Fin 64)
deriving DecidableEq, Repr

/-- The registers of one barrier slot and of one SYN partition instance (R231). -/
inductive BarReg where
  | maskLo | maskHi | cfg | group | members | wdog | stat | ctrl
deriving DecidableEq, Repr
inductive SynReg where
  | ctrSel | ctrVal | ctrAdd | stat | wdog
deriving DecidableEq, Repr

/-- The registers of a regulator's partition instance (R254). -/
inductive RegReg where
  | tokens | rate | chargeLo | chargeHi | wait
deriving DecidableEq, Repr

/-- The registers of a GLN partition instance (R291). -/
inductive GlnReg where
  | tblLo | tblHi | tblCount | rank | nf | seedLo | seedHi | stat | repair | land
deriving DecidableEq, Repr

/-- Every register of the KT9. -/
inductive Reg where
  | table (k : Fin 16384) | vtable (p : Fin 64) (k : Fin 16384)
  | jrnBaseLo | jrnBaseHi | jrnCfg | jrnProd | jrnCons | jrnStat | jrnLost | bar4Lo | bar4Hi
  | ring (r : RingId) (k : Fin 6)
  | plainMap (k : Fin 16) | barMap (k : Fin 8) | daleMap (k : Fin 144) | basinMap (k : Fin 96)
  | quota (p : Fin 64) | acctLo | acctHi | acctCtrl
  | pState (p : Fin 64) | pCtrl (p : Fin 64) | pInflight (p : Fin 64) | pShortLo (p : Fin 64) | pShortHi (p : Fin 64)
  | pDrop (p : Fin 64)
  | supStat | supCfg | supCtrl
  | til (i : Fin 64) (r : TilReg)
  | bar (s : Fin 32) (r : BarReg)
  | syn (p : Fin 64) (r : SynReg)
  | thrCfg | dleTrip | sStat (s : Fin 12) | sTmax (s : Fin 12) | sThrLo (s : Fin 12) | sThrHi (s : Fin 12)
  | dleCfg (p : Fin 64) | dle (p : Fin 64) (r : RegReg)
  | chStat (c : Fin 24) | bsnCfg (p : Fin 64) | bsn (p : Fin 64) (r : RegReg)
  | glnStore | glnQuota (p : Fin 64) | gStat (c : Fin 24) | gCycLo (c : Fin 24) | gCycHi (c : Fin 24)
  | gln (p : Fin 64) (r : GlnReg)
  | colPend | cStat (c : Fin 16) | cCtrl (c : Fin 16) | cReplay (c : Fin 16) | cDrop (c : Fin 16)
  | axCtrl (a : Fin 4) | axMode (a : Fin 4) (b : Fin 2) | axLen (a : Fin 4) (b : Fin 2) | axPos (a : Fin 4) (b : Fin 2)
  | pAbort (p : Fin 64) | pGclr (p : Fin 64) | idle (i : Fin 64) (w : Fin 16)
  | eStat (e : Fin 4) | eCtrl (e : Fin 4) | share (p : Fin 64) | keyReq (p : Fin 64) | corrupt (p : Fin 64)
  | tgtSel | tgtWin (w : Fin 16) | portStat (n : Fin 2) | fecCorr (n : Fin 2) | fecUncorr (n : Fin 2) | stranger (n : Fin 2)
  | evBaseLo | evBaseHi | evCfg | evProd | evCons | evStat | scrubCfg (t : Fin 3) | scrubPass (t : Fin 3) | eccCnt
  | flipLo | flipHi | flipCfg | flipCtrl | plainCtrl | evDrop (s : Fin 128)
  | supply | bootStat | rstCtrl | strap | pinmux | gpio | flow | aonLo | aonHi | ppsLo | ppsHi | domStat (k : Fin 100)
  | mtrStat | mtrKey | mtrParam | mtrSeqLo | mtrSeqHi | mtrRec (w : Fin 8192)
deriving DecidableEq, Repr

/-! ### From an offset to a register -/

/-- Instance and offset within it, for `count` instances of `stride` bytes at `base`. -/
def instAt (off base stride count : Nat) : Option (Fin count × Nat) :=
  if off < base then none
  else (finOf count ((off - base) / stride)).map (fun i => (i, (off - base) % stride))

def tilReg (o : Nat) : Option TilReg :=
  match o with
  | 0x000 => some .id | 0x004 => some .state | 0x008 => some .ctrl | 0x010 => some .seedLo | 0x014 => some .seedHi
  | 0x018 => some .srSel | 0x020 => some .ctrLo | 0x024 => some .ctrHi | 0x030 => some .nfStat | 0x040 => some .runLo
  | 0x044 => some .runHi | 0x048 => some .waitLo | 0x04C => some .waitHi | 0x050 => some .fault | 0x058 => some .pcLo
  | 0x05C => some .pcHi | 0x060 => some .parCnt | 0x064 => some .parLast | 0x400 => some .seqStat
  | 0x404 => some .seqRange | 0x408 => some .stepLo | 0x40C => some .stepHi | 0x410 => some .busyLo
  | 0x414 => some .busyHi | 0x418 => some .dtCfg | 0x420 => some .dtSel
  | o => if o < 0x500 then none else (finOf 64 ((o - 0x500) / 4)).map TilReg.dtWin

def barReg (o : Nat) : Option BarReg :=
  match o with
  | 0x00 => some .maskLo | 0x04 => some .maskHi | 0x08 => some .cfg | 0x0C => some .group | 0x10 => some .members
  | 0x14 => some .wdog | 0x18 => some .stat | 0x1C => some .ctrl | _ => none

def synReg (o : Nat) : Option SynReg :=
  match o with
  | 0x00 => some .ctrSel | 0x04 => some .ctrVal | 0x08 => some .ctrAdd | 0x0C => some .stat | 0x10 => some .wdog | _ => none

def regReg (o : Nat) : Option RegReg :=
  match o with
  | 0x00 => some .tokens | 0x04 => some .rate | 0x08 => some .chargeLo | 0x0C => some .chargeHi | 0x10 => some .wait
  | _ => none

def glnReg (o : Nat) : Option GlnReg :=
  match o with
  | 0x00 => some .tblLo | 0x04 => some .tblHi | 0x08 => some .tblCount | 0x0C => some .rank | 0x10 => some .nf
  | 0x18 => some .seedLo | 0x1C => some .seedHi | 0x20 => some .stat | 0x24 => some .repair | 0x28 => some .land
  | _ => none

/-- A register of a family of `count` words at `base`. -/
def wordAt (off base count : Nat) : Option (Fin count) := (instAt off base 4 count).map (fun x => x.1)

def hifReg (off : Nat) : Option Reg :=
  match off with
  | 0x10100 => some .jrnBaseLo | 0x10104 => some .jrnBaseHi | 0x10108 => some .jrnCfg | 0x1010C => some .jrnProd
  | 0x10110 => some .jrnCons | 0x10114 => some .jrnStat | 0x10118 => some .jrnLost | 0x10180 => some .bar4Lo
  | 0x10184 => some .bar4Hi
  | _ => (instAt off 0x10200 0x40 4).bind (fun x => (finOf 6 (x.2 / 4)).map (Reg.ring { fn := .pf, q := x.1 }))

def prtPart (p : Fin 64) (o : Nat) : Option Reg :=
  match o with
  | 0x100 => some (.pState p) | 0x104 => some (.pCtrl p) | 0x108 => some (.pInflight p) | 0x110 => some (.pShortLo p)
  | 0x114 => some (.pShortHi p) | 0x118 => some (.pDrop p)
  | _ => if o < 0x100 then
      (instAt o 0 0x40 4).bind (fun x => (finOf 6 (x.2 / 4)).map (Reg.ring { fn := .vf p, q := x.1 }))
    else none

def prtReg (off : Nat) : Option Reg :=
  if off < 0x20040 then (wordAt off 0x20000 16).map .plainMap
  else if off < 0x20060 then (wordAt off 0x20040 8).map .barMap
  else if off < 0x20100 then none
  else if off < 0x20340 then (wordAt off 0x20100 144).map .daleMap
  else if off < 0x20400 then none
  else if off < 0x20580 then (wordAt off 0x20400 96).map .basinMap
  else if off < 0x20600 then none
  else if off < 0x20700 then (wordAt off 0x20600 64).map .quota
  else if off < 0x21000 then
    match off with
    | 0x20800 => some .acctLo | 0x20804 => some .acctHi | 0x20808 => some .acctCtrl | _ => none
  else (instAt off 0x21000 0x200 64).bind (fun x => prtPart x.1 x.2)

def dleReg (off : Nat) : Option Reg :=
  if off < 0x200100 then
    match off with | 0x200000 => some .thrCfg | 0x200004 => some .dleTrip | _ => none
  else if off < 0x200E00 then
    (instAt off 0x200100 0x100 12).bind (fun x =>
      match x.2 with
      | 0x00 => some (.sStat x.1) | 0x04 => some (.sTmax x.1) | 0x08 => some (.sThrLo x.1) | 0x0C => some (.sThrHi x.1)
      | _ => none)
  else if off < 0x201000 then (wordAt off 0x200E00 64).map .dleCfg
  else (instAt off 0x201000 0x40 64).bind (fun x => (regReg x.2).map (Reg.dle x.1))

def bsnReg (off : Nat) : Option Reg :=
  if off < 0x300800 then
    (instAt off 0x300000 0x40 24).bind (fun x => if x.2 = 0 then some (.chStat x.1) else none)
  else if off < 0x301000 then (wordAt off 0x300800 64).map .bsnCfg
  else if off < 0x304000 then (instAt off 0x301000 0x40 64).bind (fun x => (regReg x.2).map (Reg.bsn x.1))
  else if off = 0x304000 then some .glnStore
  else if off < 0x304100 then none
  else if off < 0x304800 then
    (instAt off 0x304100 0x20 24).bind (fun x =>
      match x.2 with
      | 0x00 => some (.gStat x.1) | 0x08 => some (.gCycLo x.1) | 0x0C => some (.gCycHi x.1) | _ => none)
  else if off < 0x305000 then (wordAt off 0x304800 64).map .glnQuota
  else (instAt off 0x305000 0x40 64).bind (fun x => (glnReg x.2).map (Reg.gln x.1))

def axReg (a : Fin 4) (o : Nat) : Option Reg :=
  match o with
  | 0x00 => some (.axCtrl a) | 0x10 => some (.axMode a 0) | 0x14 => some (.axLen a 0) | 0x18 => some (.axPos a 0)
  | 0x30 => some (.axMode a 1) | 0x34 => some (.axLen a 1) | 0x38 => some (.axPos a 1) | _ => none

def colReg (off : Nat) : Option Reg :=
  if off = 0x400000 then some .colPend
  else if off < 0x400100 then none
  else if off < 0x400400 then
    (instAt off 0x400100 0x20 16).bind (fun x =>
      match x.2 with
      | 0x00 => some (.cStat x.1) | 0x04 => some (.cCtrl x.1) | 0x08 => some (.cReplay x.1) | 0x0C => some (.cDrop x.1)
      | _ => none)
  else if off < 0x401000 then (instAt off 0x400400 0x80 4).bind (fun x => axReg x.1 x.2)
  else if off < 0x402000 then
    (instAt off 0x401000 0x20 64).bind (fun x =>
      match x.2 with | 0x00 => some (.pAbort x.1) | 0x04 => some (.pGclr x.1) | _ => none)
  else (instAt off 0x402000 0x40 64).bind (fun x => (finOf 16 (x.2 / 4)).map (Reg.idle x.1))

def medReg (off : Nat) : Option Reg :=
  if off < 0x501000 then
    (instAt off 0x500000 0x40 4).bind (fun x =>
      match x.2 with | 0x00 => some (.eStat x.1) | 0x04 => some (.eCtrl x.1) | _ => none)
  else if off < 0x580000 then
    (instAt off 0x501000 0x20 64).bind (fun x =>
      match x.2 with | 0x00 => some (.share x.1) | 0x04 => some (.keyReq x.1) | _ => none)
  else (instAt off 0x581000 0x20 64).bind (fun x => if x.2 = 0 then some (.corrupt x.1) else none)

def netReg (off : Nat) : Option Reg :=
  if off = 0x600000 then some .tgtSel
  else if off < 0x600040 then none
  else if off < 0x600080 then (wordAt off 0x600040 16).map .tgtWin
  else (instAt off 0x600100 0x40 2).bind (fun x =>
    match x.2 with
    | 0x00 => some (.portStat x.1) | 0x04 => some (.fecCorr x.1) | 0x08 => some (.fecUncorr x.1)
    | 0x0C => some (.stranger x.1) | _ => none)

def rasReg (off : Nat) : Option Reg :=
  match off with
  | 0x700000 => some .evBaseLo | 0x700004 => some .evBaseHi | 0x700008 => some .evCfg | 0x70000C => some .evProd
  | 0x700010 => some .evCons | 0x700014 => some .evStat | 0x700040 => some (.scrubCfg 0) | 0x700044 => some (.scrubCfg 1)
  | 0x700048 => some (.scrubCfg 2) | 0x700050 => some (.scrubPass 0) | 0x700054 => some (.scrubPass 1)
  | 0x700058 => some (.scrubPass 2) | 0x70005C => some .eccCnt | 0x700060 => some .flipLo | 0x700064 => some .flipHi
  | 0x700068 => some .flipCfg | 0x70006C => some .flipCtrl | 0x700090 => some .plainCtrl
  | _ => (wordAt off 0x700400 128).map .evDrop

def pwrReg (off : Nat) : Option Reg :=
  match off with
  | 0x780000 => some .supply | 0x780004 => some .bootStat | 0x780008 => some .rstCtrl | 0x78000C => some .strap
  | 0x780010 => some .pinmux | 0x780014 => some .gpio | 0x780018 => some .flow | 0x780020 => some .aonLo
  | 0x780024 => some .aonHi | 0x780028 => some .ppsLo | 0x78002C => some .ppsHi
  | _ => (wordAt off 0x780100 100).map .domStat

def mtrReg (off : Nat) : Option Reg :=
  match off with
  | 0x7C0000 => some .mtrStat | 0x7C0004 => some .mtrKey | 0x7C0008 => some .mtrParam | 0x7C0010 => some .mtrSeqLo
  | 0x7C0014 => some .mtrSeqHi | _ => (wordAt off 0x7C8000 8192).map .mtrRec

/-- The register at a 4-byte-aligned offset of the physical function's BAR0; none is a hole (R40). -/
def regAt (off : Nat) : Option Reg :=
  if off % 4 != 0 then none
  else if off < 0x10000 then (finOf 16384 (off / 4)).map .table
  else if off < 0x20000 then hifReg off
  else if off < 0x40000 then prtReg off
  else if off < 0x80000 then
    match off with | 0x40000 => some .supStat | 0x40004 => some .supCfg | 0x40008 => some .supCtrl | _ => none
  else if off < 0x81000 then (instAt off 0x80000 0x40 32).bind (fun x => (barReg x.2).map (Reg.bar x.1))
  else if off < 0x100000 then (instAt off 0x81000 0x100 64).bind (fun x => (synReg x.2).map (Reg.syn x.1))
  else if off < 0x200000 then (instAt off 0x100000 0x4000 64).bind (fun x => (tilReg x.2).map (Reg.til x.1))
  else if off < 0x300000 then dleReg off
  else if off < 0x400000 then bsnReg off
  else if off < 0x500000 then colReg off
  else if off < 0x600000 then medReg off
  else if off < 0x700000 then netReg off
  else if off < 0x780000 then rasReg off
  else if off < 0x7C0000 then pwrReg off
  else mtrReg off

/-! ### From a register to its offset -/

def TilReg.off : TilReg → Nat
  | .id => 0x000 | .state => 0x004 | .ctrl => 0x008 | .seedLo => 0x010 | .seedHi => 0x014 | .srSel => 0x018
  | .ctrLo => 0x020 | .ctrHi => 0x024 | .nfStat => 0x030 | .runLo => 0x040 | .runHi => 0x044 | .waitLo => 0x048
  | .waitHi => 0x04C | .fault => 0x050 | .pcLo => 0x058 | .pcHi => 0x05C | .parCnt => 0x060 | .parLast => 0x064
  | .seqStat => 0x400 | .seqRange => 0x404 | .stepLo => 0x408 | .stepHi => 0x40C | .busyLo => 0x410 | .busyHi => 0x414
  | .dtCfg => 0x418 | .dtSel => 0x420 | .dtWin w => 0x500 + 4 * w.val

def BarReg.off : BarReg → Nat
  | .maskLo => 0x00 | .maskHi => 0x04 | .cfg => 0x08 | .group => 0x0C | .members => 0x10 | .wdog => 0x14 | .stat => 0x18
  | .ctrl => 0x1C

def SynReg.off : SynReg → Nat
  | .ctrSel => 0x00 | .ctrVal => 0x04 | .ctrAdd => 0x08 | .stat => 0x0C | .wdog => 0x10

def RegReg.off : RegReg → Nat
  | .tokens => 0x00 | .rate => 0x04 | .chargeLo => 0x08 | .chargeHi => 0x0C | .wait => 0x10

def GlnReg.off : GlnReg → Nat
  | .tblLo => 0x00 | .tblHi => 0x04 | .tblCount => 0x08 | .rank => 0x0C | .nf => 0x10 | .seedLo => 0x18 | .seedHi => 0x1C
  | .stat => 0x20 | .repair => 0x24 | .land => 0x28

/-- The reference offset of a register (stepping A1). -/
def Reg.off : Reg → Nat
  | .table k | .vtable _ k => 4 * k.val
  | .jrnBaseLo => 0x10100 | .jrnBaseHi => 0x10104 | .jrnCfg => 0x10108 | .jrnProd => 0x1010C | .jrnCons => 0x10110
  | .jrnStat => 0x10114 | .jrnLost => 0x10118 | .bar4Lo => 0x10180 | .bar4Hi => 0x10184
  | .ring r k => (match r.fn with | .pf => 0x10200 | .vf p => 0x21000 + 0x200 * p.val) + 0x40 * r.q.val + 4 * k.val
  | .plainMap k => 0x20000 + 4 * k.val | .barMap k => 0x20040 + 4 * k.val | .daleMap k => 0x20100 + 4 * k.val
  | .basinMap k => 0x20400 + 4 * k.val | .quota p => 0x20600 + 4 * p.val
  | .acctLo => 0x20800 | .acctHi => 0x20804 | .acctCtrl => 0x20808
  | .pState p => 0x21100 + 0x200 * p.val | .pCtrl p => 0x21104 + 0x200 * p.val | .pInflight p => 0x21108 + 0x200 * p.val
  | .pShortLo p => 0x21110 + 0x200 * p.val | .pShortHi p => 0x21114 + 0x200 * p.val | .pDrop p => 0x21118 + 0x200 * p.val
  | .supStat => 0x40000 | .supCfg => 0x40004 | .supCtrl => 0x40008
  | .til i r => 0x100000 + 0x4000 * i.val + r.off
  | .bar s r => 0x80000 + 0x40 * s.val + r.off
  | .syn p r => 0x81000 + 0x100 * p.val + r.off
  | .thrCfg => 0x200000 | .dleTrip => 0x200004
  | .sStat s => 0x200100 + 0x100 * s.val | .sTmax s => 0x200104 + 0x100 * s.val | .sThrLo s => 0x200108 + 0x100 * s.val
  | .sThrHi s => 0x20010C + 0x100 * s.val
  | .dleCfg p => 0x200E00 + 4 * p.val | .dle p r => 0x201000 + 0x40 * p.val + r.off
  | .chStat c => 0x300000 + 0x40 * c.val | .bsnCfg p => 0x300800 + 4 * p.val | .bsn p r => 0x301000 + 0x40 * p.val + r.off
  | .glnStore => 0x304000 | .glnQuota p => 0x304800 + 4 * p.val
  | .gStat c => 0x304100 + 0x20 * c.val | .gCycLo c => 0x304108 + 0x20 * c.val | .gCycHi c => 0x30410C + 0x20 * c.val
  | .gln p r => 0x305000 + 0x40 * p.val + r.off
  | .colPend => 0x400000
  | .cStat c => 0x400100 + 0x20 * c.val | .cCtrl c => 0x400104 + 0x20 * c.val | .cReplay c => 0x400108 + 0x20 * c.val
  | .cDrop c => 0x40010C + 0x20 * c.val
  | .axCtrl a => 0x400400 + 0x80 * a.val | .axMode a b => 0x400410 + 0x80 * a.val + 0x20 * b.val
  | .axLen a b => 0x400414 + 0x80 * a.val + 0x20 * b.val | .axPos a b => 0x400418 + 0x80 * a.val + 0x20 * b.val
  | .pAbort p => 0x401000 + 0x20 * p.val | .pGclr p => 0x401004 + 0x20 * p.val
  | .idle i w => 0x402000 + 0x40 * i.val + 4 * w.val
  | .eStat e => 0x500000 + 0x40 * e.val | .eCtrl e => 0x500004 + 0x40 * e.val
  | .share p => 0x501000 + 0x20 * p.val | .keyReq p => 0x501004 + 0x20 * p.val | .corrupt p => 0x581000 + 0x20 * p.val
  | .tgtSel => 0x600000 | .tgtWin w => 0x600040 + 4 * w.val
  | .portStat n => 0x600100 + 0x40 * n.val | .fecCorr n => 0x600104 + 0x40 * n.val | .fecUncorr n => 0x600108 + 0x40 * n.val
  | .stranger n => 0x60010C + 0x40 * n.val
  | .evBaseLo => 0x700000 | .evBaseHi => 0x700004 | .evCfg => 0x700008 | .evProd => 0x70000C | .evCons => 0x700010
  | .evStat => 0x700014 | .scrubCfg t => 0x700040 + 4 * t.val | .scrubPass t => 0x700050 + 4 * t.val | .eccCnt => 0x70005C
  | .flipLo => 0x700060 | .flipHi => 0x700064 | .flipCfg => 0x700068 | .flipCtrl => 0x70006C | .plainCtrl => 0x700090
  | .evDrop s => 0x700400 + 4 * s.val
  | .supply => 0x780000 | .bootStat => 0x780004 | .rstCtrl => 0x780008 | .strap => 0x78000C | .pinmux => 0x780010
  | .gpio => 0x780014 | .flow => 0x780018 | .aonLo => 0x780020 | .aonHi => 0x780024 | .ppsLo => 0x780028
  | .ppsHi => 0x78002C | .domStat k => 0x780100 + 4 * k.val
  | .mtrStat => 0x7C0000 | .mtrKey => 0x7C0004 | .mtrParam => 0x7C0008 | .mtrSeqLo => 0x7C0010 | .mtrSeqHi => 0x7C0014
  | .mtrRec w => 0x7C8000 + 4 * w.val

/-! ### Attributes (R35) and windows (R39, R58) -/

/-- BYTE_WR (R87). -/
def Reg.byteWr : Reg → Bool
  | .plainMap _ | .barMap _ | .daleMap _ | .basinMap _ => true
  | _ => false

/-- NOJRN. -/
def Reg.noJrn : Reg → Bool
  | .jrnCons | .pDrop _ | .dle _ .wait | .bsn _ .wait | .cReplay _ | .cDrop _ | .fecCorr _ | .fecUncorr _ | .stranger _
  | .corrupt _ | .keyReq _ | .evCons | .evDrop _ | .eccCnt | .gpio | .flow => true
  | .ring _ k => k == 5
  | .til _ r => r == .nfStat || r == .parCnt
  | .bar _ r => r == .stat
  | .syn _ r => r == .ctrAdd
  | .gln _ r => r == .nf || r == .repair
  | _ => false

/-- The high word of an atomic pair, for its low word (PAIR_LO with ATOMIC). -/
def Reg.pairHi : Reg → Option Reg
  | .jrnBaseLo => some .jrnBaseHi
  | .bar4Lo => some .bar4Hi
  | .ring r k => if k = 0 then some (.ring r 1) else if k = 2 then some (.ring r 3) else none
  | .acctLo => some .acctHi
  | .pShortLo p => some (.pShortHi p)
  | .til i .seedLo => some (.til i .seedHi)
  | .til i .ctrLo => some (.til i .ctrHi)
  | .til i .runLo => some (.til i .runHi)
  | .til i .waitLo => some (.til i .waitHi)
  | .til i .pcLo => some (.til i .pcHi)
  | .til i .stepLo => some (.til i .stepHi)
  | .til i .busyLo => some (.til i .busyHi)
  | .bar s .maskLo => some (.bar s .maskHi)
  | .sThrLo s => some (.sThrHi s)
  | .dle p .chargeLo => some (.dle p .chargeHi)
  | .bsn p .chargeLo => some (.bsn p .chargeHi)
  | .gln p .tblLo => some (.gln p .tblHi)
  | .gln p .seedLo => some (.gln p .seedHi)
  | .gCycLo c => some (.gCycHi c)
  | .idle i w => if h : w.val % 2 = 0 then some (.idle i ⟨w.val + 1, by omega⟩) else none
  | .evBaseLo => some .evBaseHi
  | .flipLo => some .flipHi
  | .aonLo => some .aonHi
  | .ppsLo => some .ppsHi
  | .mtrSeqLo => some .mtrSeqHi
  | _ => none

/-- READ_SIDE: the registers that hold an RC field (R38). -/
def Reg.readSide : Reg → Bool
  | .jrnLost | .pDrop _ | .til _ .parCnt | .sTmax _ | .dle _ .wait | .bsn _ .wait | .gln _ .repair | .cReplay _ | .cDrop _
  | .fecCorr _ | .fecUncorr _ | .stranger _ | .corrupt _ | .evDrop _ | .eccCnt => true
  | _ => false

/-- Whether a register is a word of a Pelvilen table (R32). -/
def Reg.isTable : Reg → Bool
  | .table _ | .vtable _ _ => true
  | _ => false

/-- The blocks of R18, in its order; `pelvilen` is the table, which lies in no block. -/
inductive BlockName where
  | hif | prt | ccx | syn | til | dle | bsn | gln | col | med | smp | net | ras | pwr | mtr | pelvilen
deriving DecidableEq, Repr

/-- The block that a register belongs to. -/
def Reg.block : Reg → BlockName
  | .table _ | .vtable _ _ => .pelvilen
  | .jrnBaseLo | .jrnBaseHi | .jrnCfg | .jrnProd | .jrnCons | .jrnStat | .jrnLost | .bar4Lo | .bar4Hi => .hif
  | .ring r _ => match r.fn with | .pf => .hif | .vf _ => .prt
  | .plainMap _ | .barMap _ | .daleMap _ | .basinMap _ | .quota _ | .acctLo | .acctHi | .acctCtrl | .pState _ | .pCtrl _
  | .pInflight _ | .pShortLo _ | .pShortHi _ | .pDrop _ => .prt
  | .supStat | .supCfg | .supCtrl => .ccx
  | .til _ _ => .til
  | .bar _ _ | .syn _ _ => .syn
  | .thrCfg | .dleTrip | .sStat _ | .sTmax _ | .sThrLo _ | .sThrHi _ | .dleCfg _ | .dle _ _ => .dle
  | .chStat _ | .bsnCfg _ | .bsn _ _ => .bsn
  | .glnStore | .glnQuota _ | .gStat _ | .gCycLo _ | .gCycHi _ | .gln _ _ => .gln
  | .colPend | .cStat _ | .cCtrl _ | .cReplay _ | .cDrop _ | .axCtrl _ | .axMode _ _ | .axLen _ _ | .axPos _ _ | .pAbort _
  | .pGclr _ | .idle _ _ => .col
  | .eStat _ | .eCtrl _ | .share _ | .keyReq _ => .med
  | .corrupt _ => .smp
  | .tgtSel | .tgtWin _ | .portStat _ | .fecCorr _ | .fecUncorr _ | .stranger _ => .net
  | .evBaseLo | .evBaseHi | .evCfg | .evProd | .evCons | .evStat | .scrubCfg _ | .scrubPass _ | .eccCnt | .flipLo | .flipHi
  | .flipCfg | .flipCtrl | .plainCtrl | .evDrop _ => .ras
  | .supply | .bootStat | .rstCtrl | .strap | .pinmux | .gpio | .flow | .aonLo | .aonHi | .ppsLo | .ppsHi | .domStat _ => .pwr
  | .mtrStat | .mtrKey | .mtrParam | .mtrSeqLo | .mtrSeqHi | .mtrRec _ => .mtr

/-- The clock domain of a register's unit, for the registers of units whose clock can stop (R41, R406). -/
def Reg.domain : Reg → Option Nat
  | .til i _ => some i.val
  | .sStat s | .sTmax s | .sThrLo s | .sThrHi s => some (stackDom s)
  | .chStat c | .gStat c | .gCycLo c | .gCycHi c => some (channelDom c)
  | .cStat c | .cCtrl c | .cReplay c | .cDrop c => some (colDom c)
  | .axCtrl a | .axMode a _ | .axLen a _ | .axPos a _ => some (82 + a.val)
  | .colPend | .pAbort _ | .pGclr _ => some reduceDom
  | .portStat n | .fecCorr n | .fecUncorr n | .stranger n => some (macDom n)
  | .eStat e | .eCtrl e => some (mediaDom e)
  | .corrupt _ => some sampleDom
  | _ => none

/-- Whether a register belongs to the window of partition `p`, whose table lists the plains `ps` and slots `bs`. -/
def Reg.inWindow (p : Fin 64) (ps : List (Fin 64)) (bs : List (Fin 32)) : Reg → Bool
  | .vtable x _ => x == p
  | .ring r _ => r.fn == .vf p
  | .pState x | .pCtrl x | .pInflight x | .pShortLo x | .pShortHi x | .pDrop x => x == p
  | .til i _ => ps.contains i
  | .bar s _ => bs.contains s
  | .syn x _ | .dle x _ | .bsn x _ | .gln x _ | .pAbort x | .pGclr x | .share x | .keyReq x | .corrupt x => x == p
  | .idle i _ => ps.contains i
  | _ => false

end Sys2Proof.Machine
end

