-- ==== Sys2Proof/Machine/Table.lean ====
section
/-! DEFINITION. The Pelvilen tables (R32 to R39): the physical function's, and that of each virtual function with the layout of its
BAR0. Both are built from the register map and the attributes of Machine/RegMap.lean. Log entry 9 says what the part chooses. -/

namespace Sys2Proof.Machine

open Sys2Proof

/-- A block's mnemonic (R18): three capitals, the first in [7:0]. -/
def BlockName.ascii : BlockName → String
  | .hif => "HIF" | .prt => "PRT" | .ccx => "CCX" | .syn => "SYN" | .til => "TIL" | .dle => "DLE" | .bsn => "BSN" | .gln => "GLN"
  | .col => "COL" | .med => "MED" | .smp => "SMP" | .net => "NET" | .ras => "RAS" | .pwr => "PWR" | .mtr => "MTR" | .pelvilen => ""
def BlockName.code (b : BlockName) : Word := bytesWord (b.ascii.toList.map (fun c => BitVec.ofNat 8 c.toNat))

/-- A block's place in R18. -/
def BlockName.idx : BlockName → Nat
  | .hif => 0 | .prt => 1 | .ccx => 2 | .syn => 3 | .til => 4 | .dle => 5 | .bsn => 6 | .gln => 7 | .col => 8 | .med => 9 | .smp => 10
  | .net => 11 | .ras => 12 | .pwr => 13 | .mtr => 14 | .pelvilen => 15

/-- A block entry (R34): the base of instance 0 in the BAR0 that holds the table, and where in the physical function's BAR0 each
instance lies. -/
structure TableBlock where
  name   : BlockName
  offset : Nat
  stride : Nat
  size   : Nat
  insts  : List Nat
deriving DecidableEq, Repr

/-- The physical function's blocks: OFFSET as R18 lists it, SIZE as far as the block's register map reaches. -/
def pfBlocks : List TableBlock :=
  [{ name := .hif, offset := 0x10000, stride := 0, size := 0x300, insts := [0x10000] },
   { name := .prt, offset := 0x20000, stride := 0, size := 0x9000, insts := [0x20000] },
   { name := .ccx, offset := 0x40000, stride := 0, size := 0x0C, insts := [0x40000] },
   { name := .syn, offset := 0x80000, stride := 0, size := 0x5000, insts := [0x80000] },
   { name := .til, offset := 0x100000, stride := 0x4000, size := 0x4000, insts := (List.range 64).map (fun i => 0x100000 + 0x4000 * i) },
   { name := .dle, offset := 0x200000, stride := 0, size := 0x2000, insts := [0x200000] },
   { name := .bsn, offset := 0x300000, stride := 0, size := 0x2000, insts := [0x300000] },
   { name := .gln, offset := 0x300000, stride := 0, size := 0x6000, insts := [0x300000] },
   { name := .col, offset := 0x400000, stride := 0, size := 0x3000, insts := [0x400000] },
   { name := .med, offset := 0x500000, stride := 0, size := 0x1800, insts := [0x500000] },
   { name := .smp, offset := 0x580000, stride := 0, size := 0x1800, insts := [0x580000] },
   { name := .net, offset := 0x600000, stride := 0, size := 0x180, insts := [0x600000] },
   { name := .ras, offset := 0x700000, stride := 0, size := 0x600, insts := [0x700000] },
   { name := .pwr, offset := 0x780000, stride := 0, size := 0x290, insts := [0x780000] },
   { name := .mtr, offset := 0x7C0000, stride := 0, size := 0x10000, insts := [0x7C0000] }]

/-- The attribute bits of a register (R35), without its offset. -/
def Reg.attr (r : Reg) : Nat :=
  (if r.pairHi.isSome then 3 * 2 ^ 24 else 0) + (if r.byteWr then 2 ^ 26 else 0) + (if r.readSide then 2 ^ 27 else 0) +
  (if r.noJrn then 2 ^ 28 else 0)

/-- The attribute records of a block, by ascending offset: one for each of its registers that has an attribute (R35, R38). -/
def TableBlock.attrs (b : TableBlock) : List Word :=
  match b.insts with
  | [] => []
  | base :: _ => (List.range (b.size / 4)).filterMap (fun k =>
      match regAt (base + 4 * k) with
      | some r => if r.block == b.name && r.attr != 0 then some (BitVec.ofNat 32 (4 * k + r.attr)) else none
      | none => none)

/-- READ_ONLY: every register of the block is RO or RC; the metering block alone is listed so (R18). -/
def TableBlock.readOnly (b : TableBlock) : Bool := b.name == .mtr

/-- A block entry's words, its first attribute record at the table offset `at'` (R34). -/
def TableBlock.words (b : TableBlock) (at' count : Nat) : List Word :=
  [b.name.code, (Config.blockVersion b.name.idx) ++ (BitVec.ofNat 16 b.insts.length), BitVec.ofNat 32 b.offset,
   (if b.insts.length = 1 then 0 else BitVec.ofNat 32 b.stride), BitVec.ofNat 32 b.size, Config.blockCap b.name.idx,
   BitVec.ofNat 32 (at' + 65536 * count), BitVec.ofNat 32 (b2n b.readOnly)]

/-- The entries of a list of blocks, whose attribute records follow one another from the table offset `at'` on. -/
def blockWords : List TableBlock → Nat → List Word
  | [], _ => []
  | b :: r, at' => let n := b.attrs.length; b.words at' n ++ blockWords r (at' + 4 * n)

/-- The header of R33, with a checksum of 0. -/
def headerWords (entries len : Nat) (view : Word) (gen : Word) : List Word :=
  [0x4E4C5650, 0x00400100, 0x00110840, BitVec.ofNat 32 (entries + 65536 * 32), 0x40, BitVec.ofNat 32 len, view, 0, 7, gen,
   0, 0, 0, 0, 0, 0]

/-- A whole table: its words sum to 0 (R36). -/
def tableOf (bs : List TableBlock) (view gen : Word) : List Word :=
  let body := blockWords bs (64 + 32 * bs.length) ++ bs.flatMap TableBlock.attrs
  let t := headerWords bs.length (64 + 4 * body.length) view gen ++ body
  t.set 7 (0 - t.foldl (· + ·) 0)

/-- The physical function's table (R33): BAR0_MIB 32. -/
def pfTable : List Word := tableOf pfBlocks 32 0

/-! ### A virtual function's BAR0 (R39, R58) -/

/-- The blocks of a partition's window, not yet placed: its PRT instance, the barrier slots and the plains that its table lists, and
its instances of the other blocks. A block with no instance is not listed (R34). -/
def vfUnplaced (p : Fin 64) (ps : List (Fin 64)) (bs : List (Fin 32)) : List TableBlock :=
  ([{ name := .prt, offset := 0, stride := 0x200, size := 0x200, insts := [0x21000 + 0x200 * p.val] },
    { name := .syn, offset := 0, stride := 0x40, size := 0x40, insts := bs.map (fun s => 0x80000 + 0x40 * s.val) },
    { name := .syn, offset := 0, stride := 0x100, size := 0x100, insts := [0x81000 + 0x100 * p.val] },
    { name := .til, offset := 0, stride := 0x4000, size := 0x4000, insts := ps.map (fun i => 0x100000 + 0x4000 * i.val) },
    { name := .dle, offset := 0, stride := 0x40, size := 0x40, insts := [0x201000 + 0x40 * p.val] },
    { name := .bsn, offset := 0, stride := 0x40, size := 0x40, insts := [0x301000 + 0x40 * p.val] },
    { name := .gln, offset := 0, stride := 0x40, size := 0x40, insts := [0x305000 + 0x40 * p.val] },
    { name := .col, offset := 0, stride := 0x20, size := 0x20, insts := [0x401000 + 0x20 * p.val] },
    { name := .col, offset := 0, stride := 0x40, size := 0x40, insts := ps.map (fun i => 0x402000 + 0x40 * i.val) },
    { name := .med, offset := 0, stride := 0x20, size := 0x20, insts := [0x501000 + 0x20 * p.val] },
    { name := .smp, offset := 0, stride := 0x20, size := 0x20, insts := [0x581000 + 0x20 * p.val] }] : List TableBlock).filter
    (fun b => !b.insts.isEmpty)

/-- The bytes that a block takes. -/
def TableBlock.span (b : TableBlock) : Nat := b.stride * b.insts.length

/-- The bounds of R39: every block at or above 0x1_0000, wholly within 4 MiB, none overlapping another, and aligned as its register
pairs need (R35). -/
def basesOk : List (Nat × Nat) → Bool
  | [] => true
  | (a, n) :: r => 0x10000 ≤ a && a + n ≤ 0x400000 && a % 8 = 0 && r.all (fun x => a + n ≤ x.1 || x.1 + x.2 ≤ a) && basesOk r

/-- Blocks one after another from `a` on. -/
def packed : Nat → List Nat → List Nat
  | _, [] => []
  | a, n :: r => a :: packed (a + n) r

/-- Where the part puts the blocks: its own choice where that keeps the bounds, else one after another. -/
def vfBases (p : Fin 64) (gen : Word) (spans : List Nat) : List Nat :=
  let l := Config.vfBases p gen spans
  if l.length = spans.length && basesOk (l.zip spans) then l else packed 0x10000 spans

/-- The blocks of a virtual function's table, placed. -/
def Dev.vfBlocks (d : Dev) (p : Fin 64) : List TableBlock :=
  let x := d.part p
  let bs := vfUnplaced p x.use x.bars
  bs.zipWith (fun b a => { b with offset := a }) (vfBases p x.vfGen (bs.map TableBlock.span))

/-- A virtual function's table: VF_VIEW set, BAR0_MIB 4, GEN its rewrites since module reset (R33). -/
def Dev.vfTable (d : Dev) (p : Fin 64) : List Word := tableOf (d.vfBlocks p) 0x10004 (d.part p).vfGen

/-- Where an offset of a block's window lies in the physical function's BAR0. -/
def TableBlock.pfOff (b : TableBlock) (off : Nat) : Option Nat :=
  if b.offset ≤ off && off < b.offset + b.span then
    (b.insts[(off - b.offset) / b.stride]?).map (fun a => a + (off - b.offset) % b.stride)
  else none

/-- The register at an offset of a virtual function's BAR0, with its offset in the physical function's; none is a hole (R40). -/
def Dev.vfReg (d : Dev) (p : Fin 64) (off : Nat) : Option (Nat × Reg) :=
  if off % 4 != 0 then none
  else if off < 0x10000 then (finOf 16384 (off / 4)).map (fun k => (off, .vtable p k))
  else ((d.vfBlocks p).findSome? (fun b => b.pfOff off)).bind (fun o => (regAt o).bind (fun r =>
    if r.inWindow p (d.part p).use (d.part p).bars then some (o, r) else none))

end Sys2Proof.Machine
end

