-- ==== Sys2Proof/Machine/RegRead.lean ====
section
/-! DEFINITION. What a read of each register returns (R9, and the Registers section of every chapter). -/

namespace Sys2Proof.Machine

open Sys2Proof

def bitmap (n : Nat) (f : Nat → Bool) : Nat := (List.range n).foldl (fun a k => a + b2n (f k) * 2 ^ k) 0

def PlainState.code : PlainState → Nat
  | .fenced => 0 | .stopped => 1 | .idle => 2 | .busy => 3 | .waking => 4 | .bist => 5

def PState.code : PState → Nat
  | .empty => 0 | .idle => 1 | .loaded => 2 | .resetting => 3

def Thread.onSyn (t : Thread) : Bool :=
  t.live && (match t.stall with | .synWait => true | .barSync _ => true | .barHeld _ => true | _ => false)

/-- A half that holds a kept tile (R138). -/
def Plain.kept (p : Plain) : Bool := p.acc.toList.any (fun h => h.state == .kept)

def Dev.readTil (d : Dev) (i : Fin 64) (r : TilReg) : Word :=
  let p := d.plain i
  let n (x : Nat) : Word := BitVec.ofNat 32 x
  match r with
  | .id => n (i.val + 256 * (i.val % 8) + 4096 * (i.val / 8) + 65536 * (2 * (i.val / 32) + i.val % 8 / 4))
  | .state => n (p.state.code + 256 * (Tab.at d.plainMap i).toNat + 65536 * (p.seq.cur.getD 0x1FF))
  | .ctrl => p.ctrl
  | .seedLo => lo32 p.seed
  | .seedHi => hi32 p.seed
  | .srSel => n p.srSel.toNat
  | .ctrLo => lo32 (p.ctrs.toList.getD p.srSel.toNat 0)
  | .ctrHi => hi32 (p.ctrs.toList.getD p.srSel.toNat 0)
  | .nfStat => n p.nf.toNat
  | .runLo => n (bitmap 32 (fun t => (p.threads.toList.map Thread.live).getD t false))
  | .runHi => n (bitmap 32 (fun t => (p.threads.toList.map Thread.live).getD (t + 32) false))
  | .waitLo => n (bitmap 32 (fun t => (p.threads.toList.map Thread.onSyn).getD t false))
  | .waitHi => n (bitmap 32 (fun t => (p.threads.toList.map Thread.onSyn).getD (t + 32) false))
  | .fault => p.thrFault
  | .pcLo => lo32 p.faultPc
  | .pcHi => hi32 p.faultPc
  | .parCnt => n p.parCnt.toNat
  | .parLast => p.parLast
  | .seqStat => n (p.seq.cur.getD 0x1FF + 512 * p.seq.lastDone.toNat + 262144 * b2n p.seq.waiting +
      524288 * b2n p.kept + 1048576 * (p.seq.half.getD 0).val)
  | .seqRange => n (p.seq.first.toNat + 65536 * p.seq.last.toNat)
  | .stepLo => lo32 p.seq.step
  | .stepHi => hi32 p.seq.step
  | .busyLo => lo32 p.seq.busy
  | .busyHi => hi32 p.seq.busy
  | .dtCfg => n (p.dynFirst.toNat + 65536 * p.dynCount.toNat)
  | .dtSel => n p.dtSel.toNat
  | .dtWin w => Sparse.get 0 p.table (64 * p.dtSel.toNat + w.val)

/-- The member plains of a slot. -/
def Barrier.mask (b : Barrier) : Nat := b.maskLo.toNat + 2 ^ 32 * b.maskHi.toNat
def Barrier.member (b : Barrier) (i : Fin 64) : Bool := b.mask / 2 ^ i.val % 2 == 1
def Barrier.perPlain (b : Barrier) : Nat := bits b.cfg 0 7
/-- The member plains that have arrived in the present generation (R222). -/
def Barrier.arrived (b : Barrier) (i : Fin 64) : Bool := b.perPlain ≤ (Tab.at b.counts i).toNat
def Barrier.nArrived (b : Barrier) : Nat :=
  ((List.finRange 64).filter (fun i => b.member i && b.arrived i)).length

def BarState.code : BarState → Nat
  | .idle => 0 | .active => 1 | .failed => 2

def Dev.readBar (d : Dev) (s : Fin 32) (r : BarReg) : Word :=
  let b := Tab.at d.bars s
  match r with
  | .maskLo => b.maskLo
  | .maskHi => b.maskHi
  | .cfg => b.cfg
  | .group => b.group.setWidth 32
  | .members => b.members.setWidth 32
  | .wdog => b.wdog
  | .stat => BitVec.ofNat 32 (b.state.code + 4 * b.nArrived + 65536 * b.gen.toNat)
  | .ctrl => 0

def Dev.readSyn (d : Dev) (p : Fin 64) (r : SynReg) : Word :=
  let x := d.part p
  match r with
  | .ctrSel => x.ctrSel.setWidth 32
  | .ctrVal => match x.counter x.ctrSel with
    | some c => BitVec.ofNat 32 (c.value.toNat + 65536 * b2n c.satHi + 131072 * b2n c.satLo + 16777216 * c.home.val + 2 ^ 31)
    | none => 0
  | .ctrAdd => 0
  | .stat => x.synStat
  | .wdog => x.ctrWdog

def Regulator.read (g : Regulator) (r : RegReg) : Word :=
  match r with
  | .tokens => BitVec.ofNat 32 (g.tokens / 8)
  | .rate => g.cfg
  | .chargeLo => lo32 g.charge
  | .chargeHi => hi32 g.charge
  | .wait => g.wait

def Dev.readGln (d : Dev) (p : Fin 64) (r : GlnReg) : Word :=
  let x := d.part p
  match r with
  | .tblLo => x.tblLo
  | .tblHi => x.tblHi
  | .tblCount => x.tblCount.setWidth 32
  | .rank => x.rank.setWidth 32
  | .nf => x.nf.setWidth 32
  | .seedLo => lo32 x.seed
  | .seedHi => hi32 x.seed
  | .stat => x.glnStat
  | .repair => x.repair
  | .land => x.land

/-- Free entries of the glen store (R257). -/
def Dev.storeFree (d : Dev) : Nat := 65536 - sumN (d.parts.toList.map (fun p => p.shards.length))

def ColState.code : ColState → Nat
  | .down => 0 | .training => 1 | .ready => 2 | .active => 3
def EngineState.code : EngineState → Nat
  | .off => 0 | .ready => 1 | .busy => 2 | .failed => 3 | .bist => 4
def GlenState.code : GlenState → Nat
  | .idle => 0 | .busy => 1 | .stopping => 2
def StackState.code : StackState → Nat
  | .full => 0 | .throttled => 1 | .tripped => 2
def DomState.code : DomState → Nat
  | .pllOff => 0 | .gated => 1 | .running => 2 | .held => 3
def SupState.code : SupState → Nat
  | .ready => 0 | .fencing => 1 | .failed => 2

def Ring.read (r : Ring) (k : Fin 6) : Word :=
  match k with
  | 0 => r.sqBaseLo
  | 1 => r.sqBaseHi
  | 2 => r.cqBaseLo
  | 3 => r.cqBaseHi
  | 4 => r.cfg
  | 5 => BitVec.ofNat 32 (r.sqHead.toNat + 65536 * (r.written % ringSize r.cfg 8))

/-- Transfers of a partition in flight in shared engines (PRT_P_INFLIGHT). -/
def Dev.inflight (d : Dev) (p : Fin 64) : Nat :=
  let x := d.part p
  x.dale.queue.length + x.basin.queue.length +
  sumN ((List.finRange 64).map (fun i => if d.plainOwner i = some p
    then ((d.plain i).reqs.filter (fun q => q.stage != .issued)).length else 0)) +
  sumN (d.targets.toList.map (fun t => (t.reqs.filter (fun q => q.ring.fn == .vf p)).length))

/-- Four owner bytes of a map (R87). -/
def mapWord {n : Nat} (m : Tab Byte n) (k : Nat) : Word :=
  bytesWord ((List.range 4).map (fun j => m.toList.getD (4 * k + j) 0xFF))

def Dev.readTgt (d : Dev) (w : Fin 16) : Word :=
  let i := d.tgtSel.toNat
  if h : i < 256 then Tab.at (Tab.at d.targets ⟨i, h⟩).words w
  else if h : i - 256 < 2 then Tab.at (Tab.at d.ports ⟨i - 256, h⟩).words w
  else 0

/-- The value that a 32-bit read of a register returns, before any side effect (R9). -/
def Dev.readReg (d : Dev) (r : Reg) : Word :=
  let n (x : Nat) : Word := BitVec.ofNat 32 x
  match r with
  | .table k => pfTable.getD k.val 0
  | .vtable p k => (d.vfTable p).getD k.val 0
  | .jrnBaseLo => d.hif.jBaseLo
  | .jrnBaseHi => d.hif.jBaseHi
  | .jrnCfg => d.hif.jCfg
  | .jrnProd => d.hif.jProd.setWidth 32
  | .jrnCons => d.hif.jCons.setWidth 32
  | .jrnStat => n (b2n d.hif.jFull + 2 * b2n d.hif.jLost + 4 * b2n d.hif.jOvf + 256 * d.hif.staging.length)
  | .jrnLost => d.hif.jLostCnt
  | .bar4Lo => d.hif.bar4Lo
  | .bar4Hi => d.hif.bar4Hi
  | .ring x k => (d.ring x).read k
  | .plainMap k => mapWord d.plainMap k.val
  | .barMap k => mapWord d.barMap k.val
  | .daleMap k => mapWord d.daleMap k.val
  | .basinMap k => mapWord d.basinMap k.val
  | .quota p => (d.part p).quota
  | .acctLo => d.acctLo
  | .acctHi => d.acctHi
  | .acctCtrl => n (2 * b2n d.acctBusy)
  | .pState p => n ((d.part p).state.code + 4 * b2n (!(d.part p).fills.isEmpty) +
      65536 * (if (d.part p).state = .loaded then (d.part p).imageId.toNat else 0))
  | .pCtrl _ => 0
  | .pInflight p => n (min (d.inflight p) 0xFFFF)
  | .pShortLo p => (d.part p).shortLo
  | .pShortHi p => (d.part p).shortHi
  | .pDrop p => (d.part p).drop
  | .supStat => n (d.ccx.sup.code + 256 * d.ccx.lastCause.toNat + 65536 * d.ccx.epoch.toNat)
  | .supCfg => d.ccx.fenceWait
  | .supCtrl => 0
  | .til i x => d.readTil i x
  | .bar s x => d.readBar s x
  | .syn p x => d.readSyn p x
  | .thrCfg => n (85 + 256 * 95 + 65536 * 105 + 16777216 * d.warnC.toNat)
  | .dleTrip => d.trip
  | .sStat s => let k := Tab.at d.daleStacks s; n (k.temp.toNat + 256 * k.slots.toNat + 65536 * k.state.code)
  | .sTmax s => (Tab.at d.daleStacks s).tmax.setWidth 32
  | .sThrLo s => lo32 (Tab.at d.daleStacks s).thrCyc
  | .sThrHi s => hi32 (Tab.at d.daleStacks s).thrCyc
  | .dleCfg p => (d.part p).dale.cfg
  | .dle p x => (d.part p).dale.read x
  | .chStat c => let k := Tab.at d.channels c; n (k.mr4.toNat + 256 * b2n k.tripped)
  | .bsnCfg p => (d.part p).basin.cfg
  | .bsn p x => (d.part p).basin.read x
  | .glnStore => n d.storeFree
  | .glnQuota p => (d.part p).glnQuota.setWidth 32
  | .gStat c => let g := Tab.at d.glens c
    n (g.state.code + 256 * (ownerByte g.part).toNat + 65536 * g.shard.toNat)
  | .gCycLo c => lo32 (Tab.at d.glens c).cyc
  | .gCycHi c => hi32 (Tab.at d.glens c).cyc
  | .gln p x => d.readGln p x
  | .colPend => n (d.early.length + 65536 * b2n d.pendFull)
  | .cStat c => let k := Tab.at d.cols c; n (k.state.code + 256 * k.lanes.toNat + 65536 * b2n k.bank)
  | .cCtrl c => n (2 * b2n (Tab.at d.cols c).disable)
  | .cReplay c => (Tab.at d.cols c).replays
  | .cDrop c => (Tab.at d.cols c).drops
  | .axCtrl a => let x := Tab.at d.axes a; n (x.active.val + 2 * b2n x.arm + 4 * x.slot.val)
  | .axMode a b => (Tab.at (Tab.at d.axes a).banks b).mode
  | .axLen a b => (Tab.at (Tab.at d.axes a).banks b).len.setWidth 32
  | .axPos a b => (Tab.at (Tab.at d.axes a).banks b).pos.setWidth 32
  | .pAbort p => (d.part p).abort
  | .pGclr _ => 0
  | .idle i w => let v := (d.plain i).idle.toList.getD (w.val / 2) 0; if w.val % 2 = 0 then lo32 v else hi32 v
  | .eStat e => let x := Tab.at d.engines e; n (x.state.code + 256 * min 16 x.streams)
  | .eCtrl _ => 0
  | .share p => (d.part p).share
  | .keyReq p => (d.part p).keyReq.setWidth 32
  | .corrupt p => (d.part p).corrupt
  | .tgtSel => d.tgtSel.setWidth 32
  | .tgtWin w => d.readTgt w
  | .portStat k => let x := Tab.at d.ports k; n (b2n x.link + 2 * b2n x.fecLock + 16 * x.cause.toNat)
  | .fecCorr k => (Tab.at d.ports k).fecCorr
  | .fecUncorr k => (Tab.at d.ports k).fecUncorr
  | .stranger k => (Tab.at d.ports k).stranger
  | .evBaseLo => d.ras.evBaseLo
  | .evBaseHi => d.ras.evBaseHi
  | .evCfg => d.ras.evCfg
  | .evProd => d.ras.prod.setWidth 32
  | .evCons => d.ras.cons.setWidth 32
  | .evStat => n (b2n d.ras.full + 2 * b2n d.ras.dropped + 256 * d.ras.staging.length)
  | .scrubCfg t => Tab.at d.ras.scrubCfg t
  | .scrubPass t => Tab.at d.ras.scrubPass t
  | .eccCnt => n (d.ras.eccDale.toNat + 65536 * d.ras.eccBasin.toNat)
  | .flipLo => d.ras.flipLo
  | .flipHi => d.ras.flipHi
  | .flipCfg => d.ras.flipCfg
  | .flipCtrl => n (2 * b2n d.ras.flipBusy + 4 * b2n d.ras.flipMiss)
  | .plainCtrl => 0
  | .evDrop s => (Tab.at d.ras.drops s).setWidth 32
  | .supply => n (b2n d.pwr.nvw.inForce + 2 * b2n d.pwr.capped + 4 * b2n d.pwr.leak + 65536 * d.pwr.vin.toNat)
  | .bootStat => let b := d.pwr.boot; n (b.step.toNat + 8 * b2n b.fail + 256 * b.unit.toNat + 8192 * b2n b.basin)
  | .rstCtrl => 0
  | .strap => n d.pwr.strap.toNat
  | .pinmux => d.pwr.pinmux
  | .gpio => n (d.pwr.gpioOut.toNat + 256 * d.pwr.gpioIn.toNat + 65536 * d.pwr.winBusy.toNat)
  | .flow => d.pwr.flow.setWidth 32
  | .aonLo => lo32 d.pwr.aon
  | .aonHi => hi32 d.pwr.aon
  | .ppsLo => lo32 d.pwr.pps
  | .ppsHi => hi32 d.pwr.pps
  | .domStat k => let x := Tab.at d.pwr.doms k; n (x.state.code + 256 * x.mhz.toNat)
  | .mtrStat => d.mtr.stat
  | .mtrKey => Config.keyId
  | .mtrParam => d.mtr.paramVer
  | .mtrSeqLo => lo32 d.mtr.seq
  | .mtrSeqHi => hi32 d.mtr.seq
  | .mtrRec w => d.mtr.window w.val

end Sys2Proof.Machine
end

