-- ==== Sys2Proof/Machine/DevMem.lean ====
section
/-! DEFINITION. Device memory as engines reach it: shard table entries and where their state lies (R255 to R260), demand
reads, writes and marks with their outcomes (R369 to R371, R375), and the requests and charges of the bandwidth
regulators (R235 to R238). -/

namespace Sys2Proof.Machine

open Sys2Proof

/-! ### Shard table entries (R257 to R260, R277) -/

def Shard.tier (s : Shard) : Nat := bits (wd s 0) 0 2
def Shard.rule (s : Shard) : Nat := bits (wd s 0) 4 4
def Shard.delay (s : Shard) : Nat := bits (wd s 0) 8 3
def Shard.phase (s : Shard) : Nat := bits (wd s 0) 12 3
def Shard.lost (s : Shard) : Bool := bit (wd s 0) 16
def Shard.skipped (s : Shard) : Bool := bit (wd s 0) 17
def Shard.snapPending (s : Shard) : Bool := bit (wd s 0) 18
def Shard.avgEn (s : Shard) : Bool := bit (wd s 0) 19
def Shard.wwSr (s : Shard) : Bool := bit (wd s 0) 20
def Shard.owner (s : Shard) : BitVec 24 := BitVec.ofNat 24 (bits (wd s 1) 0 24)
def Shard.momentsStep (s : Shard) : Word := wd s 2
def Shard.weightsStep (s : Shard) : Word := wd s 3
def Shard.applied (s : Shard) : Word := wd s 4
def Shard.params (s : Shard) : Nat := (wd s 6).toNat
def Shard.pendHead (s : Shard) : Nat := bits (wd s 9) 0 3
def Shard.pendCount (s : Shard) : Nat := bits (wd s 9) 3 3
def Shard.landed (s : Shard) : Bool := bit (wd s 9) 6
def Shard.daleAddr (s : Shard) : Nat := (wd64 s 10).toNat
def Shard.rows (s : Shard) : Nat := bits (wd s 12) 0 16
def Shard.cols (s : Shard) : Nat := bits (wd s 12) 16 16
def Shard.target (s : Shard) : Word := wd s 13
def Shard.statAddr (s : Shard) : Nat := (wd64 s 14).toNat
/-- Rule parameter Pk. -/
def Shard.p (s : Shard) (k : Nat) : Word := wd s (16 + k)
def Shard.cursor (s : Shard) (c : Nat) : Nat := bits (wd s (32 + c / 2)) (16 * (c % 2)) 16
def Shard.setCursor (s : Shard) (c v : Nat) : Shard := setWd s (32 + c / 2) (setBits (wd s (32 + c / 2)) (16 * (c % 2)) 16 v)
def Shard.clearCursors (s : Shard) : Shard := (List.range 12).foldl (fun s k => setWd s (32 + k) 0) s
def Shard.setPhase (s : Shard) (v : Nat) : Shard := setWd s 0 (setBits (wd s 0) 12 3 v)
def Shard.flag (s : Shard) (k : Nat) (b : Bool) : Shard := setWd s 0 (setBits (wd s 0) k 1 (b2n b))
def Shard.setLanded (s : Shard) (b : Bool) : Shard := setWd s 9 (setBits (wd s 9) 6 1 (b2n b))
/-- Matrix rules borrow plains (R268): ORTHO and KRON. -/
def Shard.matrix (s : Shard) : Bool := 8 ≤ s.rule

/-- The channels of a shard's slices, ascending (R259). -/
def Shard.channels (s : Shard) : List (Fin 24) := (List.finRange 24).filter (fun c => bit (wd s 5) c.val)
/-- S of R259: parameters in a full slice. -/
def Shard.slice (s : Shard) : Nat :=
  let c := s.channels.length
  if c = 0 then 0 else (s.params + c * 8192 - 1) / (c * 8192) * 8192
/-- Chunks of slice `i`: those that hold a parameter below PARAMS. -/
def Shard.chunks (s : Shard) (i : Nat) : Nat := (min ((i + 1) * s.slice) s.params - i * s.slice + 8191) / 8192
def channelBase (c : Fin 24) : Nat := 0x10000000000 + c.val * 0x1000000000
/-- The address of chunk `k` on channel `c`. -/
def Shard.chunkAt (s : Shard) (c : Fin 24) (k : Nat) : Nat := channelBase c + bits (wd s 7) 0 19 * 0x20000 + 0x20000 * k
/-- The address of gradient slot `j` on channel `c` (R260). -/
def Shard.gradAt (s : Shard) (c : Fin 24) (j : Nat) : Nat := channelBase c + bits (wd s 8) 0 22 * 0x4000 + j * 2 * s.slice
/-- The bytes of the statistics region: FACTORED keeps ROWS + COLS FP32 values, KRON two copies of both statistics and
the two roots (R277). -/
def Shard.statBytes (s : Shard) : Nat :=
  if s.rule = 2 then 4 * (s.rows + s.cols)
  else if s.rule = 9 then 4 * 3 * (s.rows * s.rows + s.cols * s.cols) else 0

/-- The basin regions of a local shard, as (address, bytes). -/
def Shard.regions (s : Shard) : List (Nat × Nat) :=
  (s.channels.zip (List.range 24)).flatMap (fun x =>
    [(s.chunkAt x.1 0, 0x20000 * s.chunks x.2), (s.gradAt x.1 0, 2 * (s.delay + 1) * s.slice)]) ++
  (if s.statBytes = 0 then [] else [(s.statAddr, s.statBytes)])

/-- A local entry (R257). -/
def Part.isLocal (p : Part) (s : Shard) : Bool := s.tier != 0 && s.owner == p.rank

def Part.tblBase (p : Part) : Nat := (dword p.tblLo p.tblHi).toNat

/-! ### Marks that lose a shard (R375) -/

/-- A mark in a shard's basin state sets its LOST and logs the loss. -/
def Dev.loseAt (d : Dev) (line : Nat) : Dev :=
  match d.ownerAt line with
  | none => d
  | some p =>
    let x := d.part p
    (x.shards.zip (List.range x.shards.length)).foldl (fun d si =>
      if x.isLocal si.1 && !si.1.lost && si.1.regions.any (fun r => r.1 < line + 64 && line < r.1 + r.2) then
        let d := d.updPart p (fun y => { y with
          shards := y.shards.modify si.2 (fun s => s.flag 16 true)
          glnStat := if bit y.glnStat 0 then y.glnStat else setBits (y.glnStat ||| 1) 16 16 si.2 })
        let d := { d with mem := writeBytes d.mem (x.tblBase + 256 * si.2) (wordBytes (wd (si.1.flag 16 true) 0)) }
        d.log Ev.shardMarkedLost (ownerByte (some p)) 0 (BitVec.ofNat 32 si.2) 0 0
      else d) d

/-! ### Fills (R61) -/

/-- The fill that a plain takes at a reset or a change of owner (R61, R84): storage zero, parity valid. -/
def Plain.fill (x : Plain) : Plain :=
  { x with sram := [], parity := [], rowBuf := [], table := [], icache := [] }

def Plain.fillNew (x : Plain) : Plain := { x.fill with seed := 0, ctrs := Tab.all 66 0 }

/-- A fill is done (R61): the unit reads zero with valid check or parity bits. -/
def Dev.fillDone (d : Dev) (u : FillUnit) : Dev :=
  let d := match u with
    | .plain i => d.updPlain i Plain.fillNew
    | .dale g => { d with mem := Sparse.clear d.mem (g.val * 2 ^ 30) ((g.val + 1) * 2 ^ 30),
                          ecc := Sparse.clear d.ecc (g.val * 2 ^ 27) ((g.val + 1) * 2 ^ 27) }
    | .basin g => { d with mem := Sparse.clear d.mem (0x10000000000 + g.val * 2 ^ 32) (0x10000000000 + (g.val + 1) * 2 ^ 32),
                           ecc := Sparse.clear d.ecc (0x2000000000 + g.val * 2 ^ 29) (0x2000000000 + (g.val + 1) * 2 ^ 29) }
  d.each (List.finRange 64) (fun d p => d.updPart p (fun x => { x with fills := x.fills.filter (fun f => f != u) }))

/-- Whether a fill of a unit is owed. -/
def Dev.owed (d : Dev) (u : FillUnit) : Bool := d.parts.toList.any (fun x => x.fills.contains u)

/-- The granules that `n` bytes from `a` lie in, as fill units. -/
def unitsAt (a n : Nat) : List FillUnit :=
  (List.range ((a + (n - 1)) / 2 ^ 30 + 1 - a / 2 ^ 30)).filterMap (fun k =>
    match place ((a / 2 ^ 30 + k) * 2 ^ 30) with
    | .dale g => some (.dale g)
    | .basin g => some (.basin g)
    | .hole => none)

/-- The fill that a granule owes is done before anyone reaches it (R61, log entry 46). -/
def Dev.reach (d : Dev) (a n : Nat) : Dev :=
  if d.parts.toList.all (fun x => x.fills.isEmpty) then d
  else d.each (unitsAt a n) (fun d u => if d.owed u then d.fillDone u else d)

/-- The same for a plain. -/
def Dev.reachPlain (d : Dev) (i : Fin 64) : Dev := if d.owed (.plain i) then d.fillDone (.plain i) else d

/-! ### Reads and writes of engines (R370, R371) -/

/-- A demand read of one line: whether it is poisoned. -/
def Dev.readLine (d : Dev) (line : Nat) : Dev × Bool :=
  if d.isMark line then (d, true)
  else if d.lineUncorr line then (((d.putMark line).logAddr Ev.eccUncorr line).loseAt line, true)
  else (d.each (lineWords line) (fun d a => d.correctWord a), false)

/-- A line of a tripped stack or channel. -/
def Dev.trippedAt (d : Dev) (a : Nat) : Bool :=
  match place a with
  | .dale g => (Tab.at d.daleStacks (stackOf g)).state = .tripped
  | .basin g => (Tab.at d.channels (channelOf g)).tripped
  | .hole => false

/-- `n` bytes of free values (log entry 5). -/
def Dev.freeBytes (d : Dev) (n : Nat) : Dev × List Byte :=
  ({ d with free := d.free + (n + 7) / 8 },
   (List.range n).map (fun k => ((Config.freeValue (d.free + k / 8)) >>> (8 * (k % 8))).setWidth 8))

/-- Read bytes of device memory: the bytes, and the poisoned lines. The contents of a tripped unit are undefined (R247). -/
def Dev.devRead (d : Dev) (a n : Nat) : Dev × List Byte × List Nat :=
  if d.trippedAt a then let (d, b) := d.freeBytes n; (d, b, []) else
  let d := d.reach a n
  let r := if d.ecc.isEmpty then (d, []) else (linesOf a n).foldl (fun (acc : Dev × List Nat) line =>
    let (d', bad) := acc.1.readLine line
    (d', if bad then acc.2 ++ [line] else acc.2)) (d, [])
  (r.1, readBytes r.1.mem a n, r.2)

/-- Write bytes that lie in one line. -/
def Dev.devWriteLine (d : Dev) (a : Nat) (b : List Byte) : Dev :=
  let d := d.reach a b.length
  let line := lineOf a
  if b.length = 64 then { (d.cleanLine line).untest 0 line with mem := writeBytes d.mem a b }
  else
    let (d, bad) := d.readLine line
    if bad then d
    else { d.each ((lineWords line).filter (fun w => w < a + b.length && a < w + 8)) (fun d w => d.setEcc w 0) with
           mem := writeBytes d.mem a b }

def Dev.devWrite (d : Dev) (a : Nat) (b : List Byte) : Dev :=
  d.each (cutLines (b.length / 64 + 2) a b) (fun d c => d.devWriteLine c.1 c.2)

/-- Write marks on whole lines; `glen` tells a mark that R375 makes lose its shard. -/
def Dev.devMark (d : Dev) (lines : List Nat) (glen : Bool := false) : Dev :=
  d.each (lines.map lineOf) (fun d l => let d := d.reach l 64; if glen then (d.putMark l).loseAt l else d.putMark l)

/-! ### Requests and charges (R235 to R238) -/

/-- The charge of a request (R236). -/
def chargeOf (a n : Nat) : Nat := if n = 0 then 0 else 512 * max 4 ((a + n - 1) / 512 - a / 512 + 1)

/-- The requests of a transfer: at most 4 KiB each, none across a 4 KiB boundary (R235). -/
def splitReqs : Nat → Nat → Nat → List (Nat × Nat)
  | 0, _, _ => []
  | k + 1, a, n => if n = 0 then [] else
      let m := min n (4096 - a % 4096)
      (a, m) :: splitReqs k (a + m) (n - m)

/-- Whether an owner's reads are back: they were charged when it started (R81). -/
def Dev.readsBack (d : Dev) : MemOwner → Bool
  | .request i id => (d.plain i).reqs.any (fun q => q.id == id && q.stage == .moved)
  | .command r => (d.ring r).cmds.any (fun c => c.stage == .started && (match c.work with | .copy .moved _ => true | _ => false))
  | _ => false

/-- The clock domain of the controller that serves an address (R25). -/
def domAt (a : Nat) : Option Nat :=
  match place a with
  | .dale g => some (stackDom (stackOf g))
  | .basin g => some (channelDom (channelOf g))
  | .hole => none

/-- Bytes of device memory are wanted: the clocks of the controllers at both ends of the range start if they are stopped (R25). -/
def Dev.wantMem (d : Dev) (a n : Nat) : Dev :=
  [a, a + (n - 1)].foldl (fun d a => match domAt a with | some k => d.wantClock k | none => d) d

/-- A transfer of partition `p`'s device memory: its bytes are accounted, its requests join the regulator of the tier. -/
def Dev.transfer (d : Dev) (o : MemOwner) (a n : Nat) (write : Bool) : Dev :=
  match d.ownerAt a with
  | none => d
  | some p =>
    if !write && d.readsBack o then d else
    let reqs := (splitReqs (n / 4096 + 2) a n).map (fun c => { owner := o, addr := c.1, bytes := c.2, write := write : MemReq })
    (d.wantMem a n).updPart p (fun x =>
      let x := { x with acct := x.acct.devBytes a n write }
      if tierCode a = 2 then { x with basin := { x.basin with queue := x.basin.queue ++ reqs } }
      else { x with dale := { x.dale with queue := x.dale.queue ++ reqs } })

/-- Whether a regulator still holds requests of an owner. -/
def Dev.holds (d : Dev) (p : Fin 64) (o : MemOwner) : Bool :=
  ((d.part p).dale.queue ++ (d.part p).basin.queue).any (fun q => q.owner == o)

/-- The reads that a run of a transfer made, without their effects: their requests and their account. -/
def Regulator.withReads (x y : Regulator) : Regulator := { x with queue := x.queue ++ (y.queue.drop x.queue.length).filter (fun q => !q.write) }
def Part.withReads (x y : Part) : Part :=
  { x with dale := x.dale.withReads y.dale, basin := x.basin.withReads y.basin,
           acct := { x.acct with daleRd := y.acct.daleRd, basinRd := y.acct.basinRd } }

/-- The reads of a transfer are issued: `dry` is the device after a run of all of it (R81, R185). -/
def Dev.chargeReads (d dry : Dev) : Dev :=
  { d with parts := Vector.zipWith Part.withReads d.parts dry.parts, pwr := { d.pwr with doms := dry.pwr.doms } }

/-- A charged read and a charged write. -/
def Dev.memRead (d : Dev) (o : MemOwner) (a n : Nat) : Dev × List Byte × List Nat := (d.transfer o a n false).devRead a n
def Dev.memWrite (d : Dev) (o : MemOwner) (a : Nat) (b : List Byte) : Dev := (d.transfer o a b.length true).devWrite a b

/-- Change a table entry and write it through to the table in memory, by the partition's regulator (R243, R255). -/
def Dev.setShard (d : Dev) (p : Fin 64) (k : Nat) (f : Shard → Shard) : Dev :=
  let d := d.updPart p (fun x => { x with shards := x.shards.modify k f })
  match (d.part p).shards[k]? with
  | some s => d.memWrite .host ((d.part p).tblBase + 256 * k) (s.toList.flatMap wordBytes)
  | none => d

def Dev.shard (d : Dev) (p : Fin 64) (k : Nat) : Option Shard := (d.part p).shards[k]?

end Sys2Proof.Machine
end

