-- ==== Sys2Proof/Machine/Links.lean ====
section
/-! DEFINITION. Axes, banks and cols (R292 to R302), the sending of flits, and the groups of a partition with their
reductions and aborts (R305 to R307). -/

namespace Sys2Proof.Machine

open Sys2Proof

/-! ### Banks (R298 to R301) -/

def Bank.modeOf (b : Bank) : Nat := bits b.mode 0 2
def Bank.colEn (b : Bank) : Nat := bits b.mode 2 4
def Bank.root (b : Bank) : Bool := bit b.mode 6
def Bank.regEn (b : Bank) : Bool := bit b.mode 7
def Bank.part (b : Bank) : Option (Fin 64) := finOf 64 (bits b.mode 8 8)
def Bank.pair (b : Bank) : Nat := bits b.mode 16 2
def Bank.childEn (b : Bank) (k : Nat) : Bool := bit b.mode (18 + k)
def Bank.line (b : Bank) : Bool := b.modeOf == 1 || b.modeOf == 2

def Dev.axis (d : Dev) (a : Fin 4) : Axis := Tab.at d.axes a
def Dev.bank (d : Dev) (a : Fin 4) : Bank := Tab.at (d.axis a).banks (d.axis a).active
def Dev.updAxis (d : Dev) (a : Fin 4) (f : Axis → Axis) : Dev := { d with axes := Tab.upd d.axes a f }
def Dev.updBank (d : Dev) (a : Fin 4) (b : Fin 2) (f : Bank → Bank) : Dev :=
  d.updAxis a (fun x => { x with banks := Tab.upd x.banks b f })
def Dev.col (d : Dev) (c : Fin 16) : Col := Tab.at d.cols c

/-- The axis of a col (R4). -/
def axisOf (c : Fin 16) : Fin 4 := ⟨c.val / 4, by omega⟩
/-- Whether a col is of its axis's plus port (R4). -/
def plusCol (c : Fin 16) : Bool := 2 ≤ c.val % 4

/-- The partition an axis belongs to (R298). -/
def Dev.axisPart (d : Dev) (a : Fin 4) : Option (Fin 64) := if (d.bank a).modeOf = 0 then none else (d.bank a).part

/-- Whether the active bank names a col. -/
def Dev.named (d : Dev) (c : Fin 16) : Bool :=
  (d.bank (axisOf c)).modeOf != 0 && (d.bank (axisOf c)).colEn / 2 ^ (c.val % 4) % 2 == 1

/-- The partition that a col is bound to (R298). -/
def Dev.colPart (d : Dev) (c : Fin 16) : Option (Fin 64) := if d.named c then d.axisPart (axisOf c) else none

/-- The register that an access at offset `off` of a writer's or reader's register space reaches, with its offset in the
physical function's BAR0. A virtual function reaches its own window only (R39, R58), and so does a col (R303). -/
def Dev.regFor (d : Dev) (w : Writer) (off : Nat) : Option (Nat × Reg) :=
  match w with
  | .host (.vf p) => d.vfReg p off
  | .col c => match d.colPart c with
    | some p => if (d.bank (axisOf c)).regEn then d.vfReg p off else none
    | none => none
  | _ => (regAt off).map (fun r => (off, r))

/-- Whether a register lies in the register space of a writer or reader. -/
def Dev.owns (d : Dev) (w : Writer) (r : Reg) : Bool :=
  let mine (p : Fin 64) : Bool := r.inWindow p (d.part p).use (d.part p).bars
  match w with
  | .host (.vf p) => mine p
  | .col c => (d.bank (axisOf c)).regEn && (match d.colPart c with | some p => mine p | none => false)
  | _ => true

/-- Whether a trained col carries traffic, now or after the fast retrain it is in (R296). -/
def Col.carries (k : Col) : Bool := k.state == .active || (k.state == .training && k.fast)

/-- The enabled cols of a port, ascending (R295, R298). -/
def Dev.portCols (d : Dev) (a : Fin 4) (plus : Bool) : List (Fin 16) :=
  (List.finRange 16).filter (fun c => axisOf c == a && plusCol c == plus && d.named c && (d.col c).carries)

/-- After a bank change or a training: a trained col is ACTIVE when the active bank names it, READY otherwise (R297, R329). -/
def Dev.settleCol (d : Dev) (c : Fin 16) : Dev :=
  d.updCol c (fun k =>
    if k.state = .ready && d.named c then { k with state := .active }
    else if k.state = .active && !d.named c then { k with state := .ready } else k)
def Dev.settleAxis (d : Dev) (a : Fin 4) : Dev :=
  d.each ((List.finRange 16).filter (fun c => axisOf c == a)) Dev.settleCol

/-- Swap the banks of an axis (R299). -/
def Dev.swapBanks (d : Dev) (a : Fin 4) : Dev :=
  (d.updAxis a (fun x => { x with active := if x.active = 0 then 1 else 0, arm := false, hurt := false })).settleAxis a

/-! ### Sending (R292 to R295) -/

/-- The bytes of a flit, and of its payload (R292). -/
def flitBytes : Nat := 256
def flitPayload : Nat := 242

/-- The first payload that waits on a col leaves: the col is ACTIVE, and its replay buffer of 1,024 flits has a place (R292, R294). -/
def Dev.sendNext (d : Dev) (c : Fin 16) : Dev :=
  let k := d.col c
  match k.txWait with
  | [] => d
  | (bank, p, body) :: rest =>
    if k.state = .active && k.unacked.length < 1024 then
      let f : Flit := { seq := k.txSeq, ack := k.rxSeq, crcOk := true, bank := bank, part := p, body := body }
      let d := d.updCol c (fun k => { k with txSeq := k.txSeq + 1, txWait := rest, unacked := k.unacked ++ [f] })
      let d := { d with out := { d.out with cols := (c, f) :: d.out.cols } }
      d.acct p (fun a => { a with colSent := a.colSent + BitVec.ofNat 64 flitBytes })
    else d

/-- Everything that may leave on a col leaves, in order. -/
def Dev.pumpCol (d : Dev) (c : Fin 16) : Dev := (List.range (d.col c).txWait.length).foldl (fun d _ => d.sendNext c) d

/-- Send one payload on a col, under the sender's bank (R299). -/
def Dev.sendOn (d : Dev) (c : Fin 16) (p : Fin 64) (body : Payload) : Dev :=
  let bank := decide ((d.axis (axisOf c)).active = 1)
  ((d.wantClock (colDom c)).updCol c (fun k => { k with txWait := k.txWait ++ [(bank, p, body)] })).pumpCol c

/-- The peer has received every flit before number `n` (R294): they leave the replay buffer. -/
def Dev.acked (d : Dev) (c : Fin 16) (n : Nat) : Dev :=
  (d.updCol c (fun k => { k with unacked := k.unacked.filter (fun f => n ≤ f.seq) })).pumpCol c

/-- An acknowledgement leaves without a payload (R294). -/
def Dev.sendAck (d : Dev) (c : Fin 16) : Dev :=
  let f : Flit := { seq := 0, ack := (d.col c).rxSeq, crcOk := true, bank := decide ((d.axis (axisOf c)).active = 1), part := 0, body := .ackOnly }
  { d with out := { d.out with cols := (c, f) :: d.out.cols } }

/-- The cols that traffic of a port may use: those that carry it, or, while none does, those that the active bank names, on which it
waits until one is trained (R329). -/
def Dev.sendCols (d : Dev) (a : Fin 4) (plus : Bool) : List (Fin 16) :=
  match d.portCols a plus with
  | [] => (List.finRange 16).filter (fun c => axisOf c == a && plusCol c == plus && d.named c)
  | l => l

/-- Send control traffic on the lowest-numbered enabled col of a port (R295); it waits there while the col retrains. -/
def Dev.sendPort (d : Dev) (a : Fin 4) (plus : Bool) (p : Fin 64) (body : Payload) : Dev :=
  match d.sendCols a plus with
  | c :: _ => d.sendOn c p body
  | [] => d

/-! ### Neighbours and hops (R300, R304) -/

/-- Whether a module has a neighbour on one side of an axis. -/
def Bank.neighbour (b : Bank) (plus : Bool) : Bool :=
  b.line && 1 < b.len.toNat &&
  (b.modeOf == 1 || (if plus then b.pos.toNat + 1 < b.len.toNat else 0 < b.pos.toNat))

/-- How many modules' values reach this one travelling plus-ward, and minus-ward: on a ring each module is heard once. -/
def Bank.fromMinus (b : Bank) : Nat := if b.modeOf = 1 then b.len.toNat / 2 else b.pos.toNat
def Bank.fromPlus (b : Bank) : Nat :=
  if b.modeOf = 1 then (b.len.toNat - 1) / 2 else b.len.toNat - 1 - b.pos.toNat

/-- How far a value travels plus-ward, and minus-ward. -/
def Bank.reach (b : Bank) (plus : Bool) : Nat :=
  if b.modeOf = 1 then (if plus then b.len.toNat / 2 else (b.len.toNat - 1) / 2) else b.len.toNat

/-- The axes of a mask that are bound to a partition in RING or CHAIN mode with more than one module, in order. -/
def Dev.lineAxes (d : Dev) (p : Fin 64) (mask : Nat) : List (Fin 4) :=
  (List.finRange 4).filter (fun a => mask / 2 ^ a.val % 2 == 1 && d.axisPart a == some p && (d.bank a).line &&
    1 < (d.bank a).len.toNat)

/-- The axes bound to a partition, as a mask. -/
def Dev.axesOf (d : Dev) (p : Fin 64) : Nat := bitmap 4 (fun k => match finOf 4 k with | some a => d.axisPart a == some p | none => false)

/-! ### Ranks and routes (R300, R320) -/

/-- Length and position of this module on an axis for a partition: 1 and 0 on an axis that is not bound in RING or CHAIN
mode. -/
def Dev.coord (d : Dev) (p : Fin 64) (a : Fin 4) : Nat × Nat :=
  if d.axisPart a == some p && (d.bank a).line then ((d.bank a).len.toNat, (d.bank a).pos.toNat) else (1, 0)

/-- The number of ranks on a partition's bound axes. -/
def Dev.ranks (d : Dev) (p : Fin 64) : Nat := (List.finRange 4).foldl (fun n a => n * (d.coord p a).1) 1

/-- The position of a rank on an axis. -/
def Dev.rankPos (d : Dev) (p : Fin 64) (rank : Nat) (a : Fin 4) : Nat :=
  let below := ((List.finRange 4).filter (fun b => b < a)).foldl (fun n b => n * (d.coord p b).1) 1
  rank / below % (d.coord p a).1

/-- The next hop towards a rank: axis A first, the shorter direction on a ring and plus on a tie; none when this module is
the rank. -/
def Dev.routeTo (d : Dev) (p : Fin 64) (rank : Nat) : Option (Fin 4 × Bool) :=
  match (List.finRange 4).find? (fun a => d.rankPos p rank a != (d.coord p a).2) with
  | none => none
  | some a =>
    let (len, pos) := d.coord p a
    let there := d.rankPos p rank a
    if (d.bank a).modeOf = 1 then some (a, 2 * ((there + len - pos) % len) ≤ len) else some (a, pos < there)

/-! ### Collective entry points (R308, R309) -/

def CollectiveDef.arrGroup (c : CollectiveDef) : BitVec 24 := BitVec.ofNat 24 (bits (wd c.header 0) 0 24)
def CollectiveDef.arrAxes (c : CollectiveDef) : Nat := bits (wd c.header 0) 24 4
def CollectiveDef.arrMembers (c : CollectiveDef) : Nat := bits (wd c.header 1) 0 24
def opGroup (o : Tab Word 16) : BitVec 24 := BitVec.ofNat 24 (bits (wd o 2) 0 24)
def opKind (o : Tab Word 16) : Nat := bits (wd o 0) 0 4
def opAxis (o : Tab Word 16) : Fin 4 := ⟨bits (wd o 0) 4 2 % 4, Nat.mod_lt _ (by decide)⟩
/-- The axes of an op's group: NF_AXES for NF_SYNC, the data axis otherwise. -/
def opAxes (o : Tab Word 16) : Nat := if opKind o = 4 then bits (wd o 1) 8 4 else 2 ^ (opAxis o).val

def CollectiveDef.groups (c : CollectiveDef) : List (BitVec 24 × Nat) :=
  (c.arrGroup, c.arrAxes) :: c.ops.map (fun o => (opGroup o, opAxes o))

def Barrier.groupEn (b : Barrier) : Bool := bit b.cfg 7
def Barrier.axes (b : Barrier) : Nat := bits b.cfg 8 4

/-- The groups a partition takes part in, with their axes: those of its slots and of its image's collectives. -/
def Dev.groupsOf (d : Dev) (p : Fin 64) : List (BitVec 24 × Nat) :=
  ((d.barsOf p).filterMap (fun s => let b := Tab.at d.bars s; if b.groupEn then some (b.group, b.axes) else none)) ++
  (match (d.part p).image with
   | some im => im.entries.flatMap (fun e => match e.collective with | some c => c.groups | none => [])
   | none => [])

/-! ### Group reductions (R305, R306) -/

/-- The next generation of a group on this module. -/
def Dev.genOf (d : Dev) (p : Fin 64) (g : BitVec 24) : Nat :=
  match d.groupGen.find? (fun x => x.1 == p && x.2.1 == g) with
  | some x => x.2.2
  | none => 0
def Dev.bumpGen (d : Dev) (p : Fin 64) (g : BitVec 24) : Dev :=
  { d with groupGen := (p, g, d.genOf p g + 1) :: d.groupGen.filter (fun x => !(x.1 == p && x.2.1 == g)) }

/-- Send this module's running value both ways on an axis. -/
def Dev.sendValue (d : Dev) (r : GroupRun) (a : Fin 4) : Dev :=
  let m (plus : Bool) : GroupMsg :=
    { part := r.part, group := r.group, gen := r.gen, axis := a, plus := plus, hops := 1, isOr := r.isOr, value := r.value }
  let d := if (d.bank a).neighbour true && 0 < (d.bank a).reach true then d.sendPort a true r.part (.group (m true)) else d
  if (d.bank a).neighbour false && 0 < (d.bank a).reach false then d.sendPort a false r.part (.group (m false)) else d

def GroupRun.merge (r : GroupRun) (l : List Nat) : Nat :=
  if r.isOr then l.foldl (fun a b => max a b) r.value else l.foldl (fun a b => a + b) r.value

/-- Carry a reduction as far as it goes: absorb what has come for its present axis, and when every module of the axis
has been heard go on to the next axis; after the last axis the result stands. -/
def Dev.advanceRun (d : Dev) : Nat → GroupRun → Dev × GroupRun
  | 0, r => (d, r)
  | n + 1, r =>
    match r.axes with
    | [] => (d, { r with result := some (r.result.getD r.value) })
    | a :: rest =>
      let got := r.ahead.filter (fun m => m.axis == a)
      let r := { r with
        ahead := r.ahead.filter (fun m => m.axis != a)
        gotPlus := r.gotPlus ++ (got.filter (fun m => m.plus)).map (fun m => m.value)
        gotMinus := r.gotMinus ++ (got.filter (fun m => !m.plus)).map (fun m => m.value) }
      let b := d.bank a
      if b.fromMinus ≤ r.gotPlus.length && b.fromPlus ≤ r.gotMinus.length then
        let r := { r with value := r.merge (r.gotPlus.take b.fromMinus ++ r.gotMinus.take b.fromPlus), gotPlus := [], gotMinus := [],
                          axes := rest }
        let d := match rest with | a2 :: _ => d.sendValue r a2 | [] => d
        Dev.advanceRun d n r
      else (d, r)

/-- The reduction of this module that a message belongs to. -/
def GroupRun.takes (r : GroupRun) (m : GroupMsg) : Bool := r.part == m.part && r.group == m.group && r.gen == m.gen

/-- Join a group reduction: a new generation of the group begins on this module, and the messages held for it merge (R306). -/
def Dev.joinGroup (d : Dev) (p : Fin 64) (g : BitVec 24) (axes members : Nat) (j : GroupJoin) (isOr : Bool) (v : Nat) : Dev :=
  let r : GroupRun := { part := p, group := g, gen := d.genOf p g, join := j, members := members, axes := d.lineAxes p axes,
                        isOr := isOr, value := v, gotPlus := [], gotMinus := [], ahead := [], result := none }
  let r := { r with ahead := d.early.filter r.takes }
  let d := { d.bumpGen p g with early := d.early.filter (fun m => !r.takes m) }
  let d := match r.axes with | a :: _ => d.sendValue r a | [] => d
  let (d, r) := d.advanceRun 5 r
  { d with groups := d.groups ++ [r] }

/-- The reduction that a slot or a command joined. -/
def Dev.runOf (d : Dev) (j : GroupJoin) : Option GroupRun := d.groups.find? (fun r => r.join == j)
def Dev.dropRun (d : Dev) (j : GroupJoin) : Dev := { d with groups := d.groups.filter (fun r => r.join != j) }

/-! ### Group aborts (R307) -/

def Status.code : Status → Nat
  | .ok => 0x00 | .okSkippedNonfinite => 0x01 | .okReplacedSamples => 0x02 | .refusedFit => 0x10
  | .refusedPromise => 0x11 | .refusedFormat => 0x12 | .notRun => 0x20 | .partialEnd => 0x21 | .poisonConsumed => 0x30
  | .plainLost => 0x31 | .shardLost => 0x32 | .partitionReset => 0x40 | .watchdog => 0x41 | .thermalTrip => 0x42
  | .colLost => 0x43 | .cdcTimeout => 0x44 | .promiseBreach => 0x50 | .deviceFenced => 0x60

def abortStatus : AbortCause → Status
  | .partitionReset => .partitionReset
  | .watchdog => .watchdog
  | .colLost => .colLost

/-- Send a group abort both ways on each of the group's ring and chain axes: a tree carries only snapshot data (R301, R307). -/
def Dev.sendAbort (d : Dev) (p : Fin 64) (g : BitVec 24) (axes : Nat) (cause : AbortCause) : Dev :=
  d.each (d.lineAxes p axes) (fun d a =>
    let d := if (d.bank a).neighbour true then d.sendPort a true p (.abort g cause) else d
    if (d.bank a).neighbour false then d.sendPort a false p (.abort g cause) else d)

/-- A group is aborted on this module: COL_P_ABORT latches it, its reduction and early arrivals are dropped. -/
def Dev.latchAbort (d : Dev) (p : Fin 64) (g : BitVec 24) (cause : AbortCause) : Dev :=
  let d := d.updPart p (fun x => { x with
    abort := BitVec.ofNat 32 (g.toNat + 2 ^ 24 * (abortStatus cause).code)
    aborted := (g, cause) :: x.aborted.filter (fun e => e.1 != g) })
  { d with groups := d.groups.filter (fun r => !(r.part == p && r.group == g)),
           early := d.early.filter (fun m => !(m.part == p && m.group == g)) }

def Dev.abortedBy (d : Dev) (p : Fin 64) (g : BitVec 24) : Option AbortCause :=
  ((d.part p).aborted.find? (fun e => e.1 == g)).map (fun e => e.2)

end Sys2Proof.Machine
end

