-- ==== Sys2Proof/Machine/Desc.lean ====
section
/-! DEFINITION. Loop-nest descriptors (R131 to R136): their fields, the order of their steps, the checks of R144 with
those of the fused pair (R110 to R112, R200), and their plain cycles (R145 to R147). -/

namespace Sys2Proof.Machine

open Sys2Proof

abbrev Desc := Tab Word 64

/-! ### Fields (R133 to R135) -/

def Desc.valid (t : Desc) : Bool := bit (wd t 0) 0
def Desc.kind (t : Desc) : Nat := bits (wd t 0) 1 2
def Desc.isPair (t : Desc) : Bool := t.kind == 1
def Desc.isSync (t : Desc) : Bool := t.kind == 2
def Desc.levels (t : Desc) : Nat := bits (wd t 0) 3 3
def Desc.mtile (t : Desc) : Nat := bits (wd t 0) 6 2
def Desc.rows (t : Desc) : Nat := 128 * t.mtile
def Desc.keep (t : Desc) : Bool := bit (wd t 0) 8
def Desc.paramPtr (t : Desc) : Nat := bits (wd t 1) 0 25
def Desc.waitW (t : Desc) : Word := wd t 2
def Desc.postW (t : Desc) : Word := wd t 3
def Desc.k1 (t : Desc) : Nat := bits (wd t 4) 0 10
def Desc.n2 (t : Desc) : Nat := bits (wd t 4) 16 2

/-- An operand descriptor: `o` is its first word. -/
structure Opd where
  w : Tab Word 8
deriving DecidableEq, Repr

def Desc.opd (t : Desc) (o : Nat) : Opd := { w := Vector.ofFn (fun k => wd t (o + k.val)) }
def Desc.a (t : Desc) : Opd := t.opd 8
def Desc.b (t : Desc) : Opd := t.opd 16
def Desc.b2 (t : Desc) : Opd := t.opd 24
def Desc.c (t : Desc) : Opd := t.opd 32

def Opd.base (o : Opd) : Nat := bits (wd o.w 0) 0 25
def Opd.fmt (o : Opd) : Nat := bits (wd o.w 0) 25 4
def Opd.trans (o : Opd) : Bool := bit (wd o.w 0) 29
def Opd.tsEn (o : Opd) : Bool := bit (wd o.w 0) 30
def Opd.pitch (o : Opd) : Nat := bits (wd o.w 1) 0 21
def Opd.sBase (o : Opd) : Nat := bits (wd o.w 2) 0 25
def Opd.sPitch (o : Opd) : Nat := bits (wd o.w 3) 0 16
def Opd.tscale (o : Opd) : Word := wd o.w 4
def Opd.rnd (o : Opd) : Nat := bits (wd o.w 5) 0 2
def Opd.sat (o : Opd) : Bool := bit (wd o.w 5) 2
def Opd.grad (o : Opd) : Bool := bit (wd o.w 5) 3
def Opd.accIn (o : Opd) : Bool := bit (wd o.w 5) 4
/-- The tensor scale of R96, 1.0 by default. -/
def Opd.ts (o : Opd) : Word := if o.tsEn then o.tscale else 0x3F800000
/-- Bytes of `n` elements, and elements in `n` bytes. -/
def Opd.bytes (o : Opd) (n : Nat) : Nat := (n * elemBits o.fmt + 7) / 8
def Opd.elems (o : Opd) (n : Nat) : Nat := 8 * n / elemBits o.fmt

/-- A level: its bound, its dimension, its direction and its signed strides. -/
structure Level where
  bound : Nat
  dim   : Nat
  serp  : Bool
  sA : Int
  sB : Int
  sC : Int
deriving DecidableEq, Repr

def Desc.level (t : Desc) (l : Nat) : Level :=
  let o := 40 + 4 * l
  if t.levels ≤ l then { bound := 1, dim := 0, serp := false, sA := 0, sB := 0, sC := 0 }
  else { bound := bits (wd t o) 0 16, dim := bits (wd t o) 16 2, serp := bit (wd t o) 18, sA := (wd t (o + 1)).toInt,
         sB := (wd t (o + 2)).toInt, sC := (wd t (o + 3)).toInt }

def Desc.lv (t : Desc) : List Level := (List.range 6).map t.level

/-! ### The steps (R136) -/

def Desc.steps (t : Desc) : Nat := if t.isSync then 0 else t.lv.foldl (fun n l => n * l.bound) 1

/-- The digits of step `n`, level 0 first. -/
def digits : List Level → Nat → List Nat
  | [], _ => []
  | l :: r, n => n % l.bound :: digits r (n / l.bound)

/-- The digits with the direction of SERP applied. -/
def turned : List Level → List Nat → List Nat
  | l :: ls, i :: is =>
    (if l.serp && is.headD 0 % 2 == 1 then l.bound - 1 - i else i) :: turned ls is
  | _, _ => []

def Desc.walk (t : Desc) (n : Nat) : List Nat := turned t.lv (digits t.lv n)

def offsetBy (ls : List Level) (js : List Nat) (f : Level → Int) : Int :=
  (ls.zip js).foldl (fun s x => s + (x.2 : Int) * f x.1) 0

def Desc.aAt (t : Desc) (n : Nat) : Int := t.a.base + offsetBy t.lv (t.walk n) (·.sA)
def Desc.bAt (t : Desc) (n : Nat) : Int := t.b.base + offsetBy t.lv (t.walk n) (·.sB)
def Desc.b2At (t : Desc) (n : Nat) : Int := t.b2.base + offsetBy t.lv (t.walk n) (·.sB)
def Desc.cAt (t : Desc) (n : Nat) : Int := t.c.base + offsetBy t.lv (t.walk n) (·.sC)

/-- The flattened index of a step over the levels of one dimension (R202). -/
def Desc.dimIndex (t : Desc) (dim n : Nat) : Nat :=
  ((t.lv.zip (t.walk n)).filter (fun x => x.1.dim == dim)).foldr (fun x acc => x.2 + x.1.bound * acc) 0

/-- Whether step `n` starts a tile of the descriptor, and ends one (R138). -/
def Desc.starts (t : Desc) (n : Nat) : Bool := n == 0 || t.cAt n != t.cAt (n - 1)
def Desc.ends (t : Desc) (n : Nat) : Bool := n + 1 == t.steps || t.cAt (n + 1) != t.cAt n
/-- Whether step `n` reuses the block that is held (R139). -/
def Desc.reuses (t : Desc) (n : Nat) : Bool := 0 < n && t.bAt n == t.bAt (n - 1)

/-! ### The row-function block and the mask record (R111, R200) -/

/-- The row-function parameter block of R111: sixteen words. -/
structure RowFn where
  w : Tab Word 16
deriving DecidableEq, Repr

def RowFn.fn1 (f : RowFn) : Nat := bits (wd f.w 0) 0 4
def RowFn.fn2 (f : RowFn) : Nat := bits (wd f.w 0) 4 4
def RowFn.gate (f : RowFn) : Bool := bit (wd f.w 0) 8
def RowFn.smFirst (f : RowFn) : Bool := bit (wd f.w 0) 9
def RowFn.smFinal (f : RowFn) : Bool := bit (wd f.w 0) 10
def RowFn.width (f : RowFn) : Nat := bits (wd f.w 1) 0 14
def RowFn.scale (f : RowFn) : Word := wd f.w 2
def RowFn.eps (f : RowFn) : Word := wd f.w 3
def RowFn.biasPtr (f : RowFn) : Nat := bits (wd f.w 4) 0 25
def RowFn.gainPtr (f : RowFn) : Nat := bits (wd f.w 5) 0 25
def RowFn.gainEn (f : RowFn) : Bool := bit (wd f.w 5) 31
def RowFn.statePtr (f : RowFn) : Nat := bits (wd f.w 6) 0 25
def RowFn.p2Fmt (f : RowFn) : Nat := bits (wd f.w 7) 0 4
def RowFn.p2Rnd (f : RowFn) : Nat := bits (wd f.w 7) 4 2
def RowFn.p2Sat (f : RowFn) : Bool := bit (wd f.w 7) 6
def RowFn.softmax (f : RowFn) : Bool := f.fn2 == 1
/-- The K of the second product. -/
def RowFn.k2 (f : RowFn) : Nat := if f.gate then f.width / 2 else f.width

def rowFnAt (m : Memory) (ptr : Nat) : RowFn := { w := readTab m ptr 16 }

/-- The words of a table from `lo` up to `n` of them are 0. -/
def zeroWords {n : Nat} (t : Tab Word n) (lo cnt : Nat) : Bool := (List.range cnt).all (fun k => wd t (lo + k) == 0)

/-- The operand classes of R94: 0 MXFP4, 1 MX FP8, 2 plain FP8, 3 BF16, 4 FP32. -/
def fmtClass (code : Nat) : Option Nat :=
  match code with
  | 0 => some 4 | 1 => some 3 | 2 => some 2 | 3 => some 2 | 4 => some 1 | 5 => some 1 | 6 => some 0 | _ => none
def sameClass (a b : Nat) : Bool := (fmtClass a).isSome && fmtClass a == fmtClass b

/-- The limits of R110 to R112 on a pair's parameter block. -/
def RowFn.ok (f : RowFn) (w2 : Nat) : Bool :=
  (f.fn1 == 0 || f.fn1 == 5) && f.fn2 ≤ 4 &&
  (!f.gate || f.fn2 == 2 || f.fn2 == 3) && (!(f.smFirst || f.smFinal) || f.fn2 == 1) &&
  f.p2Fmt ≤ 3 && sameClass f.p2Fmt w2 && f.p2Rnd != 3 &&
  f.width % 512 == 0 && 0 < f.width && f.width ≤ 8192 &&
  bits (wd f.w 0) 11 21 == 0 && bits (wd f.w 1) 14 18 == 0 && bits (wd f.w 4) 25 7 == 0 && bits (wd f.w 5) 25 6 == 0 &&
  bits (wd f.w 6) 25 7 == 0 && bits (wd f.w 7) 7 25 == 0 && zeroWords f.w 8 8 &&
  f.biasPtr < sramBytes && f.gainPtr < sramBytes && f.statePtr < sramBytes && f.biasPtr % 64 == 0

/-! ### The checks of R144 -/

/-- The shape of one step's stored tile: rows, contiguous elements, logical rows, blocks, and whether a stored row is a
logical row of the scale array (R95, R109). -/
structure OpdShape where
  rows   : Nat
  elems  : Nat
  lrows  : Nat
  blocks : Nat
  direct : Bool
deriving DecidableEq, Repr

def shapeMK (trans : Bool) (m k : Nat) : OpdShape :=
  if trans then { rows := k, elems := m, lrows := m, blocks := k / 32, direct := false }
  else { rows := m, elems := k, lrows := m, blocks := k / 32, direct := true }
/-- B is stored K × N, or N × K with TRANS. -/
def shapeKN (trans : Bool) (k n : Nat) : OpdShape :=
  if trans then { rows := n, elems := k, lrows := n, blocks := k / 32, direct := true }
  else { rows := k, elems := n, lrows := n, blocks := k / 32, direct := false }

def inSram (lo hi : Int) : Bool := decide (0 ≤ lo) && decide (hi < (sramBytes : Int))

/-- The lowest and the highest step address of an operand (R144). -/
def span (t : Desc) (base : Nat) (f : Level → Int) : Int × Int :=
  let s := t.lv.map (fun l => ((l.bound : Int) - 1) * f l)
  (base + s.foldl (fun a x => a + min x 0) 0, base + s.foldl (fun a x => a + max x 0) 0)

/-- Over all steps the bytes of an operand lie in SRAM, and so does the rectangle of its scales: the logical rows from one end's to the
other's, extended by those of a step, across every block that the stored rows span (R137, R144). -/
def opdExtentOk (t : Desc) (o : Opd) (f : Level → Int) (s : OpdShape) : Bool :=
  let row := o.bytes s.elems
  let (lo, hi) := span t o.base f
  let stored (x : Int) : Int × Int :=
    let d := x - o.base
    let q := d / (o.pitch : Int)
    (q, o.elems (d - q * (o.pitch : Int)).toNat)
  let (qa, ca) := stored lo
  let (qb, cb) := stored hi
  let (ra, rb, ba, bb) : Int × Int × Int × Int :=
    if s.direct then (qa, qb, 0, ((o.elems o.pitch - 1) / 32 : Nat)) else (ca, cb, qa / 32, (qb + s.rows - 1) / 32)
  row ≤ o.pitch && o.base % 64 == 0 && o.pitch % 64 == 0 &&
  inSram lo (hi + ((s.rows - 1) * o.pitch + row : Nat) - 1) &&
  (!isMx o.fmt ||
    (o.sBase % 64 == 0 &&
     inSram (o.sBase + min ra rb * o.sPitch + ba) (o.sBase + (max ra rb + (s.lrows : Int) - 1) * o.sPitch + bb)))

/-- The fields of an operand that do not apply hold 0. -/
def opdFieldsOk (o : Opd) (isC : Bool) : Bool :=
  !bit (wd o.w 0) 31 && bits (wd o.w 1) 21 11 == 0 && bits (wd o.w 2) 25 7 == 0 && bits (wd o.w 3) 16 16 == 0 &&
  bits (wd o.w 5) 5 27 == 0 && zeroWords o.w 6 2 && (fmtClass o.fmt).isSome &&
  (isMx o.fmt || (wd o.w 2 == 0 && wd o.w 3 == 0)) && (!o.tsEn || isFp8 o.fmt) && (o.tsEn || o.tscale == 0) &&
  (isC || wd o.w 5 == 0)

def Level.ok (l : Level) (pair : Bool) : Bool :=
  0 < l.bound && l.sA % 64 == 0 && l.sB % 64 == 0 && l.sC % 64 == 0 &&
  !(l.dim == 3 && l.sC != 0) && !(l.dim == 1 && l.sB != 0) && !(l.dim == 2 && l.sA != 0) && !(pair && 2 ≤ l.dim)

/-- Every check of R144 but those on KEEP and on counters; `m` is the SRAM that the parameter block is read from. DESIGN CHOICE: the
operand words of a SYNC, which no rule marks for it, hold 0 (log entry 24). -/
def Desc.ok (t : Desc) (m : Memory) : Bool :=
  let f := rowFnAt m t.paramPtr
  t.valid && bits (wd t 0) 9 23 == 0 && bits (wd t 1) 25 7 == 0 && bits (wd t 2) 13 3 == 0 && bits (wd t 3) 13 3 == 0 &&
  bits (wd t 4) 10 6 == 0 && bits (wd t 4) 18 14 == 0 && zeroWords t 5 3 &&
  (List.range 6).all (fun l => if l < t.levels then (t.level l).ok t.isPair && bits (wd t (40 + 4 * l)) 19 13 == 0
    else zeroWords t (40 + 4 * l) 4) &&
  (t.levels == 0 || !(t.level (t.levels - 1)).serp) &&
  match t.kind with
  | 0 =>
    1 ≤ t.levels && t.levels ≤ 6 && (t.mtile == 1 || t.mtile == 2) && t.paramPtr == 0 && wd t 4 == 0 && zeroWords t 24 8 &&
    opdFieldsOk t.a false && opdFieldsOk t.b false && opdFieldsOk t.c true && sameClass t.a.fmt t.b.fmt && !t.c.trans &&
    t.c.rnd != 3 && (!t.c.accIn || t.c.fmt ≤ 1) &&
    opdExtentOk t t.a (·.sA) (shapeMK t.a.trans t.rows 128) && opdExtentOk t t.b (·.sB) (shapeKN t.b.trans 128 512) &&
    opdExtentOk t t.c (·.sC) { rows := t.rows, elems := 512, lrows := t.rows, blocks := 16, direct := true }
  | 1 =>
    let k1 := 128 * t.k1
    let n2 := 512 * t.n2
    1 ≤ t.levels && t.levels ≤ 6 && t.mtile == 1 && 1 ≤ t.k1 && (t.n2 == 1 || t.n2 == 2) && t.paramPtr % 64 == 0 &&
    t.paramPtr + (if f.softmax then 128 else 64) ≤ sramBytes && f.ok t.b2.fmt &&
    opdFieldsOk t.a false && opdFieldsOk t.b false && opdFieldsOk t.b2 false && opdFieldsOk t.c true &&
    sameClass t.a.fmt t.b.fmt && !t.c.trans && !t.b2.trans && t.c.rnd != 3 && (!t.c.accIn || t.c.fmt ≤ 1) &&
    opdExtentOk t t.a (·.sA) (shapeMK t.a.trans 128 k1) && opdExtentOk t t.b (·.sB) (shapeKN t.b.trans k1 f.width) &&
    opdExtentOk t t.b2 (·.sB) (shapeKN false f.k2 n2) &&
    opdExtentOk t t.c (·.sC) { rows := 128, elems := n2, lrows := 128, blocks := n2 / 32, direct := true } &&
    inSram f.biasPtr (if f.fn1 == 5 then (f.biasPtr + 4 * f.width : Nat) - 1 else f.biasPtr) &&
    inSram f.gainPtr (if f.fn2 == 4 && f.gainEn then (f.gainPtr + 4 * f.width : Nat) - 1 else f.gainPtr) &&
    inSram f.statePtr (if f.softmax then (f.statePtr + 1024 : Nat) - 1 else f.statePtr)
  | 2 => t.levels == 0 && t.mtile == 0 && t.paramPtr == 0 && wd t 4 == 0 && zeroWords t 8 32
  | _ => false

/-- R144 with the counters of R434. -/
def Dev.descOk (d : Dev) (p : Fin 64) (m : Memory) (t : Desc) : Bool := t.ok m && d.ctrOk p t.waitW && d.ctrOk p t.postW

/-! ### Plain cycles (R90, R145, R146) -/

/-- Plain cycles of `n` rows of A in a class (R90). -/
def rowCycles (code n : Nat) : Nat :=
  match fmtClass code with
  | some 0 => n / 2
  | some 3 => 2 * n
  | some 4 => 16 * n
  | _ => n

/-- R145's recursion over the steps: the time, the times at which the halves have drained, and the half in use. -/
def matmulAux (t : Desc) (stream : Nat) : Nat → Nat → Nat → Nat × Nat → Bool → Nat
  | 0, _, _, dr, _ => max dr.1 dr.2
  | k + 1, n, time, dr, h =>
    let h := if t.starts n then !h else h
    let time := if t.starts n then max time (if h then dr.2 else dr.1) + (if t.c.accIn then t.rows else 0) else time
    let time := time + (if n == 0 || t.reuses n then stream else max stream 128)
    let dr := if t.ends n then
        let e := if t.keep && n + 1 == t.steps then time + 160 else time + 160 + t.rows
        if h then (dr.1, e) else (e, dr.2)
      else dr
    matmulAux t stream k (n + 1) time dr h

def Desc.transAny (t : Desc) : Bool := t.a.trans || t.b.trans || t.b2.trans

/-- The row-function time of one block (R115), and the mask's (R204). -/
def RowFn.cycles (f : RowFn) (w : Nat) : Nat :=
  (if f.fn1 == 0 then 0 else 128 * w / 512) +
  (if f.fn2 == 0 then 0 else if f.fn2 == 1 || f.fn2 == 4 then 2 * (128 * w / 512) else 128 * w / 512)

/-- The bound of R146 on one step that computes `w` columns. -/
def Desc.pairStep (t : Desc) (f : RowFn) (w : Nat) : Nat :=
  let k2 := if f.gate then w / 2 else w
  128 + (if t.transAny then 64 else 0) + t.k1 * (w / 512) * max (rowCycles t.a.fmt 128) 128 + 160 + f.cycles w +
    k2 / 128 * t.n2 * max (rowCycles f.p2Fmt 128) 128 + 160 + 128 * t.n2

/-- The stand-alone cycles of a descriptor (R145, R146). -/
def Desc.cycles (t : Desc) (m : Memory) : Nat :=
  match t.kind with
  | 0 => matmulAux t (rowCycles t.a.fmt t.rows) t.steps 0 (128 + (if t.transAny then 64 else 0)) (0, 0) true
  | 1 => let f := rowFnAt m t.paramPtr; t.steps * t.pairStep f f.width
  | _ => 0

end Sys2Proof.Machine
end

