-- ==== Sys2Proof/Machine/Elems.lean ====
section
/-! DEFINITION. Elements in memory (R93, R95), the stochastic-rounding draws of a plain (R105, R106), and the conversion of a
run of elements (R102 to R104). -/

namespace Sys2Proof.Machine

open Sys2Proof

/-! ### Packing (R93, R95) -/

def unpack32 : List Byte → List Nat
  | a :: b :: c :: e :: r => leNat [a, b, c, e] :: unpack32 r
  | _ => []
def unpack16 : List Byte → List Nat
  | a :: b :: r => leNat [a, b] :: unpack16 r
  | _ => []
def unpack4 : List Byte → List Nat
  | a :: r => a.toNat % 16 :: a.toNat / 16 :: unpack4 r
  | [] => []

/-- The element codes that bytes hold in a format of R93. -/
def unpack (code : Nat) (b : List Byte) : List Nat :=
  match elemBits code with
  | 32 => unpack32 b
  | 16 => unpack16 b
  | 4 => unpack4 b
  | _ => b.map (·.toNat)

def pack4 : List Nat → List Byte
  | a :: b :: r => BitVec.ofNat 8 (a % 16 + 16 * (b % 16)) :: pack4 r
  | [a] => [BitVec.ofNat 8 (a % 16)]
  | [] => []

/-- The bytes of element codes. -/
def pack (code : Nat) (v : List Nat) : List Byte :=
  match elemBits code with
  | 32 => v.flatMap (leBytes 4)
  | 16 => v.flatMap (leBytes 2)
  | 4 => pack4 v
  | _ => v.flatMap (leBytes 1)

/-- The numbers that bytes hold. -/
def vals (code : Nat) (b : List Byte) : List Val := (unpack code b).map (fmtOf code).decode

/-- A list cut into runs of `n`. -/
def chunks {α : Type} (n : Nat) : Nat → List α → List (List α)
  | 0, _ => []
  | _, [] => []
  | k + 1, l => l.take n :: chunks n k (l.drop n)

def chunked {α : Type} (n : Nat) (l : List α) : List (List α) := chunks n l.length l

/-! ### Draws (R105, R106) -/

/-- `n` draws of a stream of a plain, and the plain with the stream's counter advanced. -/
def Plain.draws (x : Plain) (s : Fin 66) (n : Nat) : Plain × List DWord :=
  let c := Tab.at x.ctrs s
  ({ x with ctrs := Tab.upd x.ctrs s (fun k => k + BitVec.ofNat 64 n) },
   (List.range n).map (fun k => srDraw x.seed s.val (c + BitVec.ofNat 64 k)))

/-- The roundings of `n` elements under a code of R102: one draw each under code 1. -/
def Dev.roundings (d : Dev) (i : Fin 64) (s : Fin 66) (code n : Nat) : Dev × List Rnd :=
  match code with
  | 1 =>
    let (x, l) := (d.plain i).draws s n
    (d.updPlain i (fun _ => x), l.map Rnd.stochastic)
  | 2 => (d, List.replicate n .zero)
  | _ => (d, List.replicate n .nearest)

/-- What a conversion sets in TIL_NF_STAT (R103, R130). -/
def Dev.noteConv (d : Dev) (i : Fin 64) (f : ConvFlags) : Dev :=
  d.updPlain i (fun x => { x with nf := x.nf ||| BitVec.ofNat 5 (2 * b2n f.nf + 4 * b2n f.sat) })

/-- A run of numbers converted: the scale bytes of an MX format, the element codes, and the flags. -/
def convertRun (code : Nat) (rnds : List Rnd) (sat : Bool) (v : List Val) : List Byte × List Nat × ConvFlags :=
  if isMx code then
    let r := ((chunked 32 v).zip (chunked 32 rnds)).map (fun x => mxBlock code x.2 sat x.1)
    (r.map (·.1), r.flatMap (·.2.1), r.foldl (fun a x => a.or x.2.2) ConvFlags.none)
  else
    let r := (v.zip rnds).map (fun x => (fmtOf code).convert x.2 sat x.1)
    ([], r.map (·.1), r.foldl (fun a x => a.or x.2) ConvFlags.none)

/-- Whether a converted run holds a non-finite value as written. -/
def runNonFinite (code : Nat) (r : List Byte × List Nat × ConvFlags) : Bool :=
  r.1.any (fun s => s == 0xFF) || r.2.1.any (fun e => !((fmtOf code).decode e).finite)

end Sys2Proof.Machine
end

