-- ==== Sys2Proof/Machine/Idle.lean ====
section
/-! DEFINITION. The commands of a ring (R62 to R64), and the idle cycles of plains by cause (R23, R221, R323). -/

namespace Sys2Proof.Machine

open Sys2Proof

/-! ### Commands on a ring -/

/-- The entry point that a command's work runs on plains. -/
def Work.run? : Work → Option RunWork
  | .run w => some w
  | .collective w _ => some w
  | .update w => w.dir
  | _ => Option.none

def Work.updRun (w : Work) (f : RunWork → RunWork) : Work :=
  match w with
  | .run x => .run (f x)
  | .collective x c => .collective (f x) c
  | .update u => .update { u with dir := u.dir.map f }
  | w => w

def ringPart (r : RingId) : Option (Fin 64) := match r.fn with | .vf p => some p | .pf => none

def Cmd.opcode (c : Cmd) : Nat := bits (wd c.words 0) 0 8
def Cmd.irq (c : Cmd) : Bool := bit (wd c.words 0) 8
def Cmd.tag (c : Cmd) : BitVec 16 := BitVec.ofNat 16 (bits (wd c.words 0) 16 16)

def Dev.updCmd (d : Dev) (r : RingId) (i : BitVec 16) (f : Cmd → Cmd) : Dev :=
  d.updRing r (fun x => { x with cmds := x.cmds.map (fun c => if c.index == i then f c else c) })

def Dev.cmd (d : Dev) (r : RingId) (i : BitVec 16) : Option Cmd := (d.ring r).cmds.find? (fun c => c.index == i)

/-- The oldest started command of a ring with a given opcode that is not done. -/
def Dev.started (d : Dev) (r : RingId) (op : Nat) : Option Cmd :=
  (d.ring r).cmds.find? (fun c => c.stage == .started && c.opcode == op)

/-- Every started command of a partition, with its ring. -/
def Dev.startedOf (d : Dev) (p : Fin 64) : List (RingId × Cmd) :=
  (partRings p).flatMap (fun r => ((d.ring r).cmds.filter (fun c => c.stage == .started)).map (fun c => (r, c)))

/-! ### Idle causes (R23, R323) -/

def IdleCause.idx : IdleCause → Fin 8
  | .peerData => 0 | .peerLate => 1 | .memory => 2 | .host => 3 | .ingest => 4 | .thermal => 5 | .power => 6 | .bubble => 7

/-- The transfers of a partition in flight whose post counter is `ctr` (R323): DMA requests, and the commands whose engines move data,
an UPDATE with its glens. -/
def Dev.transfersOn (d : Dev) (p : Fin 64) (ctr : BitVec 12) : List MemOwner :=
  let posts (w : Word) : Bool := enOf w && ctrOf w == ctr
  (d.plainsOf p).flatMap (fun i =>
    ((d.plain i).reqs.filter (fun q => q.stage != .issued && posts (wd q.words 7))).map (fun q => .request i q.id)) ++
  (d.startedOf p).flatMap (fun x =>
    let on : Bool := match x.2.work with
      | .update _ => posts (wd x.2.words 14)
      | .sample _ => posts (wd x.2.words 13)
      | .encode _ => posts (wd x.2.words 12)
      | .collective r w => w.opRunning && (match r.entry.collective.bind (fun c => c.ops[w.op]?) with
        | some o => posts (wd o 15)
        | none => false)
      | _ => false
    if on then .command x.1 :: (match x.2.work with | .update _ => (List.finRange 24).map MemOwner.glen | _ => []) else [])

/-- The device requests queued for some transfers. -/
def Dev.queued (d : Dev) (p : Fin 64) (l : List MemOwner) : List MemReq :=
  ((d.part p).dale.queue ++ (d.part p).basin.queue).filter (fun q => l.contains q.owner)

/-- Whether a collective command of the partition has started and not reached START, and posts `ctr` (R323). -/
def Dev.peerLate (d : Dev) (p : Fin 64) (ctr : BitVec 12) : Bool :=
  (d.startedOf p).any (fun x => match x.2.work with
    | .collective r w => !w.reached && (match r.entry.collective with
      | some c => c.ops.any (fun o => enOf (wd o 15) && ctrOf (wd o 15) == ctr)
      | none => false)
    | _ => false)

/-- The cause under which a plain's waiting cycles count (R323). -/
def Dev.waitCause (d : Dev) (i p : Fin 64) (ctr : BitVec 12) : IdleCause :=
  let q := d.queued p (d.transfersOn p ctr)
  if d.pwr.capped || d.pwr.powerMhz < 1200 then .power
  else if d.pwr.heatMhz.toList.getD (2 * (i.val / 32) + i.val % 8 / 4) 1200 < 1200 ||
      q.any (fun m => match place m.addr with | .dale g => (Tab.at d.daleStacks (stackOf g)).state == .throttled | _ => false) then .thermal
  else if d.peerLate p ctr then .peerLate
  else if !q.isEmpty then .memory
  else match (d.part p).counter ctr with
    | some c => c.cls
    | none => .peerData

/-- Count idle plain cycles of a plain of a LOADED partition. -/
def Dev.countIdle (d : Dev) (i : Fin 64) (c : IdleCause) (n : DWord) : Dev :=
  d.updPlain i (fun x => { x with idle := Tab.upd x.idle c.idx (fun k => k + n) })

def plainDom (i : Fin 64) : Fin 100 := ⟨i.val, by omega⟩

/-- The plain cycles between two ticks at a plain's clock. -/
def Dev.cyclesSince (d : Dev) (i : Fin 64) (since : DWord) : DWord :=
  BitVec.ofNat 64 ((d.pwr.aon - since).toNat * (d.dom (plainDom i)).mhz.toNat * 10 / 192)

/-- The cycles that a descriptor has waited since they were last counted, under the cause that applies now (R221, R323). -/
def Dev.noteWait (d : Dev) (i : Fin 64) : Dev :=
  match d.waits.find? (fun w => w.who == .descriptor i) with
  | none => d
  | some w =>
    if (d.part w.part).state = .loaded then
      (d.countIdle i (d.waitCause i w.part w.ctr) (d.cyclesSince i (d.plain i).seq.waitFrom)).updPlain i (fun x =>
        { x with seq := { x.seq with waitFrom := d.pwr.aon } })
    else d

/-- The idle cycles that a command reports for a plain: those without a command count as HOST, and a waiting descriptor's come from
the ticks of its wait. -/
def Dev.noteIdle (d : Dev) (i : Fin 64) (n : DWord) : Dev :=
  match d.plainOwner i with
  | none => d
  | some p =>
    if (d.part p).state != .loaded || (d.plain i).state == .stopped then d
    else if (d.plain i).job.isNone then d.countIdle i .host n
    else d.noteWait i

end Sys2Proof.Machine
end

