-- ==== Sys2Proof/Machine/Ends.lean ====
section
/-! DEFINITION. How commands end: completion records (R65 to R69), the stops of R119, R226, R227 and R307, and the ends
that reach further: a plain fence (R385, R386), a partition reset (R80 to R84), a thermal trip (R247), a shutdown (R402)
and a module reset (R409, R410). -/

namespace Sys2Proof.Machine

open Sys2Proof

/-! ### Commands on a ring -/

/-- Microseconds from START to completion, rounded up: 19.2 always-on ticks each (R69). -/
def elapsedUs (start done : DWord) : Nat := (10 * (done.toNat - start.toNat) + 191) / 192

/-- Whether a trip of R384 stands between START and completion, or its condition was in force at START. -/
def Dev.tripped (d : Dev) (c : Cmd) : Bool :=
  c.held || d.ras.trips.any (fun t => c.startTick ≤ t.2)

/-- Whether PWR holds a clock or the power cap at this moment, by an entry record of the log (R384). -/
def Dev.holdInForce (d : Dev) : Bool := !d.ras.inForce.isEmpty

/-- The stacks and the channels that hold a partition's granules, by number. -/
def Dev.unitsOf (d : Dev) (p : Fin 64) (t : Tier) : List Nat :=
  match t with
  | .dale => (List.range 12).filter (fun s => (d.daleOf p).any (fun g => (stackOf g).val == s))
  | .basin => (List.range 24).filter (fun c => (d.basinOf p).any (fun g => (channelOf g).val == c))

/-- Whether the condition of R242 was met during a command that overran: the spec fixes the slot arbitration that
decides it only up to its bounds, so the answer, the unit and the count are free values among those that R242 allows (log
entry 7). The command is a breach when the log records the event (R12). -/
def Dev.spreadOver (d : Dev) (p : Fin 64) : Dev × Bool :=
  let (v, d) := d.fresh
  let units := (d.unitsOf p .dale).map (fun u => (Tier.dale, u)) ++ (d.unitsOf p .basin).map (fun u => (Tier.basin, u))
  match (if v.toNat % 2 = 0 then none else units[v.toNat / 2 % max 1 units.length]?) with
  | none => (d, false)
  | some (t, u) =>
    let e := d.log Ev.spreadOver (ownerByte (some p)) (if t = .basin then 2 ^ 15 + u else u)
      (BitVec.ofNat 32 (v.toNat / 128 % (d.unitsOf p t).length + 1)) 0 0
    (e, e.ras.trips.length != d.ras.trips.length)

/-- Whether a sequencer has nothing left to run. -/
def Seq.over (q : Seq) : Bool := q.cur.isNone && q.finishing.isEmpty && q.list.isEmpty

/-- Whether any thread of a plain runs. -/
def Plain.threaded (x : Plain) : Bool := x.threads.toList.any (fun t => t.live)

/-- A plain whose work is over is IDLE (R130). -/
def Plain.rest (x : Plain) : Plain := if x.state = .busy && x.seq.over && !x.threaded then { x with state := .idle } else x

/-- Whether START has come: a collective's is its last peer's arrival (R71). -/
def Cmd.ran (c : Cmd) : Bool :=
  c.stage == .started && (match c.work with | .collective _ w => w.reached || w.opRunning | _ => true)

/-- The entries of a command that one plain completed: the sequencer's while it runs the command, else those it left (R64, R143). -/
def Dev.doneOn (d : Dev) (r : RingId) (c : Cmd) (i : Fin 64) : List Nat :=
  if (d.plain i).job = some (r, c.index) then (d.plain i).seq.done
  else match c.work.run? with
    | some w => match w.done.find? (fun x => x.1 == i) with | some x => x.2 | none => []
    | none => []

/-- The highest entry that every plain of a command completed, 0x1FF when there is none (R143). -/
def Dev.lastDesc (d : Dev) (r : RingId) (c : Cmd) : BitVec 9 :=
  match c.plains with
  | [] => 0x1FF
  | i :: rest =>
    match ((d.doneOn r c i).filter (fun e => rest.all (fun j => (d.doneOn r c j).contains e))).foldl
        (fun (m : Option Nat) e => some (max (m.getD 0) e)) none with
    | some e => BitVec.ofNat 9 e
    | none => 0x1FF

/-- LAST_DESC of a completion record (R69): the statuses to which it applies are PARTIAL and POISON_CONSUMED (R143), WATCHDOG for a
command that runs descriptors (R226), and THERMAL_TRIP and CDC_TIMEOUT of a started command (R247, R408). -/
def Dev.lastFor (d : Dev) (r : RingId) (c : Cmd) (st : Status) : BitVec 9 :=
  let last := match c.work.run? with | some _ => d.lastDesc r c | none => 0x1FF
  match st with
  | .partialEnd | .poisonConsumed => last
  | .watchdog => match c.work with | .run _ | .update _ => last | _ => 0
  | .thermalTrip | .cdcTimeout => if c.stage = .started then last else 0
  | _ => 0

/-- A command's record becomes ready (R71). PROMISE_BREACH replaces the status of a command that overran its promise when a trip
covers it (R12, R31), but for THERMAL_TRIP. -/
def Dev.finish (d : Dev) (r : RingId) (i : BitVec 16) (st : Status) (info : BitVec 16 := 0) (aux : Word := 0) : Dev :=
  match d.cmd r i with
  | none => d
  | some c =>
    let late := c.ran && c.promise.toNat < elapsedUs c.startTick d.pwr.aon && st != .thermalTrip
    let (d, breach) :=
      if !late then (d, false)
      else if d.tripped c then (d, true)
      else match ringPart r with
        | some p => d.spreadOver p
        | none => (d, false)
    let st := if breach then .promiseBreach else st
    let last := d.lastFor r c st
    let d := c.plains.foldl (fun d i' => d.updPlain i' (fun x =>
      if x.job = some (r, i) then { x with job := none }.rest else x)) d
    (d.updCmd r i (fun c => { c with
      stage := .done, doneTick := if c.ran then d.pwr.aon else c.startTick, status := st, lastDesc := last, info := info, aux := aux,
      work := .none
      promise := if st.code / 16 = 1 || st == .plainLost then 0 else c.promise })).endWait (.command r i)

/-! ### Completion records (R65, R66, R69) -/

/-- The eight words of a completion record. DESIGN CHOICE: ELAPSED_US wraps at its 24 bits (log entry 23). -/
def Cmd.record (c : Cmd) (epoch : BitVec 16) (phase : Bool) : List Word :=
  [BitVec.ofNat 32 (c.status.code + 65536 * c.tag.toNat), BitVec.ofNat 32 (c.index.toNat + 65536 * epoch.toNat),
   BitVec.ofNat 32 c.promise.toNat,
   BitVec.ofNat 32 (elapsedUs c.startTick c.doneTick % 2 ^ 24), lo32 c.startTick,
   BitVec.ofNat 32 (c.lastDesc.toNat + 65536 * c.info.toNat), c.aux, BitVec.ofNat 32 (2 ^ 31 * b2n phase)]

def Ring.size (x : Ring) : Nat := ringSize x.cfg 8
def Ring.en (x : Ring) : Bool := bit x.cfg 0
def Ring.vec (x : Ring) : BitVec 5 := BitVec.ofNat 5 (bits x.cfg 16 5)
def Ring.cqBase (x : Ring) : Nat := (dword x.cqBaseLo x.cqBaseHi).toNat
def Ring.sqBase (x : Ring) : Nat := (dword x.sqBaseLo x.sqBaseHi).toNat

/-- Write one record at CQ_TAIL. -/
def Dev.putRecord (d : Dev) (r : RingId) (ws : List Word) : Dev :=
  let x := d.ring r
  let d := d.hostWrite (ringPart r) (x.cqBase + 32 * (x.written % x.size)) (ws.flatMap wordBytes)
  d.updRing r (fun x => { x with
    written := x.written + 1, phase := if (x.written + 1) % x.size = 0 then !x.phase else x.phase })

/-- Write the record of the ring's oldest command when it is ready and a slot is free: one slot of the ring stays empty, for
equal indices mean an empty queue (log entry 23). -/
def Dev.writeRecord (d : Dev) (r : RingId) : Dev :=
  let x := d.ring r
  match x.cmds with
  | c :: rest =>
    if c.stage == .done && x.written - x.consumed + 1 < x.size then
      let d := d.putRecord r (c.record d.ccx.epoch x.phase)
      let d := d.updRing r (fun y => { y with
        cmds := rest
        shortUsed := if c.status == .refusedFit then (c.info, x.written) :: y.shortUsed else y.shortUsed })
      let d := match ringPart r with
        | some p => d.acct p (fun a => if c.status.code / 16 = 1 then { a with refused := a.refused + 1 }
            else { a with completed := a.completed + 1 })
        | none => d
      if c.irq then d.irq r.fn x.vec else d
    else d
  | [] => d

/-- Write every record of a ring that is ready now. -/
def Dev.writeReady (d : Dev) (r : RingId) : Dev := (List.range (d.ring r).cmds.length).foldl (fun d _ => d.writeRecord r) d

/-! ### Events committed (R380, R381) -/

/-- The record being written commits: its SEQ word goes last, PROD advances, and the next record begins. -/
def Dev.commitEvent (d : Dev) : Dev :=
  match d.ras.writing with
  | none => d
  | some e =>
    let base := (dword d.ras.evBaseLo d.ras.evBaseHi).toNat
    { d with
      hostMem := writeWords d.hostMem (base + 32 * d.ras.prod.toNat) e.words
      ras := Ras.advance { d.ras with
        writing := none, prod := BitVec.ofNat 16 ((d.ras.prod.toNat + 1) % d.ras.size) } }

def Dev.flushEvents (d : Dev) : Dev := (List.range 256).foldl (fun d _ => d.commitEvent) d

/-! ### Plains that stop -/

/-- The arrivals of threads that are no more: they still count at the hub, and stall nobody (R119, R222). -/
def Barrier.forget (b : Barrier) (i : Fin 64) (out : Fin 64 → Bool) : Barrier :=
  let f (a : Arrival) : Arrival := if a.plain = i && out a.thread then { a with sync := false, job := none } else a
  { b with stalled := b.stalled.filter (fun a => !(a.plain = i && out a.thread)), held := b.held.map f, flying := b.flying.map f }

/-- Some threads of a plain stop before their next instruction, or have ended (R119): their waits end. -/
def Dev.stopThreads (d : Dev) (i : Fin 64) (out : Fin 64 → Bool) : Dev :=
  let d := d.updPlain i (fun x => { x with threads := Vector.ofFn (fun t =>
    if out t then { Tab.at x.threads t with live := false, stall := .none } else Tab.at x.threads t) })
  { d with
    waits := d.waits.filter (fun w => match w.who with | .thread j t => !(j = i && out t) | _ => true)
    bars := Vector.map (fun b => b.forget i out) d.bars }

def Dev.stopThread (d : Dev) (i t : Fin 64) : Dev := d.stopThreads i (fun u => u = t)

/-- The sequencer starts no further entry; an entry that still waits is abandoned. -/
def Dev.stopSeq (d : Dev) (i : Fin 64) : Dev :=
  let d := (d.noteWait i).updPlain i (fun x => { x with seq := { x.seq with
    list := [], halt := true
    cur := if x.seq.waiting then none else x.seq.cur
    waiting := false } })
  d.endWait (.descriptor i)

/-- A plain's share of a command stops: the threads that the command started, and its sequencer if it still runs the command. -/
def Dev.stopShare (d : Dev) (i : Fin 64) (j : RingId × BitVec 16) : Dev :=
  let d := d.stopThreads i (fun t => (d.thread i t).job = some j)
  (if (d.plain i).job = some j then d.stopSeq i else d).updPlain i Plain.rest

/-- The time that a plain's DMA requests and a command's engine have spent when they end early (R85). -/
def Dev.chargeTime (d : Dev) (p : Option (Fin 64)) (c : EngClass) (since : DWord) : Dev :=
  match p with
  | some p => d.acct p (fun a => a.engine c ((d.pwr.aon - since).toNat * 10000 / 192))
  | none => d
def Dev.chargeReqs (d : Dev) (i : Fin 64) : Dev :=
  d.each ((d.plain i).reqs.filter (fun q => q.stage != .issued)) (fun d q => d.chargeTime (d.plainOwner i) .dma q.since)

/-- The requests of a queue pair that `gone` names leave it: the NET engine served those that were issued until now (R85). -/
def Dev.dropNetReqs (d : Dev) (t : Fin 256) (gone : NetReq → Bool) : Dev :=
  let x := Tab.at d.targets t
  (d.each (x.reqs.filter (fun q => gone q && q.issued)) (fun d q => d.chargeTime (finOf 64 (bits (wd x.words 0) 8 8)) .net q.since)).updTarget t
    (fun x => { x with reqs := x.reqs.filter (fun q => !gone q) })

/-- A plain halts at its next plain cycle: no descriptor completes, its threads and requests are gone (R84, R247). -/
def Dev.haltPlain (d : Dev) (i : Fin 64) : Dev :=
  let d := ((d.stopThreads i (fun _ => true)).stopSeq i).chargeReqs i
  let d := d.updPlain i (fun x => { x with
    seq := { x.seq with cur := none, finishing := [], halt := true }, reqs := []
    acc := Vector.map (fun h => { h with state := .free, cIn := none, out := [] }) x.acc
    state := if x.state = .busy then .idle else x.state })
  { d with waits := d.waits.filter (fun w => match w.who with | .request j _ => j != i | _ => true) }

/-- Thread registers whose contents were discarded (R128): they hold free values, counted from `n` (log entry 5). -/
def Thread.discarded (n : Nat) : Thread :=
  { Thread.reset with
    x := Vector.ofFn (fun k => if k = 0 then 0 else Config.freeValue (n + k.val))
    f := Vector.ofFn (fun k => lo32 (Config.freeValue (n + 32 + k.val)))
    v := Vector.ofFn (fun k => (List.range 16).foldl (fun a j => a <<< 64 ||| (Config.freeValue (n + 64 + 16 * k.val + j)).setWidth 1024) 0)
    fcsr := (Config.freeValue (n + 576)).setWidth 8 }

/-- A partition reset halts a plain (R84, R128): it runs no command, and the contents of its thread registers are gone. -/
def Dev.resetPlain (d : Dev) (i : Fin 64) : Dev :=
  let n := d.free
  { (d.haltPlain i).updPlain i (fun x => { x with job := none, threads := Vector.ofFn (fun t => Thread.discarded (n + 577 * t.val)) })
    with free := n + 577 * 64 }

/-- Whether a plain's share of a command is over (R119). -/
def Plain.quietFor (x : Plain) (j : RingId × BitVec 16) : Bool :=
  (x.job != some j || x.seq.over) && x.threads.toList.all (fun t => !(t.live && t.job == some j))

/-- Streams held by a job leave its media engines. -/
def Dev.releaseStream (d : Dev) (e : Fin 4) : Dev :=
  { d with engines := Tab.upd d.engines e (fun x =>
      { x with streams := x.streams - 1, state := if x.state = .busy && x.streams ≤ 1 then .ready else x.state }) }

/-- The shard that an UPDATE works on now. -/
def UpdateWork.head (w : UpdateWork) : Option Nat :=
  match w.stage with
  | .repair => w.repairs.head?
  | .apply => w.todo.head?
  | .refresh => w.todo.head?
  | .begin => none

/-- A glen without work, or STOPPING while writes that it issued have not completed (R291). -/
def Dev.stopGlen (d : Dev) (p : Fin 64) (c : Fin 24) : Dev :=
  { d with glens := Tab.upd d.glens c (fun g =>
      if g.part != some p then g
      else if d.holds p (.glen c) then { g with state := .stopping }
      else { g with state := .idle, part := none, shard := 0 }) }

/-- The glens of a partition issue no further chunk. -/
def Dev.stopGlens (d : Dev) (p : Fin 64) : Dev := (List.finRange 24).foldl (fun d c => d.stopGlen p c) d

/-- The units that a command's work holds are given back: glens stop under R269, engines drop its streams. -/
def Dev.dropWork (d : Dev) (r : RingId) (c : Cmd) : Dev :=
  match c.work with
  | .update w => match ringPart r, w.head with
    | some p, some k => d.each ((List.finRange 24).filter (fun c => (Tab.at d.glens c).shard.toNat == k)) (fun d c => d.stopGlen p c)
    | _, _ => d
  | .sample w => w.samples.foldl (fun d x => match x.engine with | some e => d.releaseStream e | none => d) d
  | .encode w => if w.begun then d.releaseStream w.engine else d
  | .collective _ w =>
    let d := if w.opRunning then d.chargeTime (ringPart r) .collective w.since else d
    (d.dropRun (.command r c.index)).dropRun (.nfSync r c.index)
  | _ => d

/-- Every plain of a command is quiet. -/
def Dev.allQuiet (d : Dev) (r : RingId) (c : Cmd) : Bool := c.plains.all (fun i => (d.plain i).quietFor (r, c.index))

/-- Complete a RUN or SERVE_MIX whose plains are all quiet (R119), and an UPDATE whose borrowed plains stopped. -/
def Dev.tryFinish (d : Dev) (r : RingId) (i : BitVec 16) : Dev :=
  match d.cmd r i with
  | some c =>
    if c.stage == .started && d.allQuiet r c then
      match c.work with
      | .run w => if !w.begun && w.stop.isNone then d else d.finish r i (w.stop.getD .ok)
      | .update w =>
        match w.dir.bind (·.stop) with
        | none => d
        | some st => (d.dropWork r c).finish r i st
      | _ => d
    else d
  | none => d

/-- A plain's work for a command may be over: the command completes if that share was the last. -/
def Dev.settle (d : Dev) (i : Fin 64) (j : Option (RingId × BitVec 16)) : Dev :=
  let d := d.updPlain i Plain.rest
  match j with
  | some (r, k) => d.tryFinish r k
  | none => d

/-- A started command ends early with a status, kept at the first one. The plains of a RUN, or those that an UPDATE borrows, finish the
entry they run and start no other. Poison on a plain that an UPDATE borrows ends the plains' run and not the UPDATE, whose glens
finish the step (R287). -/
def Dev.endCmd (d : Dev) (r : RingId) (c : Cmd) (st : Status) : Dev :=
  let stopped (d : Dev) (f : Work → Work) : Dev :=
    let d := d.updCmd r c.index (fun c => { c with work := f c.work })
    (c.plains.foldl (fun d i => d.stopShare i (r, c.index)) d).tryFinish r c.index
  let keep (w : Work) : Work := w.updRun (fun x => { x with stop := some (x.stop.getD st) })
  match c.work with
  | .run _ => stopped d keep
  | .update u =>
    if u.dir.isNone || d.allQuiet r c then (d.dropWork r c).finish r c.index st
    else if st = .poisonConsumed then stopped d (fun w => match w with | .update u => .update { u with poison := true } | w => w)
    else stopped d keep
  | _ => (d.dropWork r c).finish r c.index st

/-- The started command that a thread, a request or an entry belongs to ends early. -/
def Dev.endOf (d : Dev) (j : Option (RingId × BitVec 16)) (st : Status) : Dev :=
  match j with
  | some (r, k) => match d.cmd r k with
    | some c => if c.stage == .started then d.endCmd r c st else d
    | none => d
  | none => d

/-- An access, an instruction or a request of a thread faults at a pc (R120): the thread stops, if it is still there, and its command
ends. -/
def Dev.faultAt (d : Dev) (i t : Fin 64) (job : Option (RingId × BitVec 16)) (cause : Nat) (pc : DWord) : Dev :=
  let d := d.updPlain i (fun x => if bit x.thrFault 31 then x else { x with
    thrFault := BitVec.ofNat 32 (t.val + 256 * cause + 2 ^ 31), faultPc := pc })
  let d := if (d.thread i t).job = job then d.stopThread i t else d
  let d := d.log Ev.threadFault (ownerByte (d.plainOwner i)) i.val (BitVec.ofNat 32 (t.val + 256 * cause)) (lo32 pc) (hi32 pc)
  d.endOf job .partialEnd

/-- A thread faults (R120). -/
def Dev.threadFault (d : Dev) (i t : Fin 64) (cause : Nat) (pc : DWord) : Dev := d.faultAt i t (d.thread i t).job cause pc

/-- A bite (R374): the engine code and the address at which the mark was read. -/
def Dev.bite (d : Dev) (p : Option (Fin 64)) (engine : Nat) (a0 a1 : Word) (inst : Nat) (test : Bool) : Dev :=
  d.log Ev.poisonConsumed (ownerByte p) engine a0 a1 (BitVec.ofNat 32 inst) test
def Dev.biteDev (d : Dev) (p : Option (Fin 64)) (engine inst a : Nat) : Dev :=
  d.bite p engine (BitVec.ofNat 32 a) (BitVec.ofNat 32 (a / 2 ^ 32 % 2 ^ 12 + 4096 * tierCode a)) inst (d.tested 0 (lineOf a))
def Dev.biteSram (d : Dev) (p : Option (Fin 64)) (engine inst : Nat) (i : Fin 64) (line : Nat) : Dev :=
  d.bite p engine (BitVec.ofNat 32 line) (BitVec.ofNat 32 (i.val * 65536)) inst (d.tested (i.val + 1) line)

/-! ### Slots that fail (R227, R229, R307) -/

/-- A slot enters FAILED: what it held is gone. -/
def Dev.breakSlot (d : Dev) (s : Fin 32) : Dev :=
  (d.updBar s (fun b => { b with state := .failed, stalled := [], held := [], sent := false })).dropRun (.slot s)

/-- A slot enters FAILED: the threads stalled on it stop, and the commands that own them end (R227, R229). -/
def Dev.failSlot (d : Dev) (s : Fin 32) (st : Status) : Dev :=
  let b := Tab.at d.bars s
  let owners := (b.stalled ++ b.held).filter (fun a => a.job.isSome)
  let d := d.breakSlot s
  let d := owners.foldl (fun d a => d.stopThread a.plain a.thread) d
  owners.foldl (fun d a => d.endOf a.job st) d

/-- The slots of a partition that take part in a group. -/
def Dev.slotsOf (d : Dev) (p : Fin 64) (g : BitVec 24) : List (Fin 32) :=
  (d.barsOf p).filter (fun s => (Tab.at d.bars s).groupEn && (Tab.at d.bars s).group == g)

/-- The local effects of a group abort (R307): waiting commands of the group end with the cause, its slots fail. -/
def Dev.abortHere (d : Dev) (p : Fin 64) (g : BitVec 24) (cause : AbortCause) : Dev :=
  let cmds := (d.startedOf p).filter (fun x => match x.2.work with
    | .collective r _ => match r.entry.collective with
      | some c => c.groups.any (fun y => y.1 == g)
      | none => false
    | _ => false)
  let d := d.latchAbort p g cause
  let d := (d.slotsOf p g).foldl (fun d s => d.failSlot s (abortStatus cause)) d
  cmds.foldl (fun d x => d.endCmd x.1 x.2 (abortStatus cause)) d

/-- A group abort of every group of a partition that is not aborted yet, sent and latched here, its slots FAILED: the commands of the
partition end for a cause of their own (R82, R247, R386, R390). -/
def Dev.abortAll (d : Dev) (p : Fin 64) (cause : AbortCause) : Dev :=
  d.each (d.groupsOf p) (fun d g =>
    if (d.abortedBy p g.1).isSome then d
    else (d.slotsOf p g.1).foldl Dev.breakSlot ((d.sendAbort p g.1 g.2 cause).latchAbort p g.1 cause))

/-! ### A plain fails (R385 to R387) -/

/-- The transfers of a partition whose reads are not back are discarded, and so are the reads (R81). -/
def Part.dropReads (x : Part) : Part :=
  { x with dale := { x.dale with queue := x.dale.queue.filter (fun q => q.write) }
           basin := { x.basin with queue := x.basin.queue.filter (fun q => q.write) } }
def Dev.discardReads (d : Dev) (p : Fin 64) : Dev :=
  let d := d.each (d.plainsOf p) (fun d i => d.updPlain i (fun x => { x with reqs := x.reqs.filter (fun q => q.stage == .moved) }))
  d.updPart p Part.dropReads

/-- The partition loses a plain: its waits end, its transfers are discarded, every started command ends with PARTIAL. -/
def Dev.losePlain (d : Dev) (p : Fin 64) : Dev :=
  let d := (d.updPart p (fun x => { x with lost := true })).discardReads p
  let d := ((d.stopGlens p).abortAll p .colLost).each (d.plainsOf p) Dev.noteWait
  let d := { d with waits := d.waits.filter (fun w => w.part != p) }
  (d.startedOf p).foldl (fun d x => d.endCmd x.1 x.2 .partialEnd) d

/-- Fence a plain for a cause of R385. -/
def Dev.fencePlain (d : Dev) (i : Fin 64) (cause : Nat) : Dev :=
  if (d.plain i).state = .fenced then d
  else
    let owner := d.plainOwner i
    let d := d.log Ev.plainFenced (ownerByte owner) i.val (BitVec.ofNat 32 cause) 0 0
    let d := d.haltPlain i
    let d := d.updPlain i (fun x => { x with state := .fenced })
    let d := d.updParts (fun x => { x with counters := x.counters.map (fun c => if c.home = i then { c with adds := [] } else c) })
    let d := ((List.finRange 32).filter (fun s => (Tab.at d.bars s).member i)).foldl (fun d s => d.failSlot s .partialEnd) d
    match owner with
    | some p => if (d.part p).state = .loaded || (d.part p).use.contains i then d.losePlain p else d
    | none => d

/-! ### Partition reset (R80 to R84, R228, R325) -/

/-- The image is unloaded: its counters are released (R212) and the glen store with it (R255). -/
def Dev.unload (d : Dev) (p : Fin 64) : Dev :=
  d.updPart p (fun x => { x with image := none, imageId := 0, counters := [], shards := [] })

/-- The queue pairs of a partition move to ERROR, their requests forgotten (R339). -/
def Target.endPart (t : Target) (p : Fin 64) : Target :=
  if bits (wd t.words 0) 8 8 = p.val then { t with reqs := [], qp := if t.qp = .rts then .error else t.qp } else t

/-- A partition reset starts. -/
def Dev.startReset (d : Dev) (p : Fin 64) : Dev :=
  if (d.part p).state = .resetting then d
  else
    let d := d.abortAll p .partitionReset
    let mine (r : RingId) : Bool := r.fn == .vf p
    let d := (d.startedOf p).foldl (fun d x => d.dropWork x.1 x.2) d
    let d := (d.plainsOf p).foldl (fun d i => d.resetPlain i) d
    let d := (d.stopGlens p).each (partRings p) (fun d r => d.updRing r (fun x => { x with cmds := [] }))
    let d := d.each ((List.finRange 256).filter (fun t => bits (wd (Tab.at d.targets t).words 0) 8 8 == p.val && !(Tab.at d.targets t).reqs.isEmpty))
      (fun d t => d.dropNetReqs t (fun _ => true))
    let d := { d with
      waits := d.waits.filter (fun w => w.part != p)
      early := d.early.filter (fun m => m.part != p)
      groups := d.groups.filter (fun g => g.part != p)
      targets := Vector.map (fun (t : Target) => t.endPart p) d.targets
      ccx := { d.ccx with staging := d.ccx.staging.filter (fun e => !mine e.ring) } }
    d.updPart p (fun x => { x.dropReads with
      state := .resetting
      counters := x.counters.map (fun c => { c with adds := [] }) })

/-- A ring's enable-time values, its bases and size kept, EN cleared (R83). -/
def Ring.clear (x : Ring) : Ring :=
  { x with cfg := setBits x.cfg 0 1 0, sqHead := 0, sqTail := 0, written := 0, consumed := 0, phase := true, cmds := [],
           shortUsed := [] }

def Barrier.idle (b : Barrier) (gen : BitVec 16) : Barrier :=
  { b with state := .idle, gen := gen, counts := Tab.all 64 0, stalled := [], held := [], sent := false }

/-- Whether any resource belongs to a partition (R60). -/
def Dev.granted (d : Dev) (p : Fin 64) : Bool :=
  !(d.plainsOf p).isEmpty || !(d.barsOf p).isEmpty || !(d.daleOf p).isEmpty || !(d.basinOf p).isEmpty

/-- EMPTY without a grant, IDLE with one (R60). -/
def Dev.settlePart (d : Dev) (p : Fin 64) : Dev :=
  d.updPart p (fun x => match x.state with
    | .empty => if d.granted p then { x with state := .idle } else x
    | .idle => if d.granted p then x else { x with state := .empty }
    | _ => x)

def Regulator.rate (g : Regulator) : Nat := bits g.cfg 0 13
def Regulator.depth (g : Regulator) : Nat := bits g.cfg 16 16 * 8192
/-- Whether every request issued has passed; a RATE of 0 passes none (R239). -/
def Regulator.drained (g : Regulator) : Bool := g.queue.isEmpty || g.rate == 0

/-- A full bucket (R250). -/
def Regulator.refill (g : Regulator) : Regulator := { g with tokens := g.depth, queue := [] }

/-- A partition reset ends once nothing of the partition is in flight (R84): slots and counters cleared, plains filled, their thread
registers discarded (R128), rings reset, IDLE, and the event. -/
def Dev.endReset (d : Dev) (p : Fin 64) : Dev :=
  if (d.part p).state = .resetting && (d.part p).dale.drained && (d.part p).basin.drained then
    let d := d.each (d.barsOf p) (fun d s => d.updBar s (fun b => { b.idle 0 with flying := [] }))
    let d := d.each (d.plainsOf p) (fun d i => d.updPlain i Plain.fill)
    let d := d.each (partRings p) (fun d r => d.updRing r Ring.clear)
    let d := (d.unload p).updPart p (fun x => { x with
      state := .idle, lost := false, dale := x.dale.refill, basin := x.basin.refill })
    (d.settlePart p).log Ev.partitionReset (ownerByte (some p)) 0 (d.part p).drop 0 0
  else d

/-! ### Clock domains (R8, R25, R405, R406) -/

/-- The frequency of a domain as PWR_DOM_STAT.MHZ shows it when nothing holds it, in MHz (R8, R25). DESIGN CHOICE: the 19.2 MHz of
the always-on domain show as 19, and TCK, which has no fixed frequency, as `Config.tckMhz` (log entry 46). -/
def nominalMhz (k : Nat) : Nat :=
  if k < 64 then 1200 else if k < 76 then 1200 else if k < 82 then 1070 else if k < 86 then 1750
  else if k < 87 then 1400 else if k < 89 then 1330 else if k < 93 then 800 else if k < 95 then 1000
  else if k < 96 then 1600 else if k < 97 then 2000 else if k < 98 then 16 else if k < 99 then min 50 Config.tckMhz.toNat else 19

/-- The frequency that a domain's clock has when it runs: the holds of R403 lower a plain's. -/
def Dev.domMhz (d : Dev) (k : Nat) : Nat :=
  if k < 64 then min (d.pwr.heatMhz.toList.getD (2 * (k / 32) + k % 8 / 4) 1200) d.pwr.powerMhz else nominalMhz k

/-- Start a domain's clock. -/
def Dev.runDom (d : Dev) (k : Fin 100) : Dev :=
  let f := d.domMhz k.val
  d.updDom k (fun _ => { state := if f < nominalMhz k.val then .held else .running, mhz := BitVec.ofNat 12 f, starting := false })

/-- The domains while the main rails are off, and after they are up: those of R406 that always run do so. -/
def domsAt (main : Bool) : Tab Dom 100 :=
  Vector.ofFn (fun k =>
    if k.val = 99 || k.val = 97 || (main && 94 ≤ k.val && k.val < 97) then
      { state := .running, mhz := BitVec.ofNat 12 (nominalMhz k.val), starting := false }
    else { state := .pllOff, mhz := 0, starting := false })

/-! ### Module reset and shutdown (R402, R409, R410) -/

/-- Start-up from the firmware step, with the rails up, or from nothing. -/
def bootFrom (main : Bool) : Boot := let b := Boot.reset; { b with step := if main then 1 else 0 }

/-- Everything but the always-on domain and the metering block at its reset value; memory is refilled at start-up. A power cap carries on
(R410), and its entry record stays one in force (R384). -/
def Dev.moduleReset (d : Dev) : Dev :=
  let r := Dev.reset
  { r with
    free := d.free
    images := d.images.filter (fun x => x.host)
    out := d.out
    hostMem := d.hostMem
    mtr := d.mtr
    ras := { r.ras with inForce := d.ras.inForce.filter (fun x => x.1 == Ev.powerCap) }
    pwr := { d.pwr with boot := bootFrom d.pwr.main, rstPend := false, link := false,
                        doms := domsAt d.pwr.main, heatMhz := Tab.all 4 1200, powerMhz := 1200,
                        powerDown := false } }

/-- The orderly shutdown (R402, R405): plains halt, aborts leave, ready records are written, the event is logged, the
main rails go off and everything but the always-on domain and the metering block loses its contents. -/
def Dev.shutdown (d : Dev) (event : Bool) (mv : Word) : Dev :=
  let d := (List.finRange 64).foldl (fun d i => d.haltPlain i) d
  let d := (List.finRange 64).foldl (fun d p => d.abortAll p .colLost) d
  let d := allRings.foldl (fun d r => d.writeReady r) d
  let d := if event then d.log Ev.supplyShutdown 0xFF 0 1 mv 0 else d
  let d := d.flushEvents
  ({ d with pwr := { d.pwr with main := false, boot := Boot.reset } }).moduleReset

/-! ### Thermal trip (R247, R248) -/

def Dev.isTripped (d : Dev) : Bool := bit d.trip 0

/-- A stack or channel reaches its trip limit. -/
def Dev.tripUnit (d : Dev) (basin : Bool) (unit : Nat) (temp : Byte) : Dev :=
  let first := !d.isTripped
  let d := if !first then d
    else
      let d := { d with trip := BitVec.ofNat 32 (1 + 2 * b2n basin + 16 * unit + 65536 * (if basin then 0 else temp.toNat)) }
      let open' := (List.finRange 64).flatMap d.startedOf
      let d := (List.finRange 64).foldl (fun d i => d.haltPlain i) d
      let d := (List.finRange 64).foldl (fun d p => (d.abortAll p .colLost).stopGlens p) d
      let d := open'.foldl (fun d x =>
        match d.cmd x.1 x.2.index with
        | some c => (d.dropWork x.1 c).finish x.1 c.index .thermalTrip
        | none => d) d
      let d := { d with waits := [] }
      allRings.foldl (fun d r =>
        ((d.ring r).cmds.filter (fun c => c.stage == .admitted || c.stage == .started)).foldl (fun d c => d.finish r c.index .thermalTrip) d) d
  d.log Ev.thermalTrip 0xFF (unit + (if basin then 2 ^ 15 else 0)) (BitVec.ofNat 32 (if basin then 0 else temp.toNat)) 0 0

/-! ### The module fence (R389, R390) -/

/-- The fence decision and what follows within 1 µs: records that were ready are written in the old epoch, waits end, idle plains stop, glens stop, aborts leave. -/
def Dev.startFence (d : Dev) (cause : BitVec 4) (hart : BitVec 16) : Dev :=
  if d.ccx.sup != .ready then d
  else
    let d := allRings.foldl (fun d r => d.writeReady r) d
    let d := { d with ccx := { d.ccx with
      sup := .fencing, lastCause := cause
      fence := some { cause := cause, hart := hart, tick := d.pwr.aon, halted := 0, waited := false } } }
    let d := (List.finRange 64).foldl (fun d p => (d.stopGlens p).abortAll p .colLost) d
    let d := (List.finRange 64).foldl (fun d i =>
      if (d.plain i).seq.cur.isNone || (d.plain i).seq.waiting then d.haltPlain i
      else (d.stopThreads i (fun _ => true)).stopSeq i) d
    { d with waits := [] }

end Sys2Proof.Machine
end

