-- ==== Sys2Proof/Machine/Matrix.lean ====
section
/-! DEFINITION. The arithmetic of the matrix engine (R96 to R101), the fused pair with its row functions and masks (R110 to
R115, R200 to R203), and the drains (R138). -/

namespace Sys2Proof.Machine

open Sys2Proof

/-! ### The command that a plain runs -/

def Dev.jobCmd (d : Dev) (i : Fin 64) : Option Cmd := (d.plain i).job.bind (fun j => d.cmd j.1 j.2)
def Dev.jobRun (d : Dev) (i : Fin 64) : Option RunWork := (d.jobCmd i).bind (fun c => c.work.run?)
/-- The step number of the running command (R283), and its mask word (R201). -/
def RunWork.step (w : RunWork) : Option Nat := w.entry.stepParam.map (fun k => Tab.at w.shape k)
def RunWork.mask (w : RunWork) : Nat := match w.entry.maskParam with | some k => Tab.at w.shape k | none => 7

/-- The descriptor in an entry of a plain's table (R131). -/
def Plain.desc (x : Plain) (e : Nat) : Desc := Vector.ofFn (fun k => Sparse.get 0 x.table (64 * e + k.val))

/-! ### Operands as the loaders read them (R95, R109, R137) -/

/-- Rows of bytes from SRAM, with the poisoned lines among them. -/
def Dev.loadRows (d : Dev) (i : Fin 64) (a : Int) (pitch : Int) (rows bytes : Nat) : Dev × List (List Byte) × List Nat :=
  (List.range rows).foldl (fun acc (r : Nat) =>
    let (d, b, bad) := acc.1.sramRead i (a + pitch * (r : Nat)).toNat bytes
    (d, acc.2.1 ++ [b], acc.2.2 ++ bad)) (d, [], [])

/-- The logical position of a step address: scale row and first block (R137). -/
def Opd.place (o : Opd) (a : Int) (direct : Bool) : Int × Int :=
  let off := a - o.base
  let q := off / (o.pitch : Int)
  let col : Int := o.elems (off - q * (o.pitch : Int)).toNat
  if direct then (q, col / 32) else (col, q / 32)

/-- Load one operand tile: its stored rows, and the scale bytes of its logical rows for an MX format. -/
def Dev.loadTile (d : Dev) (i : Fin 64) (o : Opd) (a : Int) (s : OpdShape) : Dev × Block × List Nat :=
  let (d, rows, bad) := d.loadRows i a o.pitch s.rows (o.bytes s.elems)
  if isMx o.fmt then
    let (r, b) := o.place a s.direct
    let (d, sc, bad') := d.loadRows i (o.sBase + r * o.sPitch + b) o.sPitch s.lrows s.blocks
    (d, { rows := rows, scales := sc }, bad ++ bad')
  else (d, { rows := rows, scales := [] }, bad)

/-- The columns of stored rows, `n` of them. -/
def columns {α : Type} (n : Nat) : List (List α) → List (List α)
  | [] => List.replicate n []
  | r :: rs => List.zipWith (· :: ·) r (columns n rs)

/-- The numbers of a tile by logical row, `n` of them: stored rows when `direct`, else stored columns. An element under a NaN
block scale is NaN (R101). -/
def Block.nums (b : Block) (code : Nat) (direct : Bool) (n : Nat) : Array (List Val) :=
  let raw := b.rows.map (vals code)
  let l := if direct then raw else columns n raw
  let l := if isMx code then
      (l.zip b.scales).map (fun x => ((chunked 32 x.1).zip x.2).flatMap (fun y =>
        if y.2 == 0xFF then List.replicate y.1.length .nan else y.1))
    else l
  l.toArray

/-- The scale exponent of the block of 32 that holds position k of logical row r. -/
def Block.exp (b : Block) (r k : Nat) : Int := (((b.scales.getD r []).getD (k / 32) 0).toNat : Int) - 127

/-! ### Sums (R97, R98) -/

/-- A product rounded to FP32 (R97). -/
def fprod (x y : Val) : Word := toF32 (Val.mul x y).1

/-- The sum of the 128 products of a K-slice (R98): `scale` gives the exponent of each group of 32 in the MX classes. -/
def sliceSum (prods : List Word) (scale : Option (Nat → Int)) : Word :=
  let g (j : Nat) : Word :=
    let s := treeSum 5 ((prods.drop (32 * j)).take 32)
    match scale with
    | some e => toF32 ((f32 s).ldexp (e j))
    | none => s
  fadd (fadd (g 0) (g 1)) (fadd (g 2) (g 3))

/-- Numbers k to k + 127 of a logical row. -/
def slice128 (a : Array (List Val)) (r k : Nat) : List Val := ((a.getD r []).drop k).take 128

/-- One K-slice of row m of operand A against logical row n of operand B, from position k of both; `na` and `nb` are their
numbers. -/
def dotSlice (fa : Nat) (a b : Block) (na nb : Array (List Val)) (m n k : Nat) : Word :=
  sliceSum (List.zipWith fprod (slice128 na m k) (slice128 nb n k))
    (if isMx fa then some (fun j => a.exp m (k + 32 * j) + b.exp n (k + 32 * j)) else none)

/-! ### Accumulator halves (R92, R138) -/

/-- The place of row r, column c in a half of `rows` rows. -/
def accKey (rows r c : Nat) : Nat := (c / 512 * rows + r) * 512 + c % 512

/-- A sparse table of numbered values, zeros left out. -/
def sparseOf (l : List Word) : Sparse Word := (l.zipIdx.filter (fun x => x.1 != 0)).map (fun x => (x.2, x.1))

/-- The first `n` values of a sparse table from place `a`, onto a reversed list. -/
def denseRun : Sparse Word → Nat → Nat → List Word → List Word
  | _, _, 0, acc => acc.reverse
  | [], a, n + 1, acc => denseRun [] (a + 1) n (0 :: acc)
  | (b, v) :: r, a, n + 1, acc => if b = a then denseRun r (a + 1) n (v :: acc) else denseRun ((b, v) :: r) (a + 1) n (0 :: acc)

/-- The values of a half, place by place. -/
def AccHalf.dense (h : AccHalf) : List Word := denseRun h.vals 0 (h.bands * h.rows * 512) []

/-- The values of every row of a half, band after band. -/
def AccHalf.table (h : AccHalf) : List (List Word) :=
  let a := h.dense.toArray
  (List.range h.rows).map (fun r => (List.range (512 * h.bands)).map (fun c => a.getD (accKey h.rows r c) 0))

/-- The half with the value of every row r and column c replaced by `f r c` of it. -/
def AccHalf.mapAll (h : AccHalf) (f : Nat → Nat → Word → Word) : AccHalf :=
  { h with vals := sparseOf (h.dense.zipIdx.map (fun x =>
      f (x.2 / 512 % h.rows) (x.2 / (512 * h.rows) * 512 + x.2 % 512) x.1)) }

def Plain.half (x : Plain) (k : Fin 2) : AccHalf := Tab.at x.acc k
def Dev.updHalf (d : Dev) (i : Fin 64) (k : Fin 2) (f : AccHalf → AccHalf) : Dev :=
  d.updPlain i (fun x => { x with acc := Tab.upd x.acc k f })
def other (k : Fin 2) : Fin 2 := if k = 0 then 1 else 0

def Dev.noteNf (d : Dev) (i : Fin 64) (b : Nat) (on : Bool) : Dev :=
  if on then d.updPlain i (fun x => { x with nf := x.nf ||| BitVec.ofNat 5 (2 ^ b) }) else d

/-- A loader or the row-function unit read marked lines (R127): the descriptor is poisoned and the command ends. -/
def Dev.poisonEntry (d : Dev) (i : Fin 64) (lines : List Nat) : Dev :=
  match lines with
  | [] => d
  | l :: _ =>
    if (d.plain i).seq.poison then d
    else
      let d := d.updPlain i (fun x => { x with seq := { x.seq with poison := true } })
      (d.biteSram (d.plainOwner i) 0 i.val i l).endOf (d.plain i).job .poisonConsumed

/-- The tensor scale of the products, when either operand has one (R96). -/
def Desc.tscale (t : Desc) : Option Word :=
  if t.a.tsEn || t.b.tsEn then some (fmul t.a.ts t.b.ts) else none

/-! ### A MATMUL step (R137) -/

/-- Accumulate one MATMUL step. -/
def Dev.matmulStep (d : Dev) (i : Fin 64) (t : Desc) (n : Nat) : Dev :=
  let sa := shapeMK t.a.trans t.rows 128
  let sb := shapeKN t.b.trans 128 512
  let (d, ab, bad) := d.loadTile i t.a (t.aAt n) sa
  let (d, bb, bad) :=
    if t.reuses n then (d, (d.plain i).seq.held, bad)
    else
      let (d, bb, bad') := d.loadTile i t.b (t.bAt n) sb
      (d.updPlain i (fun x => { x with seq := { x.seq with held := bb } }), bb, bad ++ bad')
  let k := (d.plain i).seq.half.getD 0
  let h := (d.plain i).half k
  let na := ab.nums t.a.fmt sa.direct sa.lrows
  let nb := bb.nums t.b.fmt sb.direct sb.lrows
  let h' := h.mapAll (fun r c v => fadd v (dotSlice t.a.fmt ab bb na nb r c 0))
  ((d.updHalf i k (fun _ => h')).noteNf i 0 (h'.vals.any (fun v => isNonFinite v.2))).poisonEntry i bad

/-! ### The fused pair (R110 to R115, R140, R200 to R203) -/

/-- The mask record of R200: sixteen words. -/
structure MaskRec where
  w : Tab Word 16
deriving DecidableEq, Repr

def MaskRec.qPos (m : MaskRec) : Nat := bits (wd m.w 0) 0 24
def MaskRec.g (m : MaskRec) : Nat := bits (wd m.w 0) 24 8
def MaskRec.qRows (m : MaskRec) : Nat := bits (wd m.w 1) 0 24
def MaskRec.kPos (m : MaskRec) : Nat := bits (wd m.w 2) 0 24
def MaskRec.kEnd (m : MaskRec) : Nat := bits (wd m.w 3) 0 24
def MaskRec.on (m : MaskRec) : Bool := bit (wd m.w 4) 31
def MaskRec.flag (m : MaskRec) (word k : Nat) : Bool := bit (wd m.w 4) k && word / 2 ^ k % 2 == 1
def MaskRec.distPtr (m : MaskRec) : Nat := bits (wd m.w 5) 0 25
def MaskRec.distMax (m : MaskRec) : Nat := bits (wd m.w 6) 0 16
def MaskRec.distOff (m : MaskRec) : Nat := bits (wd m.w 6) 16 16
def MaskRec.segQ (m : MaskRec) : Nat := bits (wd m.w 7) 0 25
def MaskRec.segK (m : MaskRec) : Nat := bits (wd m.w 8) 0 25

/-- The refusals of R205: `rows` and `cols` are the rows and key columns that the pointers serve. -/
def MaskRec.bad (m : MaskRec) (word rows cols : Nat) : Bool :=
  !(bits (wd m.w 1) 24 8 == 0 && bits (wd m.w 2) 24 8 == 0 && bits (wd m.w 3) 24 8 == 0 && bits (wd m.w 4) 3 28 == 0 &&
    bits (wd m.w 5) 25 7 == 0 && bits (wd m.w 7) 25 7 == 0 && bits (wd m.w 8) 25 7 == 0 && zeroWords m.w 9 7) ||
  (m.on && (m.g == 0 ||
    (m.flag word 1 && (sramBytes < m.distPtr + 4 * (m.distMax + 1) || m.distPtr % 64 != 0)) ||
    (m.flag word 2 && (sramBytes < m.segQ + 2 * rows || sramBytes < m.segK + 2 * cols))))

/-- Whether column block `b` of a step is skipped (R203). -/
def MaskRec.skips (q : MaskRec) (word m r w b : Nat) : Bool :=
  let k0 := q.kPos + r * w + 512 * b
  q.on && (q.kEnd ≤ k0 || q.qRows ≤ 128 * m ||
    (q.flag word 0 && q.qPos + min (128 * m + 127) (q.qRows - 1) / q.g < k0))

/-- Numbers in SRAM that the row-function unit reads. -/
def Dev.loadWords (d : Dev) (i : Fin 64) (a n : Nat) : Dev × List Word × List Nat :=
  let (d, b, bad) := d.sramRead i a (4 * n)
  (d, (unpack32 b).map (BitVec.ofNat 32), bad)
def Dev.loadHalves (d : Dev) (i : Fin 64) (a n : Nat) : Dev × List Nat × List Nat :=
  let (d, b, bad) := d.sramRead i a (2 * n)
  (d, unpack16 b, bad)

/-- A row sum (R113): a balanced tree in each aligned group of 512, then the groups in ascending order. -/
def rowSum (w : Nat) (f : Nat → Word) : Word :=
  let g := (List.range (w / 512)).map (fun j => treeSum 9 ((List.range 512).map (fun k => f (512 * j + k))))
  match g with
  | [] => 0
  | a :: r => r.foldl fadd a

/-- GELU and SILU (R113). -/
def actFn (fn2 : Nat) (h : Word) : Word := if fn2 == 2 then gelu h else silu h

/-- FN2 other than SOFTMAX on row values: the columns of H'. -/
def RowFn.apply (f : RowFn) (gains : List Word) (h : Nat → Word) : Nat → Word :=
  match f.fn2 with
  | 4 =>
    let ms := fdiv (rowSum f.width (fun j => fmul (h j) (h j))) (f32OfNat f.width)
    let den := fsqrt (fadd ms f.eps)
    fun j => fdiv (fmul (h j) (if f.gainEn then gains.getD j 0 else 0x3F800000)) den
  | 0 => h
  | n => if f.gate then fun j => fmul (actFn n (h j)) (h (j + f.width / 2)) else fun j => actFn n (h j)

/-- The score of R202 for row g, column c of a step. -/
def score (f : RowFn) (q : MaskRec) (word : Nat) (dist : List Word) (sq sk : List Nat) (rowInSeg g c : Nat) (h : Word) : Word :=
  let s := fmul f.scale h
  if !q.on then s
  else
    let qp : Int := q.qPos + g / q.g
    let k : Int := q.kPos + c
    let s := if q.flag word 1 then fadd s (dist.getD (max 0 (min (q.distMax : Int) (qp - k + q.distOff))).toNat 0) else s
    let a := sq.getD rowInSeg 0
    if q.qRows ≤ g || (q.kEnd : Int) ≤ k || (q.flag word 0 && qp < k) || (q.flag word 2 && (a != sk.getD c 0 || a == 0xFFFF)) then
      0xFF800000
    else s

/-- The largest of a row's scores with a NaN propagating, and the running softmax of one row (R114): the new maximum, the
new sum, the factor on the accumulator row, and the weights. -/
def softmaxRow (w : Nat) (m l : Word) (s : Nat → Word) : Word × Word × Word × (Nat → Word) :=
  let mx := (List.range w).foldl (fun a j => fmaxProp a (s j)) m
  let dead := mx == 0xFF800000
  let c := if dead then 0x3F800000 else fexp (fsub m mx)
  let p (j : Nat) : Word := if dead then 0 else fexp (fsub (s j) mx)
  (mx, fadd (fmul c l) (rowSum w p), c, p)

/-- Write a table of words to SRAM. -/
def Dev.storeWords (d : Dev) (i : Fin 64) (a : Nat) (w : List Word) : Dev := d.sramWrite i a (w.flatMap wordBytes)

/-- A PAIR step on one block of 128 rows (R140). `none` when the mask record is refused (R205). -/
def Dev.pairStep (d : Dev) (i : Fin 64) (t : Desc) (n : Nat) : Option (Dev × Nat) :=
  let (d, pw, bad0) := d.loadWords i t.paramPtr 16
  let f : RowFn := { w := Vector.ofFn (fun k => pw.getD k.val 0) }
  let W := f.width
  let word := match d.jobRun i with | some w => w.mask | none => 7
  let mIdx := t.dimIndex 1 n
  let rIdx := t.dimIndex 0 n
  let (d, mw, bad1) := if f.softmax then d.loadWords i (t.paramPtr + 64) 16 else (d, [], [])
  let q : MaskRec := { w := Vector.ofFn (fun k => mw.getD k.val 0) }
  if f.softmax && q.bad word (128 * mIdx + 128) (rIdx * W + W) then none
  else
    let on := f.softmax && q.on
    let skip (b : Nat) : Bool := f.softmax && q.skips word mIdx rIdx W b
    let blocks := (List.range (W / 512)).filter (fun b => !skip b)
    let k1 := 128 * t.k1
    let sa := shapeMK t.a.trans 128 k1
    -- the first product, column block by column block
    let (d, xb, bad2) := if blocks.isEmpty then (d, { rows := [], scales := [] }, []) else d.loadTile i t.a (t.aAt n) sa
    let load (acc : Dev × List (Nat × Block) × List Nat) (b : Nat) : Dev × List (Nat × Block) × List Nat :=
      let sb := shapeKN t.b.trans k1 512
      let step : Int := if t.b.trans then (512 * b * t.b.pitch : Nat) else (t.b.bytes (512 * b) : Nat)
      let (d, bl, bad) := acc.1.loadTile i t.b (t.bAt n + step) sb
      (d, acc.2.1 ++ [(b, bl)], acc.2.2 ++ bad)
    let (d, w1, bad3) := blocks.foldl load (d, [], [])
    let xn := xb.nums t.a.fmt sa.direct sa.lrows
    let w1 := w1.map (fun x => (x.1, x.2, x.2.nums t.b.fmt t.b.trans 512))
    let prod (x : Nat × Block × Array (List Val)) (r n : Nat) : Word :=
      (List.range t.k1).foldl (fun acc s => fadd acc (dotSlice t.a.fmt xb x.2.1 xn x.2.2 r n (128 * s))) 0
    -- FN1 and FN2
    let (d, bias, bad4) := if f.fn1 == 5 then d.loadWords i f.biasPtr W else (d, [], [])
    let bias := bias.toArray
    let (d, gains, bad5) := if f.fn2 == 4 && f.gainEn then d.loadWords i f.gainPtr W else (d, [], [])
    let (d, dist, bad6) := if on && q.flag word 1 then d.loadWords i q.distPtr (q.distMax + 1) else (d, [], [])
    let (d, sq, bad7) := if on && q.flag word 2 then d.loadHalves i (q.segQ + 256 * mIdx) 128 else (d, [], [])
    let (d, sk, bad8) := if on && q.flag word 2 then d.loadHalves i q.segK (rIdx * W + W) else (d, [], [])
    let (d, st, bad9) := if f.softmax then d.loadWords i f.statePtr 256 else (d, [], [])
    let first := f.smFirst && t.starts n
    let h1 (r c : Nat) : Word :=
      match w1.find? (fun x => x.1 == c / 512) with
      | some x => if f.fn1 == 5 then fadd (prod x r (c % 512)) (bias.getD c 0) else prod x r (c % 512)
      | none => 0
    let h : Array (Array Word) := ((List.range 128).map (fun r => ((List.range W).map (h1 r)).toArray)).toArray
    let hAt (r c : Nat) : Word := (h.getD r #[]).getD c 0
    let soft (r : Nat) : Word × Word × Word × (Nat → Word) :=
      softmaxRow W (if first then 0xFF800000 else st.getD r 0) (if first then 0 else st.getD (128 + r) 0)
        (fun c => if skip (c / 512) then 0xFF800000
          else score f q word dist sq sk r (128 * mIdx + r) (rIdx * W + c) (hAt r c))
    let softs := ((List.range 128).map (fun r => if f.softmax then some (soft r) else none))
    let sums := softs.filterMap (fun x => x.map (fun y => (y.1, y.2.1, y.2.2.1)))
    let k2 := f.k2
    let hp : List (List Word) := softs.zipIdx.map (fun x =>
      let g : Nat → Word := match x.1 with | some y => y.2.2.2 | none => f.apply gains (hAt x.2)
      (List.range k2).map g)
    let nfRow := hp.any (fun l => l.any isNonFinite) || sums.any (fun x => isNanW x.1 || isNonFinite x.2.1)
    let buf := sparseOf (h.toList.flatMap (fun l => l.toList ++ List.replicate (8192 - W) 0))
    let d := d.updPlain i (fun x => { x with rowBuf := buf })
    let d := d.noteNf i 4 ((f.fn1 == 5 && buf.any (fun v => isNonFinite v.2)) || (f.fn2 != 0 && nfRow))
    let d := if f.softmax then
        d.storeWords i f.statePtr (sums.map (·.1) ++ sums.map (fun x => x.2.1))
      else d
    -- the second product
    let (d, rnds) := d.roundings i 0 (if f.p2Fmt == 0 then 0 else f.p2Rnd) (128 * k2)
    let cv := (hp.flatten.zip rnds).map (fun x => (fmtOf f.p2Fmt).convert x.2 (f.p2Sat && f.p2Fmt != 0) (f32 x.1))
    let d := if f.p2Fmt == 0 then d else d.noteConv i (cv.foldl (fun a x => a.or x.2) ConvFlags.none)
    let pn : Array (List Val) := (chunked k2 (cv.map (fun x => (fmtOf f.p2Fmt).decode x.1))).toArray
    let slices := (List.range (k2 / 128)).filter (fun s => !skip (s / 4))
    let load2 (acc : Dev × List (Nat × Block) × List Nat) (s : Nat) : Dev × List (Nat × Block) × List Nat :=
      let (d, bl, bad) := acc.1.loadTile i t.b2 (t.b2At n + (128 * s * t.b2.pitch : Nat)) (shapeKN false 128 (512 * t.n2))
      (d, acc.2.1 ++ [(s, bl)], acc.2.2 ++ bad)
    let (d, w2, badA) := slices.foldl load2 (d, [], [])
    let k := (d.plain i).seq.half.getD 0
    let hh := (d.plain i).half k
    let w2 := w2.map (fun x => (x.1, x.2, x.2.nums t.b2.fmt false (512 * t.n2)))
    let facs := (sums.map (fun x => x.2.2)).toArray
    let hh' := hh.mapAll (fun r c v =>
      w2.foldl (fun acc x =>
        fadd acc (sliceSum (List.zipWith fprod (slice128 pn r (128 * x.1)) (slice128 x.2.2 c 0)) none))
        (if f.softmax then fmul v (facs.getD r 0) else v))
    let d := (d.updHalf i k (fun _ => hh')).noteNf i 0 (hh'.vals.any (fun v => isNonFinite v.2))
    let d := d.poisonEntry i (bad0 ++ bad1 ++ bad2 ++ bad3 ++ bad4 ++ bad5 ++ bad6 ++ bad7 ++ bad8 ++ bad9 ++ badA)
    let wc := 512 * blocks.length
    let cyc := if !on then t.pairStep f W
      else if wc == 0 then 64 + (if t.ends n then 128 * t.n2 else 0)
      else t.pairStep f wc + 128 * wc / 512 * (if q.flag word 1 then 2 else 1)
    some (d, cyc)

/-! ### Drains (R91, R96, R101, R138) -/

/-- An output value of row r of a half: the tensor scale and the C_in of R96, the division of SM_FINAL. -/
def drainVal (t : Desc) (cIn : Option Val) (sums : Option (List Word)) (r : Nat) (v : Word) : Word :=
  let v := match sums with
    | some l => let s := l.getD (128 + r) 0; if (f32 s).isZero then 0 else fdiv v s
    | none => v
  let p := match t.tscale with
    | some s => fmul s v
    | none => v
  match cIn with
  | some c => fadd (toF32 c) p
  | none => p

/-- Set GRAD_NF, and NF of the command's step (R101, R283). -/
def Dev.gradNf (d : Dev) (i : Fin 64) : Dev :=
  let d := d.noteNf i 3 true
  match d.plainOwner i, (d.jobRun i).bind RunWork.step with
  | some p, some n => d.updPart p (fun x => { x with nf := x.nf ||| BitVec.ofNat 2 (2 ^ (n % 2)) })
  | _, _ => d

/-- A half starts to drain (R138): its tile converts to C's format now, in tile order, so that the draws of stream 0 come in the same
order in every run (R99, R106); the bytes are written when the drain is done. A tile that started under ACC_IN with a tensor scale
adds the tile at c here (R96). An FP32 result is not narrowed: it takes no draw and sets no flag (R102, R103). -/
def Dev.drain (d : Dev) (i : Fin 64) (k : Fin 2) : Dev :=
  let h := (d.plain i).half k
  let t := (d.plain i).desc h.entry
  let o := t.c
  let n := 512 * h.bands
  let narrow := o.fmt != 0
  let (d, cIn, bad) := match h.cIn with
    | some (fmt, pitch) =>
      let (d, rows, bad) := d.loadRows i h.cAddr pitch h.rows ((n * elemBits fmt + 7) / 8)
      (d, rows.map (fun b => (vals fmt b).map some), bad)
    | none => (d, [], [])
  let f := rowFnAt (d.plain i).sram t.paramPtr
  let (d, sums, bad') := if t.isPair && f.softmax && f.smFinal then
      let (d, l, b) := d.loadWords i f.statePtr 256
      (d, some l, b)
    else (d, none, [])
  let (pr, pb) := o.place h.cAddr true
  let (d, nf, out) := h.table.zipIdx.foldl (fun (acc : Dev × Bool × List (Nat × List Byte)) y =>
    let r := y.2
    let ins := cIn.getD r (List.replicate n none)
    let (d, rnds) := acc.1.roundings i 0 (if narrow then o.rnd else 0) n
    let run := convertRun o.fmt rnds (o.sat && narrow) ((y.1.zip ins).map (fun x => f32 (drainVal t x.2 sums r x.1)))
    let row := [((h.cAddr + (o.pitch * r : Nat)).toNat, pack o.fmt run.2.1)] ++
      (if isMx o.fmt then [((o.sBase + (pr + r) * o.sPitch + pb).toNat, run.1)] else [])
    (if narrow then d.noteConv i run.2.2 else d, acc.2.1 || runNonFinite o.fmt run, acc.2.2 ++ row)) (d, false, [])
  let d := if o.grad && nf then d.gradNf i else d
  let d := d.updHalf i k (fun h => { h with state := .draining, out := out })
  match bad ++ bad' with
  | [] => d
  | l :: _ =>
    let s := (d.plain i).seq
    if (s.cur == some h.entry && s.poison) || s.poisonAt.contains h.entry then d
    else
      let d := d.updPlain i (fun x => { x with seq := if s.cur == some h.entry then { x.seq with poison := true }
        else { x.seq with poisonAt := h.entry :: x.seq.poisonAt, cur := none } })
      (d.biteSram (d.plainOwner i) 0 i.val i l).endOf (d.plain i).job .poisonConsumed

/-- The drain of a half is done: its bytes stand in SRAM, and the half is free (R138). -/
def Dev.drainEnd (d : Dev) (i : Fin 64) (k : Fin 2) : Dev :=
  let d := d.each ((d.plain i).half k).out (fun d w => d.sramWrite i w.1 w.2)
  d.updHalf i k (fun h => { h with state := .free, out := [] })

/-! ### Tiles (R138) -/

/-- A half whose kept tile goes on under a descriptor of another height or width (R138): the values that both tiles have, and free values
in the places that the kept tile did not have, which the spec does not state (log entry 49). -/
def AccHalf.reshape (h : AccHalf) (rows bands : Nat) (free : Nat → DWord) : AccHalf :=
  if h.rows = rows && h.bands = bands then h
  else
    let old := h.table
    let at' (r c : Nat) : Word := match old[r]? with
      | some l => (l[c]?).getD (lo32 (free (1024 * r + c)))
      | none => lo32 (free (1024 * r + c))
    let new : AccHalf := { h with rows := rows, bands := bands, vals := [] }
    new.mapAll (fun r c _ => at' r c)

/-- Start the tile of step `n` (R138): none while the half it needs is not free. Whether it goes on with a kept tile: the first tile of a
descriptor does when its C address is the kept one's. -/
def Dev.startTile (d : Dev) (i : Fin 64) (e : Nat) (t : Desc) (n bands : Nat) : Option (Dev × Bool) :=
  let x := d.plain i
  let k := x.seq.half.getD 1
  let c := t.cAt n
  if n == 0 && (x.half k).state == .kept && (x.half k).cAddr == c then
    let free := fun j => Config.freeValue (d.free + j)
    some ({ d.updHalf i k (fun h => { h.reshape t.rows bands free with state := .filling, entry := e }) with free := d.free + 2 ^ 18 }, true)
  else
    let d := if (x.half k).state == .kept then d.drain i k else d
    let o := other k
    if (x.half o).state != .free then none
    else
      let h : AccHalf :=
        { vals := [], out := [], state := .filling, cAddr := c, rows := t.rows, entry := e, bands := bands
          cIn := if t.c.accIn && t.tscale.isSome then some (t.c.fmt, t.c.pitch) else none }
      let d := d.updPlain i (fun x => { x with seq := { x.seq with half := some o } })
      if t.c.accIn && t.tscale.isNone then
        let (d, rows, bad) := d.loadRows i c t.c.pitch t.rows (t.c.bytes (512 * bands))
        let v := (rows.map (fun b => (vals t.c.fmt b).toArray)).toArray
        some ((d.updHalf i o (fun _ => h.mapAll (fun r c _ => toF32 ((v.getD r #[]).getD c (.fin false 0 0))))).poisonEntry i bad, false)
      else some (d.updHalf i o (fun _ => h), false)

end Sys2Proof.Machine
end

