-- ==== Sys2Proof/Machine/Registers.lean ====
section
/-! DEFINITION. Writes of registers (R40 to R56, R432): every register's own rule for a write, holds, atomic pairs,
accesses by size and alignment, conflicts of one cycle, the journal; map writes (R60, R61), fences and flips by register
(R377, R388), the pin multiplexer (R415), and the reads with a side effect (R9, R46). -/

namespace Sys2Proof.Machine

open Sys2Proof

/-! ### Effects that registers trigger -/

/-- The partition may not be reconfigured: it is LOADED or RESETTING. -/
def Dev.locked (d : Dev) (p : Fin 64) : Bool := (d.part p).state = .loaded || (d.part p).state = .resetting

/-- The virtual function's table is rewritten when what it lists changes (R32). -/
def Dev.relist (d : Dev) (p : Fin 64) : Dev :=
  let ps := d.plainsOf p
  let bs := d.barsOf p
  d.updPart p (fun x => if x.use = ps && x.bars = bs then x else { x with use := ps, bars := bs, vfGen := x.vfGen + 1 })

/-- After a grant change: the state, and the table while the partition is EMPTY or IDLE. -/
def Dev.regrant (d : Dev) (o : Option (Fin 64)) : Dev :=
  match o with
  | none => d
  | some p =>
    let d := d.settlePart p
    if (d.part p).state = .empty || (d.part p).state = .idle then d.relist p else d

/-- A map byte as stored: 64 to 0xFE become 0xFF (R87). -/
def ownerStored (b : Byte) : Byte := if b.toNat < 64 then b else 0xFF

/-- A fill is owed to a new owner that is not the last one (R61). DESIGN CHOICE: a unit without a last owner owes none (log entry 46). -/
def Dev.oweFill (d : Dev) (o : Option (Fin 64)) (last : Option (Fin 64)) (u : FillUnit) : Dev :=
  match o with
  | some p => if last = some p then d else d.updPart p (fun x => { x with fills := x.fills ++ [u] })
  | none => d

/-- One owner byte of a map (R60, R61): whether the write was ignored. -/
def Dev.mapByte (d : Dev) (m : MapKind) (k : Nat) (b : Byte) : Dev × Bool :=
  let new := ownerStored b
  let old := match m with
    | .plain => d.plainMap.toList.getD k 0xFF
    | .barrier => d.barMap.toList.getD k 0xFF
    | .dale => d.daleMap.toList.getD k 0xFF
    | .basin => d.basinMap.toList.getD k 0xFF
  if old = new then (d, false)
  else match ownerOf old with
    | some q => if d.locked q then (d, true) else (go d old new, false)
    | none => (go d old new, false)
where
  go (d : Dev) (old new : Byte) : Dev :=
    let d := match m with
      | .plain => match finOf 64 k with
        | some i =>
          let d := { d with plainMap := Tab.upd d.plainMap i (fun _ => new) }
          let last := (d.plain i).lastOwner
          let d := if last.isNone then d else d.oweFill (ownerOf new) last (.plain i)
          d.updPlain i (fun x => { x with lastOwner := if (ownerOf new).isSome then ownerOf new else x.lastOwner })
        | none => d
      | .barrier => match finOf 32 k with
        | some s => { d with barMap := Tab.upd d.barMap s (fun _ => new) }
        | none => d
      | .dale => match finOf 576 k with
        | some g =>
          let d := { d with daleMap := Tab.upd d.daleMap g (fun _ => new) }
          let last := ownerOf (Sparse.get 0xFF d.daleLast k)
          let d := if last.isNone then d else d.oweFill (ownerOf new) last (.dale g)
          if (ownerOf new).isSome then { d with daleLast := Sparse.set 0xFF d.daleLast k new } else d
        | none => d
      | .basin => match finOf 384 k with
        | some g =>
          let d := { d with basinMap := Tab.upd d.basinMap g (fun _ => new) }
          let last := ownerOf (Sparse.get 0xFF d.basinLast k)
          let d := if last.isNone then d else d.oweFill (ownerOf new) last (.basin g)
          if (ownerOf new).isSome then { d with basinLast := Sparse.set 0xFF d.basinLast k new } else d
        | none => d
    (d.regrant (ownerOf old)).regrant (ownerOf new)

/-- A write of a map register: each enabled byte on its own (R47, R60). -/
def Dev.mapWord (d : Dev) (m : MapKind) (k : Nat) (v : Word) (be : BitVec 4) : Dev × Bool :=
  (List.range 4).foldl (fun (acc : Dev × Bool) j =>
    if be.toNat / 2 ^ j % 2 = 1 then
      let (d', ig) := acc.1.mapByte m (4 * k + j) (BitVec.ofNat 8 (bits v (8 * j) 8))
      (d', acc.2 || ig)
    else acc) (d, false)

/-- Copy every partition's counters to host memory, as of one tick (R86). -/
def Acct.words (a : Acct) : List DWord :=
  a.engineNs.toList ++ [a.daleRd, a.daleWr, a.basinRd, a.basinWr, a.hostRd, a.hostWr, a.colSent, a.colRecv, a.ethRecv,
    a.energyMj, a.completed, a.refused]

def Dev.acctSnap (d : Dev) : Dev :=
  if d.acctBusy then d
  else
    let base := (dword d.acctLo d.acctHi).toNat
    let d := { d with acctBusy := true }
    d.each (List.finRange 64) (fun d p =>
      let x := d.part p
      d.hostWrite none (base + 0x100 * p.val)
        (wordBytes (BitVec.ofNat 32 (p.val + 256 * x.state.code)) ++ wordBytes 0 ++ dwordBytes d.pwr.aon ++
         x.acct.words.flatMap dwordBytes ++ List.replicate 0x50 0))

/-- The event ring's EN changes (R380): a record being written is abandoned and kept as the oldest staged one. -/
def Ras.enable (r : Ras) : Ras := Ras.advance { r with evCfg := r.evCfg ||| 1, prod := 0, cons := 0 }
def Ras.disable (r : Ras) : Ras :=
  { r with evCfg := setBits r.evCfg 0 1 0
           staging := (match r.writing with | some e => [e] | none => []) ++ r.staging
           writing := none }

/-- SIZE_LOG2 as stored: 6 to 16, any other value as 6. -/
def sizeStored (v : Nat) : Nat := if 6 ≤ v && v ≤ 16 then v else 6

/-- Whether writes to a ring's EN are ignored (R392, R412). -/
def Dev.enHeld (d : Dev) : Bool := d.ccx.sup = .failed

/-- EN of a ring is set (R66, R87). DESIGN CHOICE: a shortfall slot that an unconsumed record holds stays held (log entry 23). -/
def Ring.enable (x : Ring) : Ring :=
  { x with cfg := x.cfg ||| 1, sqHead := 0, sqTail := 0, written := 0, consumed := 0, phase := true }

/-- A write of PRT_RING_CFG (R87, R432). -/
def Dev.writeRingCfg (d : Dev) (r : RingId) (v : Word) : Dev × Bool :=
  let x := d.ring r
  let size := sizeStored (bits v 8 5)
  let sizeHeld := x.en && size != bits x.cfg 8 5
  let enHeld := d.enHeld && (bit v 0 != x.en)
  let cfg := setBits x.cfg 16 5 (bits v 16 5)
  let cfg := if x.en then cfg else setBits cfg 8 5 size
  let d := d.updRing r (fun x => { x with cfg := cfg })
  let d :=
    if d.enHeld then d
    else if bit v 0 && !x.en then d.updRing r Ring.enable
    else if !bit v 0 && x.en then d.updRing r (fun x => { x with cfg := setBits x.cfg 0 1 0 })
    else d
  (d, sizeHeld || enHeld)

/-- The test table of R377: 16 entries, the oldest dropped. -/
def Ras.addTest (r : Ras) (key line : Nat) : Ras :=
  { r with tests := ((key, line) :: r.tests.filter (fun t => t != (key, line))).take 16 }

/-- WORDS and CHK as RAS interprets them at GO (R378). -/
def flipWords (cfg : Word) : Nat := if bits cfg 8 8 = 0 then 1 else bits cfg 8 8
def flipChkDev (cfg : Word) : Nat :=
  let n := popcount 8 (bits cfg 16 8)
  if n = 1 || n = 2 || n = 8 then bits cfg 16 8 else 1
def flipChkSram (cfg : Word) : Nat := if bits cfg 16 8 = 0 then 1 else bits cfg 16 8

/-- A write of GO (R377). -/
def Dev.flipGo (d : Dev) : Dev :=
  if d.ras.flipBusy then d
  else
    let cfg := d.ras.flipCfg
    let a := (dword d.ras.flipLo d.ras.flipHi).toNat
    let tier := bits cfg 0 2
    let miss (d : Dev) (b : Bool) : Dev := d.updRas (fun r => { r with flipBusy := true, flipMiss := b })
    if tier = 0 then
      let i : Fin 64 := ⟨bits cfg 2 6 % 64, Nat.mod_lt _ (by decide)⟩
      if sramBytes ≤ a then miss d true
      else
        let (d, bad) := d.sramLine i a
        if bad then miss d true
        else
          let mask := (List.range 64).foldl (fun m k =>
            if flipWords cfg / 2 ^ (k / 8) % 2 = 1 && flipChkSram cfg / 2 ^ (k % 8) % 2 = 1 then m ||| (1#64 <<< k) else m)
            (0 : DWord)
          (miss (d.updPlain i (fun x => x.setPar a mask)) false).updRas (fun r => r.addTest (i.val + 1) a)
    else if tierCode a != tier || (match place a with | .hole => true | _ => false) || d.trippedAt a then miss d true
    else
      let (d, bad) := d.readLine a
      if bad then miss d true
      else
        let d := (List.range 8).foldl (fun d k =>
          if flipWords cfg / 2 ^ k % 2 = 1 then d.setEcc (a + 8 * k) (BitVec.ofNat 72 (flipChkDev cfg * 2 ^ 64)) else d) d
        (miss d false).updRas (fun r => r.addTest 0 a)

/-- A write of RAS_PLAIN_CTRL (R385, R388): RETURN is judged on the state before the write. -/
def Dev.plainCtrl (d : Dev) (v : Word) : Dev :=
  let i : Fin 64 := ⟨bits v 0 6 % 64, Nat.mod_lt _ (by decide)⟩
  let ret := bit v 9 && (d.plain i).state = .fenced && (d.plainOwner i).isNone
  let d := if bit v 8 then d.fencePlain i 3 else d
  if ret then d.updPlain i (fun x => { x with state := .bist }) else d

/-! ### Pins (R404, R414, R415) -/

def pinCode (mux : Word) (n : Nat) : Nat := bits mux (4 * n) 4

/-- A function code as stored for a pin: one the pin may not take becomes GPIO_IN (R414). -/
def pinStored (n c : Nat) : Nat :=
  if c = 1 || (c = 2 && n < 2) || (c = 3 && n = 2) || (c = 4 && n = 3) || (c = 5 && n = 4) || (c = 6 && n = 5) then c else 0

/-- Whether a pin has a function now, outside any switch window. -/
def Pwr.pinIs (p : Pwr) (n c : Nat) : Bool := pinCode p.pinmux n == c && p.winBusy.toNat / 2 ^ n % 2 == 0

/-- THROTTLE_N asserted low on its pin; inside a window the input reads its inactive level. -/
def Pwr.throttled (p : Pwr) : Bool := p.pinIs 5 6 && !p.throttle

/-- The measured input in millivolts. -/
def Pwr.mv (p : Pwr) : Word := BitVec.ofNat 32 (10 * p.vin.toNat)

/-- The power cap is in force while the supply or the pin asks for it (R400, R404); its event on each change. -/
def Dev.checkCap (d : Dev) : Dev :=
  let want := d.pwr.capSag.inForce || d.pwr.throttled
  if want == d.pwr.capped then d
  else
    let d := d.updPwr (fun p => { p with capped := want })
    if d.pwr.main then d.log Ev.powerCap 0xFF 0 (if want then 1 else 0) d.pwr.mv 0 else d

/-- A write of PWR_PINMUX: whether a pin's change was ignored. -/
def Dev.writePinmux (d : Dev) (v : Word) : Dev × Bool :=
  let p := d.pwr
  let want (n : Nat) : Nat := pinStored n (pinCode v n)
  let busy (n : Nat) : Bool := p.winBusy.toNat / 2 ^ n % 2 == 1
  let change (n : Nat) : Bool := want n != pinCode p.pinmux n
  let ig := (List.range 8).any (fun n => busy n && change n)
  let p' := (List.range 8).foldl (fun (q : Pwr) n =>
    if change n && !busy n then { q with
      pinmux := setBits q.pinmux (4 * n) 4 (want n)
      winBusy := q.winBusy ||| BitVec.ofNat 8 (2 ^ n)
      winOld := match finOf 8 n with | some k => Tab.upd q.winOld k (fun _ => BitVec.ofNat 4 (pinCode p.pinmux n)) | none => q.winOld }
    else q) p
  (({ d with pwr := p' }).checkCap, ig)

/-! ### Cols (R296, R297) -/

/-- Whether a gather that a plain has in flight has its traffic on a port of its module: it asks the owner, or forwards, that way (R320). -/
def Dev.gathering (d : Dev) (p i : Fin 64) (a : Fin 4) (plus : Bool) : Bool :=
  (d.plain i).reqs.any (fun q => 0 < q.toCome &&
    (match (d.part p).shards[bits (wd q.words 1) 0 16]? with
     | some s => d.routeTo p s.owner.toNat == some (a, plus)
     | none => false))

/-- Whether a started command has traffic in flight on a col that was enabled (R296): a RUN whose gathers use its port, or a SNAPSHOT that goes up
its tree by it. A collective's traffic is of its groups. -/
def Dev.usesCol (d : Dev) (p : Fin 64) (c : Fin 16) (x : Cmd) : Bool :=
  match x.work with
  | .run _ => x.plains.any (fun i => d.gathering p i (axisOf c) (plusCol c))
  | .snapshot w => w.begun && bits (wd x.words 10) 2 2 == 1 && (d.bank (axisOf c)).modeOf == 3 && !plusCol c &&
      (axisOf c).val < (d.bank (axisOf c)).pair
  | _ => false

/-- A col goes DOWN (R296): its bit leaves the active bank, commands with traffic on it end, its axis's groups abort. -/
def Dev.colDown (d : Dev) (c : Fin 16) (cause : Nat) : Dev :=
  let a := axisOf c
  let act := (d.axis a).active
  let was := d.named c
  let owner := d.axisPart a
  let hit : List (RingId × Cmd) := match owner with
    | some p => (d.startedOf p).filter (fun x => was && d.usesCol p c x.2)
    | none => []
  let d := d.updCol c (fun k => { k with state := .down, lanes := if cause = 2 then k.lanes else 0, fast := false, unacked := [], txWait := [],
                                         rxWait := [], txSeq := 0, rxSeq := 0, asked := false })
  let d := d.log Ev.colDown (ownerByte owner) c.val (BitVec.ofNat 32 cause) 0 0
  if !was then d
  else
    let d := (d.updBank a act (fun b => { b with mode := setBits b.mode (2 + c.val % 4) 1 0 })).updAxis a (fun x => { x with hurt := true })
    match owner with
    | none => d
    | some p =>
      let groups := (d.groupsOf p).filter (fun g => g.2 / 2 ^ a.val % 2 == 1)
      let d := d.each groups (fun d g => (d.sendAbort p g.1 g.2 .colLost).abortHere p g.1 .colLost)
      hit.foldl (fun d x => d.endOf (some (x.1, x.2.index)) .colLost) d

/-! ### Media engines (R357) -/

def Engine.works (e : Engine) : Bool := e.state = .ready || e.state = .busy

/-- The working engine with the least queued work, the lowest-numbered on a tie. -/
def Dev.bestEngine (d : Dev) : Option (Fin 4) :=
  (List.finRange 4).foldl (fun (b : Option (Fin 4)) e =>
    if !(Tab.at d.engines e).works then b
    else match b with
      | none => some e
      | some x => if (Tab.at d.engines e).streams < (Tab.at d.engines x).streams then some e else b) none

def Dev.holdStream (d : Dev) (e : Fin 4) : Dev :=
  { d with engines := Tab.upd d.engines e (fun x => { x with streams := x.streams + 1, state := .busy }) }

/-- A frame begins coding: a key request of the command's ring is applied to it and recorded (R361). -/
def Dev.latchKey (d : Dev) (r : RingId) (w : EncodeWork) : Dev × EncodeWork :=
  match ringPart r with
  | none => (d, w)
  | some p =>
    if (d.part p).keyReq.toNat / 2 ^ r.q.val % 2 = 1 then
      (d.updPart p (fun x => { x with keyReq := x.keyReq &&& ~~~ BitVec.ofNat 4 (2 ^ r.q.val) }), { w with keyAt := w.frame :: w.keyAt })
    else (d, w)

/-- An ENCODE restarts from frame 0 on another engine (R362, R366). -/
def Dev.restartEncode (d : Dev) (r : RingId) (i : BitVec 16) (w : EncodeWork) (f : Fin 4) : Dev :=
  let w : EncodeWork := { w with
    engine := f, frame := 0, pos := 0, fill := 0, bitsPrev := 0, lastKey := none, lastInter := none, keys := 0, capMiss := 0
    recon := 0, since := d.pwr.aon }
  let (d, w) := d.latchKey r w
  d.updCmd r i (fun c => { c with work := .encode w })

/-- An engine fails for a cause of MEDIA_FAIL: its samples and its ENCODE move to the best working engine. -/
def Dev.failEngine (d : Dev) (e : Fin 4) (cause : Nat) : Dev :=
  if !(Tab.at d.engines e).works then d
  else
    let d := { d with engines := Tab.upd d.engines e (fun x => { x with state := .failed, streams := 0 }) }
    let d := d.log Ev.mediaFail 0xFF e.val (BitVec.ofNat 32 cause) 0 0
    ((List.finRange 64).flatMap d.startedOf).foldl (fun d x =>
      match x.2.work with
      | .sample w =>
        let (d, ss) := w.samples.foldl (fun (acc : Dev × List Sample) s =>
          if s.engine = some e then
            match acc.1.bestEngine with
            | some f => (acc.1.holdStream f, acc.2 ++ [{ s with engine := some f, since := d.pwr.aon, last := f, moved := true, output := [] }])
            | none => (acc.1, acc.2 ++ [{ s with engine := none, moved := true, output := [] }])
          else (acc.1, acc.2 ++ [s])) (d, [])
        d.updCmd x.1 x.2.index (fun c => { c with work := .sample { w with samples := ss } })
      | .encode w =>
        if w.begun && w.engine = e then
          match d.bestEngine with
          | some f => (d.holdStream f).restartEncode x.1 x.2.index w f
          | none => d
        else d
      | _ => d) d

/-! ### Targets (R334) -/

def targetMask (w : Nat) : Word :=
  match w with
  | 0 => 0x3F07FF07 | 1 => 0x00FF0F03 | 2 => 0x00FFFFFF | 3 => 0x00FFFFFF | 6 => 0x0000FFFF | 11 => 0 | _ => 0xFFFFFFFF
def portMask (w : Nat) : Word :=
  match w with
  | 0 => 0x00000004 | 2 => 0x00003FFF | 5 => 0xFFFFFFFF | 6 => 0x0000FFFF | 7 => 0xFFFFFFFF | 8 => 0xFFFFFFFF
  | 9 => 0xFFFFFFFF | 10 => 0xFFFFFFFF | _ => 0

/-- A sample that is being read, decoded or appended is judged corrupt, and counted (R350, R367). -/
def Dev.judge (d : Dev) (r : RingId) (i : BitVec 16) (k : Nat) (cause : BitVec 4) : Dev :=
  let d := d.updCmd r i (fun c => match c.work with
    | .sample w => { c with work := .sample { w with samples := w.samples.modify k (fun s => { s with state := .corrupt cause, output := [] }) } }
    | _ => c)
  match ringPart r with
  | some p => d.updPart p (fun x => { x with corrupt := satInc x.corrupt })
  | none => d

/-- Whether a sample of a command is still being read. -/
def Cmd.reading (c : Cmd) (k : Nat) : Bool :=
  match c.work with
  | .sample w => match w.samples[k]? with | some s => s.state == .reading | none => false
  | _ => false

/-- The unfinished requests of a queue pair are lost (R334, R336): its reads fail their samples, its writes their snapshot. -/
def Dev.failReads (d : Dev) (t : Fin 256) : Dev :=
  let reqs := (Tab.at d.targets t).reqs
  let d := d.dropNetReqs t (fun _ => true)
  reqs.foldl (fun d q =>
    match d.started q.ring 0x30, q.sample with
    | some c, some k => if c.reading k then d.judge q.ring c.index k 1 else d
    | _, _ => match d.started q.ring 0x41 with
      | some c => d.updCmd q.ring c.index (fun c => match c.work with
        | .snapshot w => { c with work := .snapshot { w with failed := true } }
        | _ => c)
      | none => d) d

/-- A write of word `w` of the selected entry. -/
def Dev.writeTgt (d : Dev) (w : Fin 16) (v : Word) : Dev :=
  let i := d.tgtSel.toNat
  if h : i < 256 then
    let t : Fin 256 := ⟨i, h⟩
    let v := v &&& targetMask w.val
    let d := d.updTarget t (fun x => { x with words := Tab.upd x.words w (fun _ => v) })
    if w.val = 0 then
      let d := d.failReads t
      d.updTarget t (fun x => if bit v 0 then
        { x with qp := .rts, nextPsn := BitVec.ofNat 24 (bits (wd x.words 3) 0 24), retries := 0, rate := 50, lastCnpRx := none, lastCnpTx := none, paceAt := 0 }
        else { x with qp := .reset })
    else d
  else if h : i - 256 < 2 then
    d.updPort ⟨i - 256, h⟩ (fun x => { x with words := Tab.upd x.words w (fun _ => v &&& portMask w.val) })
  else d

/-! ### The rule of each register for a write -/

/-- A held write: no effect, IGNORED when it would have changed the value (R432). -/
def heldIf (cond : Bool) (change : Bool) (d d' : Dev) : Dev × Bool := if cond then (d, change) else (d', false)

def Dev.writeTil (d : Dev) (i : Fin 64) (r : TilReg) (v : Word) : Dev × Bool :=
  let p := d.plain i
  let busy := p.state == .busy
  match r with
  | .ctrl => (d.updPlain i (fun x => { x with
      ctrl := BitVec.ofNat 32 (b2n (bit v 0) + 16 * (if bits v 4 16 = 0 then 1 else bits v 4 16)) }), false)
  | .seedLo => heldIf busy (lo32 p.seed != v) d (d.updPlain i (fun x => { x with seed := dword v (hi32 x.seed), ctrs := Tab.all 66 0 }))
  | .seedHi => heldIf busy (hi32 p.seed != v) d (d.updPlain i (fun x => { x with seed := dword (lo32 x.seed) v, ctrs := Tab.all 66 0 }))
  | .srSel => (d.updPlain i (fun x => { x with srSel := if bits v 0 7 ≤ 65 then BitVec.ofNat 7 (bits v 0 7) else 0 }), false)
  | .ctrLo => heldIf busy (lo32 (p.ctrs.toList.getD p.srSel.toNat 0) != v) d (d.updPlain i (fun x => match finOf 66 x.srSel.toNat with
      | some k => { x with ctrs := Tab.upd x.ctrs k (fun c => dword v (hi32 c)) }
      | none => x))
  | .ctrHi => heldIf busy (hi32 (p.ctrs.toList.getD p.srSel.toNat 0) != v) d (d.updPlain i (fun x => match finOf 66 x.srSel.toNat with
      | some k => { x with ctrs := Tab.upd x.ctrs k (fun c => dword (lo32 c) v) }
      | none => x))
  | .nfStat => (d.updPlain i (fun x => { x with nf := x.nf &&& ~~~ (v.setWidth 5) }), false)
  | .fault => (d.updPlain i (fun x => { x with thrFault := if bit v 31 then setBits x.thrFault 31 1 0 else x.thrFault }), false)
  | .parLast => (d.updPlain i (fun x => { x with parLast := if bit v 31 then setBits x.parLast 31 1 0 else x.parLast }), false)
  | .dtSel => (d.updPlain i (fun x => { x with dtSel := v.setWidth 8 }), false)
  | .dtWin w =>
    let k := 64 * p.dtSel.toNat + w.val
    let lock := match d.plainOwner i with | some o => d.locked o | none => false
    heldIf lock (Sparse.get 0 p.table k != v) d (d.updPlain i (fun x => { x with table := Sparse.set 0 x.table k v }))
  | _ => (d, false)

def Dev.writeBar (d : Dev) (s : Fin 32) (r : BarReg) (v : Word) : Dev × Bool :=
  let b := Tab.at d.bars s
  let active := b.state == .active
  let plains := match d.barOwner s with | some p => d.plainsOf p | none => []
  let keep (lo : Nat) : Word := BitVec.ofNat 32 (bitmap 32 (fun k => bit v k && plains.any (fun i => i.val == lo + k)))
  let put (change : Bool) (f : Barrier → Barrier) : Dev × Bool := heldIf active change d (d.updBar s f)
  match r with
  | .maskLo => put (b.maskLo != keep 0) (fun b => { b with maskLo := keep 0 })
  | .maskHi => put (b.maskHi != keep 32) (fun b => { b with maskHi := keep 32 })
  | .cfg =>
    let n := bits v 0 7
    let c := setBits (v &&& 0xF80) 0 7 (if n = 0 || 64 < n then 1 else n)
    put (b.cfg != c) (fun b => { b with cfg := c })
  | .group => put (b.group != v.setWidth 24) (fun b => { b with group := v.setWidth 24 })
  | .members => put (b.members != v.setWidth 24) (fun b => { b with members := v.setWidth 24 })
  | .wdog => let w : Word := if v = 0 then 0x0249F000 else v
    put (b.wdog != w) (fun b => { b with wdog := w })
  | .stat => (d, false)
  | .ctrl => if bit v 0 && b.state == .failed then (d.updBar s (fun b => b.idle b.gen), false) else (d, false)

/-- A write of SYN_P_CTR_ADD (R213, R231). -/
def Dev.ctrAdd (d : Dev) (w : Writer) (off : Nat) (p : Fin 64) (v : Word) : Dev :=
  let x := d.part p
  match x.counter x.ctrSel with
  | none => d.log Ev.accessHole (ownerByte (some p)) (Writer.code w).toNat (BitVec.ofNat 32 off) 0 0
  | some _ => d.addCounter p x.ctrSel (if bit v 16 then - (bits v 0 16 : Int) else (bits v 0 16 : Int))

def Dev.writeSyn (d : Dev) (w : Writer) (off : Nat) (p : Fin 64) (r : SynReg) (v : Word) : Dev :=
  match r with
  | .ctrSel => d.updPart p (fun x => { x with ctrSel := v.setWidth 12 })
  | .ctrVal => d.updPart p (fun x => x.updCounter x.ctrSel (fun c => { c with
      satHi := c.satHi && !bit v 16, satLo := c.satLo && !bit v 17 }))
  | .ctrAdd => d.ctrAdd w off p v
  | .stat => d.updPart p (fun x => { x with synStat := x.synStat &&& ~~~ (v &&& 3) })
  | .wdog => d.updPart p (fun x => { x with ctrWdog := if v = 0 then 0x0249F000 else v })

/-- A regulator's configuration as stored (R254). -/
def regStored (basin : Bool) (v : Word) : Word :=
  let rate := if basin then min (bits v 0 11) 1632 else min (bits v 0 13) 8118
  BitVec.ofNat 32 (rate + 65536 * max 4 (bits v 16 16))
def Regulator.configure (g : Regulator) (c : Word) : Regulator := { g with cfg := c, tokens := min g.tokens (bits c 16 16 * 8192) }

def Dev.writeGln (d : Dev) (p : Fin 64) (r : GlnReg) (v : Word) : Dev × Bool :=
  let x := d.part p
  let put (change : Bool) (f : Part → Part) : Dev × Bool := heldIf (d.locked p) change d (d.updPart p f)
  match r with
  | .tblLo => put (x.tblLo != v &&& 0xFFFFFF00) (fun x => { x with tblLo := v &&& 0xFFFFFF00 })
  | .tblHi => put (x.tblHi != v &&& 0xFFF) (fun x => { x with tblHi := v &&& 0xFFF })
  | .tblCount => let c := BitVec.ofNat 17 (min (bits v 0 17) 65536)
    put (x.tblCount != c) (fun x => { x with tblCount := c })
  | .rank => put (x.rank != v.setWidth 24) (fun x => { x with rank := v.setWidth 24 })
  | .nf => (d.updPart p (fun x => { x with nf := x.nf ||| v.setWidth 2 }), false)
  | .seedLo => put (lo32 x.seed != v) (fun x => { x with seed := dword v (hi32 x.seed) })
  | .seedHi => put (hi32 x.seed != v) (fun x => { x with seed := dword (lo32 x.seed) v })
  | .stat => (d.updPart p (fun x => { x with glnStat := x.glnStat &&& ~~~ (v &&& 7) }), false)
  | .repair => (d, false)
  | .land => (d.updPart p (fun x => { x with land := if bit v 31 then setBits x.land 31 1 0 else x.land }), false)

/-- A write of MED_P_SHARE (R342). -/
def Dev.writeShare (d : Dev) (p : Fin 64) (v : Word) : Dev × Bool :=
  let v := v &&& 0x0FFF3FFF
  let total (f : Word → Nat) : Nat :=
    sumN ((List.finRange 64).map (fun q => if q = p then f v else f (d.part q).share))
  let bad := d.locked p || 12000 < total (fun w => bits w 0 14) || 3000 < total (fun w => bits w 16 12)
  heldIf bad ((d.part p).share != v) d (d.updPart p (fun x => { x with share := v }))

/-- A write to an axis register: the active bank ignores it (R298). -/
def Dev.writeAxis (d : Dev) (a : Fin 4) (b : Fin 2) (change : Bool) (f : Bank → Bank) : Dev × Bool :=
  heldIf ((d.axis a).active == b) change d (d.updBank a b f)

/-- COL_C_CTRL (R296, R297, R331). -/
def Dev.writeColCtrl (d : Dev) (c : Fin 16) (v : Word) : Dev :=
  let k := d.col c
  let d := d.updCol c (fun k => { k with disable := bit v 1 })
  if bit v 1 then (if k.disable then d else if k.state == .down then d else d.colDown c 3)
  else if bit v 0 then d.updCol c (fun k => { k with state := .training, fast := false })
  else d

/-- MED_E_CTRL (R357, R358): RETURN is judged on the state before the write. -/
def Dev.writeEngine (d : Dev) (e : Fin 4) (v : Word) : Dev :=
  let ret := bit v 1 && (Tab.at d.engines e).state == .failed
  let d := if bit v 0 then d.failEngine e 3 else d
  if ret then { d with engines := Tab.upd d.engines e (fun x => { x with state := .bist }) } else d

/-- The effect of a write of `v` on a register that is writable, and whether a held field would have changed (R432).
`be` matters for the maps alone. -/
def Dev.writeReg (d : Dev) (w : Writer) (off : Nat) (r : Reg) (v : Word) (be : BitVec 4) : Dev × Bool :=
  match r with
  | .jrnBaseLo => heldIf d.hif.jEn (d.hif.jBaseLo != v &&& 0xFFFFFFE0) d (d.updHif (fun h => { h with jBaseLo := v &&& 0xFFFFFFE0 }))
  | .jrnBaseHi => heldIf d.hif.jEn (d.hif.jBaseHi != v) d (d.updHif (fun h => { h with jBaseHi := v }))
  | .jrnCfg =>
    let size := sizeStored (bits v 4 5)
    let en := d.hif.jEn
    let d' := if en then d else d.updHif (fun h => { h with jCfg := setBits h.jCfg 4 5 size })
    (if bit v 0 && !en then d'.jrnEnable else if !bit v 0 && en then d'.jrnDisable else d',
     en && size != bits d.hif.jCfg 4 5)
  | .jrnCons => (d.updHif (fun h => { h with jCons := v.setWidth 16 }), false)
  | .jrnStat => (d.updHif (fun h => { h with jLost := h.jLost && !bit v 1, jOvf := h.jOvf && !bit v 2 }), false)
  | .bar4Lo => (d.updHif (fun h => { h with bar4Lo := v &&& 0xC0000000 }), false)
  | .bar4Hi => (d.updHif (fun h =>
      let a := (dword h.bar4Lo (v &&& 0xFFF)).toNat
      let a := BitVec.ofNat 64 (a - a % 2 ^ h.bar4Log)
      { h with bar4Lo := lo32 a, bar4Hi := hi32 a }), false)
  | .ring q k =>
    let x := d.ring q
    match k with
    | 0 => heldIf x.en (x.sqBaseLo != v &&& 0xFFFFF000) d (d.updRing q (fun x => { x with sqBaseLo := v &&& 0xFFFFF000 }))
    | 1 => heldIf x.en (x.sqBaseHi != v) d (d.updRing q (fun x => { x with sqBaseHi := v }))
    | 2 => heldIf x.en (x.cqBaseLo != v &&& 0xFFFFF000) d (d.updRing q (fun x => { x with cqBaseLo := v &&& 0xFFFFF000 }))
    | 3 => heldIf x.en (x.cqBaseHi != v) d (d.updRing q (fun x => { x with cqBaseHi := v }))
    | 4 => d.writeRingCfg q v
    | 5 => (d, false)
  | .plainMap k => d.mapWord .plain k.val v be
  | .barMap k => d.mapWord .barrier k.val v be
  | .daleMap k => d.mapWord .dale k.val v be
  | .basinMap k => d.mapWord .basin k.val v be
  | .quota p => (d.updPart p (fun x => { x with quota := v &&& 0x00FF0FFF }), false)
  | .acctLo => ({ d with acctLo := v &&& 0xFFFFF000 }, false)
  | .acctHi => ({ d with acctHi := v }, false)
  | .acctCtrl => (if bit v 0 then d.acctSnap else d, false)
  | .pCtrl p => (if bit v 0 then d.startReset p else d, false)
  | .pShortLo p => (d.updPart p (fun x => { x with shortLo := v &&& 0xFFFF0000 }), false)
  | .pShortHi p => (d.updPart p (fun x => { x with shortHi := v }), false)
  | .supCfg => ({ d with ccx := { d.ccx with fenceWait := if v = 0 then 1 else v } }, false)
  | .supCtrl => (if bit v 0 then d.startFence 2 0 else d, false)
  | .til i x => d.writeTil i x v
  | .bar s x => d.writeBar s x v
  | .syn p x => (d.writeSyn w off p x v, false)
  | .thrCfg => ({ d with warnC := BitVec.ofNat 8 (bits v 24 8) }, false)
  | .dleCfg p => heldIf (d.locked p) ((d.part p).dale.cfg != regStored false v) d
      (d.updPart p (fun x => { x with dale := x.dale.configure (regStored false v) }))
  | .bsnCfg p => heldIf (d.locked p) ((d.part p).basin.cfg != regStored true v) d
      (d.updPart p (fun x => { x with basin := x.basin.configure (regStored true v) }))
  | .glnQuota p => (d.updPart p (fun x => { x with glnQuota := BitVec.ofNat 17 (min (bits v 0 17) 65536) }), false)
  | .gln p x => d.writeGln p x v
  | .colPend => ({ d with pendFull := d.pendFull && !bit v 16 }, false)
  | .cCtrl c => (d.writeColCtrl c v, false)
  | .axCtrl a => (d.updAxis a (fun x => { x with arm := bit v 1, slot := ⟨bits v 2 5 % 32, Nat.mod_lt _ (by decide)⟩ }), false)
  | .axMode a b => d.writeAxis a b ((Tab.at (d.axis a).banks b).mode != v &&& 0x1FFFFF) (fun k => { k with mode := v &&& 0x1FFFFF })
  | .axLen a b =>
    let n : BitVec 24 := if v.setWidth 24 = (0 : BitVec 24) then 1 else v.setWidth 24
    d.writeAxis a b ((Tab.at (d.axis a).banks b).len != n) (fun k => { k with len := n })
  | .axPos a b =>
    let n : BitVec 24 := if v.setWidth 24 < (Tab.at (d.axis a).banks b).len then v.setWidth 24 else 0
    d.writeAxis a b ((Tab.at (d.axis a).banks b).pos != n) (fun k => { k with pos := n })
  | .pGclr p => (if bit v 0 then d.updPart p (fun x => { x with aborted := [] }) else d, false)
  | .eCtrl e => (d.writeEngine e v, false)
  | .share p => d.writeShare p v
  | .keyReq p => (d.updPart p (fun x => { x with keyReq := x.keyReq ||| v.setWidth 4 }), false)
  | .tgtSel => ({ d with tgtSel := if bits v 0 9 ≤ 257 then v.setWidth 9 else 0 }, false)
  | .tgtWin k => (d.writeTgt k v, false)
  | .evBaseLo => heldIf d.ras.en (d.ras.evBaseLo != v &&& 0xFFFFFFE0) d (d.updRas (fun r => { r with evBaseLo := v &&& 0xFFFFFFE0 }))
  | .evBaseHi => heldIf d.ras.en (d.ras.evBaseHi != v) d (d.updRas (fun r => { r with evBaseHi := v }))
  | .evCfg =>
    let size := sizeStored (bits v 4 5)
    let en := d.ras.en
    let d' := if en then d else d.updRas (fun r => { r with evCfg := setBits r.evCfg 4 5 size })
    (if bit v 0 && !en then d'.updRas Ras.enable else if !bit v 0 && en then d'.updRas Ras.disable else d',
     en && size != bits d.ras.evCfg 4 5)
  | .evCons => (d.updRas (fun r => Ras.advance { r with cons := v.setWidth 16 }), false)
  | .evStat => (d.updRas (fun r => { r with dropped := r.dropped && !bit v 1 }), false)
  | .scrubCfg t =>
    let least := if t.val = 2 then 15 else 1
    let c := BitVec.ofNat 32 (b2n (bit v 0) + 256 * max least (bits v 8 24))
    (d.updRas (fun r => { r with scrubCfg := Tab.upd r.scrubCfg t (fun _ => c) }), false)
  | .flipLo => (d.updRas (fun r => { r with flipLo := v &&& 0xFFFFFFC0 }), false)
  | .flipHi => (d.updRas (fun r => { r with flipHi := v &&& 0xFFF }), false)
  | .flipCfg => (d.updRas (fun r => { r with flipCfg := if bits v 0 2 = 3 then v &&& 0x00FFFFFC else v &&& 0x00FFFFFF }), false)
  | .flipCtrl => (if bit v 0 then d.flipGo else d, false)
  | .plainCtrl => (d.plainCtrl v, false)
  | .rstCtrl => (if bit v 0 then d.updPwr (fun p => { p with rstPend := true }) else d, false)
  | .pinmux => d.writePinmux v
  | .gpio => (d.updPwr (fun p => { p with gpioOut := v.setWidth 8 }), false)
  | _ => (d, false)

/-- Registers whose every field is RO or RC: a write is ignored and raises no event (R9, R52). -/
def Reg.readOnly : Reg → Bool
  | .table _ | .vtable _ _ | .jrnProd | .jrnLost | .pState _ | .pInflight _ | .pDrop _ | .supStat | .dleTrip | .sStat _ | .sTmax _
  | .sThrLo _ | .sThrHi _ | .dle _ _ | .bsn _ _ | .chStat _ | .glnStore | .gStat _ | .gCycLo _ | .gCycHi _ | .cStat _
  | .cReplay _ | .cDrop _ | .pAbort _ | .idle _ _ | .eStat _ | .corrupt _ | .portStat _ | .fecCorr _ | .fecUncorr _
  | .stranger _ | .evProd | .scrubPass _ | .eccCnt | .evDrop _ | .supply | .bootStat | .strap | .flow | .aonLo | .aonHi
  | .ppsLo | .ppsHi | .domStat _ | .mtrStat | .mtrKey | .mtrParam | .mtrSeqLo | .mtrSeqHi | .mtrRec _ => true
  | .ring _ k => k == 5
  | .til _ r => match r with
    | .id | .state | .runLo | .runHi | .waitLo | .waitHi | .pcLo | .pcHi | .parCnt | .seqStat | .seqRange | .stepLo
    | .stepHi | .busyLo | .busyHi | .dtCfg => true
    | _ => false
  | .bar _ r => r == .stat
  | .gln _ r => r == .repair
  | _ => false

/-- The low word of a pair, for its high word. -/
def Reg.pairLo : Reg → Option Reg
  | .jrnBaseHi => some .jrnBaseLo
  | .bar4Hi => some .bar4Lo
  | .ring r k => if k = 1 then some (.ring r 0) else if k = 3 then some (.ring r 2) else none
  | .acctHi => some .acctLo
  | .pShortHi p => some (.pShortLo p)
  | .til i .seedHi => some (.til i .seedLo)
  | .til i .ctrHi => some (.til i .ctrLo)
  | .bar s .maskHi => some (.bar s .maskLo)
  | .gln p .tblHi => some (.gln p .tblLo)
  | .gln p .seedHi => some (.gln p .seedLo)
  | .evBaseHi => some .evBaseLo
  | .flipHi => some .flipLo
  | _ => none

/-! ### Accesses -/

def allBytes : BitVec 4 := 0xF

/-- A write that reaches a register takes effect and is journalled (R52, R432). -/
def Dev.storeReg (d : Dev) (w : Writer) (off : Nat) (r : Reg) (v : Word) (be : BitVec 4) (conflict pair : Bool) : Dev :=
  let (d, ig) := d.writeReg w off r v be
  if r.noJrn then d
  else d.journal w off (mergeBe 0 v be) (d.readReg r) be conflict ig pair

/-- An event about an access (R40, R47, R48). -/
def Dev.logAccess (d : Dev) (src : Nat) (w : Writer) (off : Nat) (be : BitVec 4) : Dev :=
  let part : Byte := match w with | .host (.vf p) => ownerByte (some p) | .col c => ownerByte (d.colPart c) | _ => 0xFF
  d.log src part (Writer.code w).toNat (BitVec.ofNat 32 off) (if src = Ev.accessHole then 0 else be.setWidth 32) 0

/-- An access to a register whose unit's clock is stopped makes PWR start that clock (R41, R125). A plain's fill comes before anyone
reaches its registers (R61). -/
def Dev.demand (d : Dev) (r : Reg) : Dev :=
  let d := match r.domain with | some k => d.wantClock k | none => d
  match r with
  | .til i _ => (d.reachPlain i).updPlain i (fun x => if x.state = .stopped then { x with state := .waking } else x)
  | _ => d

/-- The staged low word of a writer for a pair (R45). -/
def Hif.stagedLow (h : Hif) (w : Writer) (off : Nat) : Option Word :=
  (h.staged.find? (fun s => s.1 == w && s.2.1 == off)).map (fun s => s.2.2)
def Hif.stage (h : Hif) (w : Writer) (off : Nat) (v : Word) : Hif :=
  { h with staged := (w, off, v) :: h.staged.filter (fun s => !(s.1 == w && s.2.1 == off)) }
def Hif.unstage (h : Hif) (w : Writer) (off : Nat) : Hif :=
  { h with staged := h.staged.filter (fun s => !(s.1 == w && s.2.1 == off)) }

/-- One 32-bit access of a request (R42 to R44): an aligned offset, its word and its byte enables. -/
structure Access where
  writer : Writer
  off    : Nat
  val    : Word
  be     : BitVec 4
deriving DecidableEq, Repr

/-- A write that lands in the register `reg` at offset `off` of the physical function's BAR0; `low`: the staged low word of the
atomic pair, which lands in the same cycle (R45). -/
structure Landing where
  writer : Writer
  off    : Nat
  reg    : Reg
  val    : Word
  be     : BitVec 4
  low    : Option Word
deriving DecidableEq, Repr

/-- An access reaches the register `r` at offset `o` of the physical function's BAR0: it is dropped (R47), ignored (R9, R32), staged
(R45), or it lands. DESIGN CHOICE: a narrow write of a read-only register is dropped with ACCESS_SIZE like every other, and the event
gives the offset in the physical function's BAR0 (log entry 46). -/
def Dev.arriveAt (d : Dev) (w : Writer) (o : Nat) (r : Reg) (v : Word) (be : BitVec 4) : Dev × Option Landing :=
  if r.isTable then (d, none)
  else if be != allBytes && !r.byteWr then (d.logAccess Ev.accessSize w o be, none)
  else
    let d := d.demand r
    if r.readOnly then (d, none)
    else if r.pairHi.isSome then (d.updHif (fun h => h.stage w o v), none)
    else match (if r.pairLo.isSome then d.hif.stagedLow w (o - 4) else none) with
      | some lv => (d.updHif (fun h => h.unstage w (o - 4)), some { writer := w, off := o, reg := r, val := v, be := be, low := some lv })
      | none => (d, some { writer := w, off := o, reg := r, val := v, be := be, low := none })

/-- An access at an offset of the writer's own register space (R40). -/
def Dev.arrive (d : Dev) (a : Access) : Dev × Option Landing :=
  match d.regFor a.writer a.off with
  | none => (d.logAccess Ev.accessHole a.writer a.off a.be, none)
  | some (o, r) => d.arriveAt a.writer o r a.val a.be

/-- A write lands, with the word of its pair (R45), and is journalled; `cHi` and `cLo`: whether writes of the cycle conflicted in the
register and in its pair's low word (R50). -/
def Dev.land (d : Dev) (l : Landing) (cHi cLo : Bool) : Dev :=
  match l.low, l.reg.pairLo with
  | some lv, some lo =>
    let (d, ig1) := d.writeReg l.writer (l.off - 4) lo lv l.be
    let (d, ig2) := d.writeReg l.writer l.off l.reg l.val l.be
    (d.journal l.writer (l.off - 4) lv (d.readReg lo) l.be cLo ig1 true).journal l.writer l.off l.val (d.readReg l.reg) l.be cHi ig2 true
  | _, _ => d.storeReg l.writer l.off l.reg l.val l.be cHi l.reg.pairLo.isSome

/-- One access that no other meets in its cycle. -/
def Dev.access (d : Dev) (w : Writer) (off : Nat) (v : Word) (be : BitVec 4) : Dev :=
  match d.arrive { writer := w, off := off, val := v, be := be } with
  | (d, none) => d
  | (d, some l) => d.land l false false

/-! ### Requests of one fabric cycle (R43 to R50) -/

/-- Enabled bytes that are contiguous, or none. -/
def contiguous (be : BitVec 4) : Bool :=
  be == 0 || be == 1 || be == 2 || be == 4 || be == 8 || be == 3 || be == 6 || be == 12 || be == 7 || be == 14 || be == 15

/-- Whether the enabled bytes of one word make an aligned access: contiguous, and a 16-bit access not at an odd offset (R47, R48). -/
def enablesOk (be : BitVec 4) : Bool := contiguous be && be != 6

/-- Whether a request is unaligned (R48). -/
def BusWriteUnaligned (b : BusWrite) : Bool :=
  match b.size with
  | .b1 => false
  | .b2 => b.off % 2 != 0
  | .b4 => b.off % 4 != 0 || !enablesOk b.be
  | .wide n => b.off % 4 != 0 || (n == 2 && b.off % 8 != 0) || !enablesOk b.be || !enablesOk b.lastBe

/-- The 32-bit accesses of an aligned request, in ascending address order (R43, R44): a longer request has byte enables for its first
and its last word (R47). -/
def busAccesses (b : BusWrite) : List Access :=
  match b.size with
  | .b1 => [{ writer := b.writer, off := b.off / 4 * 4, val := b.data.getD 0 0, be := BitVec.ofNat 4 (2 ^ (b.off % 4)) }]
  | .b2 => [{ writer := b.writer, off := b.off / 4 * 4, val := b.data.getD 0 0, be := BitVec.ofNat 4 (3 * 2 ^ (b.off % 4)) }]
  | .b4 => [{ writer := b.writer, off := b.off, val := b.data.getD 0 0, be := b.be }]
  | .wide n => (List.range n).map (fun k =>
      { writer := b.writer, off := b.off + 4 * k, val := b.data.getD k 0
        be := if k = 0 then b.be else if k + 1 = n then b.lastBe else allBytes })

/-- The order in which the writers of one cycle apply (R49). -/
def writerOrder : Writer → Nat
  | .col c => c.val
  | .hart h => 16 + h.val
  | .supervisor => 20
  | .host _ => 21

def insertByOrder (a : Access) : List Access → List Access
  | [] => [a]
  | x :: r => if writerOrder a.writer ≤ writerOrder x.writer then a :: x :: r else x :: insertByOrder a r

/-- What a landing writes: each register's offset and the value. DESIGN CHOICE: bytes that are not enabled count as 0 in the comparison
of R50 (log entry 46). Additions to a SYN counter meet nothing (R51). -/
def Landing.hits (l : Landing) : List (Nat × Word) :=
  match l.reg with
  | .syn _ .ctrAdd => []
  | _ => (l.off, mergeBe 0 l.val l.be) :: (match l.low with | some lv => [(l.off - 4, lv)] | none => [])

/-- The writes of a cycle that reach the register at `o`, in the order of R49: writer and value. -/
def hitsAt (ls : List Landing) (o : Nat) : List (Writer × Word) :=
  ls.flatMap (fun l => (l.hits.filter (fun h => h.1 == o)).map (fun h => (l.writer, h.2)))

/-- The writes of a cycle to the register at `o` that differ from the standing one, with it (R50). -/
def overridden (ls : List Landing) (o : Nat) : List ((Writer × Word) × (Writer × Word)) :=
  match (hitsAt ls o).getLast? with
  | some t => ((hitsAt ls o).filter (fun h => h.1 != t.1 && h.2 != t.2)).map (fun h => (h, t))
  | none => []

/-- The offsets that a cycle's landings write, each once. -/
def hitOffs (ls : List Landing) : List Nat := (ls.flatMap Landing.hits).foldl (fun l h => if l.contains h.1 then l else l ++ [h.1]) []

/-- All the accesses of one fabric cycle (R49, R50). -/
def Dev.cycle (d : Dev) (l : List Access) : Dev :=
  let (d, ls) := (l.foldr insertByOrder []).foldl (fun (acc : Dev × List Landing) a =>
    let (d, x) := acc.1.arrive a
    (d, acc.2 ++ x.toList)) (d, [])
  let clash (o : Nat) : Bool := !(overridden ls o).isEmpty
  let d := ls.foldl (fun d x => d.land x (clash x.off) (clash (x.off - 4))) d
  (hitOffs ls).foldl (fun d o => (overridden ls o).foldl (fun d c =>
    d.log Ev.conflictWrite 0xFF ((Writer.code c.1.1).toNat + 256 * (Writer.code c.2.1).toNat) (BitVec.ofNat 32 o) c.1.2 c.2.2) d) d

/-- Write requests that reach the registers in one fabric cycle. -/
def Dev.busWrites (d : Dev) (ws : List BusWrite) : Dev :=
  let d := (ws.filter BusWriteUnaligned).foldl (fun d b => (d.logAccess Ev.accessAlign b.writer b.off b.be).reply .unsupported) d
  d.cycle ((ws.filter (fun b => !BusWriteUnaligned b)).flatMap busAccesses)

/-- The PF BAR0 offsets of a host function's or another writer's own register: the special rows name the unit, and the
write is the same as the general one at that unit's register. -/
def Dev.direct (d : Dev) (w : Writer) (off : Nat) (r : Reg) (v : Word) (be : BitVec 4 := allBytes) : Dev :=
  let d := d.demand r
  d.storeReg w off r v be false false

/-! ### Reads with a side effect (R9, R45, R46) -/

/-- The bytes that a read of a lane and a size returns of a register (R46). -/
def readLanes (v : Word) (a : ReadAcc) : Word :=
  match a.size with
  | .b1 => BitVec.ofNat 32 (bits v (8 * a.lane.val) 8)
  | .b2 => BitVec.ofNat 32 (bits v (8 * a.lane.val) 16)
  | _ => v

/-- What a read of an RC register clears: its whole RC field. -/
def Dev.clearRc (d : Dev) (r : Reg) : Dev :=
  match r with
  | .jrnLost => d.updHif (fun h => { h with jLostCnt := 0 })
  | .pDrop p => d.updPart p (fun x => { x with drop := 0 })
  | .til i .parCnt => d.updPlain i (fun x => { x with parCnt := 0 })
  | .sTmax s => { d with daleStacks := Tab.upd d.daleStacks s (fun x => { x with tmax := 0 }) }
  | .dle p .wait => d.updPart p (fun x => { x with dale := { x.dale with wait := 0 } })
  | .bsn p .wait => d.updPart p (fun x => { x with basin := { x.basin with wait := 0 } })
  | .gln p .repair => d.updPart p (fun x => { x with repair := 0 })
  | .cReplay c => d.updCol c (fun x => { x with replays := 0 })
  | .cDrop c => d.updCol c (fun x => { x with drops := 0 })
  | .fecCorr n => d.updPort n (fun x => { x with fecCorr := 0 })
  | .fecUncorr n => d.updPort n (fun x => { x with fecUncorr := 0 })
  | .stranger n => d.updPort n (fun x => { x with stranger := 0 })
  | .corrupt p => d.updPart p (fun x => { x with corrupt := 0 })
  | .evDrop s => d.updRas (fun x => { x with drops := Tab.upd x.drops s (fun _ => 0) })
  | .eccCnt => d.updRas (fun x => { x with eccDale := 0, eccBasin := 0 })
  | _ => d

/-- One 32-bit read of the register at offset `o` of the physical function's BAR0: the state after it and the value (R9, R32, R45). A
high word that the reader's last read of its low word shadowed comes from the shadow, once. -/
def Dev.readAt (d : Dev) (w : Writer) (o : Nat) (r : Reg) : Dev × Word :=
  let d := d.demand r
  if r.isTable && d.pwr.boot.step.toNat < 5 && !d.pwr.boot.fail then let (v, d) := d.fresh; (d, lo32 v)
  else match d.hif.shadow.find? (fun s => s.1 == w && s.2.1 == o) with
    | some s => (d.updHif (fun h => { h with shadow := h.shadow.filter (fun x => !(x.1 == w && x.2.1 == o)) }), s.2.2)
    | none =>
      let v := d.readReg r
      match r.pairHi with
      | some hi => (d.updHif (fun h => { h with
          shadow := (w, o + 4, d.readReg hi) :: h.shadow.filter (fun x => !(x.1 == w && x.2.1 == o + 4)) }), v)
      | none => (d.clearRc r, v)

/-- Reads in ascending address order (R43, R44): the register that each word reaches, or a hole, which reads 0 (R40). -/
def Dev.readWords (d : Dev) (w : Writer) (l : List (Option (Nat × Reg))) : Dev × List Word :=
  l.foldl (fun (acc : Dev × List Word) x =>
    match x with
    | some (o, r) => let (d, v) := acc.1.readAt w o r; (d, acc.2 ++ [v])
    | none => (acc.1, acc.2 ++ [0])) (d, [])

/-- Whether a read is unaligned (R48). -/
def readUnaligned (off : Nat) (size : AccSize) : Bool :=
  match size with
  | .b1 => false
  | .b2 => off % 2 != 0
  | .b4 => off % 4 != 0
  | .wide n => off % 4 != 0 || (n == 2 && off % 8 != 0)

/-- How many 32-bit words a read takes. -/
def accWords : AccSize → Nat
  | .wide n => n
  | _ => 1

/-- What an aligned read of one register or of several gives back: the addressed bytes (R46). -/
def readBack (size : AccSize) (off : Nat) (vs : List Word) : Reply :=
  match size with
  | .b1 => .words [BitVec.ofNat 32 (bits (vs.getD 0 0) (8 * (off % 4)) 8)]
  | .b2 => .words [BitVec.ofNat 32 (bits (vs.getD 0 0) (8 * (off % 4)) 16)]
  | _ => .words vs

/-- A read request at an offset of the reader's own register space (R40 to R48). -/
def Dev.readRequest (d : Dev) (w : Writer) (off : Nat) (size : AccSize) : Dev :=
  if readUnaligned off size then (d.logAccess Ev.accessAlign w off allBytes).reply .unsupported
  else
    let (d, vs) := d.readWords w ((List.range (accWords size)).map (fun k => d.regFor w (off / 4 * 4 + 4 * k)))
    d.reply (readBack size off vs)

/-- A read of an RC register: its stored value is returned, and then the whole field is cleared. -/
def Dev.readRc (d : Dev) (r : Reg) (a : ReadAcc) : Dev :=
  ((d.demand r).reply (.words [readLanes (d.readReg r) a])).clearRc r

/-- A read request that begins at a register which the reader's space holds. -/
def Dev.readFrom (d : Dev) (r : Reg) (a : ReadAcc) : Dev :=
  match a.size with
  | .wide n =>
    let (d, vs) := d.readWords a.reader ((List.range n).map (fun k =>
      (regAt (r.off + 4 * k)).bind (fun x => if d.owns a.reader x then some (r.off + 4 * k, x) else none)))
    d.reply (.words vs)
  | _ => d.readRc r a

end Sys2Proof.Machine
end

