-- ==== Sys2Proof/WellFormed.lean ====
section
/-! DEFINITION. The commands that an agent can send: requests of a size that the bus, the col or the port carries. Most
operands are well formed by their types. -/

namespace Sys2Proof

/-- A register request is 1, 2 or 4 bytes, or 2 to 1,024 whole words, with one data word per word written (R42 to R44). -/
def BusWrite.wf (b : BusWrite) : Bool :=
  match b.size with
  | .wide n => 2 ≤ n && n ≤ 1024 && b.data.length == n
  | _ => b.data.length == 1

/-- A read is 1, 2 or 4 bytes, or 2 to 1,024 whole words (R42 to R44); an unaligned one can be sent, and gets its answer (R48). -/
def ReadAcc.wf (a : ReadAcc) : Bool :=
  match a.size with
  | .wide n => 2 ≤ n && n ≤ 1024
  | _ => true

/-- The register index of a map write lies in its family (R87). -/
def MapKind.count : MapKind → Nat
  | .plain => 16
  | .barrier => 8
  | .dale => 144
  | .basin => 96

/-- The well-formed commands. -/
def Instr.wf : Instr → Bool
  | .mapWrite _ m k _ _ => k.val < m.count
  | .registerWrite ws => !ws.isEmpty && ws.all BusWrite.wf
  | .hifJrnLostRead a => a.wf
  | .prtPDropRead _ a => a.wf
  | .tilParCntRead _ a => a.wf
  | .dleSTmaxRead _ a => a.wf
  | .dlePWaitRead _ a => a.wf
  | .bsnPWaitRead _ a => a.wf
  | .glnPRepairRead _ a => a.wf
  | .colCReplayRead _ a => a.wf
  | .colCDropRead _ a => a.wf
  | .netPortFecCorrRead _ a => a.wf
  | .netPortFecUncorrRead _ a => a.wf
  | .netPortStrangerRead _ a => a.wf
  | .smpPCorruptRead _ a => a.wf
  | .rasEvDropRead _ a => a.wf
  | .rasEccCntRead a => a.wf
  | .bar4Read _ _ len => 1 ≤ len && len ≤ 4096
  | .bar4Write _ _ data _ => !data.isEmpty && data.length ≤ 4096
  | .readModifyWrite a data => !data.isEmpty && a.toNat % 64 + data.length ≤ 64
  | .meterRead _ n => 1 ≤ n && n ≤ 64
  | _ => true

end Sys2Proof
end

