-- ==== Sys2Proof/Machine/Control.lean ====
section
/-! DEFINITION. The register commands: general writes, atomic pairs, reads of RC registers, and the writes that the
table lists as commands of their own. Each of the latter is the same write that REGISTER_WRITE makes at that register's
offset. -/

namespace Sys2Proof.Machine

open Sys2Proof

/-- Whether an agent can reach the registers: the host over its trained link, by a function that is enabled (R57); the harts once
released. -/
def Dev.reachable (d : Dev) (w : Writer) : Bool :=
  match w with
  | .host .pf => d.pwr.link
  | .host (.vf p) => d.pwr.link && p.val < d.hif.vfs
  | .hart _ => d.ccx.harts
  | _ => true

/-- A write of one named register by an agent that owns it. -/
def Dev.regCmd (d : Dev) (w : Writer) (r : Reg) (v : Word) (be : BitVec 4 := allBytes) : Dev :=
  if d.reachable w && d.owns w r then d.direct w r.off r v be else d

/-- A read of one RC register: an agent whose space does not hold it reads a hole (R40), and an unaligned one gets an Unsupported
Request (R48; log entry 46 for the event's offset). -/
def Dev.rcCmd (d : Dev) (r : Reg) (a : ReadAcc) : Dev :=
  if !d.reachable a.reader then d
  else if readUnaligned (r.off + a.lane.val) a.size then (d.logAccess Ev.accessAlign a.reader (r.off + a.lane.val) allBytes).reply .unsupported
  else if d.owns a.reader r then d.readFrom r a
  else d.reply (.words (List.replicate (accWords a.size) 0))

/-! ### General accesses (R42 to R50) -/

/-- One aligned 32-bit write of a writer's register space. -/
def word32 (w : Writer) (off : Nat) (val : Word) (be : BitVec 4 := allBytes) : BusWrite :=
  { writer := w, off := off, size := .b4, be := be, lastBe := allBytes, data := [val], space := .registers }

def Dev.writeWord32 (d : Dev) (w : Writer) (off : Nat) (val : Word) : Dev :=
  if d.reachable w then d.busWrites [word32 w off val] else d

/-- A write to the low word of a pair (R45): it is staged. -/
def execAtomicPairLowWrite (w : Writer) (off : Nat) (val : Word) (s : State) : Host.Outcome State Fault Refusal :=
  .next { s with dev := s.dev.writeWord32 w off val }

/-- A write to the high word of a pair (R45): both words apply. -/
def execAtomicPairHighWrite (w : Writer) (off : Nat) (val : Word) (s : State) : Host.Outcome State Fault Refusal :=
  .next { s with dev := s.dev.writeWord32 w off val }

/-- A read of the low word of a pair, of any size: a longer one goes on to the words after it (R43 to R48). -/
def execAtomicPairLowRead (w : Writer) (off : Nat) (size : AccSize) (s : State) : Host.Outcome State Fault Refusal :=
  .next { s with dev := if s.dev.reachable w then s.dev.readRequest w off size else s.dev }

/-! ### Reads that clear (R9) -/

def execHifJrnLostRead (a : ReadAcc) (s : State) : Host.Outcome State Fault Refusal :=
  .next { s with dev := s.dev.rcCmd (.jrnLost) a }
def execPrtPDropRead (p : Fin 64) (a : ReadAcc) (s : State) : Host.Outcome State Fault Refusal :=
  .next { s with dev := s.dev.rcCmd (.pDrop p) a }
def execTilParCntRead (i : Fin 64) (a : ReadAcc) (s : State) : Host.Outcome State Fault Refusal :=
  .next { s with dev := s.dev.rcCmd (.til i .parCnt) a }
def execDleSTmaxRead (t : Fin 12) (a : ReadAcc) (s : State) : Host.Outcome State Fault Refusal :=
  .next { s with dev := s.dev.rcCmd (.sTmax t) a }
def execDlePWaitRead (p : Fin 64) (a : ReadAcc) (s : State) : Host.Outcome State Fault Refusal :=
  .next { s with dev := s.dev.rcCmd (.dle p .wait) a }
def execBsnPWaitRead (p : Fin 64) (a : ReadAcc) (s : State) : Host.Outcome State Fault Refusal :=
  .next { s with dev := s.dev.rcCmd (.bsn p .wait) a }
def execGlnPRepairRead (p : Fin 64) (a : ReadAcc) (s : State) : Host.Outcome State Fault Refusal :=
  .next { s with dev := s.dev.rcCmd (.gln p .repair) a }
def execColCReplayRead (c : Fin 16) (a : ReadAcc) (s : State) : Host.Outcome State Fault Refusal :=
  .next { s with dev := s.dev.rcCmd (.cReplay c) a }
def execColCDropRead (c : Fin 16) (a : ReadAcc) (s : State) : Host.Outcome State Fault Refusal :=
  .next { s with dev := s.dev.rcCmd (.cDrop c) a }
def execNetPortFecCorrRead (n : Fin 2) (a : ReadAcc) (s : State) : Host.Outcome State Fault Refusal :=
  .next { s with dev := s.dev.rcCmd (.fecCorr n) a }
def execNetPortFecUncorrRead (n : Fin 2) (a : ReadAcc) (s : State) : Host.Outcome State Fault Refusal :=
  .next { s with dev := s.dev.rcCmd (.fecUncorr n) a }
def execNetPortStrangerRead (n : Fin 2) (a : ReadAcc) (s : State) : Host.Outcome State Fault Refusal :=
  .next { s with dev := s.dev.rcCmd (.stranger n) a }
def execSmpPCorruptRead (p : Fin 64) (a : ReadAcc) (s : State) : Host.Outcome State Fault Refusal :=
  .next { s with dev := s.dev.rcCmd (.corrupt p) a }
def execRasEvDropRead (src : Fin 128) (a : ReadAcc) (s : State) : Host.Outcome State Fault Refusal :=
  .next { s with dev := s.dev.rcCmd (.evDrop src) a }
def execRasEccCntRead (a : ReadAcc) (s : State) : Host.Outcome State Fault Refusal :=
  .next { s with dev := s.dev.rcCmd (.eccCnt) a }

/-! ### Writes that are commands of their own -/

/-- A write of PRT_P_CTRL.RESET (R80). -/
def execPartitionReset (w : Writer) (p : Fin 64) (s : State) : Host.Outcome State Fault Refusal :=
  .next { s with dev := s.dev.regCmd w (.pCtrl p) 1 }
/-- A write of PRT_ACCT_CTRL.SNAP (R86). -/
def execAcctSnap (w : Writer) (s : State) : Host.Outcome State Fault Refusal :=
  .next { s with dev := s.dev.regCmd w .acctCtrl 1 }
/-- A write of PRT_RING_CFG that sets EN (R66, R87). -/
def execRingEnable (w : Writer) (r : RingId) (cfg : Word) (s : State) : Host.Outcome State Fault Refusal :=
  .next { s with dev := s.dev.regCmd w (.ring r 4) cfg }
/-- A write of PRT_RING_CFG that clears EN (R87). -/
def execRingDisable (w : Writer) (r : RingId) (cfg : Word) (s : State) : Host.Outcome State Fault Refusal :=
  .next { s with dev := s.dev.regCmd w (.ring r 4) cfg }
/-- A write of HIF_JRN_CFG that sets EN (R54). -/
def execJrnEnable (w : Writer) (val : Word) (s : State) : Host.Outcome State Fault Refusal :=
  .next { s with dev := s.dev.regCmd w .jrnCfg val }
/-- A write of HIF_JRN_CFG that clears EN (R54). -/
def execJrnDisable (w : Writer) (val : Word) (s : State) : Host.Outcome State Fault Refusal :=
  .next { s with dev := s.dev.regCmd w .jrnCfg val }
/-- A write through the descriptor window (R155). -/
def execTilDtWinWrite (w : Writer) (i : Fin 64) (k : Fin 64) (val : Word) (s : State) : Host.Outcome State Fault Refusal :=
  .next { s with dev := s.dev.regCmd w (.til i (.dtWin k)) val }
/-- A write of SYN_P_CTR_ADD (R213). -/
def execSynPCtrAdd (w : Writer) (p : Fin 64) (val : Word) (s : State) : Host.Outcome State Fault Refusal :=
  .next { s with dev := s.dev.regCmd w (.syn p .ctrAdd) val }
/-- A write of SYN_BAR_CTRL.CLEAR (R227). -/
def execSynBarCtrlClear (w : Writer) (t : Fin 32) (s : State) : Host.Outcome State Fault Refusal :=
  .next { s with dev := s.dev.regCmd w (.bar t .ctrl) 1 }
/-- A write of COL_C_CTRL.RETRAIN (R297): DISABLE keeps its value. -/
def execColCRetrain (w : Writer) (c : Fin 16) (s : State) : Host.Outcome State Fault Refusal :=
  .next { s with dev := s.dev.regCmd w (.cCtrl c) (BitVec.ofNat 32 (1 + 2 * b2n (s.dev.col c).disable)) }
/-- A write of COL_C_CTRL that sets DISABLE (R296). -/
def execColCDisable (w : Writer) (c : Fin 16) (s : State) : Host.Outcome State Fault Refusal :=
  .next { s with dev := s.dev.regCmd w (.cCtrl c) 2 }
/-- A write of COL_AX_CTRL (R299). -/
def execColAxArm (w : Writer) (a : Fin 4) (val : Word) (s : State) : Host.Outcome State Fault Refusal :=
  .next { s with dev := s.dev.regCmd w (.axCtrl a) val }
/-- A write of COL_P_GCLR.CLEAR (R307). -/
def execColPGclrClear (w : Writer) (p : Fin 64) (s : State) : Host.Outcome State Fault Refusal :=
  .next { s with dev := s.dev.regCmd w (.pGclr p) 1 }
/-- A write of word 0 of the selected target entry (R334). -/
def execNetTgtWord0Write (w : Writer) (val : Word) (s : State) : Host.Outcome State Fault Refusal :=
  .next { s with dev := s.dev.regCmd w (.tgtWin 0) val }
/-- A write of MED_E_CTRL.FAIL (R357). -/
def execMedEFail (w : Writer) (e : Fin 4) (s : State) : Host.Outcome State Fault Refusal :=
  .next { s with dev := s.dev.regCmd w (.eCtrl e) 1 }
/-- A write of MED_E_CTRL.RETURN (R358). -/
def execMedEReturn (w : Writer) (e : Fin 4) (s : State) : Host.Outcome State Fault Refusal :=
  .next { s with dev := s.dev.regCmd w (.eCtrl e) 2 }
/-- A W1S write of MED_P_KEYREQ (R361). -/
def execMedPKeyreq (w : Writer) (p : Fin 64) (val : Word) (s : State) : Host.Outcome State Fault Refusal :=
  .next { s with dev := s.dev.regCmd w (.keyReq p) val }
/-- A write of MED_P_SHARE (R342). -/
def execMedPShareWrite (w : Writer) (p : Fin 64) (val : Word) (s : State) : Host.Outcome State Fault Refusal :=
  .next { s with dev := s.dev.regCmd w (.share p) val }
/-- A write of RAS_EV_CFG that sets EN (R380). -/
def execRasEvEnable (w : Writer) (val : Word) (s : State) : Host.Outcome State Fault Refusal :=
  .next { s with dev := s.dev.regCmd w .evCfg val }
/-- A write of RAS_EV_CFG that clears EN (R380). -/
def execRasEvDisable (w : Writer) (val : Word) (s : State) : Host.Outcome State Fault Refusal :=
  .next { s with dev := s.dev.regCmd w .evCfg val }
/-- A write of RAS_FLIP_CTRL.GO (R377). -/
def execRasFlipGo (w : Writer) (s : State) : Host.Outcome State Fault Refusal :=
  .next { s with dev := s.dev.regCmd w .flipCtrl 1 }
/-- A write of RAS_PLAIN_CTRL with FENCE (R385). -/
def execRasPlainFence (w : Writer) (i : Fin 64) (s : State) : Host.Outcome State Fault Refusal :=
  .next { s with dev := s.dev.regCmd w .plainCtrl (BitVec.ofNat 32 (i.val + 256)) }
/-- A write of RAS_PLAIN_CTRL with RETURN (R388). -/
def execRasPlainReturn (w : Writer) (i : Fin 64) (s : State) : Host.Outcome State Fault Refusal :=
  .next { s with dev := s.dev.regCmd w .plainCtrl (BitVec.ofNat 32 (i.val + 512)) }
/-- A write of CCX_SUP_CTRL.FENCE (R389). -/
def execCcxSupFence (w : Writer) (s : State) : Host.Outcome State Fault Refusal :=
  .next { s with dev := s.dev.regCmd w .supCtrl 1 }
/-- A write of PWR_RST_CTRL.MODULE: the reset follows 1 ms later (R410). -/
def execPwrRstModule (w : Writer) (s : State) : Host.Outcome State Fault Refusal :=
  .next { s with dev := s.dev.regCmd w .rstCtrl 1 }
/-- A write of PWR_PINMUX (R415). -/
def execPwrPinmuxWrite (w : Writer) (val : Word) (s : State) : Host.Outcome State Fault Refusal :=
  .next { s with dev := s.dev.regCmd w .pinmux val }

/-- Where a family of maps begins (R87). -/
def mapBase : MapKind → Nat
  | .plain => 0x20000 | .barrier => 0x20040 | .dale => 0x20100 | .basin => 0x20400

def mapReg (m : MapKind) (k : Nat) : Option Reg :=
  match m with
  | .plain => (finOf 16 k).map .plainMap
  | .barrier => (finOf 8 k).map .barMap
  | .dale => (finOf 144 k).map .daleMap
  | .basin => (finOf 96 k).map .basinMap

def Dev.mapBeyond (d : Dev) (w : Writer) (off : Nat) (val : Word) (be : BitVec 4) : Dev :=
  if d.reachable w then d.busWrites [word32 w off val be] else d

/-- A write of a map register (R60). A word beyond the family is a write at that offset, whatever lies there (R40). -/
def execMapWrite (w : Writer) (m : MapKind) (k : Fin 144) (val : Word) (be : BitVec 4) (s : State) :
    Host.Outcome State Fault Refusal :=
  match mapReg m k.val with
  | some r =>
    .next { s with dev :=
      if s.dev.reachable w && !enablesOk be then (s.dev.logAccess Ev.accessAlign w r.off be).reply .unsupported
      else s.dev.regCmd w r val be }
  | none => .next { s with dev := s.dev.mapBeyond w (mapBase m + 4 * k.val) val be }

/-- A write of a plain's seed pair (R45, R108): both words apply together. -/
def Dev.writeSeed (d : Dev) (w : Writer) (i : Fin 64) (lo hi : Word) : Dev :=
  if d.reachable w && d.owns w (.til i .seedLo) then
    let d := d.updHif (fun h => h.stage w (Reg.off (.til i .seedLo)) lo)
    match d.arriveAt w (Reg.off (.til i .seedHi)) (.til i .seedHi) hi allBytes with
    | (d, some l) => d.land l false false
    | (d, none) => d
  else d

def execTilSrSeedWrite (w : Writer) (i : Fin 64) (lo hi : Word) (s : State) : Host.Outcome State Fault Refusal :=
  .next { s with dev := s.dev.writeSeed w i lo hi }

/-! ### The ends of what register writes start -/

/-- The accounting snapshot's last record is written (R86). -/
def execAcctSnapDone (s : State) : Host.Outcome State Fault Refusal := .next { s with dev := { s.dev with acctBusy := false } }

/-- A flip is finished (R377). -/
def execFlipDone (s : State) : Host.Outcome State Fault Refusal :=
  .next { s with dev := s.dev.updRas (fun r => { r with flipBusy := false }) }

/-- A Function Level Reset of virtual function p + 1 (R80). -/
def execVfFlr (p : Fin 64) (s : State) : Host.Outcome State Fault Refusal := .next { s with dev := s.dev.startReset p }

def execPartitionResetEnd (p : Fin 64) (s : State) : Host.Outcome State Fault Refusal := .next { s with dev := s.dev.endReset p }

def execGrantFillDone (u : FillUnit) (s : State) : Host.Outcome State Fault Refusal :=
  .next { s with dev := if s.dev.owed u then s.dev.fillDone u else s.dev }

/-- The plain's self test ends (R388). -/
def Dev.bistDone (d : Dev) (i : Fin 64) (ok : Bool) : Dev :=
  if (d.plain i).state != .bist then d
  else
    let d := if ok then d.updPlain i (fun x => { x.fillNew with
        state := .stopped, acc := Tab.all 2 AccHalf.reset, seq := Seq.reset, threads := Tab.all 64 Thread.reset, lastOwner := none, coreBad := false })
      else d.updPlain i (fun x => { x with state := .fenced })
    d.log Ev.plainReturn 0xFF i.val (if ok then 0 else 1) 0 0

def execPlainBistDone (i : Fin 64) (ok : Bool) (s : State) : Host.Outcome State Fault Refusal :=
  .next { s with dev := s.dev.bistDone i ok }

/-- A media engine's self test ends (R358). -/
def execMediaBistDone (e : Fin 4) (ok : Bool) (s : State) : Host.Outcome State Fault Refusal :=
  .next { s with dev := { s.dev with engines := Tab.upd s.dev.engines e (fun x =>
    if x.state = .bist then { x with state := if ok then .ready else .failed } else x) } }

/-- An engine fails its internal check, or a picture takes more than 10 ms (R357). -/
def execMediaEngineFail (e : Fin 4) (s : State) : Host.Outcome State Fault Refusal := .next { s with dev := s.dev.failEngine e 1 }
def execMediaPictureTimeout (e : Fin 4) (s : State) : Host.Outcome State Fault Refusal := .next { s with dev := s.dev.failEngine e 2 }

end Sys2Proof.Machine
end

