-- ==== Sys2Proof/Machine/Sync.lean ====
section
/-! DEFINITION. Counters, barriers, waits and watchdogs (R211 to R231), remote adds, and the group reductions and aborts
that arrive on cols (R305 to R307). -/

namespace Sys2Proof.Machine

open Sys2Proof

/-! ### Counters (R213) -/

/-- The home applies the net amount of the cycle once (R213). -/
def Dev.applyAdds (d : Dev) (p : Fin 64) (n : BitVec 12) : Dev :=
  match (d.part p).counter n with
  | none => d
  | some c =>
    if c.adds.isEmpty then d
    else if (d.part p).state = .resetting || (d.plain c.home).state = .fenced then d.updPart p (fun x => x.updCounter n (fun c => { c with adds := [] }))
    else
      let net := c.adds.foldl (fun a b => a + b.amt) (0 : Int)
      let v := (c.value.toNat : Int) + net
      let hi := decide (65535 < v)
      let lo := decide (v < 0)
      let d := (d.updPart p (fun x => x.updCounter n (fun c => { c with
        adds := []
        value := if hi then 0xFFFF else if lo then 0 else BitVec.ofInt 16 v
        satHi := c.satHi || hi, satLo := c.satLo || lo }))).meetWaits p n
      if (hi && !c.satHi) || (lo && !c.satLo) then
        let d := d.log Ev.synSaturate (ownerByte (some p)) n.toNat (BitVec.ofInt 32 net) (BitVec.ofNat 32 c.home.val) 0
        d.updPart p (fun x => { x with
          synStat := if bit x.synStat 0 then x.synStat else setBits (x.synStat ||| 1) 4 12 n.toNat })
      else d.updPart p (fun x => { x with
          synStat := if (hi || lo) && !bit x.synStat 0 then setBits (x.synStat ||| 1) 4 12 n.toNat else x.synStat })

/-- What a thread does with a counter follows its own earlier additions to it (R216): those still on their way have arrived. -/
def Dev.ownAddsFirst (d : Dev) (p i t : Fin 64) (n : BitVec 12) : Dev :=
  match (d.part p).counter n with
  | some c => if c.adds.any (fun a => a.plain == some i && a.thread == some t) then d.applyAdds p n else d
  | none => d

/-! ### The SYN port (R215 to R218) -/

/-- A live thread that waits for nothing. -/
def Dev.ready (d : Dev) (i t : Fin 64) : Bool :=
  (d.thread i t).live && (d.thread i t).stall == .none && ((d.plain i).state == .busy || (d.plain i).state == .idle)

/-- The port refuses an access: the thread faults at its present instruction with cause 3. -/
def Dev.portFault (d : Dev) (i t : Fin 64) : Dev := d.threadFault i t 3 (d.thread i t).pc

/-- Run a port operation of a ready thread of an owned plain. -/
def Dev.portOp (d : Dev) (i t : Fin 64) (f : Dev → Fin 64 → Dev) : Dev :=
  match d.plainOwner i with
  | some p => if d.ready i t then f d p else d
  | none => d

def signedAmt (v : Word) : Int := if bit v 15 then - (bits v 16 16 : Int) else (bits v 16 16 : Int)

def Dev.synAdd (d : Dev) (i t : Fin 64) (v : Word) : Dev :=
  d.portOp i t (fun d p =>
    if bits v 12 3 != 0 || d.quotaQ p ≤ (ctrOf v).toNat then d.portFault i t else d.addCounter p (ctrOf v) (signedAmt v) (some i) (some t))

def Dev.synWait (d : Dev) (i t : Fin 64) (v : Word) : Dev :=
  d.portOp i t (fun d p =>
    if bits v 12 4 != 0 || d.quotaQ p ≤ (ctrOf v).toNat then d.portFault i t
    else if valOf v == 0 then d
    else ((d.ownAddsFirst p i t (ctrOf v)).updThread i t (fun x => { x with stall := .synWait })).beginWait p (.thread i t) (ctrOf v) (valOf v))

def Dev.readSel (d : Dev) (i t : Fin 64) (v : Word) : Dev :=
  d.portOp i t (fun d p =>
    if bits v 12 20 != 0 || d.quotaQ p ≤ (ctrOf v).toNat then d.portFault i t
    else d.updThread i t (fun x => { x with readSel := ctrOf v }))

/-- What a load from READ returns. -/
def Dev.synValue (d : Dev) (p i t : Fin 64) : Word :=
  match (d.part p).counter (d.thread i t).readSel with
  | some c => BitVec.ofNat 32 (c.value.toNat + 65536 * b2n c.satHi + 131072 * b2n c.satLo)
  | none => 0

def Thread.setX (x : Thread) (rd : Fin 32) (v : DWord) : Thread :=
  if rd = 0 then x else { x with x := Tab.upd x.x rd (fun _ => v) }

def Dev.synRead (d : Dev) (i t : Fin 64) (rd : Fin 32) : Dev :=
  d.portOp i t (fun d p =>
    let d := d.ownAddsFirst p i t (d.thread i t).readSel
    d.updThread i t (fun x => x.setX rd ((d.synValue p i t).signExtend 64)))

def Dev.remoteCol (d : Dev) (i t : Fin 64) (v : Word) : Dev :=
  d.portOp i t (fun d p =>
    match finOf 16 (bits v 0 4) with
    | some c => if bits v 4 28 != 0 || d.colPart c != some p then d.portFault i t
      else d.updThread i t (fun x => { x with remoteCol := BitVec.ofNat 4 c.val })
    | none => d)

/-- A remote add leaves on the port of its col; a tree carries only snapshot data (R301; log entry 48). -/
def Dev.remoteAdd (d : Dev) (i t : Fin 64) (v : Word) : Dev :=
  d.portOp i t (fun d p =>
    match finOf 16 (d.thread i t).remoteCol.toNat with
    | some c =>
      if bits v 12 3 != 0 || d.quotaQ p ≤ (ctrOf v).toNat || d.colPart c != some p then d.portFault i t
      else if (d.bank (axisOf c)).line then d.sendPort (axisOf c) (plusCol c) p (.remoteAdd v)
      else d
    | none => d)

/-- A thread's arrival leaves for the hub (R222); BAR_SYNC stalls it until the release. -/
def Dev.barIssue (d : Dev) (i t : Fin 64) (v : Word) (sync : Bool) : Dev :=
  d.portOp i t (fun d p =>
    let s : Fin 32 := ⟨bits v 0 5 % 32, Nat.mod_lt _ (by decide)⟩
    let b := Tab.at d.bars s
    if bits v 5 27 != 0 || d.barOwner s != some p || !(d.part p).bars.contains s || !b.member i || b.state == .failed ||
        (b.groupEn && b.members.toNat < 2) then d.portFault i t
    else
      let d := d.updBar s (fun b => { b with flying := b.flying ++
        [{ plain := i, thread := t, sync := sync, pc := (d.thread i t).pc, job := (d.thread i t).job }] })
      if sync then d.updThread i t (fun x => { x with stall := .barSync s }) else d)

/-! ### Waits (R214, R225, R226) -/

def Dev.waitOf (d : Dev) (who : Waiter) : Option Wait := d.waits.find? (fun w => w.who == who)

/-- A satisfied wait is released (R214), whatever has been added since. -/
def Dev.releaseWait (d : Dev) (who : Waiter) : Dev :=
  match d.waitOf who with
  | none => d
  | some w =>
    if !w.met then d
    else match who with
      | .thread i t => (d.endWait who).updThread i t (fun x => { x with stall := d.heldIn i t })
      | .descriptor i => ((d.noteWait i).endWait who).updPlain i (fun x => { x with seq := { x.seq with waiting := false } })
      | _ => d.endWait who

/-- The waiting thread stops, or the waiting descriptor, request or command is abandoned, and its command ends with WATCHDOG (R226). -/
def Dev.abandon (d : Dev) : Waiter → Dev
  | .thread i t => (d.stopThread i t).endOf (d.thread i t).job .watchdog
  | .descriptor i => (d.stopSeq i).endOf (d.plain i).job .watchdog
  | .request i id =>
    let job := ((d.plain i).reqs.find? (fun q => q.id == id)).bind (·.job)
    (d.updPlain i (fun x => { x with reqs := x.reqs.filter (fun q => q.id != id) })).endOf job .watchdog
  | .command r n =>
    match d.cmd r n with
    | some c => (d.dropWork r c).finish r c.index .watchdog
    | none => d

/-- A counter watchdog fires (R226); a wait that is satisfied in the same tick is released instead (R230). -/
def Dev.fireCounter (d : Dev) (who : Waiter) : Dev :=
  match d.waitOf who with
  | none => d
  | some w =>
    if w.met || (d.pwr.aon - w.since).toNat < (d.part w.part).ctrWdog.toNat then d
    else
      let value := match (d.part w.part).counter w.ctr with | some c => c.value | none => 0
      let unit := match who with
        | .thread i _ => i.val | .descriptor i => i.val | .request i _ => i.val | .command _ _ => 0
      let d := match who with | .descriptor i => d.noteWait i | _ => d
      let d := d.endWait who
      let d := d.log Ev.counterWatchdog (ownerByte (some w.part)) unit (w.ctr.setWidth 32) (value.setWidth 32) (w.val.setWidth 32)
      let d := d.updPart w.part (fun x => { x with
        synStat := if bit x.synStat 1 then x.synStat else setBits (x.synStat ||| 2) 16 12 w.ctr.toNat })
      d.abandon who

/-! ### Barriers (R222 to R224, R227) -/

/-- Every member plain has arrived. -/
def Barrier.complete (b : Barrier) : Bool := (List.finRange 64).all (fun i => !b.member i || b.arrived i)

/-- On local completion a group slot sends its module's arrival (R223). -/
def Dev.barLocal (d : Dev) (s : Fin 32) : Dev :=
  let b := Tab.at d.bars s
  if b.state == .active && b.complete && b.groupEn && !b.sent then
    match d.barOwner s with
    | some p => (d.updBar s (fun b => { b with sent := true })).joinGroup p b.group b.axes b.members.toNat (.slot s) false 1
    | none => d
  else d

/-- An arrival counts toward the present generation. -/
def Dev.tally (d : Dev) (s : Fin 32) (a : Arrival) : Dev :=
  let d := d.updBar s (fun b => { b with
    counts := Tab.upd b.counts a.plain (fun n => n + 1)
    state := .active
    first := if b.state == .active then b.first else d.pwr.aon
    stalled := if a.sync then b.stalled ++ [a] else b.stalled })
  if a.sync then d.updThread a.plain a.thread (fun x => { x with stall := .barSync s }) else d

/-- One arrival counts at the hub, or is held with its thread when its plain has arrived already (R222). -/
def Dev.countArrival (d : Dev) (s : Fin 32) (a : Arrival) : Dev :=
  if (Tab.at d.bars s).arrived a.plain then
    let d := d.updBar s (fun b => { b with held := b.held ++ [a] })
    if a.job.isSome then d.updThread a.plain a.thread (fun x => if x.stall == .none then { x with stall := .barHeld s } else x) else d
  else d.tally s a

/-- An arrival reaches the hub. -/
def Dev.hubArrival (d : Dev) (i t : Fin 64) : Dev :=
  match (List.finRange 32).find? (fun s => (Tab.at d.bars s).flying.any (fun a => a.plain == i && a.thread == t)) with
  | none => d
  | some s =>
    let b := Tab.at d.bars s
    match b.flying.find? (fun a => a.plain == i && a.thread == t) with
    | none => d
    | some a =>
      let d := d.updBar s (fun b => { b with flying := b.flying.erase a })
      if b.state == .failed || !b.member i then
        if a.job.isSome then d.faultAt i t a.job 3 a.pc else d
      else (d.countArrival s a).barLocal s

/-- Whether a collective that is admitted or started has still to run an op on an axis. -/
def Cmd.opsOn (c : Cmd) (a : Fin 4) : Bool :=
  (c.stage == .admitted || c.stage == .started) && (match c.work with
    | .collective r w => match r.entry.collective with
      | some x => (x.ops.drop w.op).any (fun o => opKind o != 4 && opAxis o == a)
      | none => false
    | _ => false)

/-- An axis swaps its banks (R299): a collective whose route loses a col by it ends with COL_LOST (R329). -/
def Dev.switchBanks (d : Dev) (a : Fin 4) : Dev :=
  let owner := d.axisPart a
  let used := d.portCols a true ++ d.portCols a false
  let d := d.swapBanks a
  match owner with
  | none => d
  | some p =>
    if d.axisPart a == some p && used.all d.named then d
    else (partRings p).foldl (fun d r => ((d.ring r).cmds.filter (fun c => c.opsOn a)).foldl (fun d c => d.endCmd r c .colLost) d) d

/-- The slot completes (R224, R299): GEN advances, its threads go on, held arrivals count, armed axes swap. -/
def Dev.completeSlot (d : Dev) (s : Fin 32) : Dev :=
  let b := Tab.at d.bars s
  let d := (d.updBar s (fun b => b.idle (b.gen + 1))).dropRun (.slot s)
  let d := b.stalled.foldl (fun d a => d.updThread a.plain a.thread (fun x =>
    if x.stall == .barSync s then { x with stall := d.heldIn a.plain a.thread } else x)) d
  let d := b.held.foldl (fun d a => d.updThread a.plain a.thread (fun x =>
    if x.stall == .barHeld s then { x with stall := d.heldIn a.plain a.thread } else x)) d
  let d := b.held.foldl (fun d a => d.tally s a) d
  let d := d.each ((List.finRange 4).filter (fun a => (d.axis a).arm && (d.axis a).slot == s)) Dev.switchBanks
  d.barLocal s

/-- Whether the slot's release is due: all members arrived and, with GROUP_EN, the group's sum has come back. -/
def Dev.barDue (d : Dev) (s : Fin 32) : Option (Option Nat) :=
  let b := Tab.at d.bars s
  if !(b.state == .active && b.complete) then none
  else if !b.groupEn then some none
  else match d.runOf (.slot s) with
    | some r => r.result.map some
    | none => none

/-- A group's sum that differs from MEMBERS (R305). -/
def Dev.mismatch (d : Dev) (p : Fin 64) (g : BitVec 24) (sum members : Nat) : Dev :=
  d.log Ev.groupMismatch (ownerByte (some p)) 0 (g.setWidth 32) (BitVec.ofNat 32 sum) (BitVec.ofNat 32 members)

/-- Every command and slot that waits in a group ends with WATCHDOG (R305). -/
def Dev.groupWatchdog (d : Dev) (p : Fin 64) (g : BitVec 24) : Dev :=
  let d := (d.barsOf p).foldl (fun d s => if (Tab.at d.bars s).groupEn && (Tab.at d.bars s).group == g && (Tab.at d.bars s).state == .active
    then d.failSlot s .watchdog else d) d
  (d.startedOf p).foldl (fun d x => match x.2.work with
    | .collective r w =>
      let waits := match r.entry.collective with
        | some c => (!w.reached && c.arrGroup == g) || (w.opRunning && (match c.ops[w.op]? with | some o => opGroup o == g | none => false))
        | none => false
      if waits then d.endCmd x.1 x.2 .watchdog else d
    | _ => d) d

def Dev.barComplete (d : Dev) (s : Fin 32) : Dev :=
  match d.barDue s, d.barOwner s with
  | some none, _ => d.completeSlot s
  | some (some sum), some p =>
    let b := Tab.at d.bars s
    if sum = b.members.toNat then d.completeSlot s else (d.mismatch p b.group sum b.members.toNat).groupWatchdog p b.group
  | _, _ => d

def Dev.fireBarrier (d : Dev) (s : Fin 32) : Dev :=
  let b := Tab.at d.bars s
  if b.state != .active || (d.barDue s).isSome || (d.pwr.aon - b.first).toNat < b.wdog.toNat then d
  else
    let missing (k : Nat) : Bool := match finOf 64 k with | some i => b.member i && !b.arrived i | none => false
    let owner := d.barOwner s
    let d := d.log Ev.barrierWatchdog (ownerByte owner) s.val (b.gen.setWidth 32) (BitVec.ofNat 32 (bitmap 32 missing))
      (BitVec.ofNat 32 (bitmap 32 (fun k => missing (k + 32))))
    match owner with
    | some p => if b.groupEn then (d.sendAbort p b.group b.axes .watchdog).abortHere p b.group .watchdog else d.failSlot s .watchdog
    | none => d.failSlot s .watchdog

/-! ### What arrives on a col (R302, R305 to R307, R218, R325) -/

def Dev.dropCount (d : Dev) (p : Fin 64) : Dev := d.updPart p (fun x => { x with drop := satInc x.drop })

/-- A flit for a partition that its col is not bound to (R302). -/
def Dev.unbound (d : Dev) (c : Fin 16) (part : Nat) : Dev :=
  (d.updCol c (fun k => { k with drops := satInc k.drops })).log Ev.colUnbound (ownerByte (d.colPart c)) c.val (BitVec.ofNat 32 part) 0 0

/-- Deliver a payload to the partition a col is bound to: a resetting partition discards it and counts it (R82, R325), and a fenced
module discards it (R326). -/
def Dev.deliver (d : Dev) (c : Fin 16) (part : Fin 64) (f : Dev → Dev) : Dev :=
  if d.colPart c != some part then d.unbound c part.val
  else if (d.part part).state = .resetting then d.dropCount part
  else if d.ccx.sup != .ready then d
  else f d

def Dev.recvAdd (d : Dev) (c : Fin 16) (v : Word) : Dev :=
  match d.colPart c with
  | some p => d.deliver c p (fun d => d.addCounter p (ctrOf v) (signedAmt v))
  | none => d.unbound c 0xFF

/-- A message goes on along its axis as far as it travels (R305). -/
def Dev.passGroup (d : Dev) (m : GroupMsg) : Dev :=
  let b := d.bank m.axis
  if m.hops < b.reach m.plus && b.neighbour m.plus then d.sendPort m.axis m.plus m.part (.group { m with hops := m.hops + 1 }) else d

/-- A reduction message (R305, R306): it is forwarded, and merges into the reduction that waits for it or is held. While the
early-arrival table is full it waits in the col. -/
def Dev.recvGroup (d : Dev) (c : Fin 16) (m : GroupMsg) : Dev :=
  d.deliver c m.part (fun d =>
    if (d.abortedBy m.part m.group).isSome then d
    else match d.groups.find? (fun r => r.takes m) with
      | some r =>
        let (d, r') := (d.passGroup m).advanceRun 5 { r with ahead := r.ahead ++ [m] }
        { d with groups := d.groups.map (fun x => if x == r then r' else x) }
      | none =>
        if 256 ≤ d.early.length then
          d.updCol c (fun k => { k with rxWait := k.rxWait ++
            [{ seq := k.rxSeq, ack := k.txSeq, crcOk := true, bank := decide ((d.axis (axisOf c)).active = 1), part := m.part, body := .group m }] })
        else
          let d := d.passGroup m
          let e := d.early ++ [m]
          { d with early := e, pendFull := d.pendFull || 256 ≤ e.length })

/-- A group abort (R307): forwarded once, and applied here. -/
def Dev.recvAbort (d : Dev) (c : Fin 16) (g : BitVec 24) (cause : AbortCause) : Dev :=
  match d.colPart c with
  | none => d.unbound c 0xFF
  | some p => d.deliver c p (fun d =>
      if (d.abortedBy p g).isSome then d
      else
        let axes := match (d.groupsOf p).find? (fun x => x.1 == g) with | some x => x.2 | none => d.axesOf p
        (d.sendAbort p g axes cause).abortHere p g cause)

/-! ### Meanings -/

def execSynAdd (i t : Fin 64) (val : Word) (s : State) : Host.Outcome State Fault Refusal := .next { s with dev := s.dev.synAdd i t val }
def execSynWait (i t : Fin 64) (val : Word) (s : State) : Host.Outcome State Fault Refusal := .next { s with dev := s.dev.synWait i t val }
def execReadSel (i t : Fin 64) (val : Word) (s : State) : Host.Outcome State Fault Refusal := .next { s with dev := s.dev.readSel i t val }
def execSynRead (i t : Fin 64) (rd : Fin 32) (s : State) : Host.Outcome State Fault Refusal := .next { s with dev := s.dev.synRead i t rd }
def execRemoteCol (i t : Fin 64) (val : Word) (s : State) : Host.Outcome State Fault Refusal := .next { s with dev := s.dev.remoteCol i t val }
def execRemoteAdd (i t : Fin 64) (val : Word) (s : State) : Host.Outcome State Fault Refusal := .next { s with dev := s.dev.remoteAdd i t val }
def execBarArrive (i t : Fin 64) (val : Word) (s : State) : Host.Outcome State Fault Refusal := .next { s with dev := s.dev.barIssue i t val false }
def execBarSync (i t : Fin 64) (val : Word) (s : State) : Host.Outcome State Fault Refusal := .next { s with dev := s.dev.barIssue i t val true }
def execCounterAddApply (p : Fin 64) (ctr : BitVec 12) (s : State) : Host.Outcome State Fault Refusal := .next { s with dev := s.dev.applyAdds p ctr }
def execCounterWaitRelease (who : Waiter) (s : State) : Host.Outcome State Fault Refusal := .next { s with dev := s.dev.releaseWait who }
def execCounterWatchdog (who : Waiter) (s : State) : Host.Outcome State Fault Refusal := .next { s with dev := s.dev.fireCounter who }
def execBarrierWatchdog (b : Fin 32) (s : State) : Host.Outcome State Fault Refusal := .next { s with dev := s.dev.fireBarrier b }
def execRemoteAddReceive (c : Fin 16) (val : Word) (s : State) : Host.Outcome State Fault Refusal := .next { s with dev := s.dev.recvAdd c val }
def execGroupMessageReceive (c : Fin 16) (m : GroupMsg) (s : State) : Host.Outcome State Fault Refusal := .next { s with dev := s.dev.recvGroup c m }
def execGroupAbortReceive (c : Fin 16) (group : BitVec 24) (cause : AbortCause) (s : State) : Host.Outcome State Fault Refusal :=
  .next { s with dev := s.dev.recvAbort c group cause }

end Sys2Proof.Machine
end

