-- ==== Sys2Proof/Machine/Sequencer.lean ====
section
/-! DEFINITION. The sequencer of a plain (R132, R137, R138, R141 to R143): its entries start, step, drain and complete; and
its clock (R125). -/

namespace Sys2Proof.Machine

open Sys2Proof

/-! ### Entries -/

/-- Plain cycles spent running entries (R85, R154). -/
def Dev.spend (d : Dev) (i : Fin 64) (cycles : Nat) : Dev :=
  let mhz := (d.dom (plainDom i)).mhz.toNat
  let d := d.updPlain i (fun x => { x with seq := { x.seq with busy := x.seq.busy + BitVec.ofNat 64 cycles } })
  match d.plainOwner i with
  | some p => d.acct p (fun a => { a.engine .plain (if mhz = 0 then 0 else cycles * 1000 / mhz) with
      runCycles := a.runCycles + BitVec.ofNat 64 cycles })
  | none => d

/-- The next entry of a plain begins, or begins its wait (R132, R142). -/
def Dev.descStart (d : Dev) (i : Fin 64) (idle : DWord) : Dev :=
  let d := d.noteIdle i idle
  let x := d.plain i
  match d.plainOwner i, x.seq.cur, x.seq.list with
  | some p, none, e :: rest =>
    if x.seq.halt || x.job.isNone || !(x.state == .idle || x.state == .busy) then d
    else
      let w := (x.desc e).waitW
      let waits := enOf w && !d.waitMet p (ctrOf w) (valOf w)
      let d := d.updPlain i (fun x => { x with
        state := .busy
        seq := { x.seq with cur := some e, list := rest, step := 0, waiting := waits, waitFrom := d.pwr.aon, poison := false } })
      if waits then d.beginWait p (.descriptor i) (ctrOf w) (valOf w) else d
  | _, _, _ => d

/-- The tile that step `n` ends starts to drain, or is kept (R138). -/
def Dev.endTile (d : Dev) (i : Fin 64) (t : Desc) (n : Nat) : Dev :=
  if !t.ends n then d
  else
    let k := (d.plain i).seq.half.getD 0
    if t.keep && n + 1 == t.steps then d.updHalf i k (fun h => { h with state := .kept }) else d.drain i k

/-! ### The clock of an entry's steps (R145 to R147) -/

/-- When a half has drained, read and replaced. -/
def drainedAt (dr : Nat × Nat) (k : Fin 2) : Nat := if k = 0 then dr.1 else dr.2
def setDrained (dr : Nat × Nat) (k : Fin 2) (v : Nat) : Nat × Nat := if k = 0 then (v, dr.2) else (dr.1, v)

/-- Whether the next entry's first weight load runs under the last step of entry `t` (R147): both do matrix work, and the next one's wait is
satisfied as that step begins. -/
def Dev.loadsNext (d : Dev) (i p : Fin 64) (t : Desc) : Bool :=
  match (d.plain i).seq.list with
  | e :: _ =>
    let u := (d.plain i).desc e
    !t.isSync && !u.isSync && (!enOf u.waitW || d.waitMet p (ctrOf u.waitW) (valOf u.waitW))
  | [] => false

/-- The clock after a step of a MATMUL (R145), the tile's half being `k`: `old` tells a tile that goes on with a kept one. -/
def Seq.matmulClock (q : Seq) (t : Desc) (n : Nat) (k : Fin 2) (old : Bool) : Seq :=
  let stream := rowCycles t.a.fmt t.rows
  let time := q.clock + (if n == 0 then 128 - min 128 q.hide + (if t.transAny then 64 else 0) else 0)
  let time := if t.starts n && !old then max time (drainedAt q.drained k) + (if t.c.accIn then t.rows else 0) else time
  let time := time + (if n == 0 || t.reuses n then stream else max stream 128)
  { q with
    clock := time
    drained := if t.ends n then setDrained q.drained k (time + 160 + (if t.keep && n + 1 == t.steps then 0 else t.rows)) else q.drained
    hide := if n + 1 == t.steps then stream else q.hide }

/-- The clock after a step of a PAIR that took some cycles, its drain among them (R146). -/
def Seq.pairClock (q : Seq) (t : Desc) (n : Nat) (k : Fin 2) (cycles : Nat) : Seq :=
  let time := q.clock + cycles - (if n == 0 then min 128 q.hide else 0)
  { q with
    clock := time
    drained := if t.ends n then setDrained q.drained k time else q.drained
    hide := if n + 1 == t.steps then cycles else q.hide }

/-- The entry's last step has entered the array: it goes on to complete (R132). -/
def Dev.endSteps (d : Dev) (i : Fin 64) (e : Nat) : Dev :=
  d.updPlain i (fun x => { x with seq := { x.seq with
    cur := none, finishing := x.seq.finishing ++ [e], poison := false
    poisonAt := if x.seq.poison then e :: x.seq.poisonAt else x.seq.poisonAt } })

/-- A refused mask record (R205): the entry does not complete, and the command ends with PARTIAL. -/
def Dev.maskFault (d : Dev) (i : Fin 64) (e : Nat) : Dev :=
  let d := d.updPlain i (fun x => { x with
    seq := { x.seq with cur := none }
    acc := Vector.map (fun h => if h.state = .filling then { h with state := .free } else h) x.acc })
  (d.log Ev.maskFault (ownerByte (d.plainOwner i)) i.val (BitVec.ofNat 32 e) 0 0).endOf (d.plain i).job .partialEnd

/-- One step of the running entry. It waits while the half that its tile needs is still draining. -/
def Dev.seqStep (d : Dev) (i : Fin 64) : Dev :=
  let x := d.plain i
  if x.state = .busy && x.coreBad then d.fencePlain i 1
  else match x.seq.cur, d.plainOwner i with
  | some e, some p =>
    let t := x.desc e
    let n := x.seq.step.toNat
    if x.seq.waiting || x.state != .busy || t.steps ≤ n then d
    else
      let bands := if t.isPair then t.n2 else 1
      let next := n + 1 == t.steps && d.loadsNext i p t
      match (if t.starts n then d.startTile i e t n bands else some (d, false)) with
      | none => d
      | some (d, old) =>
        let d := d.updPlain i (fun y =>
          let kept := if t.starts n && !old then (List.finRange 2).filter (fun k => (x.half k).state == .kept) else []
          { y with seq := { y.seq with drained := kept.foldl (fun dr k => setDrained dr k (drainedAt dr k + (x.half k).rows)) y.seq.drained } })
        let k := (d.plain i).seq.half.getD 0
        let r := if t.isPair then (d.pairStep i t n).map (fun y => (y.1, fun (q : Seq) => q.pairClock t n k y.2))
          else some (d.matmulStep i t n, fun (q : Seq) => q.matmulClock t n k old)
        match r with
        | none => d.maskFault i e
        | some (d, f) =>
          let was := (d.plain i).seq.clock
          let d := d.updPlain i (fun x =>
            let q := f x.seq
            { x with seq := { q with step := q.step + 1, hide := if next then q.hide else 0 } })
          let d := (d.spend i ((d.plain i).seq.clock - was)).endTile i t n
          if n + 1 = t.steps then d.endSteps i e else d
  | _, _ => d

/-- A tile that ended before the draining one of a half: its bytes are written first (R138). -/
def Plain.drainsFirst (x : Plain) (k : Fin 2) : Bool :=
  (x.half (other k)).state != .draining || drainedAt x.seq.drained k < drainedAt x.seq.drained (other k) ||
  (drainedAt x.seq.drained k == drainedAt x.seq.drained (other k) && k == 0)

/-- The drain of a half has been written (R91, R138); drains end in the order of their tiles. -/
def Dev.drainDone (d : Dev) (i : Fin 64) (k : Fin 2) : Dev :=
  let x := d.plain i
  if (x.half k).state = .draining && x.drainsFirst k && (x.state = .busy || x.state = .idle) then d.drainEnd i k else d

/-- The SRAM lines that an entry's tiles wrote, and its softmax state (R127). -/
def outputLines (t : Desc) (m : Memory) : List Nat :=
  let bands := if t.isPair then t.n2 else 1
  let f := rowFnAt m t.paramPtr
  ((List.range t.steps).filter (fun n => t.ends n && !(t.keep && n + 1 == t.steps))).flatMap (fun n =>
    let c := t.cAt n
    let (pr, pb) := t.c.place c true
    (List.range t.rows).flatMap (fun r =>
      linesOf (c + (t.c.pitch * r : Nat)).toNat (t.c.bytes (512 * bands)) ++
      (if isMx t.c.fmt then linesOf (t.c.sBase + (pr + r) * t.c.sPitch + pb).toNat (16 * bands) else []))) ++
  (if t.isPair && f.softmax then linesOf f.statePtr 1024 else [])

/-- The entry that may complete next, with its descriptor: entries complete in index order (R132), when their drains have
been written (R142); a SYNC when its wait is satisfied. -/
def Plain.completable (x : Plain) : Option Nat :=
  match x.seq.finishing, x.seq.cur with
  | e :: _, _ =>
    if (x.desc e).keep || !(x.acc.toList.any (fun h => h.entry == e && (h.state == .draining || h.state == .filling))) then some e
    else none
  | [], some e => if (x.desc e).isSync && !x.seq.waiting then some e else none
  | [], none => none

/-- An entry completes: its post applies (R142); a poisoned one marks its outputs, applies no post, and nothing after it
completes (R127). -/
def Dev.descComplete (d : Dev) (i : Fin 64) : Dev :=
  let x := d.plain i
  match x.completable, d.plainOwner i with
  | some e, some p =>
    if x.state != .busy then d
    else
      let t := x.desc e
      let done := (List.finRange 2).foldl (fun m k => if (x.half k).entry == e then max m (drainedAt x.seq.drained k) else m) x.seq.clock
      let d := (d.spend i (done - x.seq.clock)).updPlain i (fun x => { x with seq := { x.seq with clock := done } })
      if x.seq.poisonAt.contains e then
        let d := d.sramMark i (outputLines t x.sram)
        let d := d.updPlain i (fun x => { x with
          rowBuf := if t.isPair then [] else x.rowBuf
          seq := { x.seq with finishing := [], cur := none, list := [] } })
        d.settle i x.job
      else
        let d := d.post p t.postW (some i)
        let d := d.updPlain i (fun x => { x with seq := { x.seq with
          cur := if x.seq.finishing.isEmpty then none else x.seq.cur
          finishing := x.seq.finishing.tail, done := x.seq.done ++ [e], lastDone := BitVec.ofNat 9 e } })
        d.settle i x.job
  | _, _ => d

/-! ### The clock of a plain (R125) -/

/-- Whether a SYN operation of a plain is in flight: an arrival on its way to a hub, or an addition on its way to a home. -/
def Dev.synFlies (d : Dev) (i : Fin 64) : Bool :=
  d.bars.toList.any (fun b => b.flying.any (fun a => a.plain == i)) ||
  d.parts.toList.any (fun x => x.counters.any (fun c => c.adds.any (fun a => a.plain == some i)))

/-- Nothing is pending in a plain (R125, R220): no descriptor, thread, DMA request or SYN operation of it. A command that has not begun on
it has its descriptors pending. -/
def Dev.inactive (d : Dev) (i : Fin 64) : Bool :=
  let x := d.plain i
  (match d.jobRun i with | some w => w.begun | none => true) &&
  x.seq.over && x.reqs.isEmpty && !x.threaded && x.acc.toList.all (fun h => h.state != .draining) && !d.synFlies i

def Dev.clockStop (d : Dev) (i : Fin 64) (idle : DWord) : Dev :=
  let x := d.plain i
  if x.state = .idle && d.inactive i && bit x.ctrl 0 && bits x.ctrl 4 16 ≤ idle.toNat then
    ((d.noteIdle i idle).updPlain i (fun x => { x with state := .stopped })).updDom (plainDom i) (fun _ => { state := .gated, mhz := 0, starting := false })
  else d

def Dev.wakeDone (d : Dev) (i : Fin 64) : Dev :=
  if (d.plain i).state = .waking then
    (d.runDom (plainDom i)).updPlain i (fun x => { x with state := .busy }.rest)
  else d

/-! ### Meanings -/

def execDescriptorStart (i : Fin 64) (idle : DWord) (s : State) : Host.Outcome State Fault Refusal := .next { s with dev := s.dev.descStart i idle }
def execSequencerStep (i : Fin 64) (s : State) : Host.Outcome State Fault Refusal := .next { s with dev := s.dev.seqStep i }
def execTileDrainDone (i : Fin 64) (half : Fin 2) (s : State) : Host.Outcome State Fault Refusal := .next { s with dev := s.dev.drainDone i half }
def execDescriptorComplete (i : Fin 64) (s : State) : Host.Outcome State Fault Refusal := .next { s with dev := s.dev.descComplete i }
def execPlainClockStop (i : Fin 64) (idle : DWord) (s : State) : Host.Outcome State Fault Refusal := .next { s with dev := s.dev.clockStop i idle }
def execPlainWakeDone (i : Fin 64) (s : State) : Host.Outcome State Fault Refusal := .next { s with dev := s.dev.wakeDone i }

end Sys2Proof.Machine
end

