-- ==== Sys2Proof/Machine/Dma.lean ====
section
/-! DEFINITION. The DMA engine of a plain (R181 to R199): the requests of its issue port, their checks, and what COPY, HALO,
EXPAND, KV_APPEND and PAGE_LOAD move. -/

namespace Sys2Proof.Machine

open Sys2Proof

/-! ### Bytes with their marks (R168, R186) -/

/-- Where a request reads or writes: device memory, or a plain's SRAM. -/
inductive Loc where
  | dev
  | sram (i : Fin 64)
deriving DecidableEq, Repr

/-- A byte, and whether its line was poisoned. -/
abbrev MByte := Byte × Bool

def Dev.locRead (d : Dev) (o : MemOwner) (l : Loc) (a n : Nat) : Dev × List MByte :=
  let (d, b, bad) := match l with
    | .dev => d.memRead o a n
    | .sram i => d.sramRead i a n
  (d, (b.zip (List.range n)).map (fun x => (x.1, bad.contains (lineOf (a + x.2)))))

/-- Mark lines of a location. -/
def Dev.locMark (d : Dev) (l : Loc) (lines : List Nat) : Dev :=
  match l with
  | .dev => d.devMark lines
  | .sram i => d.sramMark i lines

/-- Write bytes, and a mark on every line that a poisoned byte reaches. -/
def Dev.locWrite (d : Dev) (o : MemOwner) (l : Loc) (a : Nat) (b : List MByte) : Dev :=
  let d := match l with
    | .dev => d.memWrite o a (b.map (·.1))
    | .sram i => d.sramWrite i a (b.map (·.1))
  let lines := ((b.zip (List.range b.length)).filterMap (fun x => if x.1.2 then some (lineOf (a + x.2)) else none)).eraseDups
  if lines.isEmpty then d else d.locMark l lines

/-- Elements of a format with their marks. -/
def melems (code : Nat) (b : List MByte) : List (Val × Bool) :=
  let marks := b.map (·.2)
  ((vals code (b.map (·.1))).zip (List.range (8 * b.length / elemBits code))).map (fun x =>
    let lo := x.2 * elemBits code / 8
    (x.1, ((marks.drop lo).take (max 1 (elemBits code / 8))).any id))

/-- The bytes of element codes, each with its element's mark. -/
def mpack (code : Nat) (e : List (Nat × Bool)) : List MByte :=
  let b := pack code (e.map (·.1))
  (b.zip (List.range b.length)).map (fun x =>
    let lo := 8 * x.2 / elemBits code
    (x.1, ((e.drop lo).take (max 1 (8 / elemBits code))).any (·.2)))

/-! ### Fields of requests -/

abbrev ReqW := Tab Word 16

def reqKind (w : ReqW) : Nat := bits (wd w 0) 0 8
def reqWait (w : ReqW) : Word := wd w 6
def reqPost (w : ReqW) : Word := wd w 7

/-- A location word of R187. -/
structure LocWord where
  w : DWord
deriving DecidableEq, Repr

def locAt (w : ReqW) (k : Nat) : LocWord := { w := wd64 w k }
def LocWord.addr (l : LocWord) : Nat := l.w.toNat % 2 ^ 44
def LocWord.space (l : LocWord) : Nat := l.w.toNat / 2 ^ 62
def LocWord.plain (l : LocWord) : Fin 64 := ⟨l.w.toNat / 2 ^ 56 % 64, Nat.mod_lt _ (by decide)⟩
/-- The reserved bits are 0, and so is PLAIN where it does not apply (R10, R187). -/
def LocWord.clean (l : LocWord) : Bool := l.w.toNat / 2 ^ 44 % 2 ^ 12 == 0 && (l.space == 2 || l.space == 3 || l.plain.val == 0)
def LocWord.loc (l : LocWord) (i : Fin 64) : Loc :=
  match l.space with
  | 0 => .dev
  | 1 => .sram i
  | _ => .sram l.plain

/-- The check of a location word over the address range that its request touches (R183, R187, R233). -/
def Dev.locOk (d : Dev) (p : Fin 64) (l : LocWord) (n : Nat) : Bool :=
  l.addr % 64 == 0 && l.w.toNat / 2 ^ 44 % 2 ^ 12 == 0 &&
  match l.space with
  | 0 => l.plain.val == 0 && (n == 0 || d.inGrant p l.addr n)
  | 1 => l.plain.val == 0 && l.addr + n ≤ sramBytes
  | 2 => d.plainOwner l.plain == some p && (d.part p).use.contains l.plain && l.addr + n ≤ sramBytes
  | _ => false

/-- The WAIT and POST words of a request (R182, R434). -/
def Dev.syncOk (d : Dev) (p : Fin 64) (w : ReqW) : Bool :=
  bits (reqWait w) 13 3 == 0 && bits (reqPost w) 13 3 == 0 && d.ctrOk p (reqWait w) && d.ctrOk p (reqPost w)

/-! ### COPY (R187, R188) -/

namespace CopyReq
def conv (w : ReqW) : Bool := bit (wd w 0) 8
def fin (w : ReqW) : Nat := bits (wd w 0) 12 4
def fout (w : ReqW) : Nat := bits (wd w 0) 16 4
def rnd (w : ReqW) : Nat := bits (wd w 0) 20 2
def sat (w : ReqW) : Bool := bit (wd w 0) 22
def rows (w : ReqW) : Nat := bits (wd w 1) 0 16
def rowBytes (w : ReqW) : Nat := bits (wd w 2) 0 24
def srcPitch (w : ReqW) : Nat := bits (wd w 3) 0 24
def dstPitch (w : ReqW) : Nat := bits (wd w 4) 0 24
def dstBytes (w : ReqW) : Nat := if conv w then rowBytes w * elemBits (fout w) / elemBits (fin w) else rowBytes w
/-- Whether the conversion is exact: a format to itself, or to one that holds all its values. -/
def widens (w : ReqW) : Bool := fin w == fout w || elemBits (fin w) < elemBits (fout w)
end CopyReq

/-- The rows of a 2-D range lie in the space of a location word. -/
def Dev.rowsOk (d : Dev) (p : Fin 64) (l : LocWord) (rows bytes pitch : Nat) : Bool :=
  if l.space = 0 then
    d.locOk p l bytes && (List.range rows).all (fun r => d.inGrant p (l.addr + r * pitch) bytes)
  else d.locOk p l ((rows - 1) * pitch + bytes)

def Dev.copyOk (d : Dev) (p : Fin 64) (w : ReqW) : Bool :=
  bits (wd w 0) 9 3 == 0 && bits (wd w 0) 23 9 == 0 && (CopyReq.conv w || bits (wd w 0) 12 8 == 0) &&
  CopyReq.fin w ≤ 3 && CopyReq.fout w ≤ 3 && CopyReq.rnd w != 3 && bits (wd w 1) 16 16 == 0 && CopyReq.rows w != 0 &&
  bits (wd w 2) 24 8 == 0 && bits (wd w 3) 24 8 == 0 && bits (wd w 4) 24 8 == 0 &&
  CopyReq.rowBytes w != 0 && CopyReq.rowBytes w % 64 == 0 && CopyReq.srcPitch w % 64 == 0 && CopyReq.dstPitch w % 64 == 0 &&
  CopyReq.dstBytes w % 64 == 0 && wd w 5 == 0 && zeroWords w 12 4 &&
  d.rowsOk p (locAt w 8) (CopyReq.rows w) (CopyReq.rowBytes w) (CopyReq.srcPitch w) &&
  d.rowsOk p (locAt w 10) (CopyReq.rows w) (CopyReq.dstBytes w) (CopyReq.dstPitch w)

/-- Convert elements on plain `i` (R102, R103, R188): an exact conversion sets no flag and draws nothing. -/
def Dev.convElems (d : Dev) (i : Fin 64) (fi fo rnd : Nat) (sat wide : Bool) (b : List MByte) : Dev × List MByte :=
  let e := melems fi b
  if wide then (d, mpack fo (e.map (fun x => (((fmtOf fo).convert .nearest false x.1).1, x.2))))
  else
    let (d, rnds) := d.roundings i 1 rnd e.length
    let r := (e.zip rnds).map (fun x => ((fmtOf fo).convert x.2 sat x.1.1, x.1.2))
    (d.noteConv i (r.foldl (fun a x => a.or x.1.2) ConvFlags.none), mpack fo (r.map (fun x => (x.1.1, x.2))))

def Dev.runCopy (d : Dev) (i : Fin 64) (o : MemOwner) (w : ReqW) : Dev :=
  let src := locAt w 8
  let dst := locAt w 10
  (List.range (CopyReq.rows w)).foldl (fun d r =>
    let (d, b) := d.locRead o (src.loc i) (src.addr + r * CopyReq.srcPitch w) (CopyReq.rowBytes w)
    let (d, b) := if CopyReq.conv w then
        d.convElems i (CopyReq.fin w) (CopyReq.fout w) (CopyReq.rnd w) (CopyReq.sat w) (CopyReq.widens w) b
      else (d, b)
    d.locWrite o (dst.loc i) (dst.addr + r * CopyReq.dstPitch w) b) d

/-! ### HALO (R159 to R163) -/

namespace HaloReq
def mode (w : ReqW) : Nat := bits (wd w 0) 8 2
def column (w : ReqW) : Bool := bit (wd w 0) 10
def depth (w : ReqW) : Nat := bits (wd w 0) 11 2
def dest (w : ReqW) : Fin 64 := ⟨bits (wd w 0) 16 6 % 64, Nat.mod_lt _ (by decide)⟩
def len (w : ReqW) : Nat := bits (wd w 1) 0 16
def pix (w : ReqW) : Nat := 64 * bits (wd w 1) 16 8
def src (w : ReqW) : Nat := bits (wd w 2) 0 25
def dst (w : ReqW) : Nat := bits (wd w 3) 0 25
def srcPitch (w : ReqW) : Nat := bits (wd w 4) 0 21
def dstPitch (w : ReqW) : Nat := bits (wd w 5) 0 21
/-- The rows of the strip, and the bytes of each. -/
def rows (w : ReqW) : Nat := if column w then len w else depth w
def bytes (w : ReqW) : Nat := if column w then depth w * pix w else len w * pix w
/-- The bytes read: a FILL_EDGE reads the edge pixels only, a FILL_ZERO none. -/
def srcRows (w : ReqW) : Nat := if mode w = 3 && !column w then 1 else rows w
def srcBytes (w : ReqW) : Nat := if mode w = 3 && column w then pix w else bytes w
end HaloReq

def Dev.haloOk (d : Dev) (p i : Fin 64) (w : ReqW) : Bool :=
  bits (wd w 0) 13 3 == 0 && bits (wd w 0) 22 10 == 0 && bits (wd w 1) 24 8 == 0 && bits (wd w 2) 25 7 == 0 &&
  bits (wd w 3) 25 7 == 0 && bits (wd w 4) 21 11 == 0 && bits (wd w 5) 21 11 == 0 && zeroWords w 8 8 &&
  HaloReq.depth w != 0 && HaloReq.len w != 0 && HaloReq.pix w != 0 &&
  d.plainOwner (HaloReq.dest w) == some p && (d.part p).use.contains (HaloReq.dest w) &&
  (HaloReq.mode w ≤ 1 || HaloReq.dest w == i) &&
  (HaloReq.mode w == 2 || HaloReq.src w + (HaloReq.srcRows w - 1) * HaloReq.srcPitch w + HaloReq.srcBytes w ≤ sramBytes) &&
  HaloReq.dst w + (HaloReq.rows w - 1) * HaloReq.dstPitch w + HaloReq.bytes w ≤ sramBytes

/-- FP32 sums of a strip row (R160): a marked destination line stays marked. -/
def addRows (a b : List MByte) : List MByte :=
  mpack 0 (((melems 0 a).zip (melems 0 b)).map (fun x =>
    ((Fmt.fp32.round .rne (Val.add .rne x.1.1 x.2.1).1).1, x.1.2 || x.2.2)))

def Dev.runHalo (d : Dev) (i : Fin 64) (o : MemOwner) (w : ReqW) : Dev :=
  let dst := Loc.sram (HaloReq.dest w)
  (List.range (HaloReq.rows w)).foldl (fun d r =>
    let at' := HaloReq.dst w + r * HaloReq.dstPitch w
    let n := HaloReq.bytes w
    match HaloReq.mode w with
    | 2 => d.locWrite o dst at' (List.replicate n (0, false))
    | 3 =>
      let row := if HaloReq.column w then r else 0
      let (d, b) := d.locRead o (.sram i) (HaloReq.src w + row * HaloReq.srcPitch w) (HaloReq.srcBytes w)
      let b := if HaloReq.column w then (List.replicate (HaloReq.depth w) b).flatten else b
      d.locWrite o dst at' b
    | 1 =>
      let (d, b) := d.locRead o (.sram i) (HaloReq.src w + r * HaloReq.srcPitch w) n
      let (d, c) := d.locRead o dst at' n
      d.locWrite o dst at' (addRows c b)
    | _ =>
      let (d, b) := d.locRead o (.sram i) (HaloReq.src w + r * HaloReq.srcPitch w) n
      d.locWrite o dst at' b) d

/-! ### EXPAND (R175) -/

namespace ExpandReq
def fmt (w : ReqW) : Nat := bits (wd w 0) 8 4
def glog (w : ReqW) : Nat := bits (wd w 0) 12 3
def cblk (w : ReqW) : Nat := bits (wd w 0) 16 2 + 1
def taps (w : ReqW) : Nat := bits (wd w 1) 0 6
def src (w : ReqW) : Nat := bits (wd w 2) 0 25
def dst (w : ReqW) : Nat := bits (wd w 3) 0 25
def size (w : ReqW) : Nat := elemBits (fmt w) / 8
end ExpandReq

def Dev.expandOk (_d : Dev) (w : ReqW) : Bool :=
  let g := 2 ^ ExpandReq.glog w
  ExpandReq.fmt w ≤ 3 && ExpandReq.glog w ≤ 6 && !bit (wd w 0) 15 && bits (wd w 0) 18 14 == 0 && bits (wd w 1) 6 26 == 0 &&
  1 ≤ ExpandReq.taps w && ExpandReq.taps w ≤ 49 && bits (wd w 2) 25 7 == 0 && bits (wd w 3) 25 7 == 0 &&
  wd w 4 == 0 && wd w 5 == 0 && ExpandReq.dst w % 64 == 0 &&
  ExpandReq.src w + ExpandReq.taps w * (128 * ExpandReq.cblk w) * g * ExpandReq.size w ≤ sramBytes &&
  ExpandReq.dst w + ExpandReq.taps w * ExpandReq.cblk w * 65536 * ExpandReq.size w ≤ sramBytes

/-- Element (k, n) of the diagonal-mapped block of a tap and an input block. -/
def Dev.runExpand (d : Dev) (i : Fin 64) (o : MemOwner) (w : ReqW) : Dev :=
  let g := 2 ^ ExpandReq.glog w
  let sz := ExpandReq.size w
  let ch := 128 * ExpandReq.cblk w
  (List.range (ExpandReq.taps w * ExpandReq.cblk w)).foldl (fun d blk =>
    let t := blk / ExpandReq.cblk w
    let kb := blk % ExpandReq.cblk w
    (List.range 128).foldl (fun d k =>
      let row := (List.range 512).foldl (fun (acc : Dev × List MByte) n =>
        if n / 128 = kb && n % 128 / g = k / g then
          let (d, b) := acc.1.locRead o (.sram i) (ExpandReq.src w + ((t * ch + n) * g + k % g) * sz) sz
          (d, acc.2 ++ b)
        else (acc.1, acc.2 ++ List.replicate sz (0, false))) (d, [])
      row.1.locWrite o (.sram i) (ExpandReq.dst w + blk * 65536 * sz + k * 512 * sz) row.2) d) d

/-! ### KV streams (R189 to R199) -/

/-- A stream block: sixteen words. -/
structure Stream where
  w : Tab Word 16
deriving DecidableEq, Repr

def Stream.qfmt (s : Stream) : Nat := bits (wd s.w 0) 0 2
def Stream.rnd (s : Stream) : Nat := bits (wd s.w 0) 2 2
def Stream.db (s : Stream) : Nat := bits (wd s.w 0) 4 4
def Stream.dh (s : Stream) : Nat := 128 * s.db
def Stream.pageBytes (s : Stream) : Nat := (wd s.w 1).toNat
def Stream.pool (s : Stream) : Nat := (wd64 s.w 2).toNat
def Stream.dir (s : Stream) : Nat := (wd64 s.w 4).toNat
def Stream.pages (s : Stream) : Nat := (wd s.w 6).toNat
def Stream.dirCount (s : Stream) : Nat := (wd s.w 7).toNat
/-- The element code of the stored elements, and the bytes of an element section and of a page (R191). -/
def Stream.code (s : Stream) : Nat := match s.qfmt with | 0 => 1 | 1 => 2 | _ => 6
def Stream.section (s : Stream) : Nat := match s.qfmt with | 0 => 256 * s.dh | 1 => 128 * s.dh | _ => 64 * s.dh
def Stream.layout (s : Stream) : Nat := match s.qfmt with | 0 => 512 * s.dh | 1 => 256 * s.dh + 64 | _ => 136 * s.dh
def Stream.rowBytes (s : Stream) : Nat := s.section / 128
def Stream.page (s : Stream) (n : Nat) : Nat := s.pool + n * s.pageBytes

def Dev.streamOk (d : Dev) (p : Fin 64) (s : Stream) : Bool :=
  s.qfmt != 3 && s.rnd != 3 && 1 ≤ s.db && s.db ≤ 4 && bits (wd s.w 0) 8 24 == 0 && zeroWords s.w 8 8 &&
  s.pageBytes % 512 == 0 && s.layout ≤ s.pageBytes && s.pool % 512 == 0 && s.dir % 16 == 0 && s.pool < 2 ^ 44 && s.dir < 2 ^ 44 &&
  (s.pages == 0 || d.inDale p s.pool (s.pages * s.pageBytes)) && (s.dirCount == 0 || d.inGrant p s.dir (16 * s.dirCount))

/-- A directory entry: four words. -/
structure DirEntry where
  w : Tab Word 4
deriving DecidableEq, Repr

def DirEntry.list (e : DirEntry) : Nat := (wd e.w 0).toNat + 2 ^ 32 * bits (wd e.w 1) 0 12
def DirEntry.committed (e : DirEntry) : Nat := bits (wd e.w 2) 0 24
def DirEntry.capacity (e : DirEntry) : Nat := bits (wd e.w 3) 0 24
def DirEntry.ok (e : DirEntry) : Bool :=
  bits (wd e.w 1) 12 20 == 0 && bits (wd e.w 2) 24 8 == 0 && bits (wd e.w 3) 24 8 == 0 && e.list % 4 == 0

namespace KvReq
def stream (w : ReqW) : Nat := bits (wd w 1) 0 25
def seq (w : ReqW) : Nat := (wd w 2).toNat
def stage (w : ReqW) : Nat := bits (wd w 3) 0 25
def tokens (w : ReqW) : Nat := bits (wd w 4) 0 16
def srcPitch (w : ReqW) : Nat := bits (wd w 5) 0 21
def srcK (w : ReqW) : Nat := bits (wd w 8) 0 25
def srcV (w : ReqW) : Nat := bits (wd w 9) 0 25
end KvReq

namespace PageReq
def widen (w : ReqW) : Bool := bit (wd w 0) 8
def first (w : ReqW) : Nat := bits (wd w 4) 0 24
def tokens (w : ReqW) : Nat := bits (wd w 5) 0 24
def rows (w : ReqW) : Nat := bits (wd w 8) 0 24
def dstK (w : ReqW) : Nat := bits (wd w 9) 0 25
def dstKs (w : ReqW) : Nat := bits (wd w 10) 0 25
def dstV (w : ReqW) : Nat := bits (wd w 11) 0 25
def vPitch (w : ReqW) : Nat := bits (wd w 12) 0 21
end PageReq

def noStage : Nat := 0x1FFFFFF

/-- The stream block of a request, as SRAM holds it. -/
def Dev.streamAt (d : Dev) (i : Fin 64) (a : Nat) : Stream := { w := readTab (d.plain i).sram a 16 }

/-- A page-list entry that can be read (R199), and one that can be written (R196). -/
def Stream.pageOk (s : Stream) (l : Word) : Bool := bits l 0 31 != 0x7FFFFFFF && bits l 0 31 < s.pages

/-- The header of a staging buffer: SEQ, FILL, and whether it is well formed and empty. -/
structure StageHdr where
  w : Tab Word 16
deriving DecidableEq, Repr

namespace StageHdr
def seq (h : StageHdr) : Nat := (wd h.w 0).toNat
def fill (h : StageHdr) : Nat := bits (wd h.w 1) 0 8
def ok (h : StageHdr) : Bool := h.fill ≤ 127 && bits (wd h.w 1) 8 24 == 0 && zeroWords h.w 2 14
def empty (h : StageHdr) : Bool := zeroWords h.w 0 16
end StageHdr

/-- The stream block and the place of a KV request are legal (R183, R189). -/
def Dev.kvBaseOk (d : Dev) (p i : Fin 64) (w : ReqW) : Bool :=
  let s := d.streamAt i (KvReq.stream w)
  bits (wd w 1) 25 7 == 0 && bits (wd w 3) 25 7 == 0 && KvReq.stream w % 64 == 0 && KvReq.stream w + 64 ≤ sramBytes &&
  d.streamOk p s && KvReq.seq w < s.dirCount

/-- The words of a KV_APPEND, and its stream block (R183, R193). -/
def Dev.kvAppendOk (d : Dev) (p i : Fin 64) (w : ReqW) : Bool :=
  let s := d.streamAt i (KvReq.stream w)
  bits (wd w 0) 8 24 == 0 && bits (wd w 4) 16 16 == 0 && bits (wd w 5) 21 11 == 0 && bits (wd w 8) 25 7 == 0 &&
  bits (wd w 9) 25 7 == 0 && zeroWords w 10 6 && d.kvBaseOk p i w &&
  KvReq.stage w % 64 == 0 && KvReq.stage w + 64 + 512 * s.dh ≤ sramBytes && KvReq.tokens w != 0 &&
  KvReq.srcPitch w % 64 == 0 && 2 * s.dh ≤ KvReq.srcPitch w &&
  KvReq.srcK w + (KvReq.tokens w - 1) * KvReq.srcPitch w + 2 * s.dh ≤ sramBytes &&
  KvReq.srcV w + (KvReq.tokens w - 1) * KvReq.srcPitch w + 2 * s.dh ≤ sramBytes

/-- Whether keys of a PAGE_LOAD arrive in an MX format (R198), their row pitch, and their scale pitch. -/
def keysMx (s : Stream) (w : ReqW) : Bool := s.qfmt != 0 && !PageReq.widen w
def keyPitch (s : Stream) (w : ReqW) : Nat := if keysMx s w then s.rowBytes else 2 * s.dh

/-- The words of a PAGE_LOAD, and its stream block (R183, R197). -/
def Dev.pageLoadOk (d : Dev) (p i : Fin 64) (w : ReqW) : Bool :=
  let s := d.streamAt i (KvReq.stream w)
  bits (wd w 0) 9 23 == 0 && bits (wd w 4) 24 8 == 0 && bits (wd w 5) 24 8 == 0 && bits (wd w 8) 24 8 == 0 &&
  (List.range 3).all (fun k => bits (wd w (9 + k)) 25 7 == 0) && bits (wd w 12) 21 11 == 0 && zeroWords w 13 3 &&
  d.kvBaseOk p i w && (KvReq.stage w == noStage || (KvReq.stage w % 64 == 0 && KvReq.stage w + 64 + 512 * s.dh ≤ sramBytes)) &&
  PageReq.first w % 128 == 0 && PageReq.tokens w != 0 && PageReq.rows w % 128 == 0 && PageReq.tokens w ≤ PageReq.rows w &&
  PageReq.vPitch w % 64 == 0 && 2 * s.dh ≤ PageReq.vPitch w &&
  PageReq.dstK w + PageReq.rows w * keyPitch s w ≤ sramBytes &&
  (if keysMx s w then PageReq.dstKs w + PageReq.rows w * (s.dh / 32) ≤ sramBytes else PageReq.dstKs w == 0) &&
  PageReq.dstV w + PageReq.rows w * PageReq.vPitch w ≤ sramBytes

/-! ### What the check of a KV request reads (R183, R196, R199) -/

def ReqW.kv (w : ReqW) : Bool := reqKind w == 4 || reqKind w == 5

/-- The first page-list entry that a KV request uses, and how many. -/
def kvEntries (w : ReqW) (e : DirEntry) (h : StageHdr) : Nat × Nat :=
  if reqKind w = 4 then (e.committed / 128, (h.fill + KvReq.tokens w) / 128)
  else (PageReq.first w / 128, (min (PageReq.first w + PageReq.tokens w) e.committed + 127) / 128 - PageReq.first w / 128)

/-- The directory entry and the staging header suit the request. -/
def kvFits (w : ReqW) (s : Stream) (e : DirEntry) (h : StageHdr) : Bool :=
  let last := PageReq.first w + PageReq.tokens w
  e.ok &&
  (if reqKind w = 4 then h.ok && (h.empty || h.seq == KvReq.seq w) && e.committed % 128 == 0
   else last ≤ e.committed ||
     (KvReq.stage w != noStage && h.ok && h.seq == KvReq.seq w && last ≤ e.committed + h.fill && !keysMx s w))

/-- A page-list entry suits the request. -/
def kvEntryOk (w : ReqW) (s : Stream) (l : Word) : Bool := s.pageOk l && (reqKind w == 5 || !bit l 31)

def bytesTab (n : Nat) (b : List Byte) : Tab Word n := Vector.ofFn (fun k => bytesWord ((b.drop (4 * k.val)).take 4))

/-- The engine reads the directory entry, the staging header and the page-list entries of a KV request, and keeps them; none when the
request fails its check. Any other request needs nothing. -/
def Dev.kvFetch (d : Dev) (p i : Fin 64) (q : DmaReq) : Dev × Option DmaReq :=
  let w := q.words
  if !ReqW.kv w then (d, some q)
  else
    let s : Stream := { w := q.block }
    let o : MemOwner := .request i q.id
    let (d, db, _) := d.memRead o (s.dir + 16 * KvReq.seq w) 16
    let e : DirEntry := { w := bytesTab 4 db }
    let (d, hb, bad) := if KvReq.stage w = noStage then (d, [], []) else d.sramRead i (KvReq.stage w) 64
    let h : StageHdr := { w := bytesTab 16 hb }
    let (first, n) := kvEntries w e h
    if !kvFits w s e h || !(List.range n).all (fun k => first + k < e.capacity && d.inGrant p (e.list + 4 * (first + k)) 4) then (d, none)
    else
      let (d, lb, _) := if n = 0 then (d, [], []) else d.memRead o (e.list + 4 * first) (4 * n)
      let list := (List.range n).map (fun k => (first + k, bytesWord ((lb.drop (4 * k)).take 4)))
      if list.all (fun x => kvEntryOk w s x.2) then
        (d, some { q with dir := e.w, list := list, head := h.w, headBad := !bad.isEmpty })
      else (d, none)

/-- Whether another plain's append to the same directory entry is in flight: what both write is then undefined (R208). -/
def Dev.rival (d : Dev) (p i : Fin 64) (q : DmaReq) : Bool :=
  let dir (q : DmaReq) : Nat := ({ w := q.block } : Stream).dir + 16 * KvReq.seq q.words
  (d.plainsOf p).any (fun j => j != i && (d.plain j).reqs.any (fun r => reqKind r.words == 4 && r.stage != .issued && dir r == dir q))

/-! ### Appending (R194, R195, R209) -/

/-- One section of a page from 128 staged BF16 rows: its elements and its scale bytes, with their marks. -/
def Dev.quantise (d : Dev) (i : Fin 64) (s : Stream) (rows : List MByte) : Dev × List MByte × List MByte :=
  match s.qfmt with
  | 0 => (d, rows, [])
  | 1 =>
    let e := melems 1 rows
    let any := e.any (·.2)
    let (d, rnds) := d.roundings i 1 s.rnd e.length
    let (sc, els, fl) := mxBlock 4 rnds true (e.map (·.1))
    (d.noteConv i fl, mpack 2 (els.map (fun x => (x, any))), [(sc, any)])
  | _ =>
    let e := melems 1 rows
    let (d, rnds) := d.roundings i 1 s.rnd e.length
    let bl := ((chunked 32 e).zip (chunked 32 rnds)).map (fun x => (mxBlock 6 x.2 true (x.1.map (·.1)), x.1.any (·.2)))
    (d.noteConv i (bl.foldl (fun a x => a.or x.1.2.2) ConvFlags.none),
     mpack 6 (bl.flatMap (fun x => x.1.2.1.map (fun y => (y, x.2)))), bl.map (fun x => (x.1.1, x.2)))

/-- Flush a full staging buffer into the page that list entry `k` names; the directory write is left to the commit. -/
def Dev.flush (d : Dev) (p i : Fin 64) (o : MemOwner) (q : DmaReq) (k : Nat) : Dev :=
  let s : Stream := { w := q.block }
  let stage := KvReq.stage q.words
  let (d, kb) := d.locRead o (.sram i) (stage + 64) (256 * s.dh)
  let (d, vb) := d.locRead o (.sram i) (stage + 64 + 256 * s.dh) (256 * s.dh)
  let (d, ke, ks) := d.quantise i s kb
  let (d, ve, vs) := d.quantise i s vb
  let pad := if s.qfmt = 1 then List.replicate 62 ((0 : Byte), false) else []
  match q.list.find? (fun x => x.1 == k) with
  | none => d
  | some l =>
    let a := s.page (bits l.2 0 31)
    if !d.inDale p a s.layout then d
    else if d.rival p i q then
      let (d, b) := d.freeBytes s.layout
      d.locWrite o .dev a (b.map (fun x => (x, false)))
    else d.locWrite o .dev a (ke ++ ve ++ ks ++ vs ++ pad)

/-- Append the tokens of a KV_APPEND; the commits it leaves are the directory writes, in order. The header's line keeps its poison. -/
def Dev.runAppend (d : Dev) (p i : Fin 64) (o : MemOwner) (q : DmaReq) : Dev × List (Nat × Word) :=
  let w := q.words
  let s : Stream := { w := q.block }
  let e : DirEntry := { w := q.dir }
  let st := KvReq.stage w
  let h : StageHdr := { w := q.head }
  let row := 2 * s.dh
  let r := (List.range (KvReq.tokens w)).foldl (fun (acc : Dev × Nat × List (Nat × Word)) t =>
    let (d, fill, cs) := acc
    let (d, kb) := d.locRead o (.sram i) (KvReq.srcK w + t * KvReq.srcPitch w) row
    let d := d.locWrite o (.sram i) (st + 64 + fill * row) kb
    let (d, vb) := d.locRead o (.sram i) (KvReq.srcV w + t * KvReq.srcPitch w) row
    let d := d.locWrite o (.sram i) (st + 64 + 256 * s.dh + fill * row) vb
    if fill + 1 = 128 then
      let k := e.committed / 128 + cs.length
      (d.flush p i o q k, 0, cs ++ [(s.dir + 16 * KvReq.seq w + 8, BitVec.ofNat 32 (128 * (k + 1) % 2 ^ 24))])
    else (d, fill + 1, cs)) (d, h.fill, [])
  let seq := if h.fill = 0 then KvReq.seq w else h.seq
  let hdr := leBytes 4 seq ++ leBytes 4 r.2.1 ++ List.replicate 56 0
  (r.1.locWrite o (.sram i) st (hdr.map (fun b => (b, q.headBad))), r.2.2)

/-! ### Loading pages (R197, R198) -/

/-- A number with its mark scaled by a power of two given as an E8M0 byte. -/
def scaled (b : MByte) (e : Val × Bool) : Val × Bool :=
  match e8m0 b.1 with
  | some k => (e.1.ldexp k, e.2 || b.2)
  | none => (.nan, e.2 || b.2)

/-- Elements dequantised to BF16, with the flags of R103. -/
def toBf16 (e : List (Val × Bool)) : List MByte × ConvFlags :=
  let r := e.map (fun x => (Fmt.bf16.convert .nearest true x.1, x.2))
  (mpack 1 (r.map (fun x => (x.1.1, x.2))), r.foldl (fun a x => a.or x.1.2) ConvFlags.none)

/-- One row of a page section: its stored elements, and the scale byte of each block of 32. -/
def Dev.pageRow (d : Dev) (o : MemOwner) (s : Stream) (page sect r : Nat) : Dev × List MByte × List MByte :=
  let (d, b) := d.locRead o .dev (page + sect * s.section + r * s.rowBytes) s.rowBytes
  match s.qfmt with
  | 0 => (d, b, [])
  | 1 =>
    let (d, x) := d.locRead o .dev (page + 2 * s.section + sect) 1
    (d, b, (List.replicate (s.dh / 32) x).flatten)
  | _ =>
    let (d, x) := d.locRead o .dev (page + 2 * s.section + sect * 4 * s.dh + r * (s.dh / 32)) (s.dh / 32)
    (d, b, x)

/-- A stored row dequantised. -/
def Stream.dequant (s : Stream) (b sc : List MByte) : List MByte × ConvFlags :=
  if s.qfmt = 0 then (b, ConvFlags.none)
  else
    let e := melems s.code b
    toBf16 ((e.zip (List.range e.length)).map (fun x => scaled (sc.getD (x.2 / 32) (0xFF, false)) x.1))

def Dev.runPageLoad (d : Dev) (i : Fin 64) (o : MemOwner) (q : DmaReq) : Dev :=
  let w := q.words
  let s : Stream := { w := q.block }
  let e : DirEntry := { w := q.dir }
  let kp := keyPitch s w
  let mx := keysMx s w
  let sp := s.dh / 32
  (List.range (PageReq.rows w)).foldl (fun d r =>
    let pos := PageReq.first w + r
    let putV (d : Dev) (v : List MByte) : Dev :=
      d.locWrite o (.sram i) (PageReq.dstV w + r * PageReq.vPitch w)
        (v ++ List.replicate (PageReq.vPitch w - v.length) (0, false))
    let putK (d : Dev) (k : List MByte) : Dev := d.locWrite o (.sram i) (PageReq.dstK w + r * kp) k
    if PageReq.tokens w ≤ r then
      let d := putV (putK d (List.replicate kp (0, false))) []
      if mx then d.locWrite o (.sram i) (PageReq.dstKs w + r * sp) (List.replicate sp (0, false)) else d
    else if pos < e.committed then
      let pg := s.page (match q.list.find? (fun x => x.1 == pos / 128) with | some l => bits l.2 0 31 | none => 0)
      let (d, kb, ks) := d.pageRow o s pg 0 (pos % 128)
      let (d, vb, vs) := d.pageRow o s pg 1 (pos % 128)
      let (kd, kf) := if mx then (kb, ConvFlags.none) else s.dequant kb ks
      let (vd, vf) := s.dequant vb vs
      let d := (putV (putK d kd) vd).noteConv i (kf.or vf)
      if mx then d.locWrite o (.sram i) (PageReq.dstKs w + r * sp) ks else d
    else
      let row := 2 * s.dh
      let st := KvReq.stage w
      let (d, kb) := d.locRead o (.sram i) (st + 64 + (pos - e.committed) * row) row
      let (d, vb) := d.locRead o (.sram i) (st + 64 + 256 * s.dh + (pos - e.committed) * row) row
      putV (putK d kb) vb) d

/-! ### GATHER (R319, R320) -/

namespace GatherReq
def shard (w : ReqW) : Nat := bits (wd w 1) 0 16
def first (w : ReqW) : Nat := (wd w 2).toNat
def count (w : ReqW) : Nat := (wd w 3).toNat
def dst (w : ReqW) : LocWord := locAt w 8
end GatherReq

def Dev.gatherOk (d : Dev) (p : Fin 64) (w : ReqW) : Bool :=
  bits (wd w 0) 8 24 == 0 && bits (wd w 1) 16 16 == 0 && wd w 4 == 0 && wd w 5 == 0 && zeroWords w 10 6 &&
  GatherReq.first w % 32 == 0 && GatherReq.count w % 32 == 0 && d.locOk p (GatherReq.dst w) (2 * GatherReq.count w) &&
  match d.shard p (GatherReq.shard w) with
  | none => false
  | some s =>
    s.tier != 0 && GatherReq.first w + GatherReq.count w ≤ s.params &&
    ((d.part p).isLocal s || s.owner.toNat < d.ranks p)

/-! ### Issue (R181 to R184) -/

/-- The check of a request (R183). -/
def Dev.reqOk (d : Dev) (p i : Fin 64) (w : ReqW) : Bool :=
  d.syncOk p w &&
  match reqKind w with
  | 0x01 => d.copyOk p w
  | 0x04 => d.kvAppendOk p i w
  | 0x05 => d.pageLoadOk p i w
  | 0x08 => d.haloOk p i w
  | 0x09 => d.expandOk w
  | 0x0A => d.gatherOk p w
  | _ => false

def Plain.outstanding (x : Plain) (t : Fin 64) : Nat := (x.reqs.filter (fun q => q.thread == t)).length

/-- Two requests that must run in issue order. -/
def ordered (a b : ReqW) : Bool :=
  ReqW.kv a && ReqW.kv b &&
  ((KvReq.stage a == KvReq.stage b && KvReq.stage a != noStage) ||
   (KvReq.stream a == KvReq.stream b && KvReq.seq a == KvReq.seq b))

/-- The rounding draws that a request will take from stream 1 (R188, R195): those of a narrowing copy, or of the flushes of an append, whose
FILL follows the appends to its buffer that stand before it. -/
def Dev.drawsOf (d : Dev) (i : Fin 64) (w : ReqW) : Nat :=
  match reqKind w with
  | 0x01 => if CopyReq.conv w && !CopyReq.widens w && CopyReq.rnd w == 1
      then CopyReq.rows w * (8 * CopyReq.rowBytes w / elemBits (CopyReq.fin w)) else 0
  | 0x04 =>
    let s := d.streamAt i (KvReq.stream w)
    let h : StageHdr := { w := readTab (d.plain i).sram (KvReq.stage w) 16 }
    let before := (d.plain i).reqs.filter (fun q => q.stage != .moved && reqKind q.words == 4 && KvReq.stage q.words == KvReq.stage w)
    let fill := before.foldl (fun n q => (n + KvReq.tokens q.words) % 128) h.fill
    if s.qfmt != 0 && s.rnd == 1 then (fill + KvReq.tokens w) / 128 * (256 * s.dh) else 0
  | _ => 0

/-- The pc of the store that a thread is at: of one that the engine holds, the store's own (R118, R120). -/
def Thread.storePc (x : Thread) : DWord := match x.stall with | .dmaFull _ pc => pc | _ => x.pc

/-- A request as it issues: its draws are the next ones of stream 1, so that no timing moves them (R210, log entry 50). -/
def Dev.newReq (d : Dev) (i t : Fin 64) (w : ReqW) : DmaReq :=
  { id := (d.plain i).nextReq, thread := t, job := (d.thread i t).job, pc := (d.thread i t).storePc, words := w
    block := if ReqW.kv w then (d.streamAt i (KvReq.stream w)).w else Tab.all 16 0
    dir := Tab.all 4 0, list := [], head := Tab.all 16 0, headBad := false, draw := Tab.at (d.plain i).ctrs 1
    stage := .issued, commits := [], toCome := 0, since := d.pwr.aon }

/-- A checked request joins the engine and begins its wait (R184). -/
def Dev.enqueue (d : Dev) (p i t : Fin 64) (w : ReqW) : Dev :=
  let q := d.newReq i t w
  let n := d.drawsOf i w
  let d := d.updPlain i (fun x => { x with
    reqs := x.reqs ++ [q], nextReq := q.id + 1, ctrs := Tab.upd x.ctrs 1 (fun c => c + BitVec.ofNat 64 n) })
  let v := reqWait w
  if enOf v && !d.waitMet p (ctrOf v) (valOf v) then d.beginWait p (.request i q.id) (ctrOf v) (valOf v) else d

/-- Whether a request may start as it issues: nothing that it must follow is before it, and its wait is satisfied. -/
def Dev.startsNow (d : Dev) (p i : Fin 64) (w : ReqW) : Bool :=
  let v := reqWait w
  (!enOf v || d.waitMet p (ctrOf v) (valOf v)) && !((d.plain i).reqs.any (fun r => ordered r.words w))

/-- The check of R183 at issue. What the request will find in memory is checked now if it may start now, and at its start in any case (log
entry 50). -/
def Dev.issueOk (d : Dev) (p i t : Fin 64) (w : ReqW) : Bool :=
  d.reqOk p i w && (!d.startsNow p i w || (d.kvFetch p i (d.newReq i t w)).2.isSome)

/-- A thread's store issues a request of one kind (R181): a bad one faults, and a seventeenth holds the thread (R118). -/
def Dev.issue (d : Dev) (i t : Fin 64) (w : ReqW) : Dev :=
  d.portOp i t (fun d p =>
    if !d.issueOk p i t w then d.portFault i t
    else if 16 ≤ (d.plain i).outstanding t then d.updThread i t (fun x => { x with stall := .dmaFull w x.pc })
    else d.enqueue p i t w)

/-- The issue of a request whose kind the command names; any other kind faults (R182). -/
def Dev.issueKind (d : Dev) (i t : Fin 64) (k : Nat) (w : ReqW) : Dev :=
  if reqKind w = k then d.issue i t w else d.portOp i t (fun d _ => d.portFault i t)

/-! ### Order and completion (R184, R185, R163) -/

def ReqW.strip (w : ReqW) : Bool := reqKind w == 8 || reqKind w == 9

/-- Whether an issued request may start. -/
def Dev.canStart (d : Dev) (i : Fin 64) (q : DmaReq) : Bool :=
  let x := d.plain i
  let run := x.reqs.filter (fun r => r.stage != .issued)
  q.stage == .issued && !d.waiting (.request i q.id) && run.length < 32 &&
  !(x.reqs.any (fun r => r.id < q.id && ordered r.words q.words)) &&
  (!ReqW.strip q.words || (run.filter (fun r => ReqW.strip r.words)).length < 8)

/-- The plains whose SRAM a request reaches. -/
def reqPlains (i : Fin 64) (w : ReqW) : List (Fin 64) :=
  let of (l : LocWord) : List (Fin 64) := match l.loc i with | .sram j => [j] | .dev => []
  match reqKind w with
  | 0x01 => of (locAt w 8) ++ of (locAt w 10)
  | 0x08 => [i, HaloReq.dest w]
  | 0x0A => of (GatherReq.dst w)
  | _ => [i]

/-- A transfer that reaches a stopped plain wakes it, and waits in the fabric (R125). -/
def Dev.wake (d : Dev) (l : List (Fin 64)) : Dev := d.each l Dev.wakePlain
def Dev.asleep (d : Dev) (l : List (Fin 64)) : Bool :=
  l.any (fun j => (d.plain j).state == .stopped || (d.plain j).state == .waking)

def Dev.updReq (d : Dev) (i : Fin 64) (id : Nat) (f : DmaReq → DmaReq) : Dev :=
  d.updPlain i (fun x => { x with reqs := x.reqs.map (fun q => if q.id == id then f q else q) })
def Dev.req (d : Dev) (i : Fin 64) (id : Nat) : Option DmaReq := (d.plain i).reqs.find? (fun q => q.id == id)
def Dev.dropReq (d : Dev) (i : Fin 64) (id : Nat) : Dev :=
  d.updPlain i (fun x => { x with reqs := x.reqs.filter (fun q => q.id != id) })

/-- The oldest page write of a KV_APPEND has completed: its directory entry takes the new COMMITTED (R194), or an undefined one beside
another appender (R208). -/
def Dev.kvCommit (d : Dev) (i : Fin 64) (id : Nat) : Dev :=
  match d.plainOwner i, d.req i id with
  | some p, some q =>
    match q.commits with
    | c :: rest =>
      if d.holds p (.request i id) then d
      else
        let free := d.rival p i q
        let v := if free then setBits 0 0 24 (Config.freeValue d.free).toNat else c.2
        let d := if free then { d with free := d.free + 1 } else d
        ((d.transfer (.request i id) c.1 4 true).devWrite c.1 (wordBytes v)).updReq i id (fun q => { q with commits := rest })
    | [] => d
  | _, _ => d

/-- A thread that the engine held for a free place goes on (R118): its request is checked and joins. -/
def Dev.admitHeld (d : Dev) (p i t : Fin 64) : Dev :=
  match (d.thread i t).stall with
  | .dmaFull w pc =>
    if 16 ≤ (d.plain i).outstanding t then d
    else if !d.issueOk p i t w then d.threadFault i t 3 pc
    else (d.enqueue p i t w).updThread i t (fun x => { x with stall := d.heldIn i t })
  | _ => d

/-- The last byte of a moved request has been written: its post applies (R184). -/
def Dev.endReq (d : Dev) (p i : Fin 64) (q : DmaReq) : Dev :=
  if !q.commits.isEmpty || q.toCome != 0 || d.holds p (.request i q.id) then d
  else
    let ns := (d.pwr.aon - q.since).toNat * 10000 / 192
    let d := (d.dropReq i q.id).acct p (fun a => a.engine .dma ns)
    let lost := (reqPlains i q.words).any (fun j => (d.plain j).state == .fenced)
    let d := if lost then d else d.post p (reqPost q.words) (some i)
    d.admitHeld p i q.thread

/-! ### Meanings -/

def execDmaCopy (i t : Fin 64) (req : Tab Word 16) (s : State) : Host.Outcome State Fault Refusal := .next { s with dev := s.dev.issueKind i t 0x01 req }
def execKvAppend (i t : Fin 64) (req : Tab Word 16) (s : State) : Host.Outcome State Fault Refusal := .next { s with dev := s.dev.issueKind i t 0x04 req }
def execPageLoad (i t : Fin 64) (req : Tab Word 16) (s : State) : Host.Outcome State Fault Refusal := .next { s with dev := s.dev.issueKind i t 0x05 req }
def execHalo (i t : Fin 64) (req : Tab Word 16) (s : State) : Host.Outcome State Fault Refusal := .next { s with dev := s.dev.issueKind i t 0x08 req }
def execExpand (i t : Fin 64) (req : Tab Word 16) (s : State) : Host.Outcome State Fault Refusal := .next { s with dev := s.dev.issueKind i t 0x09 req }
def execGather (i t : Fin 64) (req : Tab Word 16) (s : State) : Host.Outcome State Fault Refusal := .next { s with dev := s.dev.issueKind i t 0x0A req }
def execKvCommit (i : Fin 64) (id : Nat) (s : State) : Host.Outcome State Fault Refusal := .next { s with dev := s.dev.kvCommit i id }
end Sys2Proof.Machine
end

