-- ==== Sys2Proof/Machine/Tiling.lean ====
section
/-! DEFINITION. The tiling firmware (R148 to R152): the dynamic entries of a tiled entry point, from its template and the
shape of the command; and the start of a command on its plains (R119, R132, R152, R283). -/

namespace Sys2Proof.Machine

open Sys2Proof

/-! ### The template (R148) -/

abbrev Template := Tab Word 16

namespace Template
def kind (t : Template) : Nat := bits (wd t 0) 0 2
def pm (t : Template) : Nat := bits (wd t 0) 8 8
def pn (t : Template) : Nat := bits (wd t 0) 16 8
def panelNb (t : Template) : Nat := bits (wd t 0) 24 8
def mSrc (t : Template) : Nat := bits (wd t 1) 0 4
def nSrc (t : Template) : Nat := bits (wd t 1) 4 4
def kSrc (t : Template) : Nat := bits (wd t 1) 8 4
def fmtA (t : Template) : Nat := bits (wd t 1) 12 4
def fmtB (t : Template) : Nat := bits (wd t 1) 16 4
def fmtC (t : Template) : Nat := bits (wd t 1) 20 4
def transA (t : Template) : Bool := bit (wd t 1) 24
def transB (t : Template) : Bool := bit (wd t 1) 25
/-- RND, SAT and GRAD in the places that word 5 of operand C gives them. -/
def drain (t : Template) : Nat := bits (wd t 1) 26 4
def grad (t : Template) : Bool := bit (wd t 1) 29
def aBuf (t : Template) : Nat := bits (wd t 2) 0 25
def aSize (t : Template) : Nat := bits (wd t 3) 0 25
def bBuf (t : Template) (j : Nat) : Nat := bits (wd t (4 + j % 2)) 0 25
def bSize (t : Template) : Nat := bits (wd t 6) 0 25
def cBuf (t : Template) (j : Nat) : Nat := bits (wd t (7 + j % 2)) 0 25
def cSize (t : Template) : Nat := bits (wd t 9) 0 25
def ctrIn (t : Template) : Nat := bits (wd t 10) 0 12
def ctrOut (t : Template) : Nat := bits (wd t 10) 16 12
def cycPhase (t : Template) : Nat := bits (wd t 11) 0 4
def paramPtr (t : Template) : Nat := bits (wd t 12) 0 25
def k1Sl (t : Template) : Nat := bits (wd t 13) 0 10
def n2Bl (t : Template) : Nat := bits (wd t 13) 16 2

/-- The refused values and reserved fields of R148. -/
def ok (t : Template) : Bool :=
  t.kind ≤ 1 && bits (wd t 0) 2 6 == 0 && 1 ≤ t.pm && t.pm ≤ 64 && 1 ≤ t.pn && t.pn ≤ 64 && (t.kind == 0 || t.pn == 1) &&
  t.mSrc ≤ 8 && t.nSrc ≤ 7 && t.kSrc ≤ 7 && bits (wd t 1) 30 2 == 0 &&
  (List.range 8).all (fun k => bits (wd t (2 + k)) 25 7 == 0) && bits (wd t 10) 12 4 == 0 && bits (wd t 10) 28 4 == 0 &&
  bits (wd t 11) 4 28 == 0 && bits (wd t 12) 25 7 == 0 && bits (wd t 13) 10 6 == 0 && bits (wd t 13) 18 14 == 0 &&
  zeroWords t 14 2 &&
  (if t.kind = 0 then t.paramPtr == 0 && wd t 13 == 0 else 1 ≤ t.k1Sl && (t.n2Bl == 1 || t.n2Bl == 2))
end Template

/-! ### Building an entry (R133 to R135, R149) -/

def up64 (n : Nat) : Nat := (n + 63) / 64 * 64

/-- A stored operand: its base, format, orientation, stored rows, elements per stored row, logical rows of its scale array
and blocks per logical row; its pitch, scale pitch and bytes. -/
structure Stored where
  base   : Nat
  fmt    : Nat
  trans  : Bool
  rows   : Nat
  elems  : Nat
  lrows  : Nat
  blocks : Nat
deriving DecidableEq, Repr

def fbytes (fmt n : Nat) : Nat := (n * elemBits fmt + 7) / 8
def Stored.pitch (s : Stored) : Nat := up64 (fbytes s.fmt s.elems)
def Stored.sPitch (s : Stored) : Nat := if isMx s.fmt then up64 s.blocks else 0
def Stored.data (s : Stored) : Nat := s.rows * s.pitch
def Stored.bytes (s : Stored) : Nat := s.data + s.lrows * s.sPitch

def storedMK (base fmt : Nat) (trans : Bool) (m k : Nat) : Stored :=
  let sh := shapeMK trans m k
  { base := base, fmt := fmt, trans := trans, rows := sh.rows, elems := sh.elems, lrows := sh.lrows, blocks := sh.blocks }
def storedKN (base fmt : Nat) (trans : Bool) (k n : Nat) : Stored :=
  let sh := shapeKN trans k n
  { base := base, fmt := fmt, trans := trans, rows := sh.rows, elems := sh.elems, lrows := sh.lrows, blocks := sh.blocks }
/-- An output: its blocks run along N (R95). -/
def storedC (base fmt m n : Nat) : Stored :=
  { base := base, fmt := fmt, trans := false, rows := m, elems := n, lrows := m, blocks := n / 32 }

/-- The eight words of an operand descriptor (R134). -/
def Stored.words (s : Stored) (drain : Nat) : List Word :=
  [BitVec.ofNat 32 (s.base + 2 ^ 25 * s.fmt + 2 ^ 29 * b2n s.trans), BitVec.ofNat 32 s.pitch,
   BitVec.ofNat 32 (if isMx s.fmt then s.base + s.data else 0), BitVec.ofNat 32 s.sPitch, 0, BitVec.ofNat 32 drain, 0, 0]

/-- The four words of a level record (R135). -/
def levelWords (bound dim sA sB sC : Nat) : List Word :=
  [BitVec.ofNat 32 (bound + 65536 * dim), BitVec.ofNat 32 sA, BitVec.ofNat 32 sB, BitVec.ofNat 32 sC]

/-- An entry from its levels, innermost first: a level whose bound is 1 is dropped, but for one when all are. -/
def entryWords (kind mtile paramPtr k1 n2 wait post : Nat) (a b b2 c : List Word) (levels : List (Nat × List Word)) : Desc :=
  let ls := levels.filter (fun l => l.1 != 1)
  let ls := if ls.isEmpty then levels.take 1 else ls
  let l := [BitVec.ofNat 32 (1 + 2 * kind + 8 * ls.length + 64 * mtile), BitVec.ofNat 32 paramPtr, BitVec.ofNat 32 wait,
    BitVec.ofNat 32 post, BitVec.ofNat 32 (k1 + 65536 * n2), 0, 0, 0] ++ a ++ b ++ b2 ++ c ++ ls.flatMap (·.2)
  Vector.ofFn (fun k => l.getD k.val 0)

def syncWord (ctr val : Nat) : Nat := ctr + 4096 + 65536 * val

/-! ### Deriving the entries of a plain (R149, R150) -/

/-- What the firmware makes of a command: its entries by plain and the plain cycles of R151, or a refusal; one for fit with the
plains that would receive entries. -/
inductive Tiled where
  | ok (entries : List (Fin 64 × Nat × Desc)) (cycles : Nat)
  | format
  | short (l : List Shortfall) (dyn : List (Fin 64))
deriving DecidableEq, Repr

/-- The plains that receive dynamic entries. -/
def Tiled.plains : Tiled → List (Fin 64)
  | .ok l _ => l.map (·.1)
  | .format => []
  | .short _ dyn => dyn

/-- Part `k` of `total` items cut into `parts` runs: the first ones take one more (R149 step 3). -/
def shareOf (total parts k : Nat) : Nat := total / parts + (if k < total % parts then 1 else 0)

/-- M of a length table (R149 step 1). -/
def lengthM (l : List Nat) : Nat := l.foldl (fun s n => s + (n + 127) / 128 * 128) 0

/-- The entries of one plain of a MATMUL group: `rows` rows, `blocks` column blocks. -/
def Template.matmul (t : Template) (rows blocks k : Nat) : List Desc × Nat × Nat × Nat :=
  let mt := if rows % 256 = 0 then 2 else 1
  let panel := if t.panelNb = 0 then blocks else t.panelNb
  let a := storedMK t.aBuf t.fmtA t.transA rows k
  let n := (blocks + panel - 1) / panel
  let bOf (j : Nat) : Stored := storedKN (t.bBuf j) t.fmtB t.transB k (512 * min panel (blocks - j * panel))
  let cOf (j : Nat) : Stored := storedC (t.cBuf j) t.fmtC rows (512 * min panel (blocks - j * panel))
  let one (j : Nat) : Desc :=
    let b := bOf j
    let c := cOf j
    entryWords 0 mt 0 0 0 (syncWord t.ctrIn (j + 1)) (syncWord t.ctrOut 1) (a.words 0) (b.words 0) (List.replicate 8 0)
      (c.words t.drain)
      [(k / 128, levelWords (k / 128) 3 (if t.transA then 128 * a.pitch else fbytes t.fmtA 128)
          (if t.transB then fbytes t.fmtB 128 else 128 * b.pitch) 0),
       (min panel (blocks - j * panel), levelWords (min panel (blocks - j * panel)) 2 0
          (if t.transB then 512 * b.pitch else fbytes t.fmtB 512) (fbytes t.fmtC 512)),
       (rows / (128 * mt), levelWords (rows / (128 * mt)) 1 (if t.transA then fbytes t.fmtA (128 * mt) else 128 * mt * a.pitch) 0
          (128 * mt * c.pitch))]
  ((List.range n).map one, a.bytes, (List.range n).foldl (fun m j => max m (bOf j).bytes) 0,
   (List.range n).foldl (fun m j => max m (cOf j).bytes) 0)

/-- The entry of one plain of a PAIR group. -/
def Template.pair (t : Template) (rows : Nat) (f : RowFn) : List Desc × Nat × Nat × Nat :=
  let k1 := 128 * t.k1Sl
  let n2 := 512 * t.n2Bl
  let a := storedMK t.aBuf t.fmtA t.transA rows k1
  let w1 := storedKN (t.bBuf 0) t.fmtB t.transB k1 f.width
  let w2 := storedKN (t.bBuf 1) t.fmtB false f.k2 n2
  let c := storedC (t.cBuf 0) t.fmtC rows n2
  ([entryWords 1 1 t.paramPtr t.k1Sl t.n2Bl (syncWord t.ctrIn 1) (syncWord t.ctrOut 1) (a.words 0) (w1.words 0) (w2.words 0)
      (c.words t.drain)
      [(rows / 128, levelWords (rows / 128) 1 (if t.transA then fbytes t.fmtA 128 else 128 * a.pitch) 0 (128 * c.pitch))]],
   a.bytes, max w1.bytes w2.bytes, c.bytes)

/-- A buffer of a plain that is too small, as a shortfall (R150). -/
def shortOf (res : Nat) (i : Fin 64) (need grant : Nat) : List Shortfall :=
  if need ≤ grant then [] else [{ res := BitVec.ofNat 8 res, scope := BitVec.ofNat 8 i.val, need := need, grant := grant }]

/-- The entries of one plain, checked (R144, R150): their format first (R70). -/
def Dev.tilePlain (d : Dev) (p : Fin 64) (t : Template) (dynFirst : Nat) (i : Fin 64) (n m nn k : Nat) : Tiled :=
  let rows := 128 * shareOf ((m + 127) / 128) t.pm (n / t.pn)
  let blocks := shareOf (nn / 512) t.pn (n % t.pn)
  if t.pm ≤ n / t.pn || rows = 0 || blocks = 0 then .ok [] 0
  else
    let sram := (d.plain i).sram
    let (es, a, b, c) := if t.kind = 0 then t.matmul rows blocks k else t.pair rows (rowFnAt sram t.paramPtr)
    let short := shortOf 0x07 i es.length (256 - dynFirst) ++ shortOf 0x01 i a t.aSize ++ shortOf 0x01 i b t.bSize ++
      shortOf 0x01 i c t.cSize
    if !es.all (fun e => d.descOk p sram e) then .format
    else if !short.isEmpty then .short short [i]
    else .ok ((es.zip (List.range es.length)).map (fun x => (i, x.2, x.1))) (es.foldl (fun s e => s + e.cycles sram) 0)

/-- The outcomes of two plains together: a bad format first, then every shortfall. -/
def Tiled.and (x y : Tiled) : Tiled :=
  match x, y with
  | .format, _ => .format
  | _, .format => .format
  | .short a i, .short b j => .short (a ++ b) (i ++ j)
  | .short a i, y => .short a (i ++ y.plains)
  | x, .short b j => .short b (x.plains ++ j)
  | .ok a m, .ok b n => .ok (a ++ b) (max m n)

/-- One tiling group of an entry point at a shape. -/
def Dev.tileGroup (d : Dev) (p : Fin 64) (dynFirst : Nat) (shape : Nat → Nat) (lens : Option (List Nat)) (g : TilingGroup) : Tiled :=
  let t : Template := g.template
  let m := if t.mSrc = 8 then lengthM (lens.getD []) else shape t.mSrc
  let n := shape t.nSrc
  let k := shape t.kSrc
  if k % 128 != 0 || n % 512 != 0 || 4096 < (lens.getD []).length then .format
  else if m = 0 then .ok [] 0
  else (g.plains.zip (List.range g.plains.length)).foldl (fun acc x => acc.and (d.tilePlain p t dynFirst x.1 x.2 m n k)) (.ok [] 0)

/-- The dynamic entries of an entry point (R149, R150). -/
def Dev.tile (d : Dev) (p : Fin 64) (im : Image) (e : EntryPoint) (shape : Nat → Nat) (lens : Option (List Nat)) : Tiled :=
  e.tiling.foldl (fun acc g => acc.and (d.tileGroup p im.dynFirst shape lens g)) (.ok [] 0)

/-! ### A command starts on its plains (R119, R132, R152, R283) -/

/-- A thread at START (R119, R121): its registers hold what they held; TSRCTL is 0. -/
def Thread.launch (x : Thread) (job : RingId × BitVec 16) (pc : DWord) : Thread :=
  { x with live := true, job := some job, pc := pc, tsrctl := 0, stall := .none, vfield := 0 }

/-- The entries of a plain with its dynamic entries loaded from DYN_FIRST (R152). -/
def Plain.loadDyn (x : Plain) (es : List (Nat × Desc)) : Plain :=
  es.foldl (fun x e => { x with
    table := (List.range 64).foldl (fun m k => Sparse.set 0 m (64 * (x.dynFirst.toNat + e.1) + k) (wd e.2 k)) x.table })
    { x with dynCount := BitVec.ofNat 9 es.length }

/-- The entries that a plain runs: its static range, then the dynamic ones (R132). -/
def EntryPoint.list (e : EntryPoint) (i : Fin 64) (dynFirst dyn : Nat) : List Nat :=
  (e.ranges.filter (fun r => r.plain == i)).flatMap (fun r => (List.range (r.last + 1 - r.first)).map (fun k => r.first + k)) ++
  (List.range dyn).map (fun k => dynFirst + k)

/-- One plain begins its share of a command: a stopped one wakes first (R125). -/
def Plain.launch (x : Plain) (i : Fin 64) (job : RingId × BitVec 16) (e : EntryPoint) (es : List (Nat × Desc)) : Plain :=
  let x := x.loadDyn es
  let l := e.list i x.dynFirst.toNat es.length
  let seq := Seq.reset
  { x with
    job := some job
    state := if x.state = .stopped then .waking else if x.state = .idle then .busy else x.state
    seq := { seq with
      list := l
      first := match l.head? with | some a => BitVec.ofNat 9 a | none => 0x1FF
      last := match l.getLast? with | some a => BitVec.ofNat 9 a | none => 0x1FF
      busy := x.seq.busy }
    acc := Tab.all 2 AccHalf.reset
    rowBuf := []
    icache := x.sram
    rrScalar := 63
    rrVector := 63
    nf := if e.stepStart then x.nf &&& 0x17 else x.nf
    threads := (e.threads.filter (fun t => t.plain == i)).foldl (fun (ts : Tab Thread 64) t =>
      match finOf 64 t.thread with
      | some k => Tab.upd ts k (fun y => y.launch job t.addr)
      | none => ts) x.threads }

/-- The commands whose threads a plain still runs. -/
def Plain.jobs (x : Plain) : List (RingId × BitVec 16) := (x.threads.toList.filterMap (fun t => if t.live then t.job else none)).eraseDups

/-- A command starts on its plains with its staged entries. A thread of an earlier command whose number it starts anew is no more, and
that command may be over with it (log entry 49). -/
def Dev.launch (d : Dev) (r : RingId) (i : BitVec 16) (e : EntryPoint) (plains : List (Fin 64)) (es : List (Fin 64 × Nat × Desc)) : Dev :=
  let old := (plains.flatMap (fun j => (d.plain j).jobs)).eraseDups
  let d := plains.foldl (fun d j => d.updPlain j (fun x =>
    x.launch j (r, i) e ((es.filter (fun y => y.1 == j)).map (fun y => (y.2.1, y.2.2))))) d
  old.foldl (fun d j => d.tryFinish j.1 j.2) d

end Sys2Proof.Machine
end

