-- ==== Sys2Proof/Machine/Glens.lean ====
section
/-! DEFINITION. Shards, glens and the optimiser (R255 to R283, R287): the arithmetic of the rules, a glen's chunk, the
phases of a step, and the UPDATE command. -/

namespace Sys2Proof.Machine

open Sys2Proof

/-! ### Arithmetic (R271 to R275) -/

/-- FP32 values in bytes, and BF16 values widened exactly. -/
def words32 (b : List Byte) : List Word := (unpack32 b).map (BitVec.ofNat 32)
def widen16 (n : Nat) : Word := toF32 (Fmt.bf16.decode n)
def halves (b : List Byte) : List Word := (unpack16 b).map widen16

/-- b^t in FP64 by repeated squaring. -/
def powAux : Nat → DWord → DWord → Nat → DWord
  | 0, r, _, _ => r
  | k + 1, r, b, t => if t = 0 then r else powAux k (if t % 2 = 1 then dmul r b else r) (dmul b b) (t / 2)

/-- 1 − b^t, the power rounded once to FP32. -/
def biasFactor (b t : Word) : Word :=
  fsub 0x3F800000 (toF32 (f64 (powAux 32 (toF64 (Val.ofNat 1)) (toF64 (f32 b)) t.toNat)))

def one32 : Word := 0x3F800000
def signOf (x : Word) : Word :=
  if isNanW x then 0x7FC00000 else if (f32 x).isZero then 0 else if (f32 x).isNeg then 0xBF800000 else one32

/-- p × a + (1 − p) × b. -/
def blend (p a b : Word) : Word := fadd (fmul p a) (fmul (fsub one32 p) b)

/-- MOMENTS: the new first and second moment of a parameter. -/
def Shard.moments (s : Shard) (g m v : Word) : Word × Word :=
  match s.rule with
  | 1 => (blend (s.p 1) m g, blend (s.p 2) v (fmul g g))
  | 2 => (blend (s.p 1) m g, v)
  | 3 => (blend (s.p 1) m g, v)
  | _ => (fadd (fmul (s.p 1) m) g, v)

/-- WEIGHTS: the new master weight, with η, the bias factors, and the direction O of the matrix rules. -/
def Shard.weights (s : Shard) (eta c1 c2 w m v o : Word) : Word :=
  let adam (m v : Word) : Word := fdiv (fdiv m c1) (fadd (fsqrt (fdiv v c2)) (s.p 3))
  let step := match s.rule with
    | 0 => fadd m (fmul (s.p 4) w)
    | 1 => fadd (adam m v) (fmul (s.p 4) w)
    | 2 => fadd (adam m v) (fmul (s.p 4) w)
    | 3 => fadd (signOf m) (fmul (s.p 4) w)
    | _ => fadd (fmul (s.p 11) o) (fmul (s.p 4) w)
  fsub w (fmul eta step)

/-- A sum in ascending order. -/
def sumUp (l : List Word) : Word := match l with | [] => 0 | a :: r => r.foldl fadd a
def meanOf (l : List Word) : Word := fdiv (sumUp l) (f32OfNat l.length)

/-- The BF16 value of a master weight (R262). -/
def Shard.copyOf (s : Shard) (seed : DWord) (idx : Nat) (w : Word) : Nat :=
  let rnd : Rnd := if s.wwSr then .stochastic (srDraw seed 70 (dword (BitVec.ofNat 32 idx) s.target)) else .nearest
  (Fmt.bf16.convert rnd false (f32 w)).1

/-! ### Slices and chunks (R259, R260) -/

/-- The position of a channel among a shard's channels. -/
def Shard.sliceOf (s : Shard) (c : Fin 24) : Nat := (s.channels.takeWhile (fun x => x != c)).length

/-- The chunks that a phase runs on a channel: FACTORED counts its factors as one more in MOMENTS (R273). -/
def Shard.limit (s : Shard) (c : Fin 24) : Nat :=
  s.chunks (s.sliceOf c) + (if s.phase = 1 && s.rule = 2 then 1 else 0)

/-- The first parameter of chunk `k` on channel `c`. -/
def Shard.firstOf (s : Shard) (c : Fin 24) (k : Nat) : Nat := s.sliceOf c * s.slice + 8192 * k

/-- Every chunk of the shard, as (channel, chunk), in parameter order. -/
def Shard.allChunks (s : Shard) : List (Fin 24 × Nat) :=
  s.channels.flatMap (fun c => (List.range (s.chunks (s.sliceOf c))).map (fun k => (c, k)))

/-- What a glen's reads bring: the words, and the poisoned lines met. -/
structure ChunkRead where
  dev   : Dev
  lines : List Nat
deriving DecidableEq, Repr

def Dev.glenRead (d : ChunkRead) (c : Fin 24) (a n : Nat) : ChunkRead × List Byte :=
  let (d', b, bad) := d.dev.memRead (.glen c) a n
  ({ dev := d', lines := d.lines ++ bad }, b)

/-- The factors of a FACTORED shard as WEIGHTS uses them. The glen keeps them from one read: R267 charges (ROWS + COLS) × 8 B to a step, which the
read and the write of MOMENTS are, so this read is not charged (log entry 9). -/
def glenFactors (d : ChunkRead) (s : Shard) : ChunkRead × List Byte :=
  let (d', b, bad) := d.dev.devRead s.statAddr (4 * (s.rows + s.cols))
  ({ dev := d', lines := d.lines ++ bad }, b)

/-- A chunk's writes issued as one unit: the results, or marks over them when the chunk read a mark (R269, R287). -/
def Dev.glenWrite (d : Dev) (c : Fin 24) (bad : Bool) (ws : List (Nat × List Byte)) : Dev :=
  ws.foldl (fun d x =>
    if bad then (d.transfer (.glen c) x.1 x.2.length true).devMark (linesOf x.1 x.2.length) true
    else d.memWrite (.glen c) x.1 x.2) d

/-- Set STATE_NF when state written is not finite (R271). -/
def Dev.noteState (d : Dev) (p : Fin 64) (w : List Word) : Dev :=
  if w.any isNonFinite then d.updPart p (fun x => { x with glnStat := x.glnStat ||| 2 }) else d

/-- What one chunk writes: places with their bytes, and the FP32 state among them. -/
structure ChunkOut where
  rd     : ChunkRead
  writes : List (Nat × List Byte)
  state  : List Word
deriving DecidableEq, Repr

/-- The gradients of a chunk, GSCALE applied; those of padding are 0 (R259, R271). -/
def gradsOf (s : Shard) (gscale : Word) (first : Nat) (b : List Byte) : List Word :=
  ((halves b).zip (List.range 8192)).map (fun x => if first + x.2 < s.params then fmul gscale x.1 else 0)

/-- Whether a chunk holds the second moment (R259). -/
def Shard.usesV (s : Shard) : Bool := s.rule == 1

def outMoments (d : ChunkRead) (s : Shard) (gscale : Word) (c : Fin 24) (k : Nat) : ChunkOut :=
  let a := s.chunkAt c k
  let (d, gb) := Dev.glenRead d c (s.gradAt c s.pendHead + 16384 * k) 16384
  let (d, mb) := Dev.glenRead d c (a + 0x8000) 32768
  let (d, vb) := if s.usesV then Dev.glenRead d c (a + 0x10000) 32768 else (d, [])
  let g := gradsOf s gscale (s.firstOf c k) gb
  let r := ((g.zip (words32 mb)).zip (List.range 8192)).map (fun x => s.moments x.1.1 x.1.2 ((words32 vb).getD x.2 0))
  let m := r.map (·.1)
  let v := if s.usesV then r.map (·.2) else []
  { rd := d, state := m ++ v
    writes := (a + 0x8000, m.flatMap wordBytes) :: (if s.usesV then [(a + 0x10000, v.flatMap wordBytes)] else []) }

/-- FACTORED's last unit of MOMENTS: the new row and column factors (R273). -/
def outFactors (d : ChunkRead) (s : Shard) (gscale : Word) (c : Fin 24) : ChunkOut :=
  let (d, gb) := Dev.glenRead d c (s.gradAt c s.pendHead) (2 * s.params)
  let (d, fb) := Dev.glenRead d c s.statAddr (4 * (s.rows + s.cols))
  let sq := (halves gb).map (fun x => let g := fmul gscale x; fadd (fmul g g) (s.p 6))
  let f := words32 fb
  let at' (i j : Nat) : Word := sq.getD (i * s.cols + j) 0
  let r := (List.range s.rows).map (fun i => blend (s.p 2) (f.getD i 0) (meanOf ((List.range s.cols).map (fun j => at' i j))))
  let q := (List.range s.cols).map (fun j => blend (s.p 2) (f.getD (s.rows + j) 0) (meanOf ((List.range s.rows).map (fun i => at' i j))))
  { rd := d, state := r ++ q, writes := [(s.statAddr, (r ++ q).flatMap wordBytes)] }

/-- The working copy of a chunk's parameters below PARAMS (R262). -/
def copyWrites (s : Shard) (seed : DWord) (first : Nat) (w : List Word) : List (Nat × List Byte) :=
  let l := (w.zip (List.range w.length)).filter (fun x => first + x.2 < s.params)
  if s.tier = 1 && !l.isEmpty then
    [(s.daleAddr + 2 * first, l.flatMap (fun x => leBytes 2 (s.copyOf seed (first + x.2) x.1)))]
  else []

/-- The second moments that WEIGHTS uses: stored ones, or the products of FACTORED's factors, whose padding the spec does
not state (log entry 5). -/
def factored (s : Shard) (f : List Word) (free : Nat) (first n : Nat) : Word :=
  let idx := first + n
  if idx < s.params then
    fdiv (fmul (f.getD (idx / s.cols) 0) (f.getD (s.rows + idx % s.cols) 0)) (meanOf (f.take s.rows))
  else lo32 (Config.freeValue (free + n))

def outWeights (d : ChunkRead) (s : Shard) (lrMult : Word) (seed : DWord) (c : Fin 24) (k : Nat) : ChunkOut :=
  let a := s.chunkAt c k
  let first := s.firstOf c k
  let (d, mb) := if s.matrix then (d, []) else Dev.glenRead d c (a + 0x8000) 32768
  let (d, vb) := if s.usesV then Dev.glenRead d c (a + 0x10000) 32768 else (d, [])
  let (d, fb) := if s.rule = 2 then glenFactors d s else (d, [])
  let (d, ob) := if s.matrix then Dev.glenRead d c (s.gradAt c 0 + 16384 * k) 16384 else (d, [])
  let (d, wb) := Dev.glenRead d c a 32768
  let free := d.dev.free
  let d := if s.rule = 2 then { d with dev := { d.dev with free := free + 8192 } } else d
  let eta := fmul (s.p 0) lrMult
  let c1 := biasFactor (s.p 1) s.applied
  let c2 := biasFactor (s.p 2) s.applied
  let w := ((words32 wb).zip (List.range 8192)).map (fun x =>
    s.weights eta c1 c2 x.1 ((words32 mb).getD x.2 0)
      (if s.rule = 2 then factored s (words32 fb) free first x.2 else (words32 vb).getD x.2 0) ((halves ob).getD x.2 0))
  { rd := d, state := w, writes := (a, w.flatMap wordBytes) :: copyWrites s seed first w }

def outAverage (d : ChunkRead) (s : Shard) (c : Fin 24) (k : Nat) : ChunkOut :=
  let a := s.chunkAt c k
  let (d, wb) := Dev.glenRead d c a 32768
  let (d, ab) := Dev.glenRead d c (a + 0x18000) 32768
  let r := ((words32 ab).zip (words32 wb)).map (fun x => blend (s.p 5) x.1 x.2)
  { rd := d, state := r, writes := [(a + 0x18000, r.flatMap wordBytes)] }

/-- A REFRESH rewrites a chunk's working copy from its masters (R266). -/
def outRefresh (d : ChunkRead) (s : Shard) (seed : DWord) (c : Fin 24) (k : Nat) : ChunkOut :=
  let (d, wb) := Dev.glenRead d c (s.chunkAt c k) 32768
  { rd := d, state := [], writes := copyWrites s seed (s.firstOf c k) (words32 wb) }

/-! ### UPDATE payload (R263) and the shards it names -/

namespace Upd
def step (c : Cmd) : Word := wd c.words 8
def first (c : Cmd) : Nat := bits (wd c.words 9) 0 16
def count (c : Cmd) : Nat := bits (wd c.words 10) 0 17
def refresh (c : Cmd) : Bool := bit (wd c.words 10) 17
def gscale (c : Cmd) : Word := wd c.words 11
def lrMult (c : Cmd) : Word := wd c.words 12
def wait (c : Cmd) : Word := wd c.words 13
def post (c : Cmd) : Word := wd c.words 14
end Upd

/-- The local shards among `count` shards from `first`, ascending. -/
def Dev.namedLocal (d : Dev) (p : Fin 64) (first count : Nat) : List Nat :=
  ((List.range count).map (fun k => first + k)).filter (fun k =>
    match d.shard p k with | some s => (d.part p).isLocal s | none => false)

/-- The UPDATE of a partition that works on a shard. -/
def Dev.updateOn (d : Dev) (p : Fin 64) (k : Nat) : Option (RingId × Cmd × UpdateWork) :=
  (d.startedOf p).findSome? (fun x => match x.2.work with
    | .update w => if w.head == some k then some (x.1, x.2, w) else none
    | _ => none)

def Dev.setUpdate (d : Dev) (r : RingId) (c : Cmd) (f : UpdateWork → UpdateWork) : Dev :=
  d.updCmd r c.index (fun c => match c.work with
    | .update w => { c with work := .update (f w) }
    | _ => c)

/-! ### Chunks (R269, R285) -/

/-- Whether a glen has a chunk of a shard left on a channel under an UPDATE. -/
def chunkLeft (w : UpdateWork) (s : Shard) (c : Fin 24) : Bool :=
  match w.stage with
  | .refresh => w.left.any (fun x => x.1 == c)
  | _ => (s.phase == 1 || s.phase == 3 || s.phase == 4) && s.channels.contains c && s.cursor c < s.limit c

/-- Whether a snapshot still has to read chunk `k` on channel `c` of data that the phase overwrites (R285). -/
def Dev.snapHolds (d : Dev) (p : Fin 64) (k : Nat) (s : Shard) (c : Fin 24) (chunk : Nat) : Bool :=
  s.snapPending && (d.startedOf p).any (fun x => match x.2.work with
    | .snapshot w =>
      let what := bits (wd x.2.words 10) 0 1
      ((what = 1 && s.phase = 3) || (what = 0 && s.phase = 4)) &&
      w.todo.contains k && (w.todo.head? != some k || w.chunk ≤ (s.allChunks.takeWhile (fun y => y != (c, chunk))).length)
    | _ => false)

/-- The shard that glen `c` serves next: the one it is on, or the first that waits for it. -/
def Dev.glenPick (d : Dev) (c : Fin 24) : Option (Fin 64 × RingId × Cmd × UpdateWork × Nat × Shard) :=
  let of (p : Fin 64) : List (Fin 64 × RingId × Cmd × UpdateWork × Nat × Shard) :=
    (d.startedOf p).filterMap (fun x => match x.2.work with
      | .update w => w.head.bind (fun k => (d.shard p k).bind (fun s =>
          if chunkLeft w s c then some (p, x.1, x.2, w, k, s) else none))
      | _ => none)
  let mine := match (Tab.at d.glens c).part with
    | some p => (of p).head?
    | none => none
  if mine.isSome then mine else ((List.finRange 64).flatMap of).head?

def Dev.updGlen (d : Dev) (c : Fin 24) (f : Glen → Glen) : Dev := { d with glens := Tab.upd d.glens c f }

/-- What a glen shows (R291). -/
def Dev.showGlen (d : Dev) (c : Fin 24) : Dev :=
  match d.glenPick c with
  | some x => d.updGlen c (fun g => { g with state := .busy, part := some x.1, shard := BitVec.ofNat 16 x.2.2.2.2.1 })
  | none => d.updGlen c (fun g => if g.state = .stopping then g else { g with state := .idle, part := none, shard := 0 })

/-- The last write of a glen's chunk completes (R269): the chunk's outputs stand, and the cursor advances. -/
def Dev.chunkDone (d : Dev) (c : Fin 24) : Dev :=
  match d.glenPick c with
  | none => d
  | some (p, r, cmd, w, k, s) =>
    let refresh := w.stage == .refresh
    let n := if refresh then match w.left.find? (fun x => x.1 == c) with | some x => x.2 | none => 0 else s.cursor c
    if d.ccx.sup != .ready || d.isTripped || d.holds p (.glen c) || (!refresh && d.snapHolds p k s c n) then d
    else
      let rd : ChunkRead := { dev := d, lines := [] }
      let seed := (d.part p).seed
      let out :=
        if refresh then outRefresh rd s seed c n
        else match s.phase with
          | 1 => if s.rule = 2 && s.chunks 0 ≤ n then outFactors rd s (Upd.gscale cmd) c else outMoments rd s (Upd.gscale cmd) c n
          | 3 => outWeights rd s (Upd.lrMult cmd) seed c n
          | _ => outAverage rd s c n
      let bad := !out.rd.lines.isEmpty
      let d := out.rd.dev
      let d := match out.rd.lines with | l :: _ => d.biteDev (some p) 1 c.val l | [] => d
      let d := d.glenWrite c bad out.writes
      let d := if bad then d else d.noteState p out.state
      let d := d.setUpdate r cmd (fun w => { w with
        poison := w.poison || bad, left := if refresh then w.left.erase (c, n) else w.left })
      let d := if refresh then d else d.setShard p k (fun s => s.setCursor c.val (n + 1))
      let d := d.updGlen c (fun g => { g with cyc := g.cyc + 128 })
      (d.acct p (fun a => a.engine .glen (128000 / 1070))).showGlen c

/-! ### Phases (R268, R270, R278, R279) -/

/-- The shape of the direction entry point for a shard (R267, R275). -/
def Shard.shape (s : Shard) (k stage : Nat) : Tab Nat 8 :=
  Vector.ofFn (fun j => match j.val with | 0 => s.rows | 1 => s.cols | 2 => stage | 3 => k | _ => 0)

/-- The plains run the direction entry point at a stage (R275). -/
def Dev.runDirection (d : Dev) (p : Fin 64) (r : RingId) (c : Cmd) (k stage : Nat) (s : Shard) : Dev :=
  match (d.part p).image with
  | none => d
  | some im =>
    match im.entries.find? (fun e => e.num.toNat == bits (wd c.words 1) 16 16) with
    | none => d
    | some e =>
      let shape := s.shape k stage
      let w : RunWork := { entry := e, shape := shape, stop := none, begun := true, done := [] }
      let d := d.setUpdate r c (fun u => { u with dir := some w })
      let es := match d.tile p im e (fun j => if h : j < 8 then Tab.at shape ⟨j, h⟩ else 0) none with
        | .ok l _ => l
        | _ => []
      d.launch r c.index e e.plains es

/-- A phase begins: its glens take its chunks, and a phase of a matrix rule that runs on the plains starts them. -/
def Dev.enterPhase (d : Dev) (p : Fin 64) (r : RingId) (c : Cmd) (k : Nat) : Dev :=
  match d.shard p k with
  | none => d
  | some s =>
    let d := if s.phase = 1 && s.rule = 9 then d.runDirection p r c k 0 s
      else if s.phase = 2 then d.runDirection p r c k 1 s
      else d.setUpdate r c (fun u => { u with dir := none })
    d.each s.channels Dev.showGlen

/-- The UPDATE ends (R265, R266, R282): NF is cleared, the post applies. -/
def Dev.updFinish (d : Dev) (p : Fin 64) (r : RingId) (c : Cmd) : Dev :=
  match d.cmd r c.index with
  | some c =>
    match c.work with
    | .update w =>
      let n := (Upd.step c).toNat % 2
      let d := if Upd.refresh c then d else d.updPart p (fun x => { x with nf := x.nf &&& ~~~ BitVec.ofNat 2 (2 ^ n) })
      let d := d.post p (Upd.post c)
      let st : Status := if w.poison then .poisonConsumed else if w.skipped then .okSkippedNonfinite else .ok
      d.finish r c.index st 0 (BitVec.ofNat 32 (w.changed.length % 2 ^ 17))
    | _ => d
  | none => d

/-- No gradient is due (R279): fewer than DELAY + 1 have arrived. -/
def Shard.noGradient (s : Shard) : Bool := s.pendCount + 1 ≤ s.delay

def Shard.setPend (s : Shard) (head count : Nat) : Shard :=
  setWd s 9 (setBits (setBits (wd s 9) 0 3 head) 3 3 count)

/-- The FIFO of R278: the landing slot is pushed, and the oldest popped when more than DELAY wait. -/
def Shard.push (s : Shard) : Shard :=
  let s' := s.setLanded false
  if s.delay < s.pendCount + 1 then s'.setPend ((s.pendHead + 1) % (s.delay + 1)) s.pendCount
  else s'.setPend s.pendHead (s.pendCount + 1)

def Shard.steps (s : Shard) (n : Word) : Shard := setWd (setWd s 2 n) 3 n

/-- The next shard of an UPDATE begins its step; those with no gradient due take one entry write (R268 item 1, R279). -/
def Dev.updNext (d : Dev) (p : Fin 64) (r : RingId) (c : Cmd) : List Nat → Dev
  | [] => (d.setUpdate r c (fun w => { w with todo := [] })).updFinish p r c
  | k :: rest =>
    match d.shard p k with
    | none => d.updNext p r c rest
    | some s =>
      if s.noGradient then (d.setShard p k (fun s => s.push.steps (Upd.step c))).updNext p r c rest
      else
        let d := d.setShard p k (fun s => setWd (s.setPhase 1).clearCursors 13 (Upd.step c))
        (d.setUpdate r c (fun w => { w with stage := .apply, todo := k :: rest })).enterPhase p r c k

/-- The skip write of R282. -/
def Shard.skip (s : Shard) (n : Word) : Shard := ((s.steps n).flag 17 true).setLanded false

/-- NF is read once, and the step is skipped or applied (R265 items 3 and 4, R282). -/
def Dev.updApply (d : Dev) (p : Fin 64) (r : RingId) (c : Cmd) : Dev :=
  let n := Upd.step c
  let todo := (d.namedLocal p (Upd.first c) (Upd.count c)).filter (fun k =>
    match d.shard p k with | some s => s.weightsStep < n | none => false)
  if (d.part p).nf.toNat / 2 ^ (n.toNat % 2) % 2 = 1 then
    let d := d.each todo (fun d k => d.setShard p k (fun s => s.skip n))
    (d.setUpdate r c (fun w => { w with stage := .apply, repairs := [], todo := [], skipped := true })).updFinish p r c
  else (d.setUpdate r c (fun w => { w with repairs := [] })).updNext p r c todo

/-- The next interrupted shard is repaired from its cursors (R270). -/
def Dev.updRepair (d : Dev) (p : Fin 64) (r : RingId) (c : Cmd) (l : List Nat) : Dev :=
  match l with
  | [] => d.updApply p r c
  | k :: _ => (d.setUpdate r c (fun w => { w with stage := .repair, repairs := l })).enterPhase p r c k

/-- The next shard of a REFRESH (R266). -/
def Dev.updRefresh (d : Dev) (p : Fin 64) (r : RingId) (c : Cmd) (l : List Nat) : Dev :=
  match l with
  | [] => (d.setUpdate r c (fun w => { w with todo := [] })).updFinish p r c
  | k :: _ => match d.shard p k with
    | some s => (d.setUpdate r c (fun w => { w with stage := .refresh, todo := l, left := s.allChunks })).each s.channels Dev.showGlen
    | none => d

/-- UPDATE begins (R265 items 1 and 2, R266). -/
def Dev.updBegin (d : Dev) (p : Fin 64) (r : RingId) (c : Cmd) : Dev :=
  let named := d.namedLocal p (Upd.first c) (Upd.count c)
  let flags (f : Shard → Bool) : List Nat := named.filter (fun k => match d.shard p k with | some s => f s | none => false)
  match flags Shard.lost with
  | k :: _ => d.finish r c.index .shardLost 0 (BitVec.ofNat 32 (2 ^ 31 + k))
  | [] =>
    if Upd.refresh c then d.updRefresh p r c (flags (fun s => s.tier == 1 && s.phase == 0))
    else d.updRepair p r c (flags (fun s => s.phase != 0))

/-- Whether an UPDATE names a shard. -/
def Upd.names (c : Cmd) (k : Nat) : Bool := Upd.first c ≤ k && k < Upd.first c + Upd.count c

/-- The oldest UPDATE of a ring that has started and not begun. Nothing orders it with another UPDATE of its shards (R20). -/
def Dev.update (d : Dev) (p : Fin 64) (q : Fin 4) : Dev :=
  let r : RingId := { fn := .vf p, q := q }
  if d.ccx.sup != .ready || d.isTripped then d
  else match (d.ring r).cmds.find? (fun c => c.stage == .started && (match c.work with | .update w => w.stage == .begin | _ => false)) with
  | none => d
  | some c => d.updBegin p r c

/-- Whether the present phase of a shard is done: its chunks written, and its plains quiet. -/
def Dev.phaseDone (d : Dev) (r : RingId) (c : Cmd) (w : UpdateWork) (s : Shard) : Bool :=
  s.channels.all (fun k => !chunkLeft w s k) && (w.dir.isNone || d.allQuiet r c)

/-- One shard of an UPDATE is finished; the next begins. -/
def Dev.shardDone (d : Dev) (p : Fin 64) (r : RingId) (c : Cmd) (w : UpdateWork) : Dev :=
  let changed := match w.head with | some k => if w.changed.contains k then w.changed else k :: w.changed | none => w.changed
  let d := d.setUpdate r c (fun w => { w with changed := changed, dir := none })
  match w.stage with
  | .repair => (d.updPart p (fun x => { x with repair := satInc x.repair })).updRepair p r c w.repairs.tail
  | .refresh => d.updRefresh p r c w.todo.tail
  | _ => d.updNext p r c w.todo.tail

/-- The control complex writes a shard's next phase (R268 items 3, 4, 6 and 8). -/
def Dev.phaseAdvance (d : Dev) (p : Fin 64) (k : Nat) : Dev :=
  match d.updateOn p k, d.shard p k with
  | some (r, c, w), some s =>
    if d.ccx.sup != .ready || d.isTripped || !d.phaseDone r c w s || s.channels.any (fun k => d.holds p (.glen k)) then d
    else if w.stage = .refresh then d.shardDone p r c w
    else match s.phase with
      | 1 =>
        let d := d.setShard p k (fun s =>
          let s : Shard := setWd (setWd s.push 2 s.target) 4 (s.applied + 1)
          s.clearCursors.setPhase (if s.matrix then 2 else 3))
        d.enterPhase p r c k
      | 2 => (d.setShard p k (fun s => s.setPhase 3)).enterPhase p r c k
      | 3 =>
        let d := d.setShard p k (fun s =>
          let s : Shard := Shard.clearCursors (setWd s 3 s.target)
          if s.avgEn then s.setPhase 4 else (s.setPhase 0).flag 17 false)
        if s.avgEn then d.enterPhase p r c k else d.shardDone p r c w
      | 4 => (d.setShard p k (fun s => (s.clearCursors.setPhase 0).flag 17 false)).shardDone p r c w
      | _ => d.shardDone p r c w
  | _, _ => d

/-! ### Meanings -/

def execUpdate (p : Fin 64) (q : Fin 4) (s : State) : Host.Outcome State Fault Refusal := .next { s with dev := s.dev.update p q }
def execGlenChunkDone (c : Fin 24) (s : State) : Host.Outcome State Fault Refusal := .next { s with dev := s.dev.chunkDone c }
def execShardPhaseAdvance (p : Fin 64) (shard : BitVec 16) (s : State) : Host.Outcome State Fault Refusal :=
  .next { s with dev := s.dev.phaseAdvance p shard.toNat }

end Sys2Proof.Machine
end

