-- ==== Sys2Proof/Machine/DmaStart.lean ====
section
/-! DEFINITION. A DMA request starts (R162, R184 to R186): what its kind moves; and gathers over the cols (R261, R319, R320):
the request, its hops, the owner's answer and the data placed. -/

namespace Sys2Proof.Machine

open Sys2Proof

/-! ### Weights as a gather reads them (R261) -/

/-- Where the master weight of parameter `idx` lies (R259). -/
def Shard.paramAt (s : Shard) (idx : Nat) : Nat :=
  match s.channels[idx / s.slice]? with
  | some c => s.chunkAt c (idx % s.slice / 8192) + 4 * (idx % s.slice % 8192)
  | none => 0

/-- Master weights that lie in one chunk, as BF16: one contiguous read. -/
def Dev.gatherRun (d : Dev) (p : Fin 64) (o : MemOwner) (s : Shard) (idx n : Nat) : Dev × List MByte :=
  let (d, b) := d.locRead o .dev (s.paramAt idx) (4 * n)
  let marks := b.map (·.2)
  let w := words32 (b.map (·.1))
  (d, mpack 1 ((w.zip (List.range w.length)).map (fun x =>
    (s.copyOf (d.part p).seed (idx + x.2) x.1, ((marks.drop (4 * x.2)).take 4).any id))))

/-- A run of parameters cut at the chunks that hold them, as (first, count). -/
def chunkRuns : Nat → Nat → Nat → List (Nat × Nat)
  | 0, _, _ => []
  | k + 1, first, n =>
    if n = 0 then [] else
      let m := min n (8192 - first % 8192)
      (first, m) :: chunkRuns k (first + m) (n - m)

/-- The BF16 bytes of `count` parameters of a local shard: the working copy, or its masters converted. -/
def Dev.gatherRead (d : Dev) (p : Fin 64) (o : MemOwner) (s : Shard) (first count : Nat) : Dev × List MByte :=
  if s.tier = 1 then d.locRead o .dev (s.daleAddr + 2 * first) (2 * count)
  else (chunkRuns (count / 8192 + 2) first count).foldl (fun (acc : Dev × List MByte) x =>
    let (d, b) := acc.1.gatherRun p o s x.1 x.2
    (d, acc.2 ++ b)) (d, [])

/-! ### Gathers on the cols (R320) -/

/-- One payload on the cols of a port, striped by its number `k`. -/
def Dev.sendStripe (d : Dev) (a : Fin 4) (plus : Bool) (p : Fin 64) (k : Nat) (body : Payload) : Dev :=
  let l := d.sendCols a plus
  match l[k % l.length]? with
  | some c => d.sendOn c p body
  | none => d

/-- The next hop of a gather's data: the request's path taken back, the last axis first. -/
def Dev.routeBack (d : Dev) (p : Fin 64) (rank : Nat) : Option (Fin 4 × Bool) :=
  match (List.finRange 4).reverse.find? (fun a => d.rankPos p rank a != (d.coord p a).2) with
  | none => none
  | some a =>
    let (len, pos) := d.coord p a
    let there := d.rankPos p rank a
    if (d.bank a).modeOf = 1 then some (a, len < 2 * ((pos + len - there) % len)) else some (a, pos < there)

/-- The parameters that one flit carries. -/
def gatherPiece : Nat := 121

/-- Send a gather, or a piece of its data, one hop on. -/
def Dev.sendGather (d : Dev) (m : GatherMsg) : Dev :=
  let hop := match m.data with
    | none => d.routeTo m.part m.dst.toNat
    | some _ => d.routeBack m.part m.src.toNat
  match hop with
  | some (a, plus) => d.sendStripe a plus m.part (m.offset / gatherPiece) (.gather m)
  | none => d

/-- An intermediate module forwards a gather. -/
def Dev.gatherForward (d : Dev) (c : Fin 16) (m : GatherMsg) : Dev := d.deliver c m.part (fun d => d.sendGather m)

/-- The pieces of a gather's data. -/
def gatherPieces (m : GatherMsg) (b : List MByte) : List GatherMsg :=
  let e := (unpack16 (b.map (·.1))).map (BitVec.ofNat 16)
  let bad := (List.range e.length).filter (fun k => ((b.drop (2 * k)).take 2).any (·.2))
  (List.range ((e.length + gatherPiece - 1) / gatherPiece)).map (fun k =>
    let lo := gatherPiece * k
    { m with
      offset := lo
      data := some ((e.drop lo).take gatherPiece)
      marked := (bad.filter (fun x => lo ≤ x && x < lo + gatherPiece)).map (fun x => x - lo) })

/-- The owner answers a gather that arrives on a col. -/
def Dev.gatherServe (d : Dev) (c : Fin 16) (m : GatherMsg) : Dev :=
  d.deliver c m.part (fun d =>
    match d.shard m.part m.shard.toNat with
    | none => d
    | some s =>
      if m.data.isSome || (d.routeTo m.part m.dst.toNat).isSome || !(d.part m.part).isLocal s then d
      else
        let (d, b) := d.gatherRead m.part .host s m.first m.count
        d.each (gatherPieces m b) Dev.sendGather)

/-- Data of a gather arrives at the plain that asked, and is placed by its offset. -/
def Dev.gatherData (d : Dev) (m : GatherMsg) : Dev :=
  if d.ccx.sup != .ready then d
  else if (d.part m.part).state = .resetting then d.dropCount m.part
  else match d.req m.plain m.req, m.data with
    | some q, some e =>
      if d.plainOwner m.plain != some m.part || reqKind q.words != 0x0A || q.stage != .moved || q.toCome < e.length then d
      else
        let dst := GatherReq.dst q.words
        let ps := reqPlains m.plain q.words
        let b := mpack 1 ((e.zip (List.range e.length)).map (fun x => (x.1.toNat, m.marked.contains x.2)))
        let d := d.wake ps
        let d := if ps.any (fun j => (d.plain j).state == .fenced) then d
          else d.locWrite (.request m.plain m.req) (dst.loc m.plain) (dst.addr + 2 * m.offset) b
        d.updReq m.plain m.req (fun q => { q with toCome := q.toCome - e.length })
    | _, _ => d

/-! ### The start of a request (R162, R184) -/

/-- GATHER: this module's own memory for a local shard, a request on the cols for another's. -/
def Dev.runGather (d : Dev) (p i : Fin 64) (id : Nat) (w : ReqW) : Dev :=
  match d.shard p (GatherReq.shard w) with
  | none => d
  | some s =>
    if (d.part p).isLocal s then
      let (d, b) := d.gatherRead p (.request i id) s (GatherReq.first w) (GatherReq.count w)
      let dst := GatherReq.dst w
      d.locWrite (.request i id) (dst.loc i) dst.addr b
    else
      let m : GatherMsg :=
        { part := p, src := (d.part p).rank, dst := s.owner, plain := i, req := id, shard := BitVec.ofNat 16 (GatherReq.shard w)
          first := GatherReq.first w, count := GatherReq.count w, offset := 0, data := none, marked := [] }
      (d.updReq i id (fun q => { q with toCome := GatherReq.count w })).sendGather m

/-- What a request moves. -/
def Dev.runReq (d : Dev) (p i : Fin 64) (q : DmaReq) : Dev :=
  let o : MemOwner := .request i q.id
  match reqKind q.words with
  | 0x01 => d.runCopy i o q.words
  | 0x04 =>
    let (d, cs) := d.runAppend p i o q
    d.updReq i q.id (fun q => { q with commits := cs })
  | 0x05 => d.runPageLoad i o q
  | 0x08 => d.runHalo i o q.words
  | 0x09 => d.runExpand i o q.words
  | _ => d.runGather p i q.id q.words

/-- A request's reads are back: it moves its bytes, under the draws that it took at issue, and its writes are on their way. -/
def Dev.moveReq (d : Dev) (p i : Fin 64) (q : DmaReq) : Dev :=
  let next := Tab.at (d.plain i).ctrs 1
  let setCtr (d : Dev) (c : DWord) : Dev := d.updPlain i (fun x => { x with ctrs := Tab.upd x.ctrs 1 (fun _ => c) })
  setCtr ((setCtr (d.updReq i q.id (fun q => { q with stage := .moved })) q.draw).runReq p i q) next

/-- A request's destination or source cannot be reached now: a fenced plain discards it without its post (R162), a stopped one wakes
first (R125). -/
def Dev.unreached (d : Dev) (p i : Fin 64) (q : DmaReq) : Option Dev :=
  let ps := reqPlains i q.words
  if ps.any (fun j => (d.plain j).state == .fenced) then some ((d.dropReq i q.id).admitHeld p i q.thread)
  else if d.asleep ps then some (d.wake ps)
  else none

/-- An issued request starts: what it names in memory is read and checked, its reads are issued, and where there are none it moves. -/
def Dev.startReq (d : Dev) (i : Fin 64) (id : Nat) : Dev :=
  match d.plainOwner i, d.req i id with
  | some p, some q =>
    if d.ccx.sup != .ready || (d.part p).state = .resetting || !d.canStart i q then d
    else match d.unreached p i q with
      | some d => d
      | none =>
        match d.kvFetch p i q with
        | (d, none) => (d.dropReq i id).faultAt i q.thread q.job 3 q.pc
        | (d, some q) =>
          let q := { q with stage := .started, since := d.pwr.aon }
          let d := d.updReq i id (fun _ => q)
          let d := d.chargeReads (d.runReq p i q)
          if d.holds p (.request i id) then d else d.moveReq p i q
  | _, _ => d

/-- A request whose reads are back moves; one whose writes have completed ends (R81, R184). -/
def Dev.reqDone (d : Dev) (i : Fin 64) (id : Nat) : Dev :=
  match d.plainOwner i, d.req i id with
  | some p, some q =>
    match q.stage with
    | .issued => d
    | .moved => d.endReq p i q
    | .started =>
      if d.holds p (.request i id) then d
      else match d.unreached p i q with
        | some d => d
        | none =>
          let d := d.moveReq p i q
          match d.req i id with
          | some q => d.endReq p i q
          | none => d
  | _, _ => d

/-! ### Meanings -/

def execDmaRequestStart (i : Fin 64) (id : Nat) (s : State) : Host.Outcome State Fault Refusal := .next { s with dev := s.dev.startReq i id }
def execDmaRequestDone (i : Fin 64) (id : Nat) (s : State) : Host.Outcome State Fault Refusal := .next { s with dev := s.dev.reqDone i id }
def execGatherForward (c : Fin 16) (m : GatherMsg) (s : State) : Host.Outcome State Fault Refusal := .next { s with dev := s.dev.gatherForward c m }
def execGatherServe (c : Fin 16) (m : GatherMsg) (s : State) : Host.Outcome State Fault Refusal := .next { s with dev := s.dev.gatherServe c m }
def execGatherDataReceive (m : GatherMsg) (s : State) : Host.Outcome State Fault Refusal := .next { s with dev := s.dev.gatherData m }

end Sys2Proof.Machine
end

