-- ==== Sys2Proof/Machine/Collective.lean ====
section
/-! DEFINITION. Collective commands (R308 to R318): the arrival exchange, the ops, the fixed order of their sums, the messages
between neighbours, landings in shards and the statistics. -/

namespace Sys2Proof.Machine

open Sys2Proof

/-! ### Headers and op descriptors (R308, R309) -/

namespace Coll
abbrev Op := Tab Word 16
def waitW (c : CollectiveDef) : Word := wd c.header 2
def stepSrc (c : CollectiveDef) : Nat := bits (wd c.header 3) 0 4
def nfEn (o : Op) : Bool := bit (wd o 0) 6
def statsEn (o : Op) : Bool := bit (wd o 0) 7
def fmtIn (o : Op) : Nat := bits (wd o 0) 8 4
def fmtOut (o : Op) : Nat := bits (wd o 0) 12 4
def wire16 (o : Op) : Bool := bit (wd o 0) 16
def dstShard (o : Op) : Bool := bit (wd o 0) 17
def rnd (o : Op) : Nat := bits (wd o 0) 18 2
def countSrc (o : Op) : Nat := bits (wd o 1) 0 4
def nfAxes (o : Op) : Nat := bits (wd o 1) 8 4
def nfMembers (o : Op) : Nat := bits (wd o 3) 0 24
def src (o : Op) : LocWord := locAt o 4
def dst (o : Op) : LocWord := locAt o 6
def firstShard (o : Op) : Nat := bits (wd o 6) 0 16
def stats (o : Op) : LocWord := locAt o 8
def layerTbl (o : Op) : Nat := bits (wd o 10) 0 16
def post (o : Op) : Word := wd o 15
end Coll

/-- A parameter of a command's shape, by number. -/
def RunWork.param (r : RunWork) (k : Nat) : Nat := r.shape.toList.getD k 0

/-- What an op works with: its command, its descriptor, its step, COUNT, and the length, position and mode of its axis. -/
structure OpRun where
  part : Fin 64
  ring : RingId
  idx  : BitVec 16
  num  : Nat
  op   : Coll.Op
  step : Nat
  n    : Nat
  len  : Nat
  pos  : Nat
  isRing : Bool
deriving DecidableEq, Repr

namespace OpRun
def kind (x : OpRun) : Nat := opKind x.op
def axis (x : OpRun) : Fin 4 := opAxis x.op
/-- Elements of a chunk, and the chunk of an element. -/
def chunk (x : OpRun) : Nat := x.n / x.len
def owner (x : OpRun) (e : Nat) : Nat := if x.chunk = 0 then 0 else e / x.chunk
/-- Whether an element lies in the half of its chunk that travels plus-ward. -/
def plusHalf (x : OpRun) (e : Nat) : Bool := 2 * (e % x.chunk) < x.chunk
def mineFrom (x : OpRun) : Nat := x.pos * x.chunk
/-- The elements of a chunk. -/
def elems (x : OpRun) (k : Nat) : List Nat := (List.range x.chunk).map (fun j => k * x.chunk + j)
def draw (x : OpRun) (seed : DWord) (stream e : Nat) : Rnd :=
  match Coll.rnd x.op with
  | 1 => .stochastic (srDraw seed stream (dword (BitVec.ofNat 32 e) (BitVec.ofNat 32 x.step)))
  | 2 => .zero
  | _ => .nearest
/-- A partial as it leaves a module, and as it arrives. -/
def toWire (x : OpRun) (seed : DWord) (c : CElem) : CElem :=
  if Coll.wire16 x.op then
    { c with val := BitVec.ofNat 32 (Fmt.bf16.convert (x.draw seed 72 c.elem) false (f32 c.val)).1 }
  else c
def ofWire (x : OpRun) (w : Word) : Word := if Coll.wire16 x.op then widen16 w.toNat else w
/-- The owner's conversion to FMT_OUT. -/
def toOut (x : OpRun) (seed : DWord) (c : CElem) : CElem :=
  { c with val := BitVec.ofNat 32 ((fmtOf (Coll.fmtOut x.op)).convert (x.draw seed 73 c.elem) false (f32 c.val)).1 }
def ofOut (x : OpRun) (w : Word) : Word := if Coll.fmtOut x.op = 1 then widen16 w.toNat else w
def reduces (x : OpRun) : Bool := x.kind == 1 || x.kind == 2
def gathers (x : OpRun) : Bool := x.kind == 1 || x.kind == 3
/-- Whether a neighbour stands on one side, and the position there. -/
def hasNext (x : OpRun) (plus : Bool) : Bool :=
  1 < x.len && (x.isRing || (if plus then x.pos + 1 < x.len else 0 < x.pos))
def next (x : OpRun) (plus : Bool) : Nat := if plus then (x.pos + 1) % x.len else (x.pos + x.len - 1) % x.len
/-- The elements that this module receives in an op (R312): partials of every half-chunk that passes it, and the converted
chunks of the others. -/
def expected (x : OpRun) : Nat :=
  let reduce := if x.isRing then (x.len - 1) * x.chunk
    else (if 0 < x.pos then (x.len - x.pos) * x.chunk else 0) + (if x.pos + 1 < x.len then (x.pos + 1) * x.chunk else 0)
  (if x.reduces then reduce else 0) + (if x.gathers then (x.len - 1) * x.chunk else 0)
end OpRun

/-- The collective command of a ring whose op number `num` is to run or runs. -/
def Dev.opRun (d : Dev) (p : Fin 64) (r : RingId) (c : Cmd) (num : Nat) : Option OpRun :=
  match c.work with
  | .collective w _ =>
    w.entry.collective.bind (fun def' => (def'.ops[num]?).map (fun o =>
      let (len, pos) := d.coord p (opAxis o)
      { part := p, ring := r, idx := c.index, num := num, op := o, step := w.param (Coll.stepSrc def')
        n := w.param (Coll.countSrc o), len := len, pos := pos, isRing := (d.bank (opAxis o)).modeOf == 1 }))
  | _ => none

def Cmd.coll (c : Cmd) : Option (RunWork × CollWork) := match c.work with | .collective r w => some (r, w) | _ => none

/-- The collective work of an op's command, read and changed. -/
def Dev.collWork (d : Dev) (x : OpRun) : CollWork := (((d.cmd x.ring x.idx).bind Cmd.coll).map (·.2)).getD default
def Dev.updColl (d : Dev) (r : RingId) (i : BitVec 16) (f : CollWork → CollWork) : Dev :=
  d.updCmd r i (fun c => match c.work with
    | .collective x w => { c with work := .collective x (f w) }
    | _ => c)

def Dev.seedOf (d : Dev) (x : OpRun) : DWord := (d.part x.part).seed

/-! ### Runs of elements -/

/-- Elements cut into runs of consecutive numbers, at most `k` each. -/
def runsOf (k : Nat) : List CElem → List (List CElem)
  | [] => []
  | c :: r =>
    match runsOf k r with
    | (y :: ys) :: rest => if y.elem = c.elem + 1 && ys.length + 1 < k then (c :: y :: ys) :: rest else [c] :: (y :: ys) :: rest
    | l => [c] :: l

/-- The bytes of elements in a format. -/
def elemBytes (fmt : Nat) (l : List CElem) : List MByte := mpack fmt (l.map (fun c => (c.val.toNat, c.bad)))

/-! ### Messages (R295, R312, R315) -/

/-- The elements of one message: whole lines of the destination. -/
def dataPiece (bf16 : Bool) : Nat := if bf16 then 96 else 32

/-- Send elements one hop, striped over the cols of the port. -/
def Dev.sendData (d : Dev) (x : OpRun) (gather plus bf16 : Bool) (l : List CElem) : Dev :=
  let nf := (d.collWork x).nf
  d.each (runsOf (dataPiece bf16) l) (fun d run =>
    match run with
    | [] => d
    | c :: _ =>
      let m : DataMsg :=
        { op := x.num, gather := gather, plus := plus, first := c.elem, bf16 := bf16, vals := run.map (·.val)
          marked := (run.filter (·.bad)).map (·.elem), nf := nf }
      d.sendStripe x.axis plus x.part (c.elem / dataPiece bf16) (.data x.ring.q m))

/-- The flag of the collective's step in GLN_P_NF (R281, R315). -/
def Dev.setStepNf (d : Dev) (x : OpRun) : Dev := d.updPart x.part (fun y => { y with nf := y.nf ||| BitVec.ofNat 2 (2 ^ (x.step % 2)) })

/-- Note a non-finite value that the op handles, or the bit of a message: with NF_EN it sets the step's flag at once (R315). -/
def Dev.noteCollNf (d : Dev) (x : OpRun) (l : List Word) (bitIn : Bool := false) : Dev :=
  if bitIn || l.any isNonFinite then
    let d := d.updColl x.ring x.idx (fun w => { w with nf := true })
    if Coll.nfEn x.op then d.setStepNf x else d
  else d

/-! ### Results (R312, R316, R317) -/

/-- Where element `j` of an owned chunk lands: the shard and the address in its landing slot (R259, R260, R317). -/
def landAt (shards : List Shard) : Nat → Nat → Nat → Option (Nat × Nat)
  | 0, _, _ => none
  | fuel + 1, k, j =>
    match shards[k]? with
    | none => none
    | some s =>
      if j < s.params then
        match s.channels[j / s.slice]? with
        | some c => some (k, s.gradAt c ((s.pendHead + s.pendCount) % (s.delay + 1)) + 2 * (j % s.slice))
        | none => none
      else landAt shards fuel (k + 1) (j - s.params)

/-- A landing reaches a shard for the first time in an op (R260): LANDED is set, and an overrun is recorded. -/
def Dev.landShard (d : Dev) (x : OpRun) (k : Nat) : Dev :=
  if (d.collWork x).landed.contains k then d
  else
    let d := d.updColl x.ring x.idx (fun w => { w with landed := k :: w.landed })
    let landed := match d.shard x.part k with | some s => s.landed | none => false
    let d := if landed then d.updPart x.part (fun y => { y with
        glnStat := y.glnStat ||| 4
        land := if bit y.land 31 then y.land else BitVec.ofNat 32 (k + 2 ^ 31) }) else d
    d.setShard x.part k (fun s => s.setLanded true)

/-- Results land in shard slots: runs of elements whose addresses follow one another. One that is not finite sets the flag of the
collective's step (R281). -/
def Dev.landData (d : Dev) (x : OpRun) (l : List CElem) : Dev :=
  let shards := (d.part x.part).shards
  let at' (c : CElem) : Option (Nat × Nat) := landAt shards shards.length (Coll.firstShard x.op) (c.elem - x.mineFrom)
  let ks := (l.filterMap (fun c => (at' c).map (·.1))).eraseDups
  let d := if l.any (fun c => isNonFinite (x.ofOut c.val)) then d.setStepNf x else d
  let d := d.each ks (fun d k => d.landShard x k)
  d.each (runsOf 32 l) (fun d run =>
    match run.head?.bind at', run.getLast?.bind at' with
    | some a, some b =>
      if a.1 = b.1 && b.2 = a.2 + 2 * (run.length - 1) then d.locWrite (.command x.ring) .dev a.2 (elemBytes 1 run)
      else d.each run (fun d c => match at' c with
        | some y => d.locWrite (.command x.ring) .dev y.2 (elemBytes 1 [c])
        | none => d)
    | _, _ => d)

/-- Results are placed in the destination. -/
def Dev.placeData (d : Dev) (x : OpRun) (l : List CElem) : Dev :=
  let d := if l.any (·.bad) then d.updColl x.ring x.idx (fun w => { w with poison := true }) else d
  if Coll.dstShard x.op then d.landData x l
  else
    let base := if x.kind = 2 then x.mineFrom else 0
    let size := elemBits (Coll.fmtOut x.op) / 8
    let dst := Coll.dst x.op
    d.each (runsOf x.n l) (fun d run => match run with
      | [] => d
      | c :: _ => d.locWrite (.command x.ring) (dst.loc 0) (dst.addr + (c.elem - base) * size) (elemBytes (Coll.fmtOut x.op) run))

/-- Converted results leave the owner, or go on from a module that has copied them. -/
def Dev.gatherOn (d : Dev) (x : OpRun) (plus : Bool) (l : List CElem) : Dev :=
  let l := l.filter (fun c => !x.isRing || x.next plus != x.owner c.elem)
  if x.hasNext plus then d.sendData x true plus (Coll.fmtOut x.op == 1) l else d

/-- The owner has elements of its chunk: they convert, are placed, and leave when the op gathers. -/
def Dev.ownerDone (d : Dev) (x : OpRun) (l : List CElem) : Dev :=
  let d := if x.reduces then d.updColl x.ring x.idx (fun w => { w with reduced := w.reduced ++ l }) else d
  let out := l.map (x.toOut (d.seedOf x))
  let d := d.noteCollNf x (l.map (·.val) ++ out.map (fun c => x.ofOut c.val))
  let d := d.placeData x out
  if !x.gathers then d
  else if x.isRing then
    (d.gatherOn x true (out.filter (fun c => x.plusHalf c.elem))).gatherOn x false (out.filter (fun c => !x.plusHalf c.elem))
  else (d.gatherOn x true out).gatherOn x false out

/-! ### Sums (R312) -/

def CElem.add (a b : CElem) : CElem := { a with val := fadd a.val b.val, bad := a.bad || b.bad }

/-- This module's own value of an element. -/
def CollWork.own (w : CollWork) (e : Nat) : CElem := (w.input.find? (fun c => c.elem == e)).getD { elem := e, val := 0, bad := false }

/-- The owner on a chain has the partials it needs of an element: the one from below, its own, then the one from above. -/
def OpRun.chainSum (x : OpRun) (w : CollWork) (e : Nat) : Option CElem :=
  let part (below : Bool) : Option CElem := (w.partials.find? (fun y => y.1 == below && y.2.elem == e)).map (·.2)
  let low : Option CElem := if x.pos = 0 then some (w.own e) else (part true).map (fun c => c.add (w.own e))
  low.bind (fun s => if x.pos + 1 = x.len then some s else (part false).map (fun c => s.add c))

/-- Partials arrive: the own value joins, and they go on, or end at the owner. -/
def Dev.recvPartial (d : Dev) (x : OpRun) (plus : Bool) (l : List CElem) : Dev :=
  let w := d.collWork x
  let mine := l.filter (fun c => x.owner c.elem == x.pos)
  let pass := (l.filter (fun c => x.owner c.elem != x.pos)).map (fun c => c.add (w.own c.elem))
  let d := d.noteCollNf x ((l ++ pass).map (·.val))
  let d := if x.hasNext plus then d.sendData x false plus (Coll.wire16 x.op) (pass.map (x.toWire (d.seedOf x))) else d
  if x.isRing then d.ownerDone x (mine.map (fun c => c.add (w.own c.elem)))
  else
    let d := d.updColl x.ring x.idx (fun w => { w with partials := w.partials ++ mine.map (fun c => (plus, c)) })
    d.ownerDone x (mine.filterMap (fun c => x.chainSum (d.collWork x) c.elem))

/-- Converted results arrive: they are copied and go on. -/
def Dev.recvResult (d : Dev) (x : OpRun) (plus : Bool) (l : List CElem) : Dev :=
  ((d.noteCollNf x (l.map (fun c => x.ofOut c.val))).placeData x l).gatherOn x plus l

/-- The running op of a ring that a message on an axis belongs to. -/
def Dev.opFor (d : Dev) (p : Fin 64) (q : Fin 4) (a : Fin 4) (num : Nat) : Option OpRun :=
  let r : RingId := { fn := .vf p, q := q }
  (d.ring r).cmds.findSome? (fun c =>
    match c.coll with
    | some (_, w) => if c.stage == .started && w.opRunning && w.op == num then
        (d.opRun p r c num).bind (fun x => if x.axis == a then some x else none) else none
    | none => none)

/-- Collective data arrives on a col. -/
def Dev.collData (d : Dev) (c : Fin 16) (p : Fin 64) (q : Fin 4) (m : DataMsg) : Dev :=
  d.deliver c p (fun d =>
    match d.opFor p q (axisOf c) m.op with
    | none => d
    | some x =>
      let l := (m.vals.zip (List.range m.vals.length)).map (fun y =>
        { elem := m.first + y.2, val := y.1, bad := m.marked.contains (m.first + y.2) : CElem })
      let l := l.filter (fun y => y.elem < x.n)
      let d := (d.noteCollNf x [] m.nf).updColl x.ring x.idx (fun w => { w with handled := w.handled + l.length })
      if m.gather then d.recvResult x m.plus l
      else d.recvPartial x m.plus (l.map (fun y => { y with val := x.ofWire y.val })))

/-! ### The life of a collective command (R311, R318) -/

/-- A collective command that has started under R64: its ring, itself, its header and ops, and where it stands. -/
structure CollOf where
  ring : RingId
  cmd  : Cmd
  def' : CollectiveDef
  work : CollWork

/-- The first collective command of a ring that has started under R64 and for which something may happen. -/
def Dev.collOf (d : Dev) (p : Fin 64) (q : Fin 4) (f : CollOf → Bool) : Option CollOf :=
  let r : RingId := { fn := .vf p, q := q }
  if d.ccx.sup != .ready || d.isTripped then none
  else (d.ring r).cmds.findSome? (fun c =>
    if c.stage == .started then
      c.coll.bind (fun y => y.1.entry.collective.bind (fun x =>
        let o : CollOf := { ring := r, cmd := c, def' := x, work := y.2 }
        if f o then some o else none))
    else none)

/-- Whether the header's wait of a collective is satisfied. -/
def Dev.collReady (d : Dev) (p : Fin 64) (o : CollOf) : Bool :=
  let v := Coll.waitW o.def'
  !enOf v || d.waitMet p (ctrOf v) (valOf v) || (o.work.waitBegun && !d.waiting (.command o.ring o.cmd.index))

/-- The module's arrival leaves once the header's wait is satisfied. -/
def Dev.collArrive (d : Dev) (p : Fin 64) (q : Fin 4) : Dev :=
  match d.collOf p q (fun o => !o.work.sent && d.collReady p o) with
  | none => d
  | some o =>
    let (r, c, x) := (o.ring, o.cmd, o.def')
    ((d.endWait (.command r c.index)).updColl r c.index (fun w => { w with sent := true })).joinGroup p x.arrGroup x.arrAxes
      x.arrMembers (.command r c.index) false 1

/-- The result of the arrival reduction of a command. -/
def Dev.arrivalSum (d : Dev) (o : CollOf) : Option Nat := (d.runOf (.command o.ring o.cmd.index)).bind (·.result)

/-- The result of the arrival reduction is START; a sum that differs from MEMBERS ends the group's commands (R305). -/
def Dev.collStart (d : Dev) (p : Fin 64) (q : Fin 4) : Dev :=
  match d.collOf p q (fun o => o.work.sent && !o.work.reached && (d.arrivalSum o).isSome) with
  | none => d
  | some o =>
    let (r, c, x) := (o.ring, o.cmd, o.def')
    match d.arrivalSum o with
    | none => d
    | some sum =>
      let d := d.dropRun (.command r c.index)
      if sum = x.arrMembers then
        (d.updColl r c.index (fun w => { w with reached := true })).updCmd r c.index (fun c => { c with
          startTick := d.pwr.aon, held := d.holdInForce })
      else (d.mismatch p x.arrGroup sum x.arrMembers).groupWatchdog p x.arrGroup

/-- A bite of the collective engine at a marked input byte (R374). -/
def Dev.biteColl (d : Dev) (p : Fin 64) (l : LocWord) (b : List MByte) : Dev :=
  match (b.zip (List.range b.length)).find? (fun y => y.1.2) with
  | none => d
  | some y => match l.loc 0 with
    | .dev => d.biteDev (some p) 3 0 (lineOf (l.addr + y.2))
    | .sram i => d.biteSram (some p) 3 0 i (lineOf (l.addr + y.2))

/-- The input of an op: COUNT elements, or this module's chunk of an ALL_GATHER, widened exactly. -/
def Dev.readInput (d : Dev) (x : OpRun) : Dev :=
  let first := if x.kind = 3 then x.mineFrom else 0
  let n := if x.kind = 3 then x.chunk else x.n
  let src := Coll.src x.op
  let (d, b) := d.locRead (.command x.ring) (src.loc 0) src.addr (n * elemBits (Coll.fmtIn x.op) / 8)
  let d := d.biteColl x.part src b
  let codes := unpack (Coll.fmtIn x.op) (b.map (·.1))
  let size := elemBits (Coll.fmtIn x.op) / 8
  let l := (codes.zip (List.range codes.length)).map (fun y =>
    { elem := first + y.2
      val := if Coll.fmtIn x.op = 1 then widen16 y.1 else BitVec.ofNat 32 y.1
      bad := ((b.drop (size * y.2)).take size).any (·.2) : CElem })
  (d.updColl x.ring x.idx (fun w => { w with input := l })).noteCollNf x (l.map (·.val))

/-- What leaves this module when a data op starts (R312). -/
def Dev.startData (d : Dev) (x : OpRun) : Dev :=
  let d := d.readInput x
  let w := d.collWork x
  let own (k : Nat) (f : Nat → Bool) : List CElem := ((x.elems k).filter f).map w.own
  let send (d : Dev) (plus : Bool) (l : List CElem) : Dev := d.sendData x false plus (Coll.wire16 x.op) (l.map (x.toWire (d.seedOf x)))
  if x.kind = 3 || x.len ≤ 1 then d.ownerDone x (own x.pos (fun _ => true))
  else if x.isRing then
    send (send d true (own (x.next false) x.plusHalf)) false (own (x.next true) (fun e => !x.plusHalf e))
  else if x.pos = 0 then send d true ((List.range (x.len - 1)).flatMap (fun k => own (k + 1) (fun _ => true)))
  else if x.pos + 1 = x.len then send d false ((List.range (x.len - 1)).flatMap (fun k => own k (fun _ => true)))
  else d

/-- The next op of a command starts. -/
def Dev.collOpStart (d : Dev) (p : Fin 64) (q : Fin 4) : Dev :=
  match d.collOf p q (fun o => o.work.reached && !o.work.opRunning) with
  | none => d
  | some o =>
    let (r, c) := (o.ring, o.cmd)
    match d.opRun p r c o.work.op with
    | none => d
    | some x =>
      let d := (d.wantClock reduceDom).updColl r c.index (fun w => { w with
        opRunning := true, since := d.pwr.aon, input := [], reduced := [], partials := [], handled := 0, landed := [], nf := false })
      if x.kind = 4 then
        d.joinGroup p (opGroup x.op) (Coll.nfAxes x.op) (Coll.nfMembers x.op) (.nfSync r c.index) true
          ((d.part p).nf.toNat / 2 ^ (x.step % 2) % 2)
      else d.startData x

/-- One layer's sum of squares in FP64, in ascending order, and whether a marked element entered it (R316). -/
def sumSquares (l : List CElem) (lo hi : Nat) : DWord × Bool :=
  (List.range (hi - lo)).foldl (fun (acc : DWord × Bool) k =>
    match l.find? (fun c => c.elem == lo + k) with
    | some c => let v := toF64 (f32 c.val); (dadd acc.1 (dmul v v), acc.2 || c.bad)
    | none => acc) (0, false)

/-- The statistics of an op: 16 bytes for each layer. -/
def Dev.writeStats (d : Dev) (x : OpRun) : Dev :=
  let w := d.collWork x
  let ends := (((d.part x.part).image.bind (fun im => im.layers[Coll.layerTbl x.op]?)).getD []).map (fun e => min e x.n)
  let r := (ends.foldl (fun (acc : List MByte × Nat) e =>
    let a := sumSquares w.input acc.2 e
    let b := sumSquares w.reduced acc.2 e
    (acc.1 ++ (dwordBytes a.1).map (fun y => (y, a.2)) ++ (dwordBytes b.1).map (fun y => (y, b.2)), e)) ([], 0)).1
  let d := if r.any (·.2) then d.updColl x.ring x.idx (fun w => { w with poison := true }) else d
  d.locWrite (.command x.ring) ((Coll.stats x.op).loc 0) (Coll.stats x.op).addr r

/-- An op has nothing left to receive, its writes have left the regulator, and an NF_SYNC has its OR. -/
def Dev.opOver (d : Dev) (x : OpRun) (w : CollWork) : Bool :=
  if x.kind = 4 then ((d.runOf (.nfSync x.ring x.idx)).bind (·.result)).isSome
  else x.expected ≤ w.handled && !d.holds x.part (.command x.ring)

/-- The op that a command runs, once it is over. -/
def Dev.opEnded (d : Dev) (p : Fin 64) (o : CollOf) : Option OpRun :=
  if o.work.opRunning then (d.opRun p o.ring o.cmd o.work.op).bind (fun x => if d.opOver x o.work then some x else none) else none

/-- An op ends: statistics, an NF_SYNC's flag, the post; the last one completes the command. -/
def Dev.collOpDone (d : Dev) (p : Fin 64) (q : Fin 4) : Dev :=
  match d.collOf p q (fun o => (d.opEnded p o).isSome) with
  | none => d
  | some o =>
    match d.opEnded p o with
    | none => d
    | some x =>
      let (r, c, w) := (o.ring, o.cmd, o.work)
      let orBit := ((d.runOf (.nfSync r c.index)).bind (·.result)).getD 0
      let d := d.dropRun (.nfSync r c.index)
      let d := if Coll.statsEn x.op then d.writeStats x else d
      let d := if x.kind = 4 && orBit == 1 then d.setStepNf x else d
      let d := d.chargeTime (some p) .collective w.since
      let d := d.post p (Coll.post x.op)
      let d := d.updColl r c.index (fun w => { w with opRunning := false, op := w.op + 1 })
      if w.op + 1 < o.def'.ops.length then d
      else d.finish r c.index (if (d.collWork x).poison then .poisonConsumed else .ok)

/-! ### Meanings -/

def execCollectiveStart (p : Fin 64) (q : Fin 4) (s : State) : Host.Outcome State Fault Refusal := .next { s with dev := s.dev.collStart p q }
def execCollectiveDataReceive (c : Fin 16) (p : Fin 64) (q : Fin 4) (m : DataMsg) (s : State) : Host.Outcome State Fault Refusal :=
  .next { s with dev := s.dev.collData c p q m }
def execCollectiveOpDone (p : Fin 64) (q : Fin 4) (s : State) : Host.Outcome State Fault Refusal := .next { s with dev := s.dev.collOpDone p q }

end Sys2Proof.Machine
end

