-- ==== Sys2Proof/Machine/Net.lean ====
section
/-! DEFINITION. The Ethernet ports (R332 to R339): frames and strangers, the receive buffer and PFC, and the queue pairs:
requests, responses, retransmission and congestion control. The meanings of acknowledgements stand with the snapshots that
they complete. -/

namespace Sys2Proof.Machine

open Sys2Proof

/-! ### Targets and ports (R334) -/

def Dev.target (d : Dev) (t : Fin 256) : Target := Tab.at d.targets t
def Dev.port (d : Dev) (n : Fin 2) : Port := Tab.at d.ports n

namespace Target
def valid (t : Target) : Bool := bit (wd t.words 0) 0
def portOf (t : Target) : Fin 2 := ⟨bits (wd t.words 0) 1 1 % 2, Nat.mod_lt _ (by decide)⟩
def ipv6 (t : Target) : Bool := bit (wd t.words 0) 2
def part (t : Target) : Nat := bits (wd t.words 0) 8 8
def prio (t : Target) : Fin 8 := ⟨bits (wd t.words 0) 16 3 % 8, Nat.mod_lt _ (by decide)⟩
def mtu (t : Target) : Nat := 1024 * 2 ^ (min 2 (bits (wd t.words 1) 0 2))
def timeout (t : Target) : Nat := bits (wd t.words 1) 8 4
def wrGbps (t : Target) : Nat := bits (wd t.words 1) 16 8
def regionVa (t : Target) : Nat := (wd64 t.words 12).toNat
def regionLen (t : Target) : Nat := (wd64 t.words 14).toNat
end Target

/-- A number from bytes in network order. -/
def netNat (b : List Byte) : Nat := b.foldl (fun n x => 256 * n + x.toNat) 0

/-- The remote address of an entry, as one number. -/
def Target.ip (t : Target) : Nat :=
  if t.ipv6 then netNat ((List.range 4).flatMap (fun k => wordBytes (wd t.words (7 + k)))) else netNat (wordBytes (wd t.words 7))

/-- The priorities of a port that are lossless. -/
def Port.lossless (p : Port) (k : Fin 8) : Bool := bit (wd p.words 2) k.val
def Port.isPaused (p : Port) (k : Fin 8) : Bool := p.paused.toNat / 2 ^ k.val % 2 == 1

/-! ### Frames (R335, R337) -/

/-- A stranger: dropped and counted, its cause latched. -/
def Dev.stranger (d : Dev) (n : Fin 2) (cause : BitVec 4) : Dev :=
  d.updPort n (fun p => { p with stranger := satInc p.stranger, cause := cause })

/-- Why a frame is a stranger, none when it is delivered. The cause of a frame that is neither of the four kinds is not in
the spec: a free value. -/
def Dev.frameCause (d : Dev) (n : Fin 2) (f : Frame) : Dev × Option (BitVec 4) :=
  match f.kind with
  | .pfc => (d, none)
  | .arp => (d, if f.toPort then none else some 1)
  | .neighbour => (d, if f.toPort then none else some 1)
  | .roce op =>
    if !f.toPort then (d, some 1)
    else match finOf 256 (f.qpn.toNat - 0x100) with
      | none => (d, some 2)
      | some t =>
        let x := d.target t
        if f.qpn.toNat < 0x100 || !x.valid || x.portOf != n || x.ip != f.src.toNat then (d, some 2)
        else if x.qp != .rts then (d, some 3)
        else if (0x0D ≤ op.toNat && op.toNat ≤ 0x11) || op == 0x81 then (d, none)
        else (d, some 4)
  | .other => if f.toPort then let (v, d) := d.fresh; (d, some (v.setWidth 4)) else (d, some 1)

def rxBuffer : Nat := 4 * 2 ^ 20
def Port.heldAll (p : Port) : Nat := p.held.toList.foldl (fun a b => a + b) 0

/-- A delivered frame joins the receive buffer (R337). -/
def Dev.bufferFrame (d : Dev) (n : Fin 2) (k : Fin 8) (bytes : Nat) : Dev :=
  let p := d.port n
  if !p.lossless k && rxBuffer < p.heldAll + bytes then d.stranger n 5
  else
    let d := d.updPort n (fun p => { p with held := Tab.upd p.held k (fun h => h + bytes) })
    if p.lossless k && p.xoff.toNat / 2 ^ k.val % 2 = 0 && 3 * rxBuffer < 4 * Tab.at (d.port n).held k then
      (d.updPort n (fun p => { p with xoff := p.xoff ||| BitVec.ofNat 8 (2 ^ k.val) })).sendNet (.pfc n k true)
    else d

/-- A frame arrives on a port; one whose FCS fails, after a codeword that the FEC could not correct, is dropped and counted (R332). -/
def Dev.ethFrame (d : Dev) (n : Fin 2) (f : Frame) : Dev :=
  let d := d.wantClock (macDom n)
  let d := if f.corrected = 0 then d else d.updPort n (fun p => { p with fecCorr := satInc p.fecCorr f.corrected })
  if 9216 < f.bytes then d
  else if !f.fcsOk then d.updPort n (fun p => { p with fecUncorr := satInc p.fecUncorr })
  else match d.frameCause n f with
    | (d, some c) => d.stranger n c
    | (d, none) =>
      match f.kind with
      | .arp => d.sendNet (.arpReply n)
      | .neighbour => d.sendNet (.arpReply n)
      | .roce _ => d.bufferFrame n f.prio f.bytes
      | _ => d

/-- Receive-buffer space frees: below 50 % the priority that was stopped sends XON. -/
def Dev.rxRelease (d : Dev) (n : Fin 2) (k : Fin 8) (bytes : Nat) : Dev :=
  let d := d.updPort n (fun p => { p with held := Tab.upd p.held k (fun h => h - bytes) })
  let p := d.port n
  if p.xoff.toNat / 2 ^ k.val % 2 = 1 && 2 * Tab.at p.held k < rxBuffer then
    (d.updPort n (fun p => { p with xoff := p.xoff &&& ~~~ BitVec.ofNat 8 (2 ^ k.val) })).sendNet (.pfc n k false)
  else d

/-- A packet for a queue pair that is not in RTS is a stranger (R335, R339). -/
def Dev.offQueue (d : Dev) (t : Fin 256) : Dev := d.stranger (d.target t).portOf (if (d.target t).valid then 3 else 2)

/-! ### Requests (R336, R338) -/

/-- Send one request, with its packets numbered from NEXT_PSN. -/
def Dev.sendReq (d : Dev) (t : Fin 256) (q : NetReq) : Dev :=
  let d := d.wantClock (macDom (d.target t).portOf)
  if q.write then d.sendNet (.write t q.psn ((d.target t).regionVa + q.remote) q.data) else d.sendNet (.read t q.psn q.remote q.bytes)

/-- The reads of a queue pair that are outstanding. -/
def Target.reads (t : Target) : Nat := (t.reqs.filter (fun q => q.issued && !q.write)).length

/-- How long a queue pair's rate holds the next read after one of `n` bytes, in always-on ticks: R is in GB/s, 1,000 bytes a
microsecond (R338). -/
def Target.pace (t : Target) (n : Nat) : Nat := ((n : Rat) * 192 / (10000 * t.rate)).ceil.toNat

/-- Issue the oldest request that waits, when its queue pair may transmit, has a place (R336, R337) and, for a read, its rate lets
it go (R338). -/
def Dev.issueOne (d : Dev) (t : Fin 256) : Dev :=
  let x := d.target t
  if x.qp != .rts || ((d.port x.portOf).lossless x.prio && (d.port x.portOf).isPaused x.prio) then d
  else match x.reqs.find? (fun q => !q.issued) with
    | none => d
    | some q =>
      if !q.write && (16 ≤ x.reads || d.pwr.aon.toNat < x.paceAt.toNat) then d
      else
        let n := max 1 ((q.bytes + x.mtu - 1) / x.mtu)
        let q' := { q with psn := x.nextPsn, packets := n, issued := true, since := d.pwr.aon }
        (d.updTarget t (fun x => { x with
          nextPsn := x.nextPsn + BitVec.ofNat 24 n
          paceAt := if q.write then x.paceAt else d.pwr.aon + BitVec.ofNat 64 (x.pace q.bytes)
          reqs := x.reqs.takeWhile (fun y => y.issued) ++ q' :: (x.reqs.dropWhile (fun y => y.issued)).tail })).sendReq t q'

def Dev.pump (d : Dev) (t : Fin 256) : Dev := (List.range (d.target t).reqs.length).foldl (fun d _ => d.issueOne t) d

/-- Queue requests on a target and issue what may be issued. -/
def Dev.queueReqs (d : Dev) (t : Fin 256) (l : List NetReq) : Dev :=
  (d.updTarget t (fun x => { x with reqs := x.reqs ++ l })).pump t

/-- The reads of one sample: at most 1 MiB each. -/
def sampleReads (r : RingId) (k addr : Nat) : Nat → Nat → Nat → List NetReq
  | 0, _, _ => []
  | f + 1, off, n =>
    if n = 0 then []
    else
      let m := min n (2 ^ 20)
      { psn := 0, packets := 0, ring := r, sample := some k, offset := off, remote := addr + off, bytes := m, got := 0,
        write := false, data := [], issued := false, since := 0 } :: sampleReads r k addr f (off + m) (n - m)

def Dev.updSample (d : Dev) (r : RingId) (k : Nat) (f : Sample → Sample) : Dev :=
  match d.started r 0x30 with
  | some c => d.updCmd r c.index (fun c => match c.work with
    | .sample w => { c with work := .sample { w with samples := w.samples.modify k f } }
    | _ => c)
  | none => d

/-- Where sample bytes of a ring's job lie: its bitstream buffer. -/
def Dev.sampleAt (d : Dev) (r : RingId) (k : Nat) : Option Nat :=
  (d.started r 0x30).bind (fun c => match c.work with
    | .sample w => w.samples[k]?.bind (fun s => if s.state = .reading then some ((wd64 w.layout 24).toNat + s.at') else none)
    | _ => none)

/-- A congestion notification is due: the first, or 50 µs after the last (R338). -/
def due50 (last : Option DWord) (now : DWord) : Bool :=
  match last with
  | none => true
  | some t => 960 ≤ (now - t).toNat

/-- An RDMA READ response arrives: its payload is placed by offset (R336); CE sends a CNP (R338). -/
def Dev.readResponse (d : Dev) (t : Fin 256) (psn : BitVec 24) (off : Nat) (data : List Byte) (ce : Bool) : Dev :=
  let x := d.target t
  if x.qp != .rts then d.offQueue t
  else
    let d := if ce && due50 x.lastCnpTx d.pwr.aon then
        (d.updTarget t (fun x => { x with lastCnpTx := some d.pwr.aon })).sendNet (.cnp t)
      else d
    match x.reqs.find? (fun q => q.issued && !q.write && (psn - q.psn).toNat < q.packets && off + data.length ≤ q.bytes) with
    | none => d
    | some q =>
      let d := match finOf 64 x.part with
        | some p => d.acct p (fun a => { a with ethRecv := a.ethRecv + BitVec.ofNat 64 data.length })
        | none => d
      let d := match q.sample with
        | some k => match d.sampleAt q.ring k with
          | some a => (d.memWrite (.command q.ring) (a + q.offset + off) data).updSample q.ring k (fun s => { s with arrived := s.arrived + data.length })
          | none => d
        | none => d
      let got := q.got + data.length
      (d.updTarget t (fun x => { x with
        retries := 0
        reqs := x.reqs.map (fun y => if y == q then { q with got := got } else y) }) |>.dropNetReqs t
          (fun y => y.issued && !y.write && y.bytes ≤ y.got)).pump t

/-- Retransmit go-back-N: every unfinished request again, from its first byte. -/
def Dev.resend (d : Dev) (t : Fin 256) : Dev :=
  let reqs := (d.target t).reqs.filter (fun q => q.issued)
  let d := reqs.foldl (fun d q => match q.sample with
    | some k => d.updSample q.ring k (fun s => { s with arrived := s.arrived - q.got })
    | none => d) d
  let d := d.updTarget t (fun x => { x with
    retries := x.retries + 1, reqs := x.reqs.map (fun q => { q with got := 0 }) })
  reqs.foldl (fun d q => d.sendReq t q) d

/-- The target of a SNAPSHOT that goes to storage (R363). -/
def snapTarget (c : Cmd) : Option (Fin 256) :=
  if c.opcode = 0x41 && bits (wd c.words 10) 2 2 = 2 then finOf 256 (bits (wd c.words 12) 0 8) else none

/-- A snapshot whose writes were not acknowledged ends (R363). -/
def Dev.snapLost (d : Dev) (r : RingId) (c : Cmd) (t : Fin 256) : Dev :=
  let d := d.log Ev.netTimeout (match ringPart r with | some p => ownerByte (some p) | none => 0xFF) t.val
    (BitVec.ofNat 32 c.index.toNat) 0 0
  (d.dropNetReqs t (fun q => q.ring == r && q.write)).finish r c.index .watchdog

/-- A queue pair enters ERROR (R336): its unfinished reads fail, and a snapshot on it ends. -/
def Dev.qpError (d : Dev) (t : Fin 256) : Dev :=
  let p := (d.target t).part
  let d := d.updTarget t (fun x => { x with qp := .error })
  let d := (d.log Ev.netQpError (BitVec.ofNat 8 p) t.val 0 0 0).failReads t
  ((List.finRange 64).flatMap d.startedOf).foldl (fun d x =>
    match x.2.work with
    | .snapshot w => if w.begun && snapTarget x.2 == some t then d.snapLost x.1 x.2 t else d
    | _ => d) d

/-- A NAK with a sequence error, or an ACK timeout: after 7 retries the queue pair enters ERROR. -/
def Dev.retry (d : Dev) (t : Fin 256) : Dev :=
  let x := d.target t
  if x.qp != .rts || !x.reqs.any (fun q => q.issued) then d
  else if 7 ≤ x.retries then d.qpError t
  else d.resend t

/-- A NAK names a packet of an outstanding request; any other is stale. -/
def Dev.nak (d : Dev) (t : Fin 256) (psn : BitVec 24) : Dev :=
  if (d.target t).qp != .rts then d.offQueue t
  else if (d.target t).reqs.any (fun q => q.issued && (psn - q.psn).toNat < q.packets) then d.retry t else d

/-- A congestion notification arrives (R338). -/
def Dev.cnp (d : Dev) (t : Fin 256) : Dev :=
  if (d.target t).qp != .rts then d.offQueue t
  else if due50 (d.target t).lastCnpRx d.pwr.aon then
    d.updTarget t (fun x => { x with rate := max (x.rate / 2) (1 / 2), lastCnpRx := some d.pwr.aon })
  else d

/-- 55 µs have passed without a congestion notification (R338). -/
def Dev.rateUp (d : Dev) (t : Fin 256) : Dev :=
  let quiet := match (d.target t).lastCnpRx with
    | none => true
    | some c => 1056 ≤ (d.pwr.aon - c).toNat
  if (d.target t).qp == .rts && quiet then (d.updTarget t (fun x => { x with rate := min (x.rate + 5 / 2) 50 })).pump t else d

/-! ### PFC (R337) -/

/-- The targets that transmit on a priority of a port. -/
def Dev.pumpPrio (d : Dev) (n : Fin 2) (k : Fin 8) : Dev :=
  d.each ((List.finRange 256).filter (fun t => (d.target t).portOf == n && (d.target t).prio == k && !(d.target t).reqs.isEmpty)) Dev.pump

def Dev.pfcFrame (d : Dev) (n : Fin 2) (enable : Byte) (quanta : Tab (BitVec 16) 8) : Dev :=
  (List.finRange 8).foldl (fun d k =>
    if enable.toNat / 2 ^ k.val % 2 = 1 && (d.port n).lossless k then
      if Tab.at quanta k = 0 then (d.updPort n (fun p => { p with paused := p.paused &&& ~~~ BitVec.ofNat 8 (2 ^ k.val) })).pumpPrio n k
      else d.updPort n (fun p => { p with paused := p.paused ||| BitVec.ofNat 8 (2 ^ k.val) })
    else d) d

def Dev.pauseEnd (d : Dev) (n : Fin 2) (k : Fin 8) : Dev :=
  (d.updPort n (fun p => { p with paused := p.paused &&& ~~~ BitVec.ofNat 8 (2 ^ k.val) })).pumpPrio n k

/-! ### Meanings -/

def execEthFrameReceive (n : Fin 2) (f : Frame) (s : State) : Host.Outcome State Fault Refusal := .next { s with dev := s.dev.ethFrame n f }
def execRxBufferRelease (n : Fin 2) (prio : Fin 8) (bytes : Nat) (s : State) : Host.Outcome State Fault Refusal :=
  .next { s with dev := s.dev.rxRelease n prio bytes }
def execPfcFrameReceive (n : Fin 2) (enable : Byte) (quanta : Tab (BitVec 16) 8) (s : State) : Host.Outcome State Fault Refusal :=
  .next { s with dev := s.dev.pfcFrame n enable quanta }
def execPfcPauseExpiry (n : Fin 2) (prio : Fin 8) (s : State) : Host.Outcome State Fault Refusal := .next { s with dev := s.dev.pauseEnd n prio }
def execRoceReadResponse (tgt : Fin 256) (psn : BitVec 24) (offset : Nat) (data : List Byte) (ce : Bool) (s : State) :
    Host.Outcome State Fault Refusal := .next { s with dev := s.dev.readResponse tgt psn offset data ce }
def execRoceNakReceive (tgt : Fin 256) (psn : BitVec 24) (s : State) : Host.Outcome State Fault Refusal :=
  .next { s with dev := s.dev.nak tgt psn }
def execCnpReceive (tgt : Fin 256) (s : State) : Host.Outcome State Fault Refusal := .next { s with dev := s.dev.cnp tgt }
def execRoceAckTimeout (tgt : Fin 256) (s : State) : Host.Outcome State Fault Refusal := .next { s with dev := s.dev.retry tgt }
def execRateIncrease (tgt : Fin 256) (s : State) : Host.Outcome State Fault Refusal := .next { s with dev := s.dev.rateUp tgt }

end Sys2Proof.Machine
end

