-- ==== Sys2Proof/Machine/Snapshot.lean ====
section
/-! DEFINITION. Snapshots (R284 to R288, R321, R363): the pass that sets SNAPSHOT_PENDING, the chunks read, the output and
its three transports, and the acknowledgements that complete one. -/

namespace Sys2Proof.Machine

open Sys2Proof

/-! ### Payload (R284) -/

namespace Snap
def first (c : Cmd) : Nat := bits (wd c.words 8) 0 16
def count (c : Cmd) : Nat := bits (wd c.words 9) 0 17
def what (c : Cmd) : Nat := bits (wd c.words 10) 0 1
def bf16 (c : Cmd) : Bool := bit (wd c.words 10) 1
def dest (c : Cmd) : Nat := bits (wd c.words 10) 2 2
def sr (c : Cmd) : Bool := bit (wd c.words 10) 4
def addr (c : Cmd) : Nat := (wd64 c.words 12).toNat
def elem (c : Cmd) : Nat := if bf16 c then 2 else 4
end Snap

/-! ### Trees (R301) -/

/-- The two axes of a partition's tree, the lower letter first. -/
def Dev.treeOf (d : Dev) (p : Fin 64) : Option (Fin 4 × Fin 4) :=
  (List.finRange 4).findSome? (fun x => ((List.finRange 4).find? (fun y =>
    x < y && (d.bank x).modeOf == 3 && (d.bank y).modeOf == 3 && (d.bank x).pair == y.val && (d.bank y).pair == x.val &&
    d.axisPart x == some p && d.axisPart y == some p)).map (fun y => (x, y)))

/-- The pieces of at most `n` bytes of a payload, with their offsets. -/
def cutAt (n : Nat) (b : List Byte) : List (Nat × List Byte) :=
  (List.range ((b.length + n - 1) / n)).map (fun k => (n * k, (b.drop (n * k)).take n))

/-- Snapshot bytes go up the tree, a flit's payload at a time (R292); at the root they are written to the partition's granules. -/
def Dev.upTree (d : Dev) (o : MemOwner) (p : Fin 64) (a : Nat) (b : List Byte) : Dev :=
  match d.treeOf p with
  | none => d
  | some (x, _) =>
    if (d.bank x).root then (if d.inGrant p a b.length then d.memWrite o a b else d)
    else d.each (cutAt flitPayload b) (fun d y => d.sendPort x false p (.snapshot (a + y.1) y.2))

/-- Whether the parent has still to accept snapshot bytes of an address range that this module sent it (R294, R321). -/
def Dev.treeBusy (d : Dev) (p : Fin 64) (a n : Nat) : Bool :=
  let mine (body : Payload) : Bool := match body with | .snapshot x _ => a ≤ x && x < a + n | _ => false
  match d.treeOf p with
  | none => false
  | some (x, _) => (List.finRange 16).any (fun c => axisOf c == x && !plusCol c &&
      ((d.col c).txWait.any (fun y => y.2.1 == p && mine y.2.2) || (d.col c).unacked.any (fun f => f.part == p && mine f.body)))

/-! ### Output (R286) -/

/-- Ship bytes at an offset of the output. -/
def Dev.ship (d : Dev) (p : Fin 64) (r : RingId) (c : Cmd) (off : Nat) (b : List Byte) : Dev :=
  match Snap.dest c with
  | 1 => d.upTree (.command r) p (Snap.addr c + off) b
  | 2 => match snapTarget c with
    | some t =>
      let q : NetReq :=
        { psn := 0, packets := 0, ring := r, sample := none, offset := off, remote := Snap.addr c / 256 + off
          bytes := b.length, got := 0, write := true, data := b, issued := false, since := 0 }
      d.queueReqs t [q]
    | none => d
  | _ => d.hostWrite (some p) (Snap.addr c + off) b

/-- The record of a shard, as it stands at START; `off` is where its data would lie. -/
def snapRec (p : Part) (c : Cmd) (k off : Nat) : SnapRec :=
  let s := p.shards.getD k (Tab.all 64 0)
  let remote := !p.isLocal s
  let cut := (Snap.what c = 1 && s.phase = 3) || (Snap.what c = 0 && s.phase = 4)
  let ships := !remote && !s.lost && !cut
  { shard := k, remote := remote, lost := !remote && s.lost, poison := false
    skipped := !remote && s.skipped
    incomplete := !remote && !s.lost && cut
    step := s.weightsStep, params := wd s 6, offset := off
    bytes := if ships then Snap.elem c * s.params else 0 }

/-- The records of every named shard, with their places. -/
def snapRecs (p : Part) (c : Cmd) : List SnapRec :=
  ((List.range (Snap.count c)).foldl (fun (acc : List SnapRec × Nat) k =>
    let r := snapRec p c (Snap.first c + k) acc.2
    (acc.1 ++ [r], acc.2 + r.bytes)) ([], 64 + 32 * Snap.count c)).1

def SnapRec.words (r : SnapRec) : List Word :=
  [BitVec.ofNat 32 (r.shard + 2 ^ 16 * b2n r.remote + 2 ^ 17 * b2n r.lost + 2 ^ 18 * b2n r.poison + 2 ^ 19 * b2n r.skipped +
     2 ^ 20 * b2n r.incomplete), r.step, r.params, 0,
   BitVec.ofNat 32 r.offset, BitVec.ofNat 32 (r.offset / 2 ^ 32), BitVec.ofNat 32 r.bytes, BitVec.ofNat 32 (r.bytes / 2 ^ 32)]

/-- The lowest and the highest step shipped, 0 when nothing ships. -/
def snapSteps (l : List SnapRec) : Word × Word :=
  match (l.filter (fun r => r.bytes != 0)).map (·.step) with
  | [] => (0, 0)
  | a :: r => (r.foldl (fun m x => if x < m then x else m) a, r.foldl (fun m x => if m < x then x else m) a)

def snapBytes (l : List SnapRec) : Nat := 64 + 32 * l.length + l.foldl (fun n r => n + r.bytes) 0

def snapHeader (c : Cmd) (l : List SnapRec) : List Word :=
  let (lo, hi) := snapSteps l
  let n := snapBytes l
  [BitVec.ofNat 32 l.length, lo, hi,
   BitVec.ofNat 32 (Snap.what c + 2 * b2n (Snap.bf16 c) + 4 * b2n (lo != hi) + 8 * b2n (l.any (·.poison)) +
     16 * b2n (l.any (·.incomplete))), BitVec.ofNat 32 n, BitVec.ofNat 32 (n / 2 ^ 32)] ++ List.replicate 10 0

/-- The snapshot completes. -/
def Dev.snapFinish (d : Dev) (r : RingId) (c : Cmd) (w : SnapWork) : Dev :=
  let (lo, hi) := snapSteps w.recs
  let aux := b2n (lo != hi) + 2 * b2n (w.recs.any (·.poison)) + 4 * b2n (w.recs.any (·.incomplete)) +
    2 ^ 16 * (w.recs.filter (fun x => x.bytes != 0)).length
  d.finish r c.index (if w.poison then .poisonConsumed else .ok) 0 (BitVec.ofNat 32 aux)

def Dev.setSnap (d : Dev) (r : RingId) (c : Cmd) (w : SnapWork) : Dev := d.updCmd r c.index (fun c => { c with work := .snapshot w })

/-- A snapshot whose header has gone up the tree completes once the parent has accepted every flit of it (R321). -/
def Dev.snapSent (d : Dev) (p : Fin 64) (r : RingId) (c : Cmd) (w : SnapWork) : Dev :=
  if d.treeBusy p (Snap.addr c) (snapBytes w.recs) then d.setSnap r c { w with header := true } else d.snapFinish r c w

/-- Every shard has been read: the records go, then the header. To storage the header waits for every acknowledgement. -/
def Dev.snapEnd (d : Dev) (p : Fin 64) (r : RingId) (c : Cmd) (w : SnapWork) : Dev :=
  let d := d.ship p r c 64 ((w.recs.flatMap SnapRec.words).flatMap wordBytes)
  if Snap.dest c = 2 then d.setSnap r c w
  else
    let d := d.ship p r c 0 ((snapHeader c w.recs).flatMap wordBytes)
    if Snap.dest c = 1 then d.snapSent p r c w else d.snapFinish r c w

/-! ### The pass and the chunks (R285, R288) -/

/-- START of a SNAPSHOT: its records are made, and one pass sets SNAPSHOT_PENDING on every named local shard (R22, R285). -/
def Dev.snapStart (d : Dev) (p : Fin 64) (r : RingId) (c : Cmd) : Dev :=
  let recs := snapRecs (d.part p) c
  let d := d.each (recs.filter (fun x => !x.remote)) (fun d x => d.setShard p x.shard (fun s => s.flag 18 true))
  d.setSnap r c
    { begun := false, todo := (recs.filter (fun x => x.bytes != 0)).map (·.shard), chunk := 0, recs := recs, poison := false
      header := false, failed := false }

/-- A SNAPSHOT begins to read: a shard that ships nothing loses its flag at once (R285, R288). -/
def Dev.snapBegin (d : Dev) (p : Fin 64) (r : RingId) (c : Cmd) (w : SnapWork) : Dev :=
  let d := d.each (w.recs.filter (fun x => !x.remote && x.bytes == 0)) (fun d x => d.setShard p x.shard (fun s => s.flag 18 false))
  let w := { w with begun := true }
  if w.todo.isEmpty then d.snapEnd p r c w else d.setSnap r c w

/-- The SNAPSHOT of a ring, begun or not. -/
def Dev.snapOf (d : Dev) (p : Fin 64) (q : Fin 4) (begun : Bool) : Option (RingId × Cmd × SnapWork) :=
  let r : RingId := { fn := .vf p, q := q }
  ((d.ring r).cmds.find? (fun c => c.stage == .started && (match c.work with | .snapshot w => w.begun == begun | _ => false))).bind
    (fun c => match c.work with | .snapshot w => some (r, c, w) | _ => none)

def Dev.snapshot (d : Dev) (p : Fin 64) (q : Fin 4) : Dev :=
  if d.ccx.sup != .ready || d.isTripped then d
  else match d.snapOf p q false with
  | some (r, c, w) => d.snapBegin p r c w
  | none => d

/-- Bytes read with the poisoned 512-byte slots as zeros (R288). -/
def zeroSlots (a : Nat) (b : List Byte) (lines : List Nat) : List Byte :=
  let slots := lines.map (fun l => l / 512)
  (b.zip (List.range b.length)).map (fun x => if slots.contains ((a + x.2) / 512) then 0 else x.1)

/-- FP32 parameters as the output carries them. -/
def snapData (c : Cmd) (seed : DWord) (step : Word) (first : Nat) (w : List Word) : List Byte :=
  if Snap.bf16 c then
    (w.zip (List.range w.length)).flatMap (fun x =>
      let rnd : Rnd := if Snap.sr c then .stochastic (srDraw seed (74 + Snap.what c) (dword (BitVec.ofNat 32 (first + x.2)) step))
        else .nearest
      leBytes 2 (Fmt.bf16.convert rnd false (f32 x.1)).1)
  else w.flatMap wordBytes

/-- A snapshot reads the next chunk of its present shard. -/
def Dev.snapChunk (d : Dev) (p : Fin 64) (q : Fin 4) : Dev :=
  if d.ccx.sup != .ready || d.isTripped then d
  else match d.snapOf p q true with
  | none => d
  | some (r, c, w) =>
    match w.todo with
    | [] => d
    | k :: rest =>
      match d.shard p k, w.recs.find? (fun x => x.shard == k) with
      | some s, some rc =>
        match s.allChunks[w.chunk]? with
        | none => d
        | some (ch, n) =>
          let first := s.firstOf ch n
          let a := s.chunkAt ch n + (if Snap.what c = 0 then 0x18000 else 0)
          let (d, b, bad) := d.memRead (.command r) a (4 * min 8192 (s.params - first))
          let d := match bad with | l :: _ => d.biteDev (some p) 5 0 l | [] => d
          let poisoned := !bad.isEmpty
          let d := d.ship p r c (rc.offset + Snap.elem c * first)
            (snapData c (d.part p).seed rc.step first (words32 (zeroSlots a b bad)))
          let last := w.chunk + 1 == s.allChunks.length
          let w' : SnapWork := { w with
            todo := if last then rest else w.todo
            chunk := if last then 0 else w.chunk + 1
            poison := w.poison || poisoned
            recs := if poisoned then w.recs.map (fun x => if x.shard == k then { x with poison := true } else x) else w.recs }
          let d := if last then d.setShard p k (fun s => s.flag 18 false) else d
          let d := d.setSnap r c w'
          if last && rest.isEmpty then d.snapEnd p r c w' else d
      | _, _ => d

/-! ### Transports (R321, R363) -/

/-- A child's snapshot data arrives on a tree col: it goes on towards the root (R301, R321), not in a module that fences (R326). -/
def Dev.treeForward (d : Dev) (c : Fin 16) (p : Fin 64) (a : Nat) (b : List Byte) : Dev :=
  match if d.ccx.sup = .ready then d.treeOf p else none with
  | none => d
  | some (x, y) =>
    let child : Option Nat :=
      if axisOf c = x && plusCol c then some 0 else if axisOf c = y then (if plusCol c then some 2 else some 1) else none
    match child with
    | some k => if (d.bank x).childEn k && d.colPart c == some p then d.upTree .host p a b else d
    | none => d

/-- The snapshots whose last bytes the parent may have accepted. -/
def Dev.snapsSent (d : Dev) : Dev :=
  ((List.finRange 64).flatMap d.startedOf).foldl (fun d x =>
    match x.2.work, ringPart x.1 with
    | .snapshot w, some p => if w.header && Snap.dest x.2 = 1 then d.snapSent p x.1 x.2 w else d
    | _, _ => d) d

/-- The snapshot of a target whose every write has been acknowledged goes on: its header goes last, then it completes. -/
def Dev.snapAcked (d : Dev) (t : Fin 256) : Dev :=
  ((List.finRange 64).flatMap d.startedOf).foldl (fun d x =>
    match x.2.work, ringPart x.1 with
    | .snapshot w, some p =>
      if w.begun && w.todo.isEmpty && !w.failed && snapTarget x.2 == some t && !(d.target t).reqs.any (fun q => q.ring == x.1 && q.write) then
        if w.header then d.snapFinish x.1 x.2 w
        else (d.setSnap x.1 x.2 { w with header := true }).ship p x.1 x.2 0 ((snapHeader x.2 w.recs).flatMap wordBytes)
      else d
    | _, _ => d) d

/-- An acknowledgement: every write whose last packet it covers is complete (R336). -/
def Dev.roceAck (d : Dev) (t : Fin 256) (psn : BitVec 24) : Dev :=
  let x := d.target t
  let covers (q : NetReq) : Bool := q.write && q.issued && (psn - (q.psn + BitVec.ofNat 24 (q.packets - 1))).toNat < 2 ^ 23
  if x.qp != .rts then d.offQueue t
  else if !x.reqs.any covers then d
  else (((d.updTarget t (fun x => { x with retries := 0 })).dropNetReqs t covers).pump t).snapAcked t

/-- A snapshot to storage whose last write is unacknowledged at its promise ends (R363). -/
def Dev.snapTimeout (d : Dev) (p : Fin 64) (q : Fin 4) : Dev :=
  match d.snapOf p q true with
  | some (r, c, _) =>
    match snapTarget c with
    | some t => if 192 * c.promise.toNat ≤ 10 * (d.pwr.aon - c.startTick).toNat then d.snapLost r c t else d
    | none => d
  | none => d

/-! ### Meanings -/

def execSnapshot (p : Fin 64) (q : Fin 4) (s : State) : Host.Outcome State Fault Refusal := .next { s with dev := s.dev.snapshot p q }
def execSnapshotChunkRead (p : Fin 64) (q : Fin 4) (s : State) : Host.Outcome State Fault Refusal := .next { s with dev := s.dev.snapChunk p q }
def execSnapshotWriteTimeout (p : Fin 64) (q : Fin 4) (s : State) : Host.Outcome State Fault Refusal := .next { s with dev := s.dev.snapTimeout p q }
def execSnapshotTreeForward (c : Fin 16) (p : Fin 64) (addr : Nat) (bytes : List Byte) (s : State) : Host.Outcome State Fault Refusal :=
  .next { s with dev := s.dev.treeForward c p addr bytes }
def execRoceAckReceive (tgt : Fin 256) (psn : BitVec 24) (s : State) : Host.Outcome State Fault Refusal := .next { s with dev := s.dev.roceAck tgt psn }

end Sys2Proof.Machine
end

