-- ==== Sys2Proof/Machine/Cols.lean ====
section
/-! DEFINITION. The cols (R293 to R303): flits received, kept in the input buffer and delivered, replays, retrains and lanes;
remote register writes; and the steps after which a waiting flit may be delivered. -/

namespace Sys2Proof.Machine

open Sys2Proof

/-! ### Remote register writes (R303) -/

/-- A remote register write reaches the window of the partition its col is bound to, while REG_EN is set; an unaligned one changes
nothing (R48). -/
def Dev.remoteWrite (d : Dev) (c : Fin 16) (off : Nat) (v : Word) (be : BitVec 4) : Dev :=
  match d.colPart c with
  | none => d.unbound c 0xFF
  | some p =>
    if (d.bank (axisOf c)).regEn then
      d.deliver c p (fun d => if off % 4 != 0 || !enablesOk be then d.logAccess Ev.accessAlign (.col c) off be else d.access (.col c) off v be)
    else d.unbound c p.val

/-! ### Delivery (R295, R299, R302) -/

/-- The virtual channel of a payload (R293). -/
def vcOf : Payload → Nat
  | .data _ _ => 0
  | .gather _ => 1
  | .snapshot _ _ => 1
  | .regWrite _ _ _ => 3
  | _ => 2

/-- A gather on a col: served at its owner, placed at its requester, forwarded elsewhere (R320). -/
def Dev.recvGather (d : Dev) (c : Fin 16) (m : GatherMsg) : Dev :=
  match m.data with
  | none => if (d.routeTo m.part m.dst.toNat).isNone then d.gatherServe c m else d.gatherForward c m
  | some _ => if (d.routeBack m.part m.src.toNat).isNone then d.deliver c m.part (fun d => d.gatherData m) else d.gatherForward c m

/-- A payload reaches what it is for. -/
def Dev.take (d : Dev) (c : Fin 16) (f : Flit) : Dev :=
  match f.body with
  | .data q m => d.collData c f.part q m
  | .gather m => d.recvGather c m
  | .snapshot a b => d.deliver c f.part (fun d => d.treeForward c f.part a b)
  | .remoteAdd w => d.deliver c f.part (fun d => d.recvAdd c w)
  | .group m => d.deliver c f.part (fun d => d.recvGroup c m)
  | .abort g cause => d.deliver c f.part (fun d => d.recvAbort c g cause)
  | .regWrite off v be => d.deliver c f.part (fun d => d.remoteWrite c off v be)
  | .ackOnly => d

/-- Run something under one bank of an axis: flits of the old bank are delivered under it (R299). -/
def Dev.underBank (d : Dev) (a : Fin 4) (b : Fin 2) (f : Dev → Dev) : Dev :=
  let act := (d.axis a).active
  if b = act then f d else (f (d.updAxis a (fun x => { x with active := b }))).updAxis a (fun x => { x with active := act })

def flitBank (f : Flit) : Fin 2 := if f.bank then 1 else 0

/-- Whether the module can take a flit now: not one of the new bank before the swap (R299), not a group message for which
the early-arrival table has no place (R306), not data of an op that has not started here (R311). -/
def Dev.takes (d : Dev) (c : Fin 16) (f : Flit) : Bool :=
  if (flitBank f) != (d.axis (axisOf c)).active then !(d.axis (axisOf c)).arm
  else if d.colPart c != some f.part || (d.part f.part).state == .resetting || d.ccx.sup != .ready then true
  else match f.body with
    | .group m => d.early.length < 256 || (d.abortedBy m.part m.group).isSome ||
        d.groups.any (fun r => r.takes m)
    | .data q m => (d.opFor f.part q (axisOf c) m.op).isSome || !(d.part f.part).aborted.isEmpty
    | _ => true

/-- Deliver what can be delivered of a col's input buffer, in order within each virtual channel; the flits that stay. -/
def Dev.drainFrom (d : Dev) (c : Fin 16) (blocked : List Nat) : List Flit → Dev × List Flit
  | [] => (d, [])
  | f :: rest =>
    if blocked.contains (vcOf f.body) || !d.takes c f then
      let r := d.drainFrom c (vcOf f.body :: blocked) rest
      (r.1, f :: r.2)
    else
      let d := d.underBank (axisOf c) (flitBank f) (fun d =>
        let d := if d.colPart c == some f.part then
            d.acct f.part (fun a => { a with colRecv := a.colRecv + BitVec.ofNat 64 flitBytes }) else d
        d.take c f)
      Dev.drainFrom d c blocked rest

def Dev.drainCol (d : Dev) (c : Fin 16) : Dev :=
  let l := (d.col c).rxWait
  let r := (d.updCol c (fun k => { k with rxWait := [] })).drainFrom c [] l
  r.1.updCol c (fun k => { k with rxWait := r.2 ++ k.rxWait })

/-- Deliver what waits on every col. -/
def Dev.drainCols (d : Dev) : Dev := (List.finRange 16).foldl (fun d c => if (d.col c).rxWait.isEmpty then d else d.drainCol c) d

/-! ### The retry layer (R294) -/

def Col.trained (k : Col) : Bool := k.state == .ready || k.state == .active

/-- The receiver asks for the flits from the one it expects on. -/
def Dev.askReplay (d : Dev) (c : Fin 16) : Dev :=
  let n := (d.col c).rxSeq
  { (d.updCol c (fun k => { k with asked := true })) with out := { d.out with naks := (c, n) :: d.out.naks } }

/-- The sender's number of the first flit it has not received is an acknowledgement: snapshots may complete (R294, R321). -/
def Dev.ackedBy (d : Dev) (c : Fin 16) (n : Nat) : Dev := (d.acked c n).snapsSent

/-- A flit arrives: a bad one, or one out of sequence, is discarded and a replay asked for; a repeated one is discarded; one in
sequence is acknowledged (log entry 48). -/
def Dev.recvFlit (d : Dev) (c : Fin 16) (f : Flit) : Dev :=
  if !(d.col c).trained then d
  else if !f.crcOk then d.askReplay c
  else
    let d := d.ackedBy c f.ack
    let n := (d.col c).rxSeq
    if f.body = .ackOnly || f.seq < n then d
    else if f.seq != n then (if (d.col c).asked then d else d.askReplay c)
    else
      ((d.updCol c (fun k => { k with rxSeq := n + 1, asked := false, bank := f.bank, rxWait := k.rxWait ++ [f] })).sendAck c).drainCol c

/-- The ticks of 1 ms (R8). -/
def msTicks : Nat := 19200

/-- The replays of the last 1 ms. -/
def Col.replaysIn (k : Col) (now : DWord) : Nat := (k.recent.filter (fun t => (now - t).toNat < msTicks)).length

/-- Resend every flit that is not acknowledged; then what waited for a place leaves. -/
def Dev.resendFlits (d : Dev) (c : Fin 16) : Dev :=
  let k := d.col c
  ({ d with out := { d.out with
      cols := (k.unacked.map (fun f => (c, { f with ack := k.rxSeq }))).reverse ++ d.out.cols } } : Dev).pumpCol c

/-- A replay request: the flits before `n` have arrived. -/
def Dev.replay (d : Dev) (c : Fin 16) (n : Nat) : Dev :=
  if !(d.col c).trained then d
  else
    ((d.updCol c (fun k => { k with
      unacked := k.unacked.filter (fun f => n ≤ f.seq)
      replays := satInc k.replays
      recent := d.pwr.aon :: k.recent.filter (fun t => (d.pwr.aon - t).toNat < msTicks) })).resendFlits c).snapsSent

/-! ### Training (R296, R297) -/

/-- More than 32 replays within 1 ms: the col retrains with its equalisation kept. -/
def Dev.fastRetrain (d : Dev) (c : Fin 16) : Dev :=
  let n := (d.col c).replaysIn d.pwr.aon
  if (d.col c).trained && 32 < n then
    (d.updCol c (fun k => { k with state := .training, fast := true })).log Ev.colDegraded (ownerByte (d.axisPart (axisOf c))) c.val
      (BitVec.ofNat 32 n) 0 0
  else d

/-- A fast retrain ends within 100 µs and the col carries on, or it goes DOWN. -/
def Dev.retrainDone (d : Dev) (c : Fin 16) (ok : Bool) : Dev :=
  if (d.col c).state = .training && (d.col c).fast then
    if ok then
      ((d.updCol c (fun k => { k with state := .ready, fast := false, recent := [] })).settleCol c).resendFlits c
    else d.colDown c 1
  else d

/-- Lanes are lost: `lanes` are those still up. -/
def Dev.laneLoss (d : Dev) (c : Fin 16) (lanes : Byte) : Dev :=
  if lanes = 0xFF || (d.col c).state = .down then d
  else (d.updCol c (fun k => { k with lanes := lanes })).colDown c 2

/-- A full training ends: READY, all lanes up; ACTIVE when the active bank names the col. -/
def Dev.colReady (d : Dev) (c : Fin 16) : Dev :=
  let k := d.col c
  if !k.disable && (k.state = .down || (k.state = .training && !k.fast)) then
    ((d.updCol c (fun k => { k with state := .ready, lanes := 0xFF, fast := false })).settleCol c).pumpCol c
  else d

/-! ### Meanings -/

def execColFlitReceive (c : Fin 16) (f : Flit) (s : State) : Host.Outcome State Fault Refusal := .next { s with dev := s.dev.recvFlit c f }
def execColReplay (c : Fin 16) (acked : Nat) (s : State) : Host.Outcome State Fault Refusal := .next { s with dev := s.dev.replay c acked }
def execColFastRetrain (c : Fin 16) (s : State) : Host.Outcome State Fault Refusal := .next { s with dev := s.dev.fastRetrain c }
def execColRetrainDone (c : Fin 16) (ok : Bool) (s : State) : Host.Outcome State Fault Refusal := .next { s with dev := s.dev.retrainDone c ok }
def execColLaneLoss (c : Fin 16) (lanes : Byte) (s : State) : Host.Outcome State Fault Refusal := .next { s with dev := s.dev.laneLoss c lanes }
def execColReady (c : Fin 16) (s : State) : Host.Outcome State Fault Refusal := .next { s with dev := s.dev.colReady c }
def execRemoteRegisterWrite (c : Fin 16) (off : Nat) (val : Word) (be : BitVec 4) (s : State) : Host.Outcome State Fault Refusal :=
  .next { s with dev := s.dev.remoteWrite c off val be }
def execBarrierArrival (i t : Fin 64) (s : State) : Host.Outcome State Fault Refusal := .next { s with dev := (s.dev.hubArrival i t).drainCols }
def execBarrierComplete (b : Fin 32) (s : State) : Host.Outcome State Fault Refusal := .next { s with dev := (s.dev.barComplete b).drainCols }
def execCollectiveArrivalSend (p : Fin 64) (q : Fin 4) (s : State) : Host.Outcome State Fault Refusal :=
  .next { s with dev := (s.dev.collArrive p q).drainCols }
def execCollectiveOpStart (p : Fin 64) (q : Fin 4) (s : State) : Host.Outcome State Fault Refusal :=
  .next { s with dev := (s.dev.collOpStart p q).drainCols }

end Sys2Proof.Machine
end

