-- ==== Sys2Proof/Machine/Samples.lean ====
section
/-! DEFINITION. What a sample becomes (R340, R344 to R350, R169 to R174): the fields of layouts, entries and stem descriptors,
the sizes they imply, pictures through colour, crop, resize and patches or the stem engine, and sound. -/

namespace Sys2Proof.Machine

open Sys2Proof

def roundUp (k n : Nat) : Nat := (n + k - 1) / k * k

/-! ### The layout record (R344) -/

namespace Lay
abbrev L := Tab Word 64
def kind (t : L) : Nat := bits (wd t 0) 0 4
def outFmt (t : L) : Nat := bits (wd t 0) 4 4
def rnd (t : L) : Nat := bits (wd t 0) 8 2
def sat (t : L) : Bool := bit (wd t 0) 10
def grain (t : L) : Bool := bit (wd t 0) 11
def defMatrix (t : L) : Nat := bits (wd t 0) 12 2
def defFull (t : L) : Bool := bit (wd t 0) 14
def outW (t : L) : Nat := bits (wd t 1) 0 16
def outH (t : L) : Nat := bits (wd t 1) 16 16
def outCount (t : L) : Nat := bits (wd t 2) 0 8
def pt (t : L) : Nat := bits (wd t 2) 8 8
def ph (t : L) : Nat := bits (wd t 2) 16 8
def pw (t : L) : Nat := bits (wd t 2) 24 8
def mean (t : L) (c : Nat) : Word := wd t (3 + c)
def invStd (t : L) (c : Nat) : Word := wd t (6 + c)
def outRate (t : L) : Nat := bits (wd t 9) 0 24
def outSamples (t : L) : Nat := bits (wd t 10) 0 24
def chSel (t : L) : Nat := bits (wd t 10) 24 8
def win (t : L) : Nat := bits (wd t 11) 0 16
def hop (t : L) : Nat := bits (wd t 11) 16 16
def nfft (t : L) : Nat := bits (wd t 12) 0 16
def nmel (t : L) : Nat := bits (wd t 12) 16 9
def fmin (t : L) : Word := wd t 13
def fmax (t : L) : Word := wd t 14
def floor (t : L) : Word := wd t 15
def dest (t : L) : LocWord := { w := wd64 t 16 }
def stride (t : L) : Nat := (wd t 18).toNat
def slotBytes (t : L) : Nat := (wd t 19).toNat
def manifest (t : L) : DWord := wd64 t 20
def resTbl (t : L) : Nat := (wd64 t 22).toNat
def bsBuf (t : L) : Nat := (wd64 t 24).toNat
def bsSize (t : L) : Nat := (wd t 26).toNat
def daleS (t : L) : Nat := bits (wd t 27) 0 4
def stemPtr (t : L) : Nat := (wd64 t 28).toNat
def seed (t : L) : DWord := wd64 t 30
def pcmRate (t : L) : Nat := bits (wd t 32) 0 24
def pcmCh (t : L) : Nat := bits (wd t 32) 24 4
def pcmType (t : L) : Nat := bits (wd t 32) 28 2
def video (t : L) : Bool := kind t ≤ 1
def picture (t : L) : Bool := kind t ≤ 3
def stem (t : L) : Bool := kind t == 1 || kind t == 3
end Lay

/-! ### Sample-list entries (R345) -/

namespace Ent
abbrev T := Tab Word 16
def id (t : T) : DWord := wd64 t 0
def codec (t : T) : Nat := bits (wd t 2) 0 4
def cls (t : T) : Nat := bits (wd t 2) 4 4
def reserve (t : T) : Bool := bit (wd t 2) 8
def src (t : T) : Nat := bits (wd t 2) 9 2
def target (t : T) : Nat := bits (wd t 2) 16 8
def slot (t : T) : Nat := bits (wd t 3) 0 12
def srcAddr (t : T) : Nat := (wd64 t 4).toNat
def srcBytes (t : T) : Nat := (wd t 6).toNat
def maxW (t : T) : Nat := bits (wd t 7) 0 16
def maxH (t : T) : Nat := bits (wd t 7) 16 16
def decFrames (t : T) : Nat := bits (wd t 8) 0 16
def outFirst (t : T) : Nat := bits (wd t 8) 16 16
def start (t : T) : Nat := (wd t 8).toNat
def outStep (t : T) : Nat := bits (wd t 9) 0 8
def cropX (t : T) : Nat := bits (wd t 10) 0 16
def cropY (t : T) : Nat := bits (wd t 10) 16 16
def cropW (t : T) : Nat := bits (wd t 11) 0 16
def cropH (t : T) : Nat := bits (wd t 11) 16 16
def rot (t : T) : Nat := bits (wd t 12) 0 2
def flip (t : T) : Bool := bit (wd t 12) 2
end Ent

/-! ### The stem descriptor (R169) -/

namespace Stem
abbrev T := Tab Word 16
def mode (t : T) : Nat := bits (wd t 0) 0 2
def stride (t : T) : Nat := 2 ^ bits (wd t 0) 2 2
def kh (t : T) : Nat := bits (wd t 0) 4 3
def kw (t : T) : Nat := bits (wd t 0) 7 3
def s (t : T) : Nat := 2 ^ bits (wd t 0) 10 2
def biasEn (t : T) : Bool := bit (wd t 0) 12
def ci (t : T) : Nat := bits (wd t 1) 0 5
def co (t : T) : Nat := bits (wd t 1) 5 7
def fmtOut (t : T) : Nat := bits (wd t 1) 12 4
def rnd (t : T) : Nat := bits (wd t 1) 16 2
def sat (t : T) : Bool := bit (wd t 1) 18
def border (t : T) : Nat := bits (wd t 1) 19 2
def weights (t : T) : Nat := (wd64 t 2).toNat
def bias (t : T) : Nat := (wd64 t 4).toNat
def seed (t : T) : DWord := wd64 t 6
def inW (t : T) : Nat := bits (wd t 8) 0 16
def inH (t : T) : Nat := bits (wd t 8) 16 16
/-- σ of R170: LAST convolves at stride 1, whatever STRIDE holds. -/
def sigma (t : T) : Nat := if mode t = 1 then 1 else stride t
/-- The convolution output: ceil(IN / σ). -/
def outW (t : T) : Nat := (inW t + sigma t - 1) / sigma t
def outH (t : T) : Nat := (inH t + sigma t - 1) / sigma t
/-- The pixels of LAST's source tensor, which its regrouping makes IN_W by IN_H. -/
def srcW (t : T) : Nat := (inW t + s t - 1) / s t
def srcH (t : T) : Nat := (inH t + s t - 1) / s t
/-- The map whose tiles are written: its width, height and channels. -/
def mapW (t : T) : Nat := if mode t = 1 then outW t else (outW t + s t - 1) / s t
def mapH (t : T) : Nat := if mode t = 1 then outH t else (outH t + s t - 1) / s t
def mapC (t : T) : Nat := if mode t = 1 then ci t else co t * s t * s t
def tiles (t : T) : Nat := if mode t = 2 then 1 else (mapW t + 127) / 128
/-- The elements of a PATCH row, padded (R173). -/
def rowElems (t : T) : Nat := roundUp 512 (s t * s t * kh t * kw t * ci t)
def tileW (t : T) : Nat := 128 + 2 * border t
def tileH (t : T) : Nat := mapH t + 2 * border t
/-- The elements that one frame writes to one destination plain, and their format. -/
def tileElems (t : T) : Nat := if mode t = 2 then roundUp 128 (mapW t * mapH t) * rowElems t else tileW t * tileH t * mapC t
def fmt (t : T) : Nat := if mode t = 2 then 1 else fmtOut t
end Stem

/-! ### What a slot holds (R349) -/

/-- The elements of a token row, and the tokens of a slot. -/
def Lay.rowElems (l : Lay.L) : Nat := roundUp 128 (Lay.pt l * Lay.ph l * Lay.pw l * 3)
def Lay.tokens (l : Lay.L) : Nat :=
  roundUp 128 (Lay.outCount l / Lay.pt l * (Lay.outH l / Lay.ph l) * (Lay.outW l / Lay.pw l))
/-- The frames of an AUDIO_MEL slot. -/
def Lay.melFrames (l : Lay.L) : Nat := if Lay.outSamples l < Lay.win l then 0 else 1 + (Lay.outSamples l - Lay.win l) / Lay.hop l

/-- The destination plains of a slot, the pieces it writes to each, and the elements and format of a piece. -/
def slotPlains (l : Lay.L) (st : Stem.T) : Nat := if Lay.stem l then Stem.tiles st else 1
def slotFrames (l : Lay.L) : Nat := if Lay.stem l then Lay.outCount l else 1
def pieceElems (l : Lay.L) (st : Stem.T) : Nat :=
  match Lay.kind l with
  | 0 => Lay.tokens l * Lay.rowElems l
  | 2 => Lay.tokens l * Lay.rowElems l
  | 4 => Lay.melFrames l * roundUp 128 (Lay.nmel l)
  | 5 => roundUp 512 (Lay.outSamples l)
  | _ => Stem.tileElems st
def pieceFmt (l : Lay.L) (st : Stem.T) : Nat := if Lay.stem l then Stem.fmt st else Lay.outFmt l
def pieceBytes (l : Lay.L) (st : Stem.T) : Nat := pieceElems l st * elemBits (pieceFmt l st) / 8
/-- SLOT_BYTES as the layout implies it, and the bytes of a slot over all destinations. -/
def slotSize (l : Lay.L) (st : Stem.T) : Nat := slotFrames l * pieceBytes l st
def slotTotal (l : Lay.L) (st : Stem.T) : Nat := slotPlains l st * slotSize l st
/-- The elements of one slot. -/
def slotElems (l : Lay.L) (st : Stem.T) : Nat := slotPlains l st * slotFrames l * pieceElems l st

/-! ### Pictures (R347, R348) -/

/-- A picture in the pipeline: its size, and channel `c` of the pixel in column `x` of row `y`. -/
structure Frm where
  w  : Nat
  h  : Nat
  px : Nat → Nat → Nat → Word

/-- Colour conversion; chroma is upsampled by replication. -/
def frameOf (l : Lay.L) (p : Picture) : Frm :=
  let plane (k i : Nat) : Nat := (p.planes.getD k []).getD i 0
  let (m, full) := p.matrix.getD (Lay.defMatrix l, Lay.defFull l)
  { w := p.w, h := p.h
    px := fun x y c =>
      let ch := y * p.ch / p.h * p.cw + x * p.cw / p.w
      if p.rgb then Config.fromRgb p.depth (if c = 0 then plane 0 (y * p.w + x) else plane c ch)
      else
        let v := Config.toRgb m full p.depth (plane 0 (y * p.w + x)) (plane 1 ch) (plane 2 ch)
        if c = 0 then v.1 else if c = 1 then v.2.1 else v.2.2 }

def Frm.crop (f : Frm) (x0 y0 w h : Nat) : Frm := { w := w, h := h, px := fun x y c => f.px (x + x0) (y + y0) c }
/-- A quarter turn clockwise. -/
def Frm.turn (f : Frm) : Frm := { w := f.h, h := f.w, px := fun x y c => f.px y (f.h - 1 - x) c }
def Frm.mirror (f : Frm) : Frm := { f with px := fun x y c => f.px (f.w - 1 - x) y c }
def Frm.turns : Nat → Frm → Frm
  | 0, f => f
  | n + 1, f => Frm.turns n f.turn

/-- One axis of the resize: output `x` of `out` from `inn` inputs. -/
def resizeAxis (inn out : Nat) (get : Nat → Word) (x : Nat) : Word :=
  if inn ≤ 2 * out then
    let num : Int := (2 * x + 1 : Nat) * (inn : Int) - out
    let den : Int := 2 * out
    let i := num / den
    let at' (k : Int) : Word := get (min (max k 0) ((inn : Int) - 1)).toNat
    Config.lerp (num - i * den).toNat den.toNat (at' i) (at' (i + 1))
  else
    let ks := (List.range inn).filter (fun i => 2 * x * inn ≤ (2 * i + 1) * out && (2 * i + 1) * out < 2 * (x + 1) * inn)
    fdiv (sumUp (ks.map get)) (f32OfNat ks.length)

def Frm.resize (f : Frm) (w h : Nat) : Frm :=
  { w := w, h := h
    px := fun x y c => resizeAxis f.h h (fun r => resizeAxis f.w w (fun k => f.px k r c) x) y }

def Frm.normalise (f : Frm) (l : Lay.L) : Frm :=
  { f with px := fun x y c => fmul (fsub (f.px x y c) (Lay.mean l c)) (Lay.invStd l c) }

/-- Whether an entry's crop lies in a picture; a size of 0 is the whole picture. -/
def cropOk (e : Ent.T) (p : Picture) : Bool :=
  Ent.cropW e == 0 || Ent.cropH e == 0 || (Ent.cropX e + Ent.cropW e ≤ p.w && Ent.cropY e + Ent.cropH e ≤ p.h)

/-- Steps 3 to 5 of R347. -/
def prepared (l : Lay.L) (e : Ent.T) (p : Picture) : Frm :=
  let f := frameOf l p
  let f := if Ent.cropW e = 0 || Ent.cropH e = 0 then f else f.crop (Ent.cropX e) (Ent.cropY e) (Ent.cropW e) (Ent.cropH e)
  let f := Frm.turns (Ent.rot e) f
  let f := if Ent.flip e then f.mirror else f
  (f.resize (Lay.outW l) (Lay.outH l)).normalise l

/-! ### Elements of a slot -/

/-- Element `e` of a slot converted to OUT_FMT. -/
def slotCode (l : Lay.L) (base e : Nat) (fmt : Nat) (w : Word) : Nat :=
  let r : Rnd := match Lay.rnd l with
    | 1 => .stochastic (srDraw (Lay.seed l) 2 (BitVec.ofNat 64 (base + e)))
    | 2 => .zero
    | _ => .nearest
  ((fmtOf fmt).convert r (Lay.sat l) (f32 w)).1

/-- The bytes of a slot's elements in address order; `base` is the number of the first one among all draws. -/
def slotBytesOf (l : Lay.L) (base : Nat) (ws : List Word) : List Byte :=
  pack (Lay.outFmt l) ((ws.zip (List.range ws.length)).map (fun x => slotCode l base x.2 (Lay.outFmt l) x.1))

def padTo (n : Nat) (l : List Word) : List Word := l ++ List.replicate (n - l.length) 0

/-- The token rows of PATCH kinds. -/
def patchRows (l : Lay.L) (fs : List Frm) : List Word :=
  let rows := (List.range (Lay.outCount l / Lay.pt l)).flatMap (fun g =>
    (List.range (Lay.outH l / Lay.ph l)).flatMap (fun r => (List.range (Lay.outW l / Lay.pw l)).map (fun k =>
      padTo (Lay.rowElems l) ((List.range (Lay.pt l)).flatMap (fun t => (List.range (Lay.ph l)).flatMap (fun py =>
        (List.range (Lay.pw l)).flatMap (fun px => (List.range 3).map (fun c =>
          match fs[g * Lay.pt l + t]? with
          | some f => f.px (k * Lay.pw l + px) (r * Lay.ph l + py) c
          | none => 0))))))))
  padTo (Lay.tokens l * Lay.rowElems l) rows.flatten

/-! ### The stem engine (R170 to R174) -/

/-- What the stem engine reads: channel `c` of an input position, 0 outside the picture. -/
abbrev StemIn := Int → Int → Nat → Word

def StemIn.of (w h : Nat) (px : Nat → Nat → Nat → Word) : StemIn := fun x y c =>
  if 0 ≤ x && x < (w : Int) && 0 ≤ y && y < (h : Int) then px x.toNat y.toNat c else 0

/-- The input that tap (ky, kx) of output (ox, oy) reads. -/
def stemTap (t : Stem.T) (inp : StemIn) (ox oy ky kx c : Nat) : Word :=
  inp ((ox * Stem.sigma t : Nat) + (kx : Int) - ((Stem.kw t - 1) / 2 : Nat)) ((oy * Stem.sigma t : Nat) + (ky : Int) - ((Stem.kh t - 1) / 2 : Nat)) c

/-- The weights and biases of a stem, widened to FP32. -/
structure StemW where
  w : List Word
  b : List Word
deriving DecidableEq, Repr

/-- One output element: the bias, then the products in ascending ky, kx and input channel (R172). -/
def stemConv (t : Stem.T) (sw : StemW) (inp : StemIn) (ox oy o : Nat) : Word :=
  let ins := if Stem.mode t = 1 then Stem.co t else Stem.ci t
  (List.range (Stem.kh t)).foldl (fun a ky => (List.range (Stem.kw t)).foldl (fun a kx => (List.range ins).foldl (fun a c =>
    fadd a (fmul (stemTap t inp ox oy ky kx c) (sw.w.getD (((o * Stem.kh t + ky) * Stem.kw t + kx) * ins + c) 0))) a) a)
    (if Stem.biasEn t then sw.b.getD o 0 else 0)

/-- Channel `c` of the map's pixel (x, y). -/
def stemMap (t : Stem.T) (sw : StemW) (inp : StemIn) (x y c : Nat) : Word :=
  if Stem.mode t = 1 then stemConv t sw inp x y c
  else
    let s := Stem.s t
    let g := c / Stem.co t
    let ox := s * x + g % s
    let oy := s * y + g / s
    if ox < Stem.outW t && oy < Stem.outH t then stemConv t sw inp ox oy (c % Stem.co t) else 0

/-- The elements of tile `j`: its rows, their pixels and channels, with the border (R174). -/
def stemTile (t : Stem.T) (sw : StemW) (inp : StemIn) (j : Nat) : List Word :=
  (List.range (Stem.tileH t)).flatMap (fun y => (List.range (Stem.tileW t)).flatMap (fun x =>
    let mx := 128 * j + x
    (List.range (Stem.mapC t)).map (fun c =>
      if Stem.border t ≤ mx && mx < Stem.mapW t + Stem.border t && Stem.border t ≤ y && y < Stem.mapH t + Stem.border t then
        stemMap t sw inp (mx - Stem.border t) (y - Stem.border t) c else 0)))

/-- The rows of PATCH mode (R173). -/
def stemPatch (t : Stem.T) (inp : StemIn) : List Word :=
  let s := Stem.s t
  padTo (Stem.tileElems t) ((List.range (Stem.mapH t)).flatMap (fun y => (List.range (Stem.mapW t)).flatMap (fun x =>
    padTo (Stem.rowElems t) ((List.range s).flatMap (fun dy => (List.range s).flatMap (fun dx =>
      (List.range (Stem.kh t)).flatMap (fun ky => (List.range (Stem.kw t)).flatMap (fun kx => (List.range (Stem.ci t)).map (fun c =>
        if s * x + dx < Stem.outW t && s * y + dy < Stem.outH t then stemTap t inp (s * x + dx) (s * y + dy) ky kx c else 0)))))))))

/-- The bytes that one frame writes to destination plain `j`; `n` numbers its first element among the job's output. PATCH writes
the BF16 values that it read as they are (R173). -/
def stemPiece (t : Stem.T) (sw : StemW) (inp : StemIn) (j n : Nat) : List Byte :=
  let ws := if Stem.mode t = 2 then stemPatch t inp else stemTile t sw inp j
  let code (k : Nat) (w : Word) : Nat :=
    let r : Rnd := match Stem.rnd t with
      | 1 => .stochastic (srDraw (Stem.seed t) 0 (BitVec.ofNat 64 (n + k)))
      | 2 => .zero
      | _ => .nearest
    if Stem.mode t = 2 then w.toNat / 65536 else ((fmtOf (Stem.fmt t)).convert r (Stem.sat t) (f32 w)).1
  pack (Stem.fmt t) ((ws.zip (List.range ws.length)).map (fun x => code x.2 x.1))

/-- The pieces of a slot of a STEM kind, destination plain by destination plain: draws count in the order of the destination's
addresses over the whole job of `b` slots. -/
def stemSlot (l : Lay.L) (t : Stem.T) (sw : StemW) (b slot : Nat) (ins : List StemIn) : List Byte :=
  (List.range (slotPlains l t)).flatMap (fun j => (ins.zip (List.range ins.length)).flatMap (fun x =>
    stemPiece t sw x.1 j ((j * b * Lay.outCount l + slot * Lay.outCount l + x.2) * Stem.tileElems t)))

/-- The job's BF16 picture (R170): the prepared frame `k` of a slot, converted. -/
def stemPicture (l : Lay.L) (slot k : Nat) (f : Frm) : StemIn :=
  StemIn.of f.w f.h (fun x y c =>
    if c < 3 then widen16 (slotCode l (slot * (Lay.outCount l * f.w * f.h * 3)) (((k * f.h + y) * f.w + x) * 3 + c) 1 (f.px x y c)) else 0)

/-- LAST's source: tensor `k` of the sample's bytes, BF16, regrouped depth to space to the picture of IN_W by IN_H that it
convolves (R170). -/
def stemTensor (t : Stem.T) (b : List Byte) (k : Nat) : StemIn :=
  let v := halves b
  let s := Stem.s t
  let ch := Stem.co t * s * s
  StemIn.of (Stem.inW t) (Stem.inH t) (fun x y c =>
    v.getD (((k * Stem.srcH t + y / s) * Stem.srcW t + x / s) * ch + ((y % s) * s + x % s) * Stem.co t + c) 0)

/-! ### Sound (R349) -/

/-- PCM samples by channel. -/
def pcmSound (l : Lay.L) (b : List Byte) : List (List Word) :=
  let size := match Lay.pcmType l with | 0 => 2 | 1 => 3 | _ => 4
  let v := (chunked size b).map (fun x =>
    if size = 4 then BitVec.ofNat 32 (leNat x) else Config.fromPcm (8 * size) (leNat x))
  let n := Lay.pcmCh l
  (List.range n).map (fun c => ((v.zip (List.range v.length)).filter (fun x => x.2 % n == c)).map (·.1))

/-- The mean of the channels in CH_SEL; `free` stands for a mean of none. -/
def monoOf (l : Lay.L) (ch : List (List Word)) (free : Word) : List Word :=
  let sel := ((ch.zip (List.range ch.length)).filter (fun x => Lay.chSel l / 2 ^ x.2 % 2 == 1)).map (·.1)
  (List.range ((ch.map List.length).foldl max 0)).map (fun k =>
    if sel.isEmpty then free else fdiv (sumUp (sel.map (fun x => x.getD k 0))) (f32OfNat sel.length))

/-- The elements of a slot of an AUDIO kind. -/
def soundSlot (l : Lay.L) (rate : Nat) (e : Ent.T) (mono : List Word) : List Word × Bool :=
  let y := (Config.resample rate (Lay.outRate l) mono).drop (Ent.start e)
  let n := Lay.outSamples l
  let s := padTo n (y.take n)
  let out := if Lay.kind l = 5 then padTo (roundUp 512 n) s
    else (List.range (Lay.melFrames l)).flatMap (fun k =>
      padTo (roundUp 128 (Lay.nmel l)) ((Config.melEnergy (Lay.outRate l) (Lay.nfft l) (Lay.nmel l) (Lay.fmin l) (Lay.fmax l)
        ((s.drop (k * Lay.hop l)).take (Lay.win l))).map (fun x => Config.ln32 (fmaxProp x (Lay.floor l)))))
  (out, y.length < n)

/-! ### One sample (R347, R350) -/

/-- The display-order frames of an entry. -/
def frameAt (e : Ent.T) (k : Nat) : Nat := Ent.outFirst e + k * Ent.outStep e

/-- The frames of decoded pictures, or the cause that makes the sample corrupt. -/
def pickFrames (l : Lay.L) (e : Ent.T) (ps : List Picture) : Except (BitVec 4) (List Frm) :=
  let idx := (List.range (Lay.outCount l)).map (frameAt e)
  let last := frameAt e (Lay.outCount l - 1)
  let late := match ps[last]? with | some p => Lay.video l && Ent.decFrames e < p.coded | none => false
  if ps.any (fun p => Ent.maxW e < p.w || Ent.maxH e < p.h) || late then .error 6
  else if idx.any (fun k => ps.length ≤ k) then .error 7
  else
    let fs := idx.filterMap (fun k => ps[k]?)
    if fs.all (cropOk e) then .ok (fs.map (prepared l e)) else .error 8

/-- The bytes of a sample's slot, with whether its audio was padded. -/
def sampleOut (l : Lay.L) (t : Stem.T) (sw : StemW) (b : Nat) (e : Ent.T) (free : Word) (data : List Byte) :
    Except (BitVec 4) (List Byte × Bool) :=
  let slot := Ent.slot e
  if Lay.stem l && Stem.mode t = 1 then
    .ok (stemSlot l t sw b slot ((List.range (Lay.outCount l)).map (stemTensor t data)), false)
  else
    let dec := if Ent.codec e = 8 then .sound (Lay.pcmRate l) (pcmSound l data)
      else Config.decode (Ent.codec e) (Lay.grain l) (Ent.decFrames e) data
    match dec with
    | .unsupported => .error 4
    | .bitstream => .error 5
    | .pictures ps =>
      if !Lay.picture l then .error 4
      else match pickFrames l e ps with
        | .error c => .error c
        | .ok fs =>
          if Lay.stem l then .ok (stemSlot l t sw b slot ((fs.zip (List.range fs.length)).map (fun x => stemPicture l slot x.2 x.1)), false)
          else .ok (slotBytesOf l (slot * slotElems l t) (patchRows l fs), false)
    | .sound rate ch =>
      if Lay.picture l then .error 4
      else
        let r := soundSlot l rate e (monoOf l ch free)
        .ok (slotBytesOf l (slot * slotElems l t) r.1, r.2)

end Sys2Proof.Machine
end

