-- ==== Sys2Proof/Machine/Media.lean ====
section
/-! DEFINITION. SAMPLE_JOB (R343 to R358): sources read, samples decoded and written, the close with its reserve rings and
manifest; and ENCODE (R359 to R362, R366). -/

namespace Sys2Proof.Machine

open Sys2Proof

/-! ### A job's sources (R336, R343, R347) -/

namespace Job
def slots (c : Cmd) : Nat := bits (wd c.words 8) 0 13
def budget (c : Cmd) : Nat := bits (wd c.words 9) 0 24
def layout (c : Cmd) : Nat := (wd64 c.words 10).toNat
def wait (c : Cmd) : Word := wd c.words 12
def post (c : Cmd) : Word := wd c.words 13
end Job

/-- PTR of a descriptor, whether it is a host address, and PTR_COUNT (R67). -/
def Cmd.ptr (c : Cmd) : Nat := (wd64 c.words 2).toNat
def Cmd.ptrHost (c : Cmd) : Bool := bit (wd c.words 4) 0
def Cmd.ptrCount (c : Cmd) : Nat := bits (wd c.words 4) 16 16

/-- Words of host or device memory, as they stand. -/
def Dev.peek (d : Dev) (host : Bool) (a n : Nat) : Tab Word n := readTab (if host then d.hostMem else d.mem) a n

/-- Bytes that a command reads from host or device memory, accounted, with their marks. -/
def Dev.fetchBytes (d : Dev) (r : RingId) (host : Bool) (a n : Nat) : Dev × List MByte :=
  if host then
    let d := match ringPart r with | some p => d.acct p (fun x => x.host n false) | none => d
    (d, (readBytes d.hostMem a n).map (fun b => (b, false)))
  else d.locRead (.command r) .dev a n

/-- Bytes that a command writes to host or device memory. -/
def Dev.putBytes (d : Dev) (r : RingId) (host : Bool) (a : Nat) (b : List MByte) : Dev :=
  if host then d.hostWrite (ringPart r) a (b.map (·.1)) else d.locWrite (.command r) .dev a b

def clean (b : List Byte) : List MByte := b.map (fun x => (x, false))

/-- An address whose bit 63 selects host memory. -/
def hostBit (a : DWord) : Bool × Nat := (2 ^ 63 ≤ a.toNat, a.toNat % 2 ^ 63)

/-- The reserve ring header of a class, none when the class has no ring (R344, R351). -/
def Dev.ringHeader (d : Dev) (l : Lay.L) (cls : Nat) : Option Nat :=
  if Lay.resTbl l = 0 then none
  else
    let a := (wd64 (d.peek false (Lay.resTbl l + 8 * cls) 2) 0).toNat
    if a = 0 then none else some a

/-- The stem descriptor of a job. -/
def Dev.stemAt (d : Dev) (l : Lay.L) : Stem.T := d.peek false (Lay.stemPtr l) 16

/-- The SAMPLE_JOB of a ring. -/
def Dev.jobOf (d : Dev) (p : Fin 64) (q : Fin 4) (begun : Bool) : Option (RingId × Cmd × SampleWork) :=
  let r : RingId := { fn := .vf p, q := q }
  if d.ccx.sup != .ready || d.isTripped then none
  else (d.ring r).cmds.findSome? (fun c => match c.work with
    | .sample w => if c.stage == .started && w.begun == begun then some (r, c, w) else none
    | _ => none)

def Dev.updJob (d : Dev) (r : RingId) (i : BitVec 16) (f : SampleWork → SampleWork) : Dev :=
  d.updCmd r i (fun c => match c.work with
    | .sample w => { c with work := .sample (f w) }
    | _ => c)
def Dev.updEntry (d : Dev) (r : RingId) (i : BitVec 16) (k : Nat) (f : Sample → Sample) : Dev :=
  d.updJob r i (fun w => { w with samples := w.samples.modify k f })

/-- The samples of a list, their bytes one after another in BS_BUF. -/
def samplesOf : Nat → List (Tab Word 16) → List Sample
  | _, [] => []
  | off, t :: rest =>
    { words := t, at' := off, arrived := 0, state := .reading, engine := none, since := 0, last := 0, moved := false, short := false
      output := [] } :: samplesOf (off + Ent.srcBytes t) rest

/-- START of a SAMPLE_JOB: its list, its layout and the HEAD and TAIL of its reserve rings are read (R352). -/
def Dev.jobStart (d : Dev) (r : RingId) (c : Cmd) : Dev :=
  let (d, _) := d.fetchBytes r c.ptrHost c.ptr (64 * c.ptrCount)
  let list := (List.range c.ptrCount).map (fun k => (d.peek c.ptrHost (c.ptr + 64 * k) 16 : Tab Word 16))
  let (d, _) := d.fetchBytes r false (Job.layout c) 256
  let l : Lay.L := d.peek false (Job.layout c) 64
  let heads := ((List.range 16).filter (fun k => list.any (fun t => Ent.cls t == k))).filterMap (fun k =>
    (d.ringHeader l k).map (fun a => (k, wd (d.peek false (a + 0x10) 2) 0, wd (d.peek false (a + 0x10) 2) 1)))
  d.updJob r c.index (fun w => { w with layout := l, samples := samplesOf 0 list, heads := heads })

/-- SAMPLE_JOB begins: it issues its network reads. -/
def Dev.jobBegin (d : Dev) (p : Fin 64) (q : Fin 4) : Dev :=
  match d.jobOf p q false with
  | none => d
  | some (r, c, w) =>
    (d.updJob r c.index (fun w => { w with begun := true })).each (w.samples.zip (List.range w.samples.length)) (fun d x =>
      match Ent.src x.1.words, finOf 256 (Ent.target x.1.words) with
      | 0, some t => d.queueReqs t (sampleReads r x.2 (Ent.srcAddr x.1.words) (Ent.srcBytes x.1.words / 2 ^ 20 + 1) 0 (Ent.srcBytes x.1.words))
      | _, _ => d)

/-- A sample goes to the working engine with the least queued work (R357). -/
def Dev.assign (d : Dev) (r : RingId) (i : BitVec 16) (k : Nat) : Dev :=
  match d.bestEngine with
  | some e => (((d.wantClock (mediaDom e)).wantClock sampleDom).holdStream e).updEntry r i k (fun s => { s with engine := some e, since := d.pwr.aon, last := e })
  | none => d

/-- All bytes of a sample are in BS_BUF: those of a network source have arrived, others are copied now. -/
def Dev.sampleRead (d : Dev) (p : Fin 64) (q : Fin 4) (k : Nat) : Dev :=
  match d.jobOf p q true with
  | none => d
  | some (r, c, w) =>
    match w.samples[k]? with
    | none => d
    | some s =>
      let n := Ent.srcBytes s.words
      if s.state = .read && s.engine.isNone then d.assign r c.index k
      else if s.state != .reading then d
      else if Ent.src s.words = 0 then
        if s.arrived < n then d else (d.updEntry r c.index k (fun s => { s with state := .read })).assign r c.index k
      else
        let (d, b) := d.fetchBytes r (Ent.src s.words == 1) (Ent.srcAddr s.words) n
        let d := d.locWrite (.command r) .dev (Lay.bsBuf w.layout + s.at') b
        (d.updEntry r c.index k (fun s => { s with state := .read, arrived := n })).assign r c.index k

/-- READ_BUDGET_US after START, what has not arrived is corrupt (R350 cause 2) and its reads are abandoned. -/
def Dev.readTimeout (d : Dev) (p : Fin 64) (q : Fin 4) : Dev :=
  match d.jobOf p q true with
  | none => d
  | some (r, c, w) =>
    if 10 * (d.pwr.aon - c.startTick).toNat < 192 * Job.budget c then d
    else
      let late := (List.range w.samples.length).filter c.reading
      let d := d.each late (fun d k => d.judge r c.index k 2)
      d.each ((List.finRange 256).filter (fun t => (d.target t).reqs.any (fun x => x.ring == r && !x.write)))
        (fun d t => d.dropNetReqs t (fun x => x.ring == r && !x.write))

/-! ### Decoding and writing (R347 to R350) -/

/-- The weights and biases of a STEM job, with whether a mark stood in them. -/
def Dev.stemWeights (d : Dev) (r : RingId) (l : Lay.L) (t : Stem.T) : Dev × StemW × Bool :=
  if !Lay.stem l || Stem.mode t = 2 then (d, { w := [], b := [] }, false)
  else
    let n := Stem.co t * Stem.kh t * Stem.kw t * Stem.ci t
    let outs := if Stem.mode t = 1 then Stem.ci t else Stem.co t
    let (d, w) := d.locRead (.command r) .dev (Stem.weights t) (2 * n)
    let (d, b) := if Stem.biasEn t then d.locRead (.command r) .dev (Stem.bias t) (4 * outs) else (d, [])
    (d, { w := halves (w.map (·.1)), b := words32 (b.map (·.1)) }, (w ++ b).any (·.2))

/-- Write the bytes of a slot to the job's destinations (R349). -/
def Dev.writeSlot (d : Dev) (r : RingId) (l : Lay.L) (t : Stem.T) (slot : Nat) (b : List MByte) : Dev :=
  let n := pieceBytes l t
  let dst := Lay.dest l
  d.each (List.range (slotPlains l t * slotFrames l)) (fun d k =>
    let j := k / slotFrames l
    let f := k % slotFrames l
    let loc : Loc := match dst.loc 0 with
      | .dev => .dev
      | .sram i => .sram ⟨(i.val + j) % 64, Nat.mod_lt _ (by decide)⟩
    d.locWrite (.command r) loc (dst.addr + (slot * slotFrames l + f) * Lay.stride l) ((b.drop (k * n)).take n))

/-- Engine time of a decode, charged as decode and as sample pipeline (R85). -/
def Dev.chargeDecode (d : Dev) (p : Fin 64) (s : Sample) : Dev :=
  let ns := (d.pwr.aon - s.since).toNat * 10000 / 192
  d.acct p (fun a => (a.engine .decode ns).engine .sample ns)

/-- A sample has been decoded: it is judged, or its output is written to its slot or kept for the close. -/
def Dev.decodeDone (d : Dev) (p : Fin 64) (q : Fin 4) (k : Nat) : Dev :=
  match d.jobOf p q true with
  | none => d
  | some (r, c, w) =>
    match w.samples[k]? with
    | none => d
    | some s =>
      match s.engine with
      | none => d
      | some e =>
        if s.state != .read then d
        else
          let l := w.layout
          let t := d.stemAt l
          let a := Lay.bsBuf l + s.at'
          let d := (d.chargeDecode p s).releaseStream e
          let (d, b) := d.locRead (.command r) .dev a (Ent.srcBytes s.words)
          let d := d.updEntry r c.index k (fun s => { s with engine := none })
          match (b.zip (List.range b.length)).find? (fun x => x.1.2) with
          | some x => ((d.biteDev (some p) 4 e.val (lineOf (a + x.2))).updJob r c.index (fun w => { w with poison := true })).judge r c.index k 3
          | none =>
            let (d, sw, bad) := d.stemWeights r l t
            let (free, d) := d.fresh
            match sampleOut l t sw (Job.slots c) s.words (lo32 free) (b.map (·.1)) with
            | .error cause => d.judge r c.index k cause
            | .ok (out, short) =>
              let d := if bad then (d.biteDev (some p) 4 e.val (lineOf (Stem.weights t))).updJob r c.index (fun w => { w with poison := true }) else d
              let out := out.map (fun x => (x, bad))
              if Ent.reserve s.words then d.updEntry r c.index k (fun s => { s with state := .written, short := short, output := out })
              else (d.writeSlot r l t (Ent.slot s.words) out).updEntry r c.index k (fun s => { s with state := .written, short := short })

/-! ### The close (R351 to R354) -/

def isCorrupt : SampleState → Bool
  | .corrupt _ => true
  | _ => false

/-- A reserve ring as the close sees it: its class, its header, its HEAD and TAIL at START, and those it will leave. -/
structure ResRing where
  cls   : Nat
  addr  : Nat
  head0 : Nat
  head  : Nat
  tail  : Nat
deriving DecidableEq, Repr

def Dev.resBase (d : Dev) (x : ResRing) : Nat := (wd64 (d.peek false x.addr 2) 0).toNat
def Dev.resEntries (d : Dev) (x : ResRing) : Nat := (wd (d.peek false (x.addr + 8) 2) 0).toNat
def Dev.resEntryBytes (d : Dev) (x : ResRing) : Nat := (wd (d.peek false (x.addr + 8) 2) 1).toNat
def Dev.resEntry (d : Dev) (x : ResRing) (i : Nat) : Nat := d.resBase x + i % d.resEntries x * d.resEntryBytes x

/-- The record of one slot (R353), and the reserve entry that replaces its sample. -/
structure SlotRec where
  slot  : Nat
  state : Nat
  cause : Nat
  k     : Nat
  res   : Option (Nat × Nat)
  replId : DWord
deriving DecidableEq, Repr

/-- What the close has done so far. -/
structure Close where
  dev    : Dev
  rings  : List ResRing
  recs   : List SlotRec
  added  : Nat
  dropped : Nat
  poison : Bool

/-- 32-bit free-running indices: how many entries lie from one to another. -/
def idxDiff (a b : Nat) : Nat := (a + 2 ^ 32 - b) % 2 ^ 32

/-- Item 1: the slots in ascending order; a corrupt one takes the entry at HEAD of its class's ring, or is INVALID. -/
def Close.slots (x : Close) (w : SampleWork) (b : Nat) : Close :=
  (List.range b).foldl (fun (x : Close) slot =>
    match (w.samples.zip (List.range w.samples.length)).find? (fun s => !Ent.reserve s.1.words && Ent.slot s.1.words == slot) with
    | none => x
    | some (s, k) =>
      match s.state with
      | .corrupt cause =>
        match x.rings.find? (fun g => g.cls == Ent.cls s.words && g.head != g.tail) with
        | some g => { x with
            rings := x.rings.map (fun y => if y.cls == g.cls then { y with head := (y.head + 1) % 2 ^ 32 } else y)
            recs := x.recs ++ [{ slot := slot, state := 1, cause := cause.toNat, k := k, res := some (g.cls, g.head), replId := 0 }] }
        | none => { x with recs := x.recs ++ [{ slot := slot, state := 2, cause := cause.toNat, k := k, res := none, replId := 0 }] }
      | _ => { x with recs := x.recs ++ [{ slot := slot, state := 0, cause := 0, k := k, res := none, replId := 0 }] }) x

/-- Item 2: reserve samples are appended at TAIL, in list order; those of a full ring are dropped, and a marked one is corrupt
(R365). -/
def Close.appends (x : Close) (r : RingId) (i : BitVec 16) (w : SampleWork) : Close :=
  (w.samples.zip (List.range w.samples.length)).foldl (fun (x : Close) s =>
    if !Ent.reserve s.1.words || isCorrupt s.1.state then x
    else if s.1.output.any (·.2) then { x with dev := x.dev.judge r i s.2 3 }
    else match x.rings.find? (fun g => g.cls == Ent.cls s.1.words) with
      | none => { x with dropped := x.dropped + 1 }
      | some g =>
        if x.dev.resEntries g ≤ idxDiff g.tail g.head0 then { x with dropped := x.dropped + 1 }
        else
          let tail := clean (dwordBytes (Ent.id s.1.words) ++ List.replicate 56 0)
          { x with
            dev := x.dev.locWrite (.command r) .dev (x.dev.resEntry g g.tail) (s.1.output ++ tail)
            rings := x.rings.map (fun y => if y.cls == g.cls then { y with tail := (y.tail + 1) % 2 ^ 32 } else y)
            added := x.added + 1 }) x

/-- Item 3: replacement copies, and zeros for INVALID slots. -/
def Close.copies (x : Close) (p : Fin 64) (r : RingId) (l : Lay.L) (t : Stem.T) : Close :=
  x.recs.foldl (fun (x : Close) rec =>
    let total := slotTotal l t
    match rec.state, rec.res with
    | 1, some (cls, idx) =>
      match x.rings.find? (fun g => g.cls == cls) with
      | none => x
      | some g =>
        let a := x.dev.resEntry g idx
        let (d, b) := x.dev.locRead (.command r) .dev a (total + 64)
        let (d, bad) := match (b.zip (List.range b.length)).find? (fun y => y.1.2) with
          | some y => (d.biteDev (some p) 4 0 (lineOf (a + y.2)), true)
          | none => (d, false)
        let id := BitVec.ofNat 64 (leNat (((b.drop total).take 8).map (·.1)))
        { x with
          dev := d.writeSlot r l t rec.slot (b.take total)
          poison := x.poison || bad
          recs := x.recs.map (fun y => if y.slot == rec.slot then { y with replId := id } else y) }
    | 2, _ => { x with dev := x.dev.writeSlot r l t rec.slot (clean (List.replicate total 0)) }
    | _, _ => x) x

def SlotRec.words (x : SlotRec) (s : Sample) : List Word :=
  [BitVec.ofNat 32 (x.slot + 2 ^ 12 * x.state + 2 ^ 14 * x.cause + 2 ^ 18 * s.last.val + 2 ^ 21 * b2n s.moved + 2 ^ 22 * b2n s.short), 0,
   lo32 (Ent.id s.words), hi32 (Ent.id s.words), lo32 x.replId, hi32 x.replId,
   (match x.res with | some y => BitVec.ofNat 32 y.2 | none => 0xFFFFFFFF), 0]

/-- The manifest (R353). -/
def Close.manifest (x : Close) (c : Cmd) (w : SampleWork) (corrupt : Nat) : List Word :=
  let n (s : Nat) : Nat := (x.recs.filter (fun y => y.state == s)).length
  [BitVec.ofNat 32 (x.recs.length + 65536 * n 1), BitVec.ofNat 32 (n 2 + 65536 * corrupt), BitVec.ofNat 32 (x.added + 65536 * x.dropped),
   BitVec.ofNat 32 (c.tag.toNat + 65536 * x.dev.ccx.epoch.toNat), lo32 c.startTick, hi32 c.startTick] ++ List.replicate 10 0 ++
  x.recs.flatMap (fun y => match w.samples[y.k]? with | some s => y.words s | none => [])

/-- The job closes when every entry has been written or judged (R352). -/
def Dev.jobClose (d : Dev) (p : Fin 64) (q : Fin 4) : Dev :=
  match d.jobOf p q true with
  | none => d
  | some (r, c, w) =>
    if !w.samples.all (fun s => s.state == .written || isCorrupt s.state) then d
    else
      let l := w.layout
      let t := d.stemAt l
      let rings := w.heads.filterMap (fun h => (d.ringHeader l h.1).map (fun a =>
        { cls := h.1, addr := a, head0 := h.2.1.toNat, head := h.2.1.toNat, tail := h.2.2.toNat : ResRing }))
      let x : Close := { dev := d, rings := rings, recs := [], added := 0, dropped := 0, poison := w.poison }
      let x := ((x.slots w (Job.slots c)).appends r c.index w).copies p r l t
      let corrupt := match (x.dev.cmd r c.index).map (·.work) with
        | some (.sample w') => (w'.samples.filter (fun s => isCorrupt s.state)).length
        | _ => 0
      let (host, a) := hostBit (Lay.manifest l)
      let d := x.dev.putBytes r host a (clean ((x.manifest c w corrupt).flatMap wordBytes))
      let d := d.each x.rings (fun d g => d.locWrite (.command r) .dev (g.addr + 0x10) (clean (leBytes 4 g.head ++ leBytes 4 g.tail)))
      let d := d.post p (Job.post c)
      let repl := (x.recs.filter (fun y => y.state != 0)).length
      let st : Status := if x.poison then .poisonConsumed else if repl = 0 then .ok else .okReplacedSamples
      d.finish r c.index st (if st == .okReplacedSamples then BitVec.ofNat 16 repl else 0) (BitVec.ofNat 32 (min corrupt 0xFFFF))

/-! ### ENCODE (R359 to R362) -/

namespace Enc
abbrev T := Tab Word 32
def av1 (t : T) : Bool := bit (wd t 0) 0
def tenBit (t : T) : Bool := bit (wd t 0) 1
def srcFmt (t : T) : Nat := bits (wd t 0) 4 4
def w (t : T) : Nat := bits (wd t 1) 0 16
def h (t : T) : Nat := bits (wd t 1) 16 16
def fpsNum (t : T) : Nat := bits (wd t 2) 0 16
def fpsDen (t : T) : Nat := bits (wd t 2) 16 16
def quality (t : T) : Int := bits (wd t 3) 0 8
def keyDelta (t : T) : Int := (BitVec.ofNat 8 (bits (wd t 3) 8 8)).toInt
def qpMax (t : T) : Int := bits (wd t 3) 16 8
def maxKbps (t : T) : Nat := (wd t 4).toNat
def window (t : T) : Nat := bits (wd t 5) 0 16
def keyInt (t : T) : Nat := bits (wd t 5) 16 16
def src (t : T) : LocWord := { w := wd64 t 6 }
def srcPitch (t : T) : Nat := (wd t 8).toNat
def srcFstride (t : T) : Nat := (wd t 9).toNat
def dst (t : T) : DWord := wd64 t 10
def dstCap (t : T) : Nat := (wd64 t 12).toNat
def idx (t : T) : DWord := wd64 t 14
def keyList (t : T) : Nat := (wd64 t 16).toNat
def keyCount (t : T) : Nat := bits (wd t 18) 0 16
/-- d of R361. -/
def step (t : T) : Nat := if av1 t then 24 else 6
def drain (t : T) : Nat := maxKbps t * 1000 * fpsDen t / fpsNum t
def record (c : Cmd) : Nat := (wd64 c.words 8).toNat
def frames (c : Cmd) : Nat := bits (wd c.words 10) 0 16
def wait (c : Cmd) : Word := wd c.words 11
def post (c : Cmd) : Word := wd c.words 12
/-- The largest coded frame. -/
def most (t : T) : Nat := 2 * w t * h t + 4096
end Enc

def Dev.encOf (d : Dev) (p : Fin 64) (q : Fin 4) (begun : Bool) : Option (RingId × Cmd × EncodeWork) :=
  let r : RingId := { fn := .vf p, q := q }
  if d.ccx.sup != .ready || d.isTripped then none
  else (d.ring r).cmds.findSome? (fun c => match c.work with
    | .encode w => if c.stage == .started && w.begun == begun then some (r, c, w) else none
    | _ => none)

/-- ENCODE begins: it reads its record and takes an engine. -/
def Dev.encBegin (d : Dev) (p : Fin 64) (q : Fin 4) : Dev :=
  match d.encOf p q false, d.bestEngine with
  | some (r, c, w), some e =>
    let (d, _) := d.fetchBytes r false (Enc.record c) 128
    let rec' : Enc.T := d.peek false (Enc.record c) 32
    ((d.wantClock (mediaDom e)).holdStream e).restartEncode r c.index { w with begun := true, record := rec' } e
  | _, _ => d

/-- est(key, qp) of R361. -/
def encEst (t : Enc.T) (last : Option (Nat × Nat)) (qp : Int) : Int :=
  match last with
  | none => 0
  | some (b, lq) =>
    let e := dmul (toF64 (Val.ofNat b)) (Config.exp2 ((lq : Int) - qp) (Enc.step t))
    ((f64 e).toInt .rtz 0 (2 ^ 63)).1

/-- The loop that raises QP until the estimate fits. -/
def encQp (t : Enc.T) (fill : Int) (cap : Nat) (last : Option (Nat × Nat)) : Nat → Int → Int
  | 0, qp => qp
  | n + 1, qp =>
    if Enc.maxKbps t != 0 && qp < Enc.qpMax t && (cap : Int) * 9 / 10 < fill + encEst t last qp then encQp t fill cap last n (qp + 1) else qp

/-- Whether a frame is a key picture (R361). -/
def Dev.isKey (d : Dev) (t : Enc.T) (w : EncodeWork) : Bool :=
  w.frame == 0 || (Enc.keyInt t != 0 && w.frame % Enc.keyInt t == 0) || w.keyAt.contains w.frame ||
  (List.range (Enc.keyCount t)).any (fun k => leNat (readBytes d.mem (Enc.keyList t + 2 * k) 2) == w.frame)

/-- The source bytes of a frame, zeros in place of marked lines (R374), and the first mark met. -/
def Dev.encSource (d : Dev) (r : RingId) (t : Enc.T) (frame : Nat) : Dev × List Byte × Option (Loc × Nat) :=
  let src := Enc.src t
  let n := Enc.w t * 3 * elemBits (Enc.srcFmt t) / 8
  (List.range (Enc.h t)).foldl (fun (acc : Dev × List Byte × Option (Loc × Nat)) y =>
    let a := src.addr + frame * Enc.srcFstride t + y * Enc.srcPitch t
    let (d, b) := acc.1.locRead (.command r) (src.loc 0) a n
    let bad := ((b.zip (List.range n)).find? (fun x => x.1.2)).map (fun x => (src.loc 0, lineOf (a + x.2)))
    (d, acc.2.1 ++ b.map (fun x => if x.2 then 0 else x.1), if acc.2.2.isSome then acc.2.2 else bad)) (d, [], none)

/-! ### The encoder's input (R15, R360) -/

/-- A source value clamped to [0, 1], in units of 2^-149, in which every FP32 number is whole. -/
def pixelFix (w : Word) : Int :=
  match f32 w with
  | .nan => ((min (Config.nanPixel w) (2 ^ 149) : Nat) : Int)
  | .inf neg => if neg then 0 else 2 ^ 149
  | v => max 0 (min (v.scaled (-149)) (2 ^ 149))

/-- A quotient rounded to the nearest whole number, to the even one on a tie. -/
def quantise (num : Int) (den : Nat) : Nat :=
  let q := num / den
  let r := 2 * (num % den)
  (if (den : Int) < r || (r = den && q % 2 = 1) then q + 1 else q).toNat

/-- Ten thousand times the BT.709 luma of a pixel. -/
def luma709 (p : Int × Int × Int) : Int := 2126 * p.1 + 7152 * p.2.1 + 722 * p.2.2

/-- A limited-range luma sample of `b` bits. -/
def lumaSample (b : Nat) (p : Int × Int × Int) : Nat :=
  quantise (2 ^ (b - 8) * (219 * luma709 p + 16 * 10000 * 2 ^ 149)) (10000 * 2 ^ 149)

/-- A limited-range chroma sample of `b` bits, the mean of a block of four pixels: `diff` is ten thousand times the colour
difference of each, `scale` ten thousand times its full swing. -/
def chromaSample (b scale : Nat) (diff : List Int) : Nat :=
  quantise (2 ^ (b - 8) * (224 * diff.foldl (fun a x => a + x) 0 + 128 * 4 * scale * 2 ^ 149)) (4 * scale * 2 ^ 149)

/-- The Y′, Cb and Cr planes, 4:2:0, of an interleaved R′G′B′ picture: exact BT.709, limited range, each sample rounded once. -/
def yuvPlanes (b w h : Nat) (px : List Word) : List (List Nat) :=
  let v := px.map pixelFix
  let pix (x y : Nat) : Int × Int × Int := let k := 3 * (y * w + x); (v.getD k 0, v.getD (k + 1) 0, v.getD (k + 2) 0)
  let block (f : Int × Int × Int → Int) (x y : Nat) : List Int :=
    [f (pix (2 * x) (2 * y)), f (pix (2 * x + 1) (2 * y)), f (pix (2 * x) (2 * y + 1)), f (pix (2 * x + 1) (2 * y + 1))]
  let chroma (scale : Nat) (f : Int × Int × Int → Int) : List Nat :=
    (List.range (h / 2)).flatMap (fun y => (List.range (w / 2)).map (fun x => chromaSample b scale (block f x y)))
  [(List.range h).flatMap (fun y => (List.range w).map (fun x => lumaSample b (pix x y))),
   chroma 18556 (fun p => 10000 * p.2.2 - luma709 p), chroma 15748 (fun p => 10000 * p.1 - luma709 p)]

/-- An engine has coded the next frame: rate control, the bitstream and its index; after the last frame the command
completes. -/
def Dev.encFrame (d : Dev) (p : Fin 64) (q : Fin 4) : Dev :=
  match d.encOf p q true with
  | none => d
  | some (r, c, w) =>
    if !(Tab.at d.engines w.engine).works then
      match d.bestEngine with
      | some f => (d.holdStream f).restartEncode r c.index w f
      | none => d
    else
      let t := w.record
      let key := d.isKey t w
      let (d, src, bad) := d.encSource r t w.frame
      let d := match bad with
        | some (.dev, a) => d.biteDev (some p) 4 w.engine.val a
        | some (.sram i, a) => d.biteSram (some p) 4 w.engine.val i a
        | none => d
      let planes := yuvPlanes (if Enc.tenBit t then 10 else 8) (Enc.w t) (Enc.h t) (if Enc.srcFmt t = 0 then words32 src else halves src)
      let cap := Enc.drain t * Enc.window t
      let fill : Int := max 0 ((w.fill : Int) + w.bitsPrev - Enc.drain t)
      let last := if key then w.lastKey else w.lastInter
      let qp := encQp t fill cap last 256 (Enc.quality t + if key then Enc.keyDelta t else 0)
      let code (qp : Int) : List Byte × Nat :=
        let x := Config.codeFrame t.toList w.frame key qp.toNat w.recon planes
        (x.1.take (Enc.most t), x.2)
      let misses (b : List Byte) : Bool := Enc.maxKbps t != 0 && (cap : Int) < fill + 8 * b.length
      let one := code qp
      let (out, qp) := if misses one.1 && qp < Enc.qpMax t then (code (Enc.qpMax t), Enc.qpMax t) else (one, qp)
      let (dh, da) := hostBit (Enc.dst t)
      let (ih, ia) := hostBit (Enc.idx t)
      let d := d.putBytes r dh (da + w.pos) (clean out.1)
      let d := d.putBytes r ih (ia + 8 * w.frame) (clean (leBytes 4 w.pos ++ leBytes 4 out.1.length))
      let d := d.acct p (fun a => a.engine .encode ((d.pwr.aon - w.since).toNat * 10000 / 192))
      let bitsNow := 8 * out.1.length
      let w' : EncodeWork := { w with
        frame := w.frame + 1, pos := w.pos + out.1.length, fill := fill.toNat, bitsPrev := bitsNow
        lastKey := if key then some (bitsNow, qp.toNat) else w.lastKey
        lastInter := if key then w.lastInter else some (bitsNow, qp.toNat)
        keys := w.keys + b2n key, capMiss := w.capMiss + b2n (misses out.1), recon := out.2, since := d.pwr.aon
        poison := w.poison || bad.isSome }
      if w'.frame < Enc.frames c then
        let (d, w') := d.latchKey r w'
        d.updCmd r c.index (fun c => { c with work := .encode w' })
      else
        ((d.post p (Enc.post c)).releaseStream w.engine).finish r c.index (if w'.poison then .poisonConsumed else .ok) 0
          (BitVec.ofNat 32 (min w'.keys 0xFFFF + 65536 * min w'.capMiss 0xFFFF))

/-! ### Meanings -/

def execSampleJob (p : Fin 64) (q : Fin 4) (s : State) : Host.Outcome State Fault Refusal := .next { s with dev := s.dev.jobBegin p q }
def execSampleReadDone (p : Fin 64) (q : Fin 4) (k : Nat) (s : State) : Host.Outcome State Fault Refusal := .next { s with dev := s.dev.sampleRead p q k }
def execSampleReadTimeout (p : Fin 64) (q : Fin 4) (s : State) : Host.Outcome State Fault Refusal := .next { s with dev := s.dev.readTimeout p q }
def execSampleDecodeDone (p : Fin 64) (q : Fin 4) (k : Nat) (s : State) : Host.Outcome State Fault Refusal := .next { s with dev := s.dev.decodeDone p q k }
def execSampleJobClose (p : Fin 64) (q : Fin 4) (s : State) : Host.Outcome State Fault Refusal := .next { s with dev := s.dev.jobClose p q }
def execEncode (p : Fin 64) (q : Fin 4) (s : State) : Host.Outcome State Fault Refusal := .next { s with dev := s.dev.encBegin p q }
def execEncodeFrameDone (p : Fin 64) (q : Fin 4) (s : State) : Host.Outcome State Fault Refusal := .next { s with dev := s.dev.encFrame p q }

end Sys2Proof.Machine
end

