-- ==== Sys2Proof/Machine/Power.lean ====
section
/-! DEFINITION. Supply, clocks, reset, start-up, pins, SMBus and JTAG (R397 to R418). -/

namespace Sys2Proof.Machine

open Sys2Proof

/-! ### Supply conditions (R400 to R402, R405) -/

/-- One sample against a threshold, in units of 10 mV. -/
def Sag.sample (s : Sag) (v thr : Nat) : Sag :=
  let below := if v < thr then s.below + 1 else 0
  let above := if thr + 100 ≤ v then s.above + 1 else 0
  { below := below, above := above, inForce := if s.inForce then above < 1000 else 4 ≤ below }

/-- An event of the supply monitor: RAS takes it while the main rails are up. -/
def Dev.logUp (d : Dev) (src : Nat) (a0 a1 : Word) : Dev := if d.pwr.main then d.log src 0xFF 0 a0 a1 0 else d

def Dev.supplySample (d : Dev) (v : BitVec 16) : Dev :=
  if !d.pwr.standby then d
  else
    let old := d.pwr
    let d := d.updPwr (fun p => { p with
      vin := v, nvw := p.nvw.sample v.toNat 4400, capSag := p.capSag.sample v.toNat 4000, shut := p.shut.sample v.toNat 3600 })
    let d := if d.pwr.nvw.inForce == old.nvw.inForce then d
      else (d.updMtr (fun m => m.setNvw d.pwr.nvw.inForce)).logUp Ev.supplyNvw (if d.pwr.nvw.inForce then 1 else 0) d.pwr.mv
    let d := d.checkCap
    if d.pwr.shut.inForce && !old.shut.inForce && d.pwr.main then d.shutdown true d.pwr.mv else d

def Dev.leakDetect (d : Dev) : Dev :=
  if !d.pwr.standby || d.pwr.leak then d
  else
    let d := d.updPwr (fun p => { p with leak := true })
    let d := d.logUp Ev.leakDetect 1 0
    if d.pwr.main then d.shutdown false 0 else d

def Dev.leakClear (d : Dev) : Dev :=
  if !d.pwr.leak then d else (d.updPwr (fun p => { p with leak := false })).log Ev.leakDetect 0xFF 0 0 0 0

/-! ### Clock holds (R403) -/

/-- A plain's clock takes the frequency that the holds allow; each change is logged. -/
def Dev.holdPlain (d : Dev) (k : Fin 100) : Dev :=
  let x := d.dom k
  let f := d.domMhz k.val
  if (x.state == .running || x.state == .held) && x.mhz.toNat != f then
    let below := decide (f < nominalMhz k.val)
    (d.updDom k (fun x => { x with state := if below then .held else .running, mhz := BitVec.ofNat 12 f })).log Ev.clockHeld 0xFF k.val
      (if below then 1 else 0) (BitVec.ofNat 32 f) 0
  else d

def Dev.holdPlains (d : Dev) : Dev := d.each (List.finRange 64) (fun d i => d.holdPlain (plainDom i))

def Dev.dieHeatStep (d : Dev) (die : Fin 4) (temp : Byte) : Dev :=
  let d := d.updPwr (fun p => { p with
    dieTemp := Tab.upd p.dieTemp die (fun _ => temp)
    heatMhz := Tab.upd p.heatMhz die (fun f =>
      if 100 ≤ temp.toNat then max 400 (f - 100) else if temp.toNat ≤ 95 then min 1200 (f + 100) else f) })
  d.holdPlains

/-- The limits of R403: above, until below, back up below. -/
def powerLimits (capped : Bool) : Nat × Nat × Nat := if capped then (1300, 1250, 1150) else (2600, 2550, 2450)

def Dev.designPowerStep (d : Dev) (w : BitVec 16) : Dev :=
  let l := powerLimits d.pwr.capped
  let down := l.1 < w.toNat || (d.pwr.powerDown && l.2.1 ≤ w.toNat)
  let d := d.updPwr (fun p => { p with
    watts := w, powerDown := down
    powerMhz := if down then max 400 (p.powerMhz - 100) else if w.toNat < l.2.2 then min 1200 (p.powerMhz + 100) else p.powerMhz })
  d.holdPlains

/-! ### Clock domains (R25, R406 to R408) -/

/-- Whether a domain is in use (R406). -/
def Dev.inUse (d : Dev) (k : Fin 100) : Bool :=
  let k := k.val
  if k < 64 then (ownerOf (d.plainMap.toList.getD k 0xFF)).isSome
  else if k < 82 then true
  else if k < 86 then (d.cols.toList.drop (4 * (k - 82))).take 4 |>.any (fun c => !c.disable)
  else if k = 87 || k = 88 then (d.ports.toList.getD (k - 87) Port.reset).link
  else if 89 ≤ k && k < 93 then
    match (d.engines.toList.getD (k - 89) { state := .off, streams := 0 }).state with
    | .off => false
    | .failed => false
    | _ => true
  else if k = 86 || k = 93 then d.parts.toList.any (fun p => p.state == .loaded)
  else true

def Dev.gateDomain (d : Dev) (k : Fin 100) : Dev :=
  if 64 ≤ k.val && !alwaysRuns k.val && (d.dom k).state == .running then d.updDom k (fun _ => { state := .gated, mhz := 0, starting := false }) else d

def Dev.pllDown (d : Dev) (k : Fin 100) : Dev :=
  if (d.dom k).state == .gated && !d.inUse k then d.updDom k (fun _ => { state := .pllOff, mhz := 0, starting := false }) else d

/-- Whether PWR is starting a clock: something demanded it, or its plain is waking. -/
def Dev.clockDue (d : Dev) (k : Fin 100) : Bool :=
  (d.dom k).starting || (match finOf 64 k.val with | some i => (d.plain i).state == .waking | none => false)

/-- A clock that was started on demand runs; a plain that woke is IDLE, or BUSY for its command (R41, R125, R406). -/
def Dev.clockStarted (d : Dev) (k : Fin 100) : Dev :=
  if !d.pwr.main || !d.clockDue k || ((d.dom k).state != .gated && (d.dom k).state != .pllOff) then d
  else
    let d := d.runDom k
    match finOf 64 k.val with
    | some i => d.updPlain i (fun x => if x.state == .waking || x.state == .stopped then { x with state := .busy }.rest else x)
    | none => d

/-- A crossing that waited 4,096 ticks for a far clock that does not run (R407, R408). -/
def Dev.cdcTimeout (d : Dev) (k : Fin 100) (v : CdcVictim) : Dev :=
  if (d.dom k).state == .running || (d.dom k).state == .held then d
  else match v with
    | .access w off =>
      let d := d.log Ev.cdcTimeout (match w with | .host (.vf p) => ownerByte (some p) | _ => 0xFF) k.val (BitVec.ofNat 32 off) 0 0
      d.reply .abort
    | .command r =>
      let d := d.log Ev.cdcTimeout (ownerByte (ringPart r)) k.val 0xFFFFFFFF 0 0
      match (d.ring r).cmds.find? (fun c => c.stage == .started) with
      | some c => d.endCmd r c .cdcTimeout
      | none => d

/-! ### Resets and start-up (R409 to R412, R429) -/

/-- A module reset takes effect unless one is already in progress: PERST# asserted (log entry 31). -/
def Dev.requestReset (d : Dev) : Dev := if d.pwr.perst || !d.pwr.standby then d else d.moduleReset

def Dev.perstAssert (d : Dev) : Dev := (d.requestReset).updPwr (fun p => { p with perst := true })

def Dev.pfFlr (d : Dev) : Dev :=
  if !d.pwr.link then d
  else
    let d := d.each (List.finRange 64) Dev.startReset
    let d := d.each allRings (fun d r => d.updRing r (fun x => { Ring.reset with cmds := if r.fn == .pf then [] else x.cmds }))
    let d := if d.hif.jEn then d.jrnDisable else d
    let d := d.updHif (fun h => { h with
      jBaseLo := 0, jBaseHi := 0, jCfg := 0x60, jProd := 0, jCons := 0, jLost := false, jOvf := false, jLostCnt := 0 })
    let d := d.updRas (fun r => { r.disable with evBaseLo := 0, evBaseHi := 0, evCfg := 0x60, prod := 0, cons := 0, dropped := false })
    { d with acctLo := 0, acctHi := 0, acctBusy := false }

/-- What survives a loss of all power: the metering log and what lies outside the module. -/
def Dev.cold (d : Dev) (standby : Bool) (m : Mtr) : Dev :=
  let r := Dev.reset
  { r with
    free := d.free
    images := d.images.filter (fun x => x.host)
    out := d.out
    hostMem := d.hostMem
    mtr := m
    pwr := { r.pwr with standby := standby, perst := d.pwr.perst } }

def Dev.standbyOn (d : Dev) (straps : BitVec 4) : Dev :=
  if d.pwr.standby then d
  else (d.cold true d.mtr.powerOn).updPwr (fun p => { p with strap := straps, doms := domsAt false })

def Dev.standbyOff (d : Dev) : Dev := if d.pwr.standby then d.cold false d.mtr.powerLoss else d

/-- The main supply is confirmed (R411): the rails come up and start-up begins. -/
def Dev.mainConfirmed (d : Dev) : Dev :=
  if d.pwr.standby && !d.pwr.main && !d.pwr.leak && 4500 ≤ d.pwr.vin.toNat then
    d.updPwr (fun p => { p with main := true, boot := bootFrom true, doms := domsAt true })
  else d

/-- The last step completed (R418): 1 rails, 2 firmware, 3 fill. -/
def Boot.count (b : Boot) : Boot :=
  if b.step.toNat < 4 then { b with step := if !b.fwOk then 1 else if b.filled then 3 else 2 } else b

/-- A failure of start-up (R412): the harts are not released, and the supervisor reads FAILED. The first failure is the one named; the
other steps go on to link training. -/
def Dev.bootFail (d : Dev) (unit : Nat) (basin : Bool) : Dev :=
  if d.pwr.boot.fail then d
  else { d.updPwr (fun p => { p with boot := { p.boot with fail := true, unit := BitVec.ofNat 5 unit, basin := basin } }) with
    ccx := { d.ccx with sup := .failed } }

def Dev.firmwareDone (d : Dev) (ok : Bool) : Dev :=
  if !d.pwr.main || 2 < d.pwr.boot.step.toNat || d.pwr.boot.fwOk then d
  else if ok then d.updPwr (fun p => { p with boot := { p.boot with fwOk := true }.count }) else d.bootFail 0 false

def Dev.memoryFilled (d : Dev) (fail : Option MemUnit) : Dev :=
  if !d.pwr.main || d.pwr.boot.filled || d.pwr.boot.step = 0 then d
  else match fail with
    | some (.stack s) => d.bootFail s.val false
    | some (.channel c) => d.bootFail c.val true
    | none =>
      let d := { d with mem := [], ecc := [] }
      let d := d.each (List.finRange 64) (fun d i => d.updPlain i Plain.fill)
      d.updPwr (fun p => { p with boot := { p.boot with filled := true }.count })

def Dev.releaseHarts (d : Dev) : Dev :=
  if d.pwr.main && d.pwr.boot.step = 3 && !d.pwr.boot.fail then
    { d.updPwr (fun p => { p with boot := { p.boot with step := 4 } }) with
      ccx := { d.ccx with harts := true, beats := Tab.all 4 d.pwr.aon } }
  else d

def Dev.tableReady (d : Dev) : Dev :=
  if d.pwr.main && d.pwr.boot.step = 4 then d.updPwr (fun p => { p with boot := { p.boot with step := 5 } }) else d

/-- The host link trains after the table, and after PERST# is deasserted; a failed start-up continues to it (R412). -/
def Dev.linkTrained (d : Dev) : Dev :=
  if d.pwr.main && !d.pwr.perst && (d.pwr.boot.step = 5 || d.pwr.boot.fail) then d.updPwr (fun p => { p with link := true }) else d

/-! ### Pins (R404, R414, R415) -/

def Dev.pinWindowEnd (d : Dev) (n : Fin 8) : Dev :=
  (d.updPwr (fun p => { p with winBusy := p.winBusy &&& ~~~ (BitVec.ofNat 8 (2 ^ n.val)) })).checkCap

def Dev.throttleInput (d : Dev) (level : Bool) : Dev :=
  (d.updPwr (fun p => { p with
    throttle := level, gpioIn := (p.gpioIn &&& 0xDF) ||| (if level then 0x20 else 0) })).checkCap

def Dev.ppsEdge (d : Dev) : Dev := if d.pwr.pinIs 2 3 then d.updPwr (fun p => { p with pps := p.aon }) else d
def Dev.flowPulse (d : Dev) : Dev := if d.pwr.pinIs 3 4 then d.updPwr (fun p => { p with pulses := p.pulses + 1 }) else d
def Dev.flowWindow (d : Dev) : Dev := d.updPwr (fun p => { p with flow := p.pulses, pulses := 0 })

/-! ### SMBus (R416) -/

/-- A block read: NACK on a wrong PEC, and nothing at all without standby power. -/
def Dev.smbReply (d : Dev) (pecOk : Bool) (b : List Byte) : Dev :=
  if !d.pwr.standby then d else if pecOk then d.reply (.bytes b) else d.reply .nack

/-- Bytes of a main-domain block: 0xFF until the table is readable. -/
def Dev.mainBytes (d : Dev) (b : List Byte) : List Byte := if d.pwr.boot.step = 5 then b else b.map (fun _ => 0xFF)

def Dev.smbIdentity (d : Dev) (pec : Bool) : Dev := d.smbReply pec ([0x40, 0x08, 0x11, 0x00] ++ wordBytes Config.serial)
def Dev.smbStatus (d : Dev) (pec : Bool) : Dev :=
  let e := d.smbReply pec (wordBytes (d.readReg .supStat) ++ d.mainBytes (wordBytes d.trip))
  if d.pwr.standby && pec then e.updPwr (fun p => { p with alertN := true }) else e
def Dev.smbTemps (d : Dev) (pec : Bool) : Dev :=
  d.smbReply pec (d.mainBytes (d.pwr.dieTemp.toList ++ d.daleStacks.toList.map (fun s => s.temp)))
def Dev.smbSupply (d : Dev) (pec : Bool) : Dev :=
  d.smbReply pec (leBytes 2 (10 * d.pwr.vin.toNat) ++ leBytes 2 d.pwr.v12.toNat ++ leBytes 2 d.pwr.watts.toNat ++
    [BitVec.ofNat 8 (b2n d.pwr.nvw.inForce + 2 * b2n d.pwr.capped + 4 * b2n d.pwr.leak), 0])
def Dev.smbReset (d : Dev) (val : Byte) (pec : Bool) : Dev :=
  if !d.pwr.standby then d else if !pec then d.reply .nack else if val = 0xA5 then d.requestReset else d
/-- The Alert Response Address: a target that pulls the line low answers with its address. -/
def Dev.smbAlert (d : Dev) : Dev :=
  if !d.pwr.standby then d
  else if d.pwr.alertN then d.reply .nack
  else d.reply (.bytes [BitVec.ofNat 8 (2 * (0x60 + d.pwr.strap.toNat % 4))])

/-! ### JTAG (R417) -/

/-- The TAP loads an instruction; it works while standby power is up (R398). -/
def Dev.setJtag (d : Dev) (j : Jtag) : Dev := if d.pwr.standby then d.updPwr (fun p => { p with jtag := j }) else d
/-- The TAP shifts a word out. -/
def Dev.tdo (d : Dev) (w : Word) : Dev := if d.pwr.standby then d.reply (.words [w]) else d
/-- The EXTEST instructions act while PERST# holds the module in reset, and load as BYPASS otherwise. -/
def Dev.extest (d : Dev) (j : Jtag) : Dev := d.setJtag (if d.pwr.perst then j else .bypass)

def Dev.dbgRead (d : Dev) (sram : Option (Fin 64)) (off : Nat) : Dev :=
  if d.pwr.strap.toNat / 4 % 2 = 0 then d.setJtag .bypass
  else
    let v := match sram with
      | some i => if off < sramBytes then readWord (d.plain i).sram off else 0
      | none => match regAt off with | some r => d.readReg r | none => 0
    (d.setJtag .dbgRead).tdo v

/-- An Ethernet port's link and lock (R332). -/
def Dev.linkChange (d : Dev) (n : Fin 2) (link lock : Bool) : Dev := d.updPort n (fun p => { p with link := link, fecLock := lock })

/-! ### Meanings -/

def execSupplySample (v10 : BitVec 16) (s : State) : Host.Outcome State Fault Refusal := .next { s with dev := s.dev.supplySample v10 }
def execDieHeatStep (d : Fin 4) (temp : Byte) (s : State) : Host.Outcome State Fault Refusal := .next { s with dev := s.dev.dieHeatStep d temp }
def execDesignPowerStep (watts : BitVec 16) (s : State) : Host.Outcome State Fault Refusal := .next { s with dev := s.dev.designPowerStep watts }
def execThrottleNInput (level : Bool) (s : State) : Host.Outcome State Fault Refusal := .next { s with dev := s.dev.throttleInput level }
def execLeakDetect (s : State) : Host.Outcome State Fault Refusal := .next { s with dev := s.dev.leakDetect }
def execLeakClear (s : State) : Host.Outcome State Fault Refusal := .next { s with dev := s.dev.leakClear }
def execPpsEdge (s : State) : Host.Outcome State Fault Refusal := .next { s with dev := s.dev.ppsEdge }
def execFlowPulse (s : State) : Host.Outcome State Fault Refusal := .next { s with dev := s.dev.flowPulse }
def execFlowWindowEnd (s : State) : Host.Outcome State Fault Refusal := .next { s with dev := s.dev.flowWindow }
def execPinmuxWindowEnd (n : Fin 8) (s : State) : Host.Outcome State Fault Refusal := .next { s with dev := s.dev.pinWindowEnd n }
def execPllPowerDown (dom : Fin 100) (s : State) : Host.Outcome State Fault Refusal := .next { s with dev := s.dev.pllDown dom }
def execDomainClockGate (dom : Fin 100) (s : State) : Host.Outcome State Fault Refusal := .next { s with dev := s.dev.gateDomain dom }
def execClockStartDone (dom : Fin 100) (s : State) : Host.Outcome State Fault Refusal := .next { s with dev := s.dev.clockStarted dom }
def execCdcTimeout (dom : Fin 100) (v : CdcVictim) (s : State) : Host.Outcome State Fault Refusal := .next { s with dev := s.dev.cdcTimeout dom v }
/-- PWR_RST_CTRL.MODULE takes effect 1 ms after its write (R410). -/
def execModuleReset (s : State) : Host.Outcome State Fault Refusal :=
  .next { s with dev := if s.dev.pwr.rstPend then s.dev.requestReset else s.dev }
def execPerstAssert (s : State) : Host.Outcome State Fault Refusal := .next { s with dev := s.dev.perstAssert }
def execPerstDeassert (s : State) : Host.Outcome State Fault Refusal := .next { s with dev := s.dev.updPwr (fun p => { p with perst := false }) }
def execHotReset (s : State) : Host.Outcome State Fault Refusal := .next { s with dev := if s.dev.pwr.link then s.dev.requestReset else s.dev }
def execPfFlr (s : State) : Host.Outcome State Fault Refusal := .next { s with dev := s.dev.pfFlr }
def execStandbyPowerOn (straps : BitVec 4) (s : State) : Host.Outcome State Fault Refusal := .next { s with dev := s.dev.standbyOn straps }
def execStandbyPowerLoss (s : State) : Host.Outcome State Fault Refusal := .next { s with dev := s.dev.standbyOff }
def execMainSupplyConfirmed (s : State) : Host.Outcome State Fault Refusal := .next { s with dev := s.dev.mainConfirmed }
def execFirmwareCheckDone (ok : Bool) (s : State) : Host.Outcome State Fault Refusal := .next { s with dev := s.dev.firmwareDone ok }
def execMemoryFillDone (fail : Option MemUnit) (s : State) : Host.Outcome State Fault Refusal := .next { s with dev := s.dev.memoryFilled fail }
def execHartRelease (s : State) : Host.Outcome State Fault Refusal := .next { s with dev := s.dev.releaseHarts }
def execTableReady (s : State) : Host.Outcome State Fault Refusal := .next { s with dev := s.dev.tableReady }
def execLinkTrained (s : State) : Host.Outcome State Fault Refusal :=
  .next { s with dev := s.dev.linkTrained }
def execSmbReadIdentity (pecOk : Bool) (s : State) : Host.Outcome State Fault Refusal := .next { s with dev := s.dev.smbIdentity pecOk }
def execSmbReadStatus (pecOk : Bool) (s : State) : Host.Outcome State Fault Refusal := .next { s with dev := s.dev.smbStatus pecOk }
def execSmbReadTemperatures (pecOk : Bool) (s : State) : Host.Outcome State Fault Refusal := .next { s with dev := s.dev.smbTemps pecOk }
def execSmbReadSupply (pecOk : Bool) (s : State) : Host.Outcome State Fault Refusal := .next { s with dev := s.dev.smbSupply pecOk }
def execSmbReset (val : Byte) (pecOk : Bool) (s : State) : Host.Outcome State Fault Refusal := .next { s with dev := s.dev.smbReset val pecOk }
def execSmbAlertResponse (s : State) : Host.Outcome State Fault Refusal := .next { s with dev := s.dev.smbAlert }
def execBypass (s : State) : Host.Outcome State Fault Refusal := .next { s with dev := s.dev.setJtag .bypass }
def execIdcode (s : State) : Host.Outcome State Fault Refusal := .next { s with dev := (s.dev.setJtag .idcode).tdo 0x10840A5B }
def execSamplePreload (s : State) : Host.Outcome State Fault Refusal := .next { s with dev := s.dev.setJtag .samplePreload }
def execExtest (s : State) : Host.Outcome State Fault Refusal := .next { s with dev := s.dev.extest .extest }
def execExtestPulse (s : State) : Host.Outcome State Fault Refusal := .next { s with dev := s.dev.extest .extestPulse }
def execExtestTrain (s : State) : Host.Outcome State Fault Refusal := .next { s with dev := s.dev.extest .extestTrain }
def execDbgRead (sram : Option (Fin 64)) (off : Nat) (s : State) : Host.Outcome State Fault Refusal := .next { s with dev := s.dev.dbgRead sram off }
def execNetPortLinkChange (n : Fin 2) (link fecLock : Bool) (s : State) : Host.Outcome State Fault Refusal :=
  .next { s with dev := s.dev.linkChange n link fecLock }

end Sys2Proof.Machine
end

