-- ==== Sys2Proof/Machine/Memory.lean ====
section
/-! DEFINITION. Device memory from outside an engine's transfers: BAR4 (R58, R249, R371), the bandwidth regulators (R238,
R239), demand reads and read-modify-writes (R370, R371), scrubbers (R372, R373), and the temperatures of the dale and the
basin (R245 to R248). -/

namespace Sys2Proof.Machine

open Sys2Proof

/-! ### BAR4 -/

/-- The device address of a BAR4 offset (R58, R249): none beyond a virtual function's granules or in a hole. -/
def Dev.bar4Addr (d : Dev) (f : Fn) (o : Nat) : Option Nat :=
  match f with
  | .pf =>
    let a := (dword d.hif.bar4Lo d.hif.bar4Hi).toNat + o
    if o < 2 ^ d.hif.bar4Log && place a != .hole then some a else none
  | .vf p =>
    match (d.daleOf p)[o / 2 ^ 30]? with
    | some g => some (g.val * 2 ^ 30 + o % 2 ^ 30)
    | none =>
      let o := o - (d.daleOf p).length * 2 ^ 30
      match (d.basinOf p)[o / 2 ^ 32]? with
      | some g => some (0x10000000000 + g.val * 2 ^ 32 + o % 2 ^ 32)
      | none => none

/-- The address that an ACCESS_HOLE of BAR4 carries: the device address, or the offset in a virtual function's BAR4. -/
def Dev.bar4Shown (d : Dev) (f : Fn) (o : Nat) : Nat :=
  match f with
  | .pf => (dword d.hif.bar4Lo d.hif.bar4Hi).toNat + o
  | .vf _ => o

/-- The pieces of an access that lie in one 64-byte line each, as (offset, bytes). -/
def pieces (o n : Nat) : List (Nat × Nat) :=
  (linesOf o n).map (fun l => (max l o, min (l + 64) (o + n) - max l o))

/-- A host read through BAR4: zeros from a hole or an ungranted granule, a Completer Abort from a tripped stack, a
poisoned completion from a marked line. -/
def Dev.bar4Read (d : Dev) (f : Fn) (o n : Nat) : Dev :=
  let addrs := (pieces o n).map (fun x => (d.bar4Addr f x.1, x.2))
  if addrs.any (fun x => match x.1 with | some a => d.trippedAt a | none => false) then d.reply .abort
  else
    let r := addrs.foldl (fun (acc : Dev × List Byte × Bool) x =>
      match x.1 with
      | none => (acc.1, acc.2.1 ++ List.replicate x.2 0, acc.2.2)
      | some a =>
        let (d, b, bad) := acc.1.memRead .host a x.2
        (d, acc.2.1 ++ b, acc.2.2 || !bad.isEmpty)) (d, [], false)
    r.1.reply (if r.2.2 then .poisoned else .bytes r.2.1)

/-- A host write through BAR4 (R58, R247, R371). -/
def Dev.bar4Write (d : Dev) (f : Fn) (o : Nat) (data : List Byte) (ep : Bool) : Dev :=
  let code := (Writer.code (.host f)).toNat
  let part : Byte := match f with | .pf => 0xFF | .vf p => ownerByte (some p)
  let hole := ((pieces o data.length).find? (fun x => (d.bar4Addr f x.1).isNone)).map (fun x => d.bar4Shown f x.1)
  let d := d.each (pieces o data.length) (fun d x =>
    match d.bar4Addr f x.1 with
    | none => d
    | some a =>
      if d.trippedAt a then d
      else if ep then (d.transfer .host a x.2 true).devMark [a]
      else d.memWrite .host a ((data.drop (x.1 - o)).take x.2))
  match hole with
  | some a => d.log Ev.accessHole part code (BitVec.ofNat 32 a) (BitVec.ofNat 32 (a / 2 ^ 32 % 2 ^ 12)) 0
  | none => d

/-! ### Regulators (R238, R239) -/

/-- `n` fabric cycles without a request: 5 × RATE tokens each, up to the bucket's depth. -/
def Regulator.gain (g : Regulator) (n : Nat) : Regulator := { g with tokens := min g.depth (g.tokens + 5 * g.rate * n) }

/-- The fabric cycles after which a request may pass; none when it never may: at RATE 0, or with a charge beyond the bucket (R238, R239). -/
def Regulator.cyclesFor (g : Regulator) (c : Nat) : Option Nat :=
  if g.rate = 0 || g.depth < 8 * c then none
  else some ((8 * c - g.tokens + (5 * g.rate - 1)) / (5 * g.rate))

/-- `n` fabric cycles of a regulator (R238): requests pass in order, each as soon as the tokens of its charge are there, and each cycle in
which one is held counts; `held`: a request passed in the present cycle and the next one is held in it. -/
def Regulator.runFrom (g : Regulator) (n : Nat) (held : Bool) : List MemReq → Regulator
  | [] => { g.gain n with queue := [] }
  | q :: rest =>
    let c := chargeOf q.addr q.bytes
    match g.cyclesFor c with
    | none => { g.gain n with queue := q :: rest, wait := satInc g.wait (n + b2n held) }
    | some k =>
      if n < k then { g.gain n with queue := q :: rest, wait := satInc g.wait (n + b2n held) }
      else
        let g := g.gain k
        Regulator.runFrom { g with tokens := g.tokens - 8 * c, charge := g.charge + BitVec.ofNat 64 c, wait := satInc g.wait (k - 1 + b2n (held && k != 0)) }
          (n - k) (held || k != 0) rest

def Regulator.run (g : Regulator) (n : Nat) : Regulator := g.runFrom n false g.queue

/-- A glen whose last issued write has passed is IDLE again (R291). -/
def Dev.glensRest (d : Dev) (p : Fin 64) : Dev :=
  { d with glens := Vector.ofFn (fun c =>
      let g := Tab.at d.glens c
      if g.state = .stopping && g.part == some p && !d.holds p (.glen c) then { g with state := .idle, part := none, shard := 0 } else g) }

def Dev.regulatorPass (d : Dev) (p : Fin 64) (t : Tier) (n : Nat) : Dev :=
  (match t with
    | .dale => d.updPart p (fun x => { x with dale := x.dale.run n })
    | .basin => d.updPart p (fun x => { x with basin := x.basin.run n })).glensRest p

/-! ### Demand reads and narrow writes (R370, R371) -/

/-- A demand read of the line that holds an address: the line, or a poisoned answer. -/
def Dev.demandRead (d : Dev) (a : Nat) : Dev :=
  if place a = .hole || d.trippedAt a then d
  else
    let (d, b, bad) := d.devRead (lineOf a) 64
    d.reply (if bad.isEmpty then .bytes b else .poisoned)

/-- A write of part of a line; bytes beyond it are the next line's (R371). -/
def Dev.readModifyWrite (d : Dev) (a : Nat) (b : List Byte) : Dev :=
  if place a = .hole || d.trippedAt a then d else d.devWrite a b

/-! ### Scrubbers (R372, R373) -/

/-- The scrubber's read of a device line. -/
def Dev.scrubLineDev (d : Dev) (line : Nat) : Dev :=
  if d.isMark line then d
  else if d.lineUncorr line then ((d.putMark line).logAddr Ev.scrubPoison line).loseAt line
  else d.each (lineWords line) (fun d a => d.correctWord a)

def Dev.passed (d : Dev) (t : Fin 3) : Dev := d.updRas (fun r => { r with scrubPass := Tab.upd r.scrubPass t (fun w => w + 1) })

/-- A slot of 512 bytes: its eight lines. -/
def Dev.scrubSlot (d : Dev) (a : Nat) : Dev :=
  if d.ecc.isEmpty then d else d.each ((List.range 8).map (fun k => a + 64 * k)) Dev.scrubLineDev

def daleSlots : Nat := 48 * 2 ^ 21
def basinSlots : Nat := 64 * 2 ^ 21

def Dev.scrubRead (d : Dev) (u : ScrubUnit) : Dev :=
  match u with
  | .sram i =>
    let x := d.plain i
    if !bit (Tab.at d.ras.scrubCfg 0) 0 || !(x.state == .idle || x.state == .busy) then d
    else
      let line := 64 * x.scrubLine
      let e := x.parAt line
      let d := if e = 0 || e = allBad then d
        else (d.updPlain i (fun y => y.setPar line allBad)).logSram Ev.scrubPoison i line
      let last := x.scrubLine + 1 == sramBytes / 64
      let d := d.updPlain i (fun y => { y with scrubLine := if last then 0 else x.scrubLine + 1 })
      if last then d.passed 0 else d
  | .dale s =>
    let x := Tab.at d.daleStacks s
    if !bit (Tab.at d.ras.scrubCfg 1) 0 || x.state == .tripped then d
    else
      let d := d.scrubSlot (s.val * 0xC00000000 + 512 * x.scrub)
      let last := x.scrub + 1 == daleSlots
      let d := { d with daleStacks := Tab.upd d.daleStacks s (fun y => { y with scrub := if last then 0 else x.scrub + 1 }) }
      if last then d.passed 1 else d
  | .basin c =>
    let x := Tab.at d.channels c
    if !bit (Tab.at d.ras.scrubCfg 2) 0 || x.tripped then d
    else
      let d := d.scrubSlot (channelBase c + 512 * x.scrub)
      let last := x.scrub + 1 == basinSlots
      let d := { d with channels := Tab.upd d.channels c (fun y => { y with scrub := if last then 0 else x.scrub + 1 }) }
      if last then d.passed 2 else d

/-! ### Heat (R245 to R248) -/

/-- The demand slots allowed in 200 at a readout (R245). -/
def slotsAt (t : Nat) : Nat := if t ≤ 85 then 200 else if 95 ≤ t then 110 else 200 - 9 * (t - 85)

/-- A readout of a dale stack, `n` dale cycles after the one before. -/
def Dev.daleTemp (d : Dev) (s : Fin 12) (t : Byte) (n : Nat) : Dev :=
  let x := Tab.at d.daleStacks s
  if x.state = .tripped then d
  else
    let trip := 105 ≤ t.toNat
    let slots := if trip then 0 else slotsAt t.toNat
    let hot := d.warnC ≤ t && x.armed
    let d := { d with daleStacks := Tab.upd d.daleStacks s (fun y => { y with
      temp := t, tmax := if y.tmax < t then t else y.tmax, slots := BitVec.ofNat 8 slots
      state := if trip then .tripped else if slots < 200 then .throttled else .full
      thrCyc := if y.slots.toNat < 200 then y.thrCyc + BitVec.ofNat 64 n else y.thrCyc
      armed := if d.warnC ≤ t then false else y.armed || t.toNat + 2 ≤ d.warnC.toNat }) }
    let d := if hot then d.log Ev.daleHot 0xFF s.val (t.setWidth 32) 0 0 else d
    if trip then
      (d.updDom ⟨64 + s.val, by omega⟩ (fun _ => { state := .gated, mhz := 0, starting := false })).tripUnit false s.val t
    else d

/-- A read of a basin package's mode register. -/
def Dev.basinMode (d : Dev) (c : Fin 24) (mr4 : Byte) (atLimit : Bool) : Dev :=
  let x := Tab.at d.channels c
  if x.tripped then d
  else
    let d := { d with channels := Tab.upd d.channels c (fun y => { y with mr4 := mr4, tripped := atLimit }) }
    if atLimit then d.tripUnit true c.val 0 else d

/-! ### Meanings -/

def execBar4Read (f : Fn) (off len : Nat) (s : State) : Host.Outcome State Fault Refusal :=
  .next { s with dev := if s.dev.reachable (.host f) then s.dev.bar4Read f off len else s.dev }
def execBar4Write (f : Fn) (off : Nat) (data : List Byte) (ep : Bool) (s : State) : Host.Outcome State Fault Refusal :=
  .next { s with dev := if s.dev.reachable (.host f) then s.dev.bar4Write f off data ep else s.dev }
def execRegulatorPass (p : Fin 64) (tier : Tier) (cycles : Nat) (s : State) : Host.Outcome State Fault Refusal :=
  .next { s with dev := s.dev.regulatorPass p tier cycles }
def execDemandRead (addr : BitVec 44) (s : State) : Host.Outcome State Fault Refusal := .next { s with dev := s.dev.demandRead addr.toNat }
def execReadModifyWrite (addr : BitVec 44) (data : List Byte) (s : State) : Host.Outcome State Fault Refusal :=
  .next { s with dev := s.dev.readModifyWrite addr.toNat data }
def execScrubRead (u : ScrubUnit) (s : State) : Host.Outcome State Fault Refusal := .next { s with dev := s.dev.scrubRead u }
def execDaleTempReadout (u : Fin 12) (temp : Byte) (cycles : Nat) (s : State) : Host.Outcome State Fault Refusal :=
  .next { s with dev := s.dev.daleTemp u temp cycles }
def execBasinModeRead (c : Fin 24) (mr4 : Byte) (atLimit : Bool) (s : State) : Host.Outcome State Fault Refusal :=
  .next { s with dev := s.dev.basinMode c mr4 atLimit }

end Sys2Proof.Machine
end

