-- ==== Sys2Proof/Machine/Recovery.lean ====
section
/-! DEFINITION. The event log's commits (R381), plain fences (R385 to R387), the recovery supervisor (R389 to R392). -/

namespace Sys2Proof.Machine

open Sys2Proof

/-- Once every started command has stopped, the unstarted ones return NOT_RUN, and the records are written (R386). -/
def Dev.fenceRecords (d : Dev) (p : Fin 64) : Dev :=
  if !(d.part p).lost || !(d.startedOf p).isEmpty then d
  else
    let d := (partRings p).foldl (fun d r =>
      ((d.ring r).cmds.filter (fun c => c.stage == .admitted)).foldl (fun d c => d.finish r c.index .notRun) d) d
    let d := { d with ccx := { d.ccx with staging := d.ccx.staging.filter (fun e => e.ring.fn != .vf p) } }
    (partRings p).foldl (fun d r => d.writeReady r) d

def Dev.heartbeat (d : Dev) (h : Fin 4) : Dev :=
  if d.ccx.harts then { d with ccx := { d.ccx with beats := Tab.upd d.ccx.beats h (fun _ => d.pwr.aon) } } else d

def Dev.heartbeatLost (d : Dev) (h : Fin 4) : Dev :=
  if d.ccx.harts && 153600 ≤ (d.pwr.aon - Tab.at d.ccx.beats h).toNat then d.startFence 1 (BitVec.ofNat 16 h.val) else d

/-- At FENCE_WAIT, plains that still run a descriptor halt and are named (R390). -/
def Dev.fenceExpired (d : Dev) : Dev :=
  match d.ccx.fence with
  | none => d
  | some f =>
    if f.waited || (d.pwr.aon - f.tick).toNat < d.ccx.fenceWait.toNat then d
    else
      let late := (List.finRange 64).filter (fun i => !(d.plain i).seq.over || (d.plain i).threaded)
      let d := late.foldl (fun d i => d.haltPlain i) d
      { d with ccx := { d.ccx with fence := some { f with
          waited := true, halted := BitVec.ofNat 64 (late.foldl (fun a i => a + 2 ^ i.val) 0) } } }

/-- One DEVICE_FENCED record (R391). -/
def Dev.fencedRecord (d : Dev) (r : RingId) : Dev :=
  let x := d.ring r
  if !x.en then d
  else
    let open' := x.cmds
    let (idx, tag) := match open' with | c :: _ => (c.index.toNat, c.tag.toNat) | [] => (x.sqHead.toNat, 0)
    d.putRecord r [BitVec.ofNat 32 (0x60 + 65536 * tag), BitVec.ofNat 32 (idx + 65536 * d.ccx.epoch.toNat), 0, 0, 0, 0,
      BitVec.ofNat 32 open'.length, BitVec.ofNat 32 (2 ^ 31 * b2n x.phase)]

/-- Whether some regulator still holds a write that was issued (R390). -/
def Dev.writesIssued (d : Dev) : Bool := d.parts.toList.any (fun x => (x.dale.queue.any (fun q => q.write) && !x.dale.drained) || (x.basin.queue.any (fun q => q.write) && !x.basin.drained))

/-- The control complex is loaded again, or not, once every issued write has completed (R390 to R392). -/
def Dev.reloaded (d : Dev) (ok : Bool) : Dev :=
  match d.ccx.fence with
  | none => d
  | some f =>
    if !f.waited || d.writesIssued then d
    else
      let spent := d.ccx.epoch == 0xFFFF
      let d := { d with ccx := { d.ccx with epoch := if spent then d.ccx.epoch else d.ccx.epoch + 1, fence := none, staging := [] } }
      let d := d.log Ev.supervisorFence 0xFF f.hart.toNat (f.cause.setWidth 32) (lo32 f.halted) (hi32 f.halted)
      let d := d.each allRings Dev.fencedRecord
      let d := d.each (List.finRange 64) (fun d p => (d.startReset p).endReset p)
      let d := d.updHif (fun h => { h with rings := h.rings.map Ring.clear })
      { d with ccx := { d.ccx with
          sup := if ok && !spent then .ready else .failed, harts := ok && !spent, beats := Tab.all 4 d.pwr.aon } }

/-! ### Meanings -/

def execEventRecordCommit (s : State) : Host.Outcome State Fault Refusal := .next { s with dev := s.dev.commitEvent }
def execPlainFenceRecords (p : Fin 64) (s : State) : Host.Outcome State Fault Refusal := .next { s with dev := s.dev.fenceRecords p }
def execPlainPortTimeout (i : Fin 64) (s : State) : Host.Outcome State Fault Refusal := .next { s with dev := s.dev.fencePlain i 2 }
def execHartHeartbeat (h : Fin 4) (s : State) : Host.Outcome State Fault Refusal := .next { s with dev := s.dev.heartbeat h }
def execHeartbeatTimeout (h : Fin 4) (s : State) : Host.Outcome State Fault Refusal := .next { s with dev := s.dev.heartbeatLost h }
def execFenceWaitExpiry (s : State) : Host.Outcome State Fault Refusal := .next { s with dev := s.dev.fenceExpired }
def execControlComplexReloadDone (ok : Bool) (s : State) : Host.Outcome State Fault Refusal := .next { s with dev := s.dev.reloaded ok }

end Sys2Proof.Machine
end

