-- ==== Sys2Proof/Machine/Promise.lean ====
section
/-! DEFINITION. Promises (R72 to R74, R151, R241, R267, R314, R321, R355, R362, R363, R435): the time that admission bounds a
command by, in microseconds, exactly; none where it refuses. -/

namespace Sys2Proof.Machine

open Sys2Proof

/-! ### Rates and gates (R73, R74, R241) -/

/-- A regulator's rate, in GB/s. -/
def Dev.rateOf (d : Dev) (p : Fin 64) (t : Tier) : Nat :=
  match t with
  | .dale => (d.part p).dale.rate
  | .basin => (d.part p).basin.rate

/-- The thermal floor of one unit and the bound of R74, in tenths of a GB/s. -/
def floor10 : Tier → Nat
  | .dale => 6765
  | .basin => 680
def sum10 : Tier → Nat
  | .dale => 81180
  | .basin => 16320

/-- Whether the rates of a tier keep the module-wide bound of R74: no command declares bytes in it otherwise (R241). -/
def Dev.sumOk (d : Dev) (t : Tier) : Bool := (List.finRange 64).foldl (fun n q => n + 10 * d.rateOf q t) 0 ≤ sum10 t

/-- Whether a command of a partition may declare bytes of a tier (R74, R241). -/
def Dev.gate (d : Dev) (p : Fin 64) (t : Tier) : Bool :=
  let all := (List.finRange 64).map (fun q => (10 * d.rateOf q t, d.unitsOf q t))
  d.sumOk t &&
  (d.unitsOf p t).all (fun u => all.foldl (fun n x => if x.2.contains u then n + min x.1 (floor10 t) else n) 0 ≤ floor10 t)

/-- The time of some bytes of a partition at a spread (R73). -/
def Dev.memTerm (d : Dev) (p : Fin 64) (t : Tier) (n spread : Nat) : Option Rat :=
  if n = 0 then some 0
  else if spread = 0 || (d.unitsOf p t).length < spread || !d.gate p t || d.rateOf p t == 0 then none
  else some ((n : Rat) / (100 * (min (10 * d.rateOf p t) (floor10 t * spread) : Nat)))

def Dev.hostWeight (d : Dev) (p : Option (Fin 64)) : Nat :=
  match p with
  | some p => bits (d.part p).quota 16 8
  | none => 16

/-- The time of some host bytes (R73). -/
def Dev.hostTerm (d : Dev) (p : Option (Fin 64)) (n : Nat) : Option Rat :=
  let sum := (List.finRange 64).foldl (fun s q => s + d.hostWeight (some q)) 16
  if n = 0 then some 0
  else if d.hostWeight p = 0 then none
  else some ((n * sum : Nat) / (100000 * d.hostWeight p : Nat))

/-- W of R73. -/
def Dev.wakeTerm (d : Dev) (ps : List (Fin 64)) : Nat := if ps.any (fun i => (d.plain i).state == .stopped) then 3 else 0

/-- A promise in whole microseconds, within the ceiling and MAX_US (R70). -/
def promiseUs (t : Rat) (maxUs : Nat) : Option (BitVec 24) :=
  let n := t.ceil.toNat
  if n ≤ 16777215 && (maxUs == 0 || n ≤ maxUs) then some (BitVec.ofNat 24 n) else none

/-- The largest of some terms, none where one is refused. -/
def maxTerms (l : List (Option Rat)) : Option Rat :=
  l.foldl (fun m x => match m, x with | some a, some b => some (max a b) | _, _ => none) (some 0)
def addTerms (l : List (Option Rat)) : Option Rat :=
  l.foldl (fun m x => match m, x with | some a, some b => some (a + b) | _, _ => none) (some 0)

/-! ### Declared costs (R72) -/

/-- A number of 64 bits. -/
def in64 (n : Nat) : Option Nat := if n < 2 ^ 64 then some n else none

def Mono.eval (shape : Nat → Nat) (m : Mono) : Option Nat :=
  m.vars.foldl (fun a v => a.bind (fun x => in64 (x * shape v.val))) (in64 m.coef)

def Poly.eval (shape : Nat → Nat) (p : Poly) : Option Nat :=
  p.foldl (fun a m => a.bind (fun x => (m.eval shape).bind (fun y => in64 (x + y)))) (some 0)

/-- A phase at a shape. -/
structure PhaseAt where
  cycles : Nat
  dale   : Nat
  spreadS : Nat
  basin  : Nat
  spreadC : Nat
  col    : Nat
  hostRd : Nat
  hostWr : Nat
deriving DecidableEq, Repr

def Phase.at' (f : Phase) (shape : Nat → Nat) : Option PhaseAt := do
  return { cycles := ← f.cycles.eval shape, dale := ← f.dale.eval shape, spreadS := ← f.spreadS.eval shape,
           basin := ← f.basin.eval shape, spreadC := ← f.spreadC.eval shape, col := ← f.col.eval shape,
           hostRd := ← f.hostRd.eval shape, hostWr := ← f.hostWr.eval shape }

/-- The phases of an entry point at a shape, none on an overflow. -/
def EntryPoint.phasesAt (e : EntryPoint) (shape : Nat → Nat) : Option (List PhaseAt) := e.phases.mapM (fun f => f.at' shape)

def zeroPhase : PhaseAt := { cycles := 0, dale := 0, spreadS := 0, basin := 0, spreadC := 0, col := 0, hostRd := 0, hostWr := 0 }

/-- The time of one phase (R73). -/
def Dev.phaseTerm (d : Dev) (p : Fin 64) (f : PhaseAt) : Option Rat :=
  maxTerms [some ((f.cycles : Rat) / 1200), d.memTerm p .dale f.dale f.spreadS, d.memTerm p .basin f.basin f.spreadC,
    some ((f.col : Rat) / 200000), d.hostTerm (some p) (max f.hostRd f.hostWr)]

def Dev.phasesTerm (d : Dev) (p : Fin 64) (l : List PhaseAt) : Option Rat := addTerms (l.map (d.phaseTerm p))

/-- R73 for a command with declared phases. -/
def Dev.phasesUs (d : Dev) (p : Fin 64) (plains : List (Fin 64)) (l : List PhaseAt) (maxUs : Nat) : Option (BitVec 24) :=
  (d.phasesTerm p l).bind (fun t => promiseUs ((d.wakeTerm plains + 4 : Nat) + t) maxUs)

/-- The declared phases with the plain cycles that tiling gives them (R151): (phase, cycles). -/
def withCycles (l : List PhaseAt) (tiled : List (Nat × Nat)) : List PhaseAt :=
  (l.zip (List.range l.length)).map (fun x =>
    let mine := tiled.filter (fun t => t.1 == x.2)
    if mine.isEmpty then x.1 else { x.1 with cycles := mine.foldl (fun m t => max m t.2) 0 })

/-! ### Collectives (R304, R314) -/

/-- h_a of R304: half a ring's length, a chain's whole length. -/
def Dev.hopsOn (d : Dev) (p : Fin 64) (a : Fin 4) : Nat :=
  let l := (d.coord p a).1
  if (d.bank a).modeOf = 1 then l / 2 else l - 1

/-- T_group over some axes, in microseconds. -/
def Dev.groupUs (d : Dev) (p : Fin 64) (axes : Nat) : Rat :=
  1 + ((d.lineAxes p axes).foldl (fun n a => n + d.hopsOn p a) 0 * 13 : Nat) / 10

/-- The bytes on the busiest col and the latency of an op of `n` elements. -/
def Dev.opCost (d : Dev) (p : Fin 64) (o : Tab Word 16) (n : Nat) : Nat × Rat :=
  let a := opAxis o
  let l := (d.coord p a).1
  let size (f : Nat) : Nat := if f = 1 then 2 else 4
  let per := n / l * (l - 1) / (if (d.bank a).modeOf = 1 then 4 else 2)
  let lat : Rat := ((l - 1) * 16 : Nat) / 10
  match opKind o with
  | 1 => ((size (b2n (Coll.wire16 o)) + size (Coll.fmtOut o)) * per, 2 * lat)
  | 2 => (size (b2n (Coll.wire16 o)) * per, lat)
  | 3 => (size (Coll.fmtIn o) * per, lat)
  | _ => (0, d.groupUs p (Coll.nfAxes o))

/-- R314: op k's col term replaces phase k's, its latency is added; W is 0. A phase that is not declared costs nothing of its
own (log entry 24). -/
def Dev.collectiveUs (d : Dev) (p : Fin 64) (c : CollectiveDef) (l : List PhaseAt) (shape : Nat → Nat) (maxUs : Nat) :
    Option (BitVec 24) :=
  let costs := c.ops.map (fun o => d.opCost p o (shape (Coll.countSrc o)))
  let l := l ++ List.replicate (costs.length - l.length) zeroPhase
  let l := (l.zip (List.range l.length)).map (fun x => match costs[x.2]? with | some y => { x.1 with col := y.1 } | none => x.1)
  (d.phasesTerm p l).bind (fun t => promiseUs (4 + t + costs.foldl (fun s y => s + y.2) 0) maxUs)

/-! ### Copies, images and short commands (R435) -/

/-- The charges of all the requests of a transfer (R235, R236). -/
def chargeRange (a n : Nat) : Nat :=
  let head := min n ((4096 - a % 4096) % 4096)
  let body := (n - head) / 4096
  chargeOf a head + 4096 * body + chargeOf (a + head + 4096 * body) (n - head - 4096 * body)

/-- A range cut at every GiB: (address, bytes). -/
def granulePieces (a n : Nat) : List (Nat × Nat) :=
  if n = 0 then []
  else (List.range ((a + n - 1) / 2 ^ 30 + 1 - a / 2 ^ 30)).map (fun k =>
    let lo := max a ((a / 2 ^ 30 + k) * 2 ^ 30)
    (lo, min (a + n) ((a / 2 ^ 30 + k + 1) * 2 ^ 30) - lo))

/-- What a copy charges a unit: the tier, the owner, the unit, the charge. -/
structure Charge where
  tier  : Tier
  owner : Option (Fin 64)
  unit  : Nat
  bytes : Nat
deriving DecidableEq, Repr

def Dev.charges (d : Dev) (a n : Nat) : List Charge :=
  (granulePieces a n).map (fun x =>
    { tier := if tierCode x.1 = 2 then .basin else .dale, owner := d.ownerAt x.1, unit := unitAt x.1, bytes := chargeRange x.1 x.2 })

def chargeSum (l : List Charge) : Nat := l.foldl (fun n c => n + c.bytes) 0

/-- The bytes of one owner in one tier, over the units that they touch. -/
def Dev.ownedTerm (d : Dev) (p : Fin 64) (t : Tier) (l : List Charge) : Option Rat :=
  let mine := l.filter (fun c => c.owner == some p && c.tier == t)
  let units := (List.range 24).filter (fun u => mine.any (fun c => c.unit == u))
  d.memTerm p t (chargeSum mine) units.length

/-- The bytes in free granules of a tier, at the reserve of the busiest unit: 6.15 and 0.34 GB/s (R241, R435). -/
def Dev.freeTerm (d : Dev) (t : Tier) (l : List Charge) : Option Rat :=
  let free := l.filter (fun c => c.owner.isNone && c.tier == t)
  let busiest := (List.range 24).foldl (fun m u => max m (chargeSum (free.filter (fun c => c.unit == u)))) 0
  if busiest = 0 then some 0
  else if d.sumOk t then some ((busiest : Rat) / (match t with | .dale => 6150 | .basin => 340))
  else none

/-- R435: a COPY with some charges and host bytes, on a ring of `fn`. -/
def Dev.copyUs (d : Dev) (fn : Option (Fin 64)) (l : List Charge) (host maxUs : Nat) : Option (BitVec 24) :=
  (maxTerms ([d.hostTerm fn host, d.freeTerm .dale l, d.freeTerm .basin l] ++
    (List.finRange 64).flatMap (fun p => [d.ownedTerm p .dale l, d.ownedTerm p .basin l]))).bind (fun t => promiseUs (4 + t) maxUs)

/-- A command without cost phases: its image's bytes, if any, as one phase with a spread of 1 (log entry 24). -/
def Dev.imageUs (d : Dev) (p : Fin 64) (plains : List (Fin 64)) (host : Bool) (a n maxUs : Nat) : Option (BitVec 24) :=
  let l := if host then [] else d.charges a n
  (maxTerms [d.hostTerm (some p) (if host then n else 0), d.memTerm p .dale (chargeSum (l.filter (fun c => c.tier == .dale))) 1,
    d.memTerm p .basin (chargeSum (l.filter (fun c => c.tier == .basin))) 1]).bind
    (fun t => promiseUs ((d.wakeTerm plains + 4 : Nat) + t) maxUs)

/-! ### UPDATE (R267) -/

/-- The basin charges per parameter of a rule's phases: MOMENTS, DIRECTION, WEIGHTS, AVERAGE. -/
def ruleCharges (s : Shard) : List Nat :=
  let avg := if s.avgEn then 12 else 0
  match s.rule with
  | 1 => [18, 0, 16, avg]
  | 2 => [12, 0, 12, avg]
  | 8 => [10, 6, 10, avg]
  | 9 => [12, 6, 10, avg]
  | _ => [10, 0, 12, avg]

/-- The statistics traffic of one step from a phase on, at t applied gradients (R273, R277). -/
def statCharge (s : Shard) (first t : Nat) : Nat :=
  if s.rule = 2 then (if first = 0 then 8 * (s.rows + s.cols) else 0)
  else if s.rule = 9 then
    ((if first = 0 then 12 else 0) + (if first ≤ 1 && t % (s.p 12).toNat == 0 then 4 else 0)) * (s.rows * s.rows + s.cols * s.cols)
  else 0

/-- What an UPDATE does to one named shard: its basin charge per parameter, its statistics bytes, how often it writes the
working copy, and the stages of the direction entry point that it runs. -/
structure ShardCost where
  perParam : Nat
  stats    : Nat
  copies   : Nat
  stages   : List Nat
deriving DecidableEq, Repr

def ShardCost.add (a b : ShardCost) : ShardCost :=
  { perParam := a.perParam + b.perParam, stats := a.stats + b.stats, copies := a.copies + b.copies, stages := a.stages ++ b.stages }

/-- The phases from `first` (0 MOMENTS, 1 DIRECTION, 2 WEIGHTS, 3 AVERAGE) on. -/
def Shard.costFrom (s : Shard) (first t : Nat) : ShardCost :=
  { perParam := ((ruleCharges s).drop first).foldl (fun a b => a + b) 0
    stats := statCharge s first t
    copies := if first ≤ 2 then 1 else 0
    stages := (if s.rule = 9 && first = 0 then [0] else []) ++ (if s.matrix && first ≤ 1 then [1] else []) }

def noCost : ShardCost := { perParam := 0, stats := 0, copies := 0, stages := [] }

/-- An interrupted shard pays the remaining phases of its step, and every shard below STEP a whole step, each with the number of the
gradient it applies (R267, R273). -/
def Shard.updateCost (s : Shard) (refresh : Bool) (step : Word) : ShardCost :=
  if refresh then (if s.tier = 1 && s.phase = 0 then { perParam := 4, stats := 0, copies := 1, stages := [] } else noCost)
  else
    let t := s.applied.toNat + (if s.phase = 1 then 1 else 0)
    (if s.phase = 0 then noCost else s.costFrom (s.phase - 1) t).add (if s.weightsStep < step then s.costFrom 0 (t + 1) else noCost)

/-- The bytes of a shard that a snapshot in progress has still to read. -/
def Dev.pendingBytes (d : Dev) (p : Fin 64) (k : Nat) (s : Shard) : Nat :=
  if !s.snapPending then 0
  else (d.startedOf p).foldl (fun n x => match x.2.work with
    | .snapshot w => if w.todo.contains k then
        n + ((s.allChunks.drop (if w.todo.head? = some k then w.chunk else 0)).foldl (fun m c =>
          m + 4 * min 8192 (s.params - s.firstOf c.1 c.2)) 0)
      else n
    | _ => n) 0

/-- The shape of a direction entry point (R267). -/
def Shard.dirShape (s : Shard) (k stage : Nat) (v : Nat) : Nat :=
  match v with
  | 0 => s.rows
  | 1 => s.cols
  | 2 => stage
  | 3 => k
  | _ => 0

/-- The plain term of one matrix shard, over the stages it runs. -/
def Dev.directionTerm (d : Dev) (p : Fin 64) (e : EntryPoint) (k : Nat) (s : Shard) (stages : List Nat) : Option Rat :=
  addTerms (stages.map (fun stage => (e.phasesAt (s.dirShape k stage)).bind (d.phasesTerm p)))

/-- R267: the memory terms by their maximum, then the plain terms and the snapshot reads (log entry 24). -/
def Dev.updateUs (d : Dev) (p : Fin 64) (refresh : Bool) (step : Word) (ks : List Nat) (dir : Option EntryPoint)
    (maxUs : Nat) : Option (BitVec 24) :=
  let shards := ks.filterMap (fun k => (d.shard p k).map (fun s => (k, s, s.updateCost refresh step)))
  let onChannel (c : Fin 24) : Nat := shards.foldl (fun n x =>
    let slices := if x.2.1.channels.contains c then 8192 * x.2.1.chunks (x.2.1.sliceOf c) * x.2.2.perParam else 0
    n + slices + (if unitAt x.2.1.statAddr = c.val then x.2.2.stats else 0)) 0
  let busiest := (List.finRange 24).foldl (fun m c => max m (onChannel c)) 0
  let total := (List.finRange 24).foldl (fun n c => n + onChannel c) 0
  let rate := d.rateOf p .basin
  let basin : Option Rat :=
    if total = 0 then some 0
    else if rate = 0 || !d.gate p .basin then none
    else some (max ((total : Rat) / (1000 * rate : Nat)) ((busiest : Rat) / (100 * min (10 * rate) 680 : Nat)))
  let dale := d.memTerm p .dale (shards.foldl (fun n x => n + (if x.2.1.tier = 1 then 2 * x.2.1.params * x.2.2.copies else 0)) 0) 1
  let plain := addTerms (shards.map (fun x => match dir with
    | some e => d.directionTerm p e x.1 x.2.1 x.2.2.stages
    | none => some 0))
  let pending := shards.foldl (fun n x => n + d.pendingBytes p x.1 x.2.1) 0
  let snap : Option Rat := if pending = 0 then some 0 else if rate = 0 then none else some ((pending : Rat) / (1000 * rate : Nat))
  let plains := match dir with | some e => if shards.any (fun x => !x.2.2.stages.isEmpty) then e.plains else [] | none => []
  (addTerms [maxTerms [basin, dale], plain, snap]).bind (fun t => promiseUs ((d.wakeTerm plains + 4 : Nat) + t) maxUs)

/-! ### SNAPSHOT (R321, R363) -/

/-- A snapshot of `bytes` bytes that reads `read` basin bytes. To host memory it is bounded as R73 bounds a phase with both
terms (log entry 24). Every snapshot declares its reads, so its partition must pass the gates of the basin (R239, R241). -/
def Dev.snapshotUs (d : Dev) (p : Fin 64) (c : Cmd) (bytes read spread maxUs : Nat) : Option (BitVec 24) :=
  (d.memTerm p .basin read spread).bind (fun basin =>
    match Snap.dest c with
    | 0 => (d.hostTerm (some p) bytes).bind (fun host => promiseUs (4 + max basin host) maxUs)
    | 1 => promiseUs ((bytes : Rat) / 400000 + 13 / 10) maxUs
    | _ => (snapTarget c).bind (fun t =>
      let x := Tab.at d.targets t
      if x.wrGbps = 0 then none
      else promiseUs (4 + (bytes : Rat) / (1000 * x.wrGbps : Nat) + (8192 * 2 ^ x.timeout : Nat) / 1000) maxUs))

/-! ### Media (R355, R362) -/

/-- D_p and E_p of a partition, in Mpixel/s (R342). -/
def Part.decodeShare (x : Part) : Nat := bits x.share 0 14
def Part.encodeShare (x : Part) : Nat := bits x.share 16 12

/-- The sample cycles of a stem stage over one picture (R174). -/
def stemCycles (t : Stem.T) : Nat :=
  if Stem.mode t = 2 then 2048 + (2 * Stem.tileElems t + 511) / 512
  else 2048 + (Stem.outW t * Stem.outH t * Stem.co t * Stem.kh t * Stem.kw t * Stem.ci t + 16383) / 16384

/-- R355's promise of a sample job. -/
def Dev.sampleUs (d : Dev) (p : Fin 64) (c : Cmd) (l : Lay.L) (t : Stem.T) (es : List Ent.T) (maxUs : Nat) : Option (BitVec 24) :=
  let share := (d.part p).decodeShare
  let pix (e : Ent.T) : Nat :=
    if Lay.video l then Ent.maxW e * Ent.maxH e * Ent.decFrames e else if Lay.picture l then Ent.maxW e * Ent.maxH e else 0
  let cost (e : Ent.T) : Nat := max (pix e) (16 * Ent.srcBytes e) + 80000
  let all := es.foldl (fun n e => n + cost e) 0
  let most := es.foldl (fun n e => max n (cost e)) 0
  let elems := es.length * slotElems l t
  let stem := if Lay.stem l then es.length * slotFrames l * stemCycles t else 0
  let total := slotTotal l t
  let b := Job.slots c
  let y := es.foldl (fun n e => n + Ent.srcBytes e) 0
  let dest := Lay.dest l
  let toDale := dest.space = 0 && tierCode dest.addr = 1
  let dale := 2 * y + b * total + (if toDale then b * total else 0) + 8192
  let basin := if dest.space = 0 && !toDale then b * total else 0
  let man := 64 + 32 * b
  let hostRd := (if c.ptrHost then 64 * es.length else 0) + es.foldl (fun n e => if Ent.src e = 1 then n + Ent.srcBytes e else n) 0
  let hostWr := if (hostBit (Lay.manifest l)).1 then man else 0
  let plains := if dest.space = 2 then (List.finRange 64).filter (fun i => dest.plain ≤ i && i.val < dest.plain.val + slotPlains l t) else []
  if share = 0 then none
  else (addTerms [some (Job.budget c), some (max ((all : Rat) / share) ((most : Rat) / (min share 4000 : Nat))),
      some (12 * ((elems : Rat) / 64 + stem) / share), d.memTerm p .dale dale (Lay.daleS l), d.memTerm p .basin basin 1,
      d.hostTerm (some p) (max hostRd hostWr)]).bind (fun t => promiseUs ((d.wakeTerm plains + 4 : Nat) + t) maxUs)

/-- R362's promise of an encode, with the dale and host terms of R73 (log entry 24). -/
def Dev.encodeUs (d : Dev) (p : Fin 64) (c : Cmd) (t : Enc.T) (maxUs : Nat) : Option (BitVec 24) :=
  let share := (d.part p).encodeShare
  let n := Enc.frames c
  let src := n * Enc.h t * (3 * Enc.w t * (if Enc.srcFmt t = 1 then 2 else 4))
  let dst := n * Enc.most t
  let loc := Enc.src t
  let inDale (a : Nat) : Bool := tierCode a == 1
  let out := hostBit (Enc.dst t)
  let idx := hostBit (Enc.idx t)
  let pick (tier : Bool) : Nat :=
    (if loc.space = 0 && inDale loc.addr == tier then 3 * src else 0) +
    (if !out.1 && inDale out.2 == tier then 3 * dst else 0) + (if !idx.1 && inDale idx.2 == tier then 24 * n else 0)
  let hostWr := (if out.1 then 3 * dst else 0) + (if idx.1 then 24 * n else 0)
  let plains := if loc.space = 2 then [loc.plain] else []
  if share = 0 then none
  else (addTerms [some (((3 * n * Enc.w t * Enc.h t + 80000 : Nat) : Rat) / (min share 1000 : Nat)), some (2 * n : Nat),
      d.memTerm p .dale (pick true) 1, d.memTerm p .basin (pick false) 1, d.hostTerm (some p) hostWr]).bind
      (fun t => promiseUs ((d.wakeTerm plains : Nat) + t) maxUs)

end Sys2Proof.Machine
end

