-- ==== Sys2Proof/Machine/Admit.lean ====
section
/-! DEFINITION. The three checks of admission, by command (R70, R433): format, then fit (R75, R76), then promise. -/

namespace Sys2Proof.Machine

open Sys2Proof

/-- What admission decides: the promise, the plains, the work and the dynamic entries of an admitted command; a bad format; what
is over grant, with the stage of R75; or no promise. -/
inductive Verdict where
  | ok (promise : BitVec 24) (plains : List (Fin 64)) (work : Work) (staged : List (Fin 64 × Nat × Desc))
  | format
  | short (stage : BitVec 8) (l : List Shortfall)
  | promise
deriving DecidableEq, Repr

/-- The first failing check decides (R70). -/
def verdict (fmt : Bool) (stage : BitVec 8) (short : List Shortfall) (us : Option (BitVec 24)) (plains : List (Fin 64)) (work : Work)
    (staged : List (Fin 64 × Nat × Desc)) : Verdict :=
  if !fmt then .format
  else if !short.isEmpty then .short stage short
  else match us with
    | some n => .ok n plains work staged
    | none => .promise

/-! ### The descriptor (R67) -/

def Cmd.imageId (c : Cmd) : BitVec 16 := BitVec.ofNat 16 (bits (wd c.words 1) 0 16)
def Cmd.entryNum (c : Cmd) : BitVec 16 := BitVec.ofNat 16 (bits (wd c.words 1) 16 16)
def Cmd.maxUs (c : Cmd) : Nat := bits (wd c.words 5) 0 24
def Cmd.shapeInd (c : Cmd) : Bool := bit (wd c.words 0) 9
/-- Word `k` of the payload at byte 0x20. -/
def Cmd.s (c : Cmd) (k : Nat) : Word := wd c.words (8 + k)

/-- A known opcode that the ring accepts, and zero in the reserved fields of the first 32 bytes. A table at PTR is read by RUN
and SERVE_MIX only, so SHAPE_IND is 0 on every other command (log entry 24). -/
def Cmd.headOk (c : Cmd) (pf : Bool) : Bool :=
  [0x01, 0x02, 0x10, 0x12, 0x30, 0x31, 0x40, 0x41, 0x50, 0x60].contains c.opcode && (!pf || c.opcode == 0x50 || c.opcode == 0x60) &&
  bits (wd c.words 0) 10 6 == 0 && bits (wd c.words 4) 1 15 == 0 && bits (wd c.words 5) 24 8 == 0 && zeroWords c.words 6 2 &&
  (!c.shapeInd || c.opcode == 0x10 || c.opcode == 0x12)

/-- `n` bytes at PTR lie in the partition's granules or in host memory. -/
def Dev.ptrOk (d : Dev) (p : Fin 64) (c : Cmd) (n : Nat) : Bool := c.ptrHost || n == 0 || d.inGrant p c.ptr n

/-- A WAIT or POST word: no reserved bit set, and its counter within the quota (R10, R133, R434). -/
def Dev.syncWordOk (d : Dev) (p : Fin 64) (w : Word) : Bool := bits w 13 3 == 0 && d.ctrOk p w

/-- `n` bytes that bit 63 of an address places in host memory, or that lie in the partition's granules. -/
def Dev.eitherOk (d : Dev) (p : Fin 64) (a : DWord) (n : Nat) : Bool :=
  (hostBit a).1 || n == 0 || d.inGrant p (hostBit a).2 n

/-- A location word of a command, which has no plain of its own (R187). -/
def Dev.cmdLocOk (d : Dev) (p : Fin 64) (l : LocWord) (n : Nat) : Bool := l.space != 1 && d.locOk p l n

/-! ### Shapes, mix tables and length tables (R70, R78, R79, R201, R206) -/

/-- An entry of a mix table or a length table. -/
structure Mix where
  seq   : Nat
  pos   : Nat
  kind  : Nat
  len   : Nat
  clean : Bool
deriving DecidableEq, Repr

def Dev.mixAt (d : Dev) (c : Cmd) : List Mix :=
  (List.range c.ptrCount).map (fun k =>
    let t := d.peek c.ptrHost (c.ptr + 16 * k) 4
    { seq := (wd t 0).toNat, pos := bits (wd t 1) 0 24, kind := bits (wd t 1) 24 8, len := bits (wd t 2) 0 24
      clean := bits (wd t 2) 24 8 == 0 })

def distinct : List Nat → Bool
  | [] => true
  | a :: r => !r.contains a && distinct r

/-- The checks of a mix table (R78, R79). -/
def mixOk (l : List Mix) : Bool :=
  1 ≤ l.length && l.length ≤ 4096 && distinct (l.map (·.seq)) &&
  l.all (fun m => m.clean && ((m.kind == 0 && m.len == 1) || (m.kind == 1 && m.len % 128 == 0)))

/-- The shape that a mix table gives (R79). -/
def mixShape (c : Cmd) (l : List Mix) (k : Nat) : Nat :=
  match k with
  | 0 => l.foldl (fun s m => s + m.len) 0
  | 1 => l.foldl (fun s m => s + (m.pos + m.len) * m.len) 0
  | 2 => l.length
  | _ => (c.s k).toNat

/-- The shape parameters lie in the ranges that the entry point declares; an undeclared one, unless the table derives it, is 0;
a mask word has no bit above 2 (R70, R201). -/
def EntryPoint.shapeOk (e : EntryPoint) (shape : Nat → Nat) (derived : Nat) : Bool :=
  (List.range 8).all (fun k => k < derived || shape k == 0 || e.params.any (fun r => r.param.val == k)) &&
  e.params.all (fun r => r.lo ≤ shape r.param.val && shape r.param.val ≤ r.hi) &&
  (match e.maskParam with | some k => shape k.val < 8 | none => true)

/-! ### Collective entry points (R308 to R310, R317) -/

/-- Whether `n` values fill whole local shards from the first of a list on (R317). -/
def landOk (x : Part) : List Shard → Nat → Bool
  | _, 0 => true
  | [], _ => false
  | s :: r, n => x.isLocal s && s.params ≤ n && landOk x r (n - s.params)

/-- One op of a collective (R309, R310, R317) at a COUNT. -/
def Dev.opOk (d : Dev) (p : Fin 64) (im : Image) (o : Tab Word 16) (n : Nat) : Bool :=
  let kind := opKind o
  let a := opAxis o
  let len := (d.coord p a).1
  let size (f : Nat) : Nat := if f = 1 then 2 else 4
  let x := d.part p
  1 ≤ kind && kind ≤ 4 && bits (wd o 0) 20 12 == 0 && bits (wd o 1) 4 4 == 0 && bits (wd o 1) 12 20 == 0 &&
  bits (wd o 2) 24 8 == 0 && bits (wd o 3) 24 8 == 0 && bits (wd o 10) 16 16 == 0 && zeroWords o 11 4 && d.syncWordOk p (Coll.post o) &&
  Coll.fmtIn o ≤ 1 && Coll.fmtOut o ≤ 1 && Coll.rnd o != 3 && (!Coll.statsEn o || kind == 1 || kind == 2) &&
  (!Coll.dstShard o || kind == 2) &&
  (if kind = 4 then (Coll.src o).clean && (Coll.dst o).clean && (Coll.stats o).clean
   else
    Coll.nfMembers o == 0 && Coll.countSrc o ≤ 7 && (d.bank a).line && d.axisPart a == some p && n % (128 * len) == 0 &&
    d.cmdLocOk p (Coll.src o) (size (Coll.fmtIn o) * (if kind = 3 then n / len else n)) &&
    (if Coll.dstShard o then
      Coll.fmtOut o == 1 && bits (wd o 6) 16 16 == 0 && wd o 7 == 0 && landOk x (x.shards.drop (Coll.firstShard o)) (n / len)
     else d.cmdLocOk p (Coll.dst o) (size (Coll.fmtOut o) * (if kind = 2 then n / len else n))) &&
    (if Coll.statsEn o then (match im.layers[Coll.layerTbl o]? with
      | some l => d.cmdLocOk p (Coll.stats o) (16 * l.length)
      | none => false)
     else (Coll.stats o).clean))

/-- The header of a collective and its ops. -/
def Dev.collOk (d : Dev) (p : Fin 64) (im : Image) (c : CollectiveDef) (shape : Nat → Nat) : Bool :=
  bits (wd c.header 0) 28 4 == c.ops.length && 1 ≤ c.ops.length && c.ops.length ≤ 8 && 2 ≤ c.arrMembers && bits (wd c.header 1) 24 8 == 0 &&
  d.syncWordOk p (Coll.waitW c) && bits (wd c.header 3) 4 28 == 0 && Coll.stepSrc c ≤ 7 && zeroWords c.header 4 4 &&
  c.ops.all (fun o => d.opOk p im o (shape (Coll.countSrc o)))

/-- The axes that an entry point's route needs (R296). -/
def EntryPoint.routeAxes (e : EntryPoint) : List (Fin 4) :=
  let masks := match e.collective with
    | some c => c.arrAxes :: c.ops.map opAxes
    | none => []
  (List.finRange 4).filter (fun a => e.gatherAxes.contains a || masks.any (fun m => m / 2 ^ a.val % 2 == 1))

/-! ### RUN and SERVE_MIX (R70 to R73, R149 to R151, R296, R300) -/

/-- The refusals that R150 gives for one resource, each by the plain with the largest need (R76). -/
def worst (l : List Shortfall) : List Shortfall :=
  [0x01, 0x07, 0x08].filterMap (fun code => (l.filter (fun s => s.res.toNat == code)).foldl (fun (m : Option Shortfall) s =>
    match m with
    | some t => if t.need < s.need || (t.need == s.need && s.scope < t.scope) then some s else m
    | none => some s) none)

/-- The last entry that a plain runs holds KEEP 0 (R144), for a plain without dynamic entries. -/
def Dev.lastKeepOk (d : Dev) (e : EntryPoint) (dynFirst : Nat) (i : Fin 64) : Bool :=
  match (e.list i dynFirst 0).getLast? with
  | some k => !((d.plain i).desc k).keep
  | none => true

/-- A RUN or SERVE_MIX of an entry point at a shape; `lens` is its length table, `derived` how many parameters a table gives. -/
def Dev.judgeEntry (d : Dev) (p : Fin 64) (c : Cmd) (im : Image) (e : EntryPoint) (tableOk : Bool) (shape : Nat → Nat)
    (lens : Option (List Nat)) (derived : Nat) : Verdict :=
  let groups := e.tiling.map (fun g => (g, d.tileGroup p im.dynFirst shape lens g))
  let tiled : Tiled := groups.foldl (fun (acc : Tiled) g => acc.and g.2) (Tiled.ok [] 0)
  let staged := match tiled with | .ok l _ => l | _ => []
  let cycles := groups.filterMap (fun g => match g.2 with | .ok _ n => some (Template.cycPhase g.1.template, n) | _ => none)
  let route := e.routeAxes
  let fmt := tableOk && e.shapeOk shape derived && tiled != .format &&
    e.plains.all (fun i => tiled.plains.contains i || d.lastKeepOk e im.dynFirst i) &&
    (match e.collective with | some x => d.collOk p im x shape | none => true) &&
    ((route.isEmpty && e.collective.isNone) || d.ranks p ≤ 16777215) && route.all (fun a => d.axisPart a != some p || (d.bank a).line)
  let short := match tiled with | .short l _ => worst l | _ => []
  let shape9 (k : Nat) : Nat := if k = 8 then lengthM (lens.getD []) else shape k
  let us := if route.any (fun a => (d.axis a).hurt && d.axisPart a == some p) then none
    else (e.phasesAt shape9).bind (fun l =>
      let l := withCycles l cycles
      match e.collective with
      | some x => d.collectiveUs p x l shape c.maxUs
      | none => d.phasesUs p e.plains l c.maxUs)
  let w : RunWork := { entry := e, shape := Vector.ofFn (fun k => shape k.val), stop := none, begun := false, done := [] }
  let work : Work := match e.collective with
    | some _ => .collective { w with begun := true } default
    | none => .run w
  verdict fmt 0xFF short us (if e.collective.isSome then [] else e.plains) work staged

/-- The loaded image that a command names, and its entry point (R70). -/
def Dev.named' (d : Dev) (p : Fin 64) (c : Cmd) : Option (Image × EntryPoint) :=
  let x := d.part p
  if x.state == .loaded && x.imageId == c.imageId then
    x.image.bind (fun im => (im.entries.find? (fun e => e.num == c.entryNum)).map (fun e => (im, e)))
  else none

def Dev.judgeRun (d : Dev) (p : Fin 64) (c : Cmd) : Verdict :=
  match d.named' p c with
  | none => .format
  | some (im, e) =>
    let shape (k : Nat) : Nat := if k < 8 then (c.s k).toNat else 0
    if c.shapeInd || e.tiling.any (fun g => Template.mSrc g.template == 8) then
      let l := d.mixAt c
      let ok := d.ptrOk p c (16 * c.ptrCount) && l.all (fun m => m.clean && m.kind ≤ 1)
      d.judgeEntry p c im e ok shape (some (l.map (·.len))) 0
    else d.judgeEntry p c im e true shape none 0

def Dev.judgeMix (d : Dev) (p : Fin 64) (c : Cmd) : Verdict :=
  match d.named' p c with
  | none => .format
  | some (im, e) =>
    let l := d.mixAt c
    let ok := d.ptrOk p c (16 * c.ptrCount) && mixOk l
    d.judgeEntry p c im e ok (mixShape c l) (some (l.map (fun m => m.len * e.headGroup.getD 1))) 3

/-! ### The shard table (R255 to R258) -/

/-- The table as memory holds it. -/
def Dev.tableOf (d : Dev) (p : Fin 64) : List Shard :=
  (List.range (d.part p).tblCount.toNat).map (fun k => d.peek false ((d.part p).tblBase + 256 * k) 64)

/-- Refused values and reserved fields, for a local entry and for an EMPTY one. -/
def Shard.fieldsOk (s : Shard) : Bool :=
  s.tier ≤ 2 && [0, 1, 2, 3, 8, 9].contains s.rule && s.delay ≤ 4 && s.phase ≤ 4 &&
  bits (wd s 0) 2 2 == 0 && !bit (wd s 0) 11 && !bit (wd s 0) 15 && bits (wd s 0) 21 11 == 0 && bits (wd s 1) 24 8 == 0 &&
  bits (wd s 5) 24 8 == 0 && bits (wd s 7) 19 13 == 0 && bits (wd s 8) 22 10 == 0 && bits (wd s 9) 7 25 == 0 && zeroWords s 44 20

/-- The rule parameters that a rule uses (R258). -/
def Shard.uses (s : Shard) : List Nat :=
  (match s.rule with
    | 1 => [0, 1, 2, 3, 4]
    | 2 => [0, 1, 2, 3, 4, 6]
    | 8 => [0, 1, 3, 4, 8, 9, 10, 11]
    | 9 => [0, 1, 2, 3, 4, 11, 12, 13]
    | _ => [0, 1, 4]) ++ (if s.avgEn then [5] else [])

/-- Every region that a local shard keeps, with its working copy. -/
def Shard.allRegions (s : Shard) : List (Nat × Nat) := s.regions ++ (if s.tier = 1 then [(s.daleAddr, 2 * s.params)] else [])

/-- The fields that R257 marks as otherwise 0 hold 0 where they do not apply (R10). -/
def Shard.marksOk (s : Shard) : Bool :=
  (s.tier == 1 || s.daleAddr == 0) && (s.rule == 2 || s.matrix || wd s 12 == 0) && (s.rule == 2 || s.rule == 9 || s.statAddr == 0)

/-- The checks of one local entry (R257, R258). -/
def Dev.shardOk (d : Dev) (p : Fin 64) (s : Shard) : Bool :=
  s.fieldsOk && s.marksOk && !s.channels.isEmpty && s.pendHead ≤ s.delay && s.pendCount ≤ s.delay &&
  (List.range 16).all (fun k => s.uses.contains k || s.p k == 0) &&
  (s.rule != 9 || ((s.p 12) != 0 && 1 ≤ (s.p 13).toNat && (s.p 13).toNat ≤ 32)) &&
  (s.tier != 1 || (s.daleAddr % 512 == 0 && (s.params == 0 || d.inDale p s.daleAddr (2 * s.params)))) &&
  (!(s.rule == 2 || s.matrix) || s.rows * s.cols == s.params) &&
  (List.range s.channels.length).all (fun i => s.chunks i ≤ 65535) &&
  (!s.matrix || (s.delay == 0 && s.rows % 512 == 0 && s.cols % 512 == 0 && s.rows ≤ 8192 && s.cols ≤ 8192)) &&
  (s.rule != 2 || s.channels.length == 1) && s.regions.all (fun r => r.2 == 0 || d.inGrant p r.1 r.2)

def meets (a b : Nat × Nat) : Bool := a.1 < b.1 + b.2 && b.1 < a.1 + a.2 && 0 < a.2 && 0 < b.2

/-- No region of a local shard overlaps one of another. -/
def regionsApart : List Shard → Bool
  | [] => true
  | s :: r => r.all (fun t => s.allRegions.all (fun a => t.allRegions.all (fun b => !meets a b))) && regionsApart r

/-- The shard table. Of a remote entry R10 alone speaks: its refused values, reserved fields and the fields marked as otherwise 0 are
checked (log entry 24). -/
def Dev.tableOk (d : Dev) (p : Fin 64) : Bool :=
  let x := d.part p
  let l := d.tableOf p
  (x.tblCount == 0 || d.inBasin p x.tblBase (256 * x.tblCount.toNat)) &&
  l.all (fun s => if s.tier = 0 then s.fieldsOk else if s.owner == x.rank then d.shardOk p s else s.fieldsOk && s.marksOk) &&
  regionsApart (l.filter x.isLocal)

/-! ### LOAD_IMAGE (R68, R70, R75, R76, R131, R144, R211, R212, R283, R433) -/

def Dev.imageAt (d : Dev) (host : Bool) (a : Nat) : Option Image :=
  (d.images.find? (fun x => x.host == host && x.addr == a)).map (·.image)

/-- A plain's SRAM with the parts that an image places (log entry 13). -/
def Image.sramOf (im : Image) (m : Memory) (i : Fin 64) : Memory :=
  (im.sram.filter (fun x => x.plain == i)).foldl (fun m x => writeBytes m x.addr x.bytes) m

/-- The static entry of a plain, zero where the image has none. -/
def Image.static (im : Image) (i : Fin 64) (k : Nat) : Desc :=
  match im.statics.find? (fun x => x.plain == i && x.index == k) with
  | some x => x.words
  | none => Tab.all 64 0

/-- Whether some entry point's static range names an entry. -/
def Image.rangeNames (im : Image) (i : Fin 64) (k : Nat) : Bool :=
  im.entries.any (fun e => e.ranges.any (fun r => r.plain == i && r.first ≤ k && k ≤ r.last))

def Phase.polys (f : Phase) : List Poly := [f.cycles, f.dale, f.spreadS, f.basin, f.spreadC, f.col, f.hostRd, f.hostWr]

/-- Whether an entry point drains a gradient (R283). -/
def Image.gradient (im : Image) (e : EntryPoint) : Bool :=
  e.tiling.any (fun g => Template.grad g.template) ||
  im.statics.any (fun x => (Desc.c x.words).grad && !Desc.isSync x.words && e.ranges.any (fun r => r.plain == x.plain && r.first ≤ x.index && x.index ≤ r.last))

/-- The checks of one entry point (R132, R144, R148, R283, R433). -/
def Dev.entryOk (d : Dev) (p : Fin 64) (im : Image) (e : EntryPoint) : Bool :=
  1 ≤ e.phases.length && e.phases.length ≤ 16 && e.phases.all (fun f => f.polys.all (fun q => q.all (fun m => m.vars.length ≤ 2))) &&
  e.ranges.all (fun r => r.last < r.first || (r.first < im.dynFirst && r.last < im.dynFirst &&
    (List.range (r.last + 1 - r.first)).all (fun k => (im.static r.plain (r.first + k)).valid))) &&
  e.threads.all (fun t => t.thread ≤ 63) && (!im.gradient e || e.stepParam.isSome) &&
  e.tiling.all (fun g => Template.ok g.template && Template.cycPhase g.template < e.phases.length &&
    Template.ctrIn g.template < d.quotaQ p && Template.ctrOut g.template < d.quotaQ p) &&
  e.plains.all (fun i => e.tiling.any (fun g => g.plains.contains i) ||
    (match (e.list i im.dynFirst 0).getLast? with | some k => !(im.static i k).keep | none => true))

def ascending : List Nat → Bool
  | a :: b :: r => a < b && ascending (b :: r)
  | _ => true

/-- Q of R211 at this moment. -/
def Dev.newQuota (d : Dev) (p : Fin 64) : Nat := min (bits (d.part p).quota 0 12) (256 * (d.plainsOf p).length)

/-- The format of an image (R10, R70, R144, R212, R433). -/
def Dev.imageOk (d : Dev) (p : Fin 64) (im : Image) (size : Nat) : Bool :=
  im.clean && im.extent ≤ size && im.dynFirst ≤ 256 && im.entries.all (d.entryOk p im) &&
  distinct (im.entries.map (fun e => e.num.toNat)) && distinct (im.counters.map (fun c => c.num.toNat)) &&
  im.counters.all (fun c => d.plainOwner c.home == some p) &&
  im.layers.all (fun l => 1 ≤ l.length && l.length ≤ 1024 && ascending l) &&
  im.statics.all (fun x => x.index < im.dynFirst &&
    (!(Desc.valid x.words || im.rangeNames x.plain x.index) || d.descOk p (im.sramOf (d.plain x.plain).sram x.plain) x.words))

/-- The largest need of a per-plain resource, at the lowest stage and then the lowest plain (R76). -/
def Image.most (im : Image) (f : StageNeed → Nat) : Option StageNeed :=
  im.needs.foldl (fun m x => match m with
    | none => some x
    | some y => if f y < f x || (f y == f x && (x.stage < y.stage || (x.stage == y.stage && x.plain < y.plain))) then some x else m) none

/-- One resource over grant. -/
def overGrant (res scope need grant : Nat) : List Shortfall :=
  if need ≤ grant then []
  else [{ res := BitVec.ofNat 8 res, scope := BitVec.ofNat 8 scope, need := need, grant := grant }]

/-- What an image needs over its grant, in ascending resource code, and the stage of the first entry with a plain (R75, R76). -/
def Dev.imageShort (d : Dev) (p : Fin 64) (im : Image) : BitVec 8 × List Shortfall :=
  let x := d.part p
  let per (res grant : Nat) (f : StageNeed → Nat) : List (Shortfall × BitVec 8) :=
    match im.most f with
    | some n => (overGrant res n.plain.val (f n) grant).map (fun s => (s, n.stage))
    | none => []
  let flat (l : List Shortfall) : List (Shortfall × BitVec 8) := l.map (fun s => (s, 0xFF))
  let homes := (List.finRange 64).map (fun i => (i, (im.counters.filter (fun c => c.home == i)).length))
  let l := per 0x01 sramBytes (·.sram) ++ flat (overGrant 0x02 0xFF im.dale ((d.daleOf p).length * 2 ^ 30)) ++
    flat (overGrant 0x03 0xFF im.basin ((d.basinOf p).length * 2 ^ 32)) ++ flat (overGrant 0x04 0xFF im.barSlots (d.barsOf p).length) ++
    flat (overGrant 0x05 0xFF (im.counters.foldl (fun m c => max m (c.num.toNat + 1)) 0) (d.quotaQ p)) ++
    flat (homes.flatMap (fun h => overGrant 0x05 h.1.val h.2 256)) ++
    flat (overGrant 0x06 0xFF im.plains.length
      (im.plains.filter (fun i => d.plainOwner i == some p && (d.plain i).state != .fenced)).length) ++
    per 0x07 256 (·.descs) ++ per 0x08 (4 * 2 ^ 20) (·.rowBuf) ++
    flat (overGrant 0x09 0xFF x.tblCount.toNat (min x.glnQuota.toNat d.storeFree))
  let stage := match (l.take 7).find? (fun s => s.1.scope != 0xFF) with
    | some s => s.2
    | none => 0xFF
  (stage, l.map (·.1))

def Dev.judgeLoad (d : Dev) (p : Fin 64) (c : Cmd) : Verdict :=
  let d := d.updPart p (fun x => { x with ctrQ := d.newQuota p })
  let n := (c.s 0).toNat
  match d.imageAt c.ptrHost c.ptr with
  | none => .format
  | some im =>
    let (stage, short) := d.imageShort p im
    verdict ((d.part p).state != .loaded && zeroWords c.words 9 7 && d.ptrOk p c n && d.imageOk p im n && d.tableOk p) stage short
      (d.imageUs p im.plains c.ptrHost c.ptr n c.maxUs) [] .none []

def Dev.judgeUnload (d : Dev) (p : Fin 64) (c : Cmd) : Verdict :=
  verdict ((d.part p).state == .loaded && zeroWords c.words 8 8) 0xFF [] (d.imageUs p [] true 0 0 c.maxUs) [] .none []

/-! ### COPY and NOP (R67, R233, R435) -/

namespace CopyCmd
def src (c : Cmd) : Bool × Nat := hostBit (wd64 c.words 8)
def dst (c : Cmd) : Bool × Nat := hostBit (wd64 c.words 10)
def len (c : Cmd) : Nat := (wd64 c.words 12).toNat
end CopyCmd

/-- A range of a COPY: a partition's lies in its granules, the physical function's in no hole. -/
def Dev.copyRange (d : Dev) (fn : Option (Fin 64)) (x : Bool × Nat) (n : Nat) : Bool :=
  x.1 || n == 0 || (match fn with
    | some p => d.inGrant p x.2 n
    | none => x.2 + n ≤ 576 * 2 ^ 30 || (0x10000000000 ≤ x.2 && x.2 + n ≤ 0x10000000000 + 384 * 2 ^ 32))

def Dev.judgeCopy (d : Dev) (fn : Option (Fin 64)) (c : Cmd) : Verdict :=
  let n := CopyCmd.len c
  let side (x : Bool × Nat) : List Charge := if x.1 then [] else d.charges x.2 n
  let ok := d.copyRange fn (CopyCmd.src c) n && d.copyRange fn (CopyCmd.dst c) n && zeroWords c.words 14 2
  verdict ok 0xFF [] (if ok then d.copyUs fn (side (CopyCmd.src c) ++ side (CopyCmd.dst c))
    (if (CopyCmd.src c).1 || (CopyCmd.dst c).1 then n else 0) c.maxUs else none) [] (.copy .issued false) []

/-- DESIGN CHOICE: the payload words that a command does not use hold 0, here, in UNLOAD_IMAGE, LOAD_IMAGE and COPY (log entry 24). -/
def judgeNop (c : Cmd) : Verdict := verdict (zeroWords c.words 8 8) 0xFF [] (promiseUs 4 c.maxUs) [] .none []

/-! ### UPDATE (R263, R264) -/

def finite32 (w : Word) : Bool := bits w 23 8 != 255

def Dev.judgeUpdate (d : Dev) (p : Fin 64) (c : Cmd) : Verdict :=
  let x := d.part p
  let ks := d.namedLocal p (Upd.first c) (Upd.count c)
  let matrix := ks.any (fun k => match d.shard p k with | some s => s.matrix | none => false)
  let dir := if matrix then (d.named' p c).map (·.2) else none
  let ok := bits (wd c.words 9) 16 16 == 0 && bits (wd c.words 10) 18 14 == 0 && wd c.words 15 == 0 &&
    1 ≤ Upd.count c && Upd.count c ≤ 65536 && Upd.first c + Upd.count c ≤ x.tblCount.toNat &&
    Upd.first c + Upd.count c ≤ x.shards.length && finite32 (Upd.gscale c) && finite32 (Upd.lrMult c) && Upd.step c != 0 &&
    (if matrix then dir.isSome else c.entryNum == 0) && d.syncWordOk p (Upd.wait c) && d.syncWordOk p (Upd.post c)
  let plains := match dir with | some e => if Upd.refresh c then [] else e.plains | none => []
  verdict ok 0xFF [] (if ok then d.updateUs p (Upd.refresh c) (Upd.step c) ks dir c.maxUs else none) plains
    (.update { stage := .begin, repairs := [], todo := [], changed := [], poison := false, skipped := false, left := [], dir := none }) []

/-! ### SNAPSHOT (R284, R321, R363) -/

def Dev.judgeSnapshot (d : Dev) (p : Fin 64) (c : Cmd) : Verdict :=
  let x := d.part p
  let ks := d.namedLocal p (Snap.first c) (Snap.count c)
  let shards := ks.filterMap (d.shard p)
  let fields := bits (wd c.words 8) 16 16 == 0 && bits (wd c.words 9) 17 15 == 0 && bits (wd c.words 10) 5 27 == 0 &&
    wd c.words 11 == 0 && zeroWords c.words 14 2 && 1 ≤ Snap.count c && Snap.count c ≤ 65536 &&
    Snap.first c + Snap.count c ≤ x.shards.length && (Snap.what c == 1 || shards.all Shard.avgEn)
  let bytes := if fields then snapBytes (snapRecs x c) else 0
  let read := shards.foldl (fun n s => n + 4 * s.params) 0
  let spread := (List.finRange 24).foldl (fun n ch => if shards.any (fun s => s.channels.contains ch) then n + 1 else n) 0
  let ok := fields && (match Snap.dest c with
    | 0 => true
    | 1 => (d.treeOf p).isSome && Snap.addr c < 2 ^ 44
    | 2 => match snapTarget c with
      | some t =>
        let y := Tab.at d.targets t
        y.valid && y.part == p.val && y.wrGbps != 0 && Snap.addr c / 256 + bytes ≤ y.regionLen
      | none => false
    | _ => false)
  verdict ok 0xFF [] (d.snapshotUs p c bytes read (max 1 spread) c.maxUs) []
    (.snapshot { begun := false, todo := [], chunk := 0, recs := [], poison := false, header := false, failed := false }) []

/-! ### SAMPLE_JOB (R171, R343 to R346, R351, R355) -/

/-- The largest picture of a codec (R340). -/
def codecLimit : Nat → Nat × Nat
  | 0 => (4096, 2304)
  | 1 => (8192, 4320)
  | 2 => (8192, 4352)
  | 3 => (16384, 16384)
  | 4 => (16384, 16384)
  | _ => (65535, 65535)

/-- Whether a codec suits a kind: video codecs, still codecs with HEVC's Main Still Picture, or audio codecs (log entry 24). -/
def codecSuits (l : Lay.L) (codec : Nat) : Bool :=
  if Lay.video l then codec ≤ 2 else if Lay.picture l then codec == 1 || codec == 3 || codec == 4 else 5 ≤ codec && codec ≤ 8

/-- The refused values and reserved fields of a layout record (R344, R346). -/
def layOk (l : Lay.L) : Bool :=
  Lay.kind l ≤ 5 && Lay.outFmt l ≤ 3 && Lay.rnd l != 3 && Lay.defMatrix l != 3 && bits (wd l 0) 15 17 == 0 &&
  bits (wd l 9) 24 8 == 0 && bits (wd l 12) 25 7 == 0 && bits (wd l 27) 4 28 == 0 && bits (wd l 32) 30 2 == 0 && zeroWords l 33 31 &&
  Lay.stride l % 64 == 0 && Lay.resTbl l % 64 == 0 && Lay.bsBuf l % 4096 == 0 &&
  (!Lay.picture l || (1 ≤ Lay.outCount l && 1 ≤ Lay.outW l && 1 ≤ Lay.outH l)) &&
  (!(Lay.kind l == 0 || Lay.kind l == 2) ||
    (1 ≤ Lay.pt l && Lay.pt l ≤ 4 && 2 ≤ Lay.ph l && Lay.ph l ≤ 32 && 2 ≤ Lay.pw l && Lay.pw l ≤ 32 &&
     Lay.outCount l % Lay.pt l == 0 && Lay.outH l % Lay.ph l == 0 && Lay.outW l % Lay.pw l == 0)) &&
  (Lay.kind l != 4 ||
    ([256, 512, 1024, 2048, 4096].contains (Lay.nfft l) && 1 ≤ Lay.nmel l && Lay.nmel l ≤ 256 && 1 ≤ Lay.hop l && 1 ≤ Lay.win l &&
     Lay.win l ≤ Lay.nfft l))

/-- The stem descriptor (R169, R171). A pointer that the mode does not use still lies in the partition's granules. -/
def Dev.stemOk (d : Dev) (p : Fin 64) (l : Lay.L) : Bool :=
  let t := d.stemAt l
  let n := Stem.co t * Stem.kh t * Stem.kw t * Stem.ci t
  d.inGrant p (Lay.stemPtr l) 64 && Stem.mode t != 3 && bits (wd t 0) 2 2 != 3 && 1 ≤ Stem.kh t && 1 ≤ Stem.kw t &&
  bits (wd t 0) 13 19 == 0 && 1 ≤ Stem.ci t && Stem.ci t ≤ 16 && 1 ≤ Stem.co t && Stem.co t ≤ 64 && Stem.fmtOut t ≤ 3 && Stem.rnd t != 3 &&
  bits (wd t 1) 21 11 == 0 && zeroWords t 9 7 && (Stem.mode t == 2 || Stem.co t * Stem.s t * Stem.s t % 128 == 0) &&
  d.inGrant p (Stem.weights t) (if Stem.mode t = 2 then 1 else 2 * n) &&
  d.inGrant p (Stem.bias t) (if Stem.mode t = 2 || !Stem.biasEn t then 1 else 4 * (if Stem.mode t = 1 then Stem.ci t else Stem.co t))

/-- One entry of a sample list (R345, R346). -/
def Dev.sampleOk (d : Dev) (p : Fin 64) (l : Lay.L) (e : Ent.T) : Bool :=
  Ent.codec e ≤ 8 && Ent.src e ≤ 2 && bits (wd e 2) 11 5 == 0 && bits (wd e 2) 24 8 == 0 && bits (wd e 3) 12 20 == 0 &&
  bits (wd e 9) 8 24 == 0 && bits (wd e 12) 3 29 == 0 && zeroWords e 13 3 && (!Ent.reserve e || Ent.slot e == 0) &&
  codecSuits l (Ent.codec e) && (!Lay.picture l || (Ent.maxW e ≤ (codecLimit (Ent.codec e)).1 && Ent.maxH e ≤ (codecLimit (Ent.codec e)).2)) &&
  (!Lay.video l || 1 ≤ Ent.outStep e) && (Ent.codec e != 8 || (Lay.pcmType l != 3 && 1 ≤ Lay.pcmCh l && Lay.pcmCh l ≤ 8)) &&
  (match Ent.src e with
    | 0 => match finOf 256 (Ent.target e) with
      | some t => (Tab.at d.targets t).valid && (Tab.at d.targets t).part == p.val
      | none => false
    | 1 => true
    | _ => Ent.srcBytes e == 0 || d.inGrant p (Ent.srcAddr e) (Ent.srcBytes e))

/-- Where a job writes its slots (R344, R349). -/
def Dev.destOk (d : Dev) (p : Fin 64) (l : Lay.L) (t : Stem.T) (b : Nat) : Bool :=
  let dst := Lay.dest l
  let n := (b * slotFrames l - 1) * Lay.stride l + pieceBytes l t
  d.cmdLocOk p dst n && (!Lay.stem l || dst.space == 2) &&
  (List.range (slotPlains l t)).all (fun j => match finOf 64 (dst.plain.val + j) with
    | some i => dst.space == 0 || (d.plainOwner i == some p && (d.part p).use.contains i)
    | none => false)

/-- The reserve rings of the classes that a job names (R344, R351). -/
def Dev.ringsOk (d : Dev) (p : Fin 64) (l : Lay.L) (t : Stem.T) (es : List Ent.T) : Bool :=
  Lay.resTbl l == 0 || (d.inGrant p (Lay.resTbl l) 128 && es.all (fun e => match d.ringHeader l (Ent.cls e) with
    | none => true
    | some a =>
      let x : ResRing := { cls := Ent.cls e, addr := a, head0 := 0, head := 0, tail := 0 }
      d.inDale p a 64 && d.resEntryBytes x == slotTotal l t + 64 &&
      (d.resEntries x == 0 || d.inDale p (d.resBase x) (d.resEntries x * d.resEntryBytes x))))

def Dev.judgeSample (d : Dev) (p : Fin 64) (c : Cmd) : Verdict :=
  let n := c.ptrCount
  let b := Job.slots c
  let head := bits (c.s 0) 13 19 == 0 && 1 ≤ b && b ≤ 4096 && bits (c.s 1) 24 8 == 0 && zeroWords c.words 14 2 &&
    d.syncWordOk p (Job.wait c) && d.syncWordOk p (Job.post c) && d.ptrOk p c (64 * n) && d.inGrant p (Job.layout c) 256
  let l : Lay.L := d.peek false (Job.layout c) 64
  let es : List Ent.T := (List.range n).map (fun k => d.peek c.ptrHost (c.ptr + 64 * k) 16)
  let t : Stem.T := if Lay.stem l then d.stemAt l else Tab.all 16 0
  let slots := (es.filter (fun e => !Ent.reserve e)).map Ent.slot
  let total := es.foldl (fun s e => s + Ent.srcBytes e) 0
  let ok := head && layOk l && (!Lay.stem l || d.stemOk p l) && Lay.slotBytes l == slotSize l t && es.all (d.sampleOk p l) &&
    slots.length == b && (List.range b).all (fun s => slots.contains s) && d.destOk p l t b && d.ringsOk p l t es &&
    d.eitherOk p (Lay.manifest l) (64 + 32 * b) && (Lay.bsSize l == 0 || d.inDale p (Lay.bsBuf l) (Lay.bsSize l))
  if !ok then .format
  else verdict true 0xFF (overGrant 0x02 0xFF total (Lay.bsSize l)) (d.sampleUs p c l t es c.maxUs) []
    (.sample { begun := false, layout := l, samples := [], heads := [], poison := false }) []

/-! ### ENCODE (R359, R362) -/

def Dev.judgeEncode (d : Dev) (p : Fin 64) (c : Cmd) : Verdict :=
  let t : Enc.T := d.peek false (Enc.record c) 32
  let n := Enc.frames c
  let top : Int := if Enc.av1 t then 255 else 51
  let inQp (q : Int) : Bool := 0 ≤ q && q ≤ top
  let row := Enc.w t * 3 * elemBits (Enc.srcFmt t) / 8
  let span := (n - 1) * Enc.srcFstride t + (Enc.h t - 1) * Enc.srcPitch t + row
  let keys := (List.range (Enc.keyCount t)).map (fun k => bits (wd (d.peek false (Enc.keyList t + 2 * k) 1) 0) 0 16)
  let ok := bits (wd c.words 10) 16 16 == 0 && zeroWords c.words 13 3 && 1 ≤ n && d.inGrant p (Enc.record c) 128 &&
    d.syncWordOk p (Enc.wait c) && d.syncWordOk p (Enc.post c) &&
    bits (wd t 0) 2 2 == 0 && Enc.srcFmt t ≤ 1 && bits (wd t 0) 8 24 == 0 &&
    Enc.w t % 8 == 0 && Enc.h t % 8 == 0 && 64 ≤ Enc.w t && Enc.w t ≤ 4096 && 64 ≤ Enc.h t && Enc.h t ≤ 2304 &&
    1 ≤ Enc.fpsNum t && 1 ≤ Enc.fpsDen t && bits (wd t 3) 24 8 == 0 && inQp (Enc.quality t) && inQp (Enc.quality t + Enc.keyDelta t) &&
    inQp (Enc.qpMax t) && 1 ≤ Enc.window t && Enc.window t ≤ 1024 && bits (wd t 18) 16 16 == 0 && zeroWords t 19 13 &&
    d.cmdLocOk p (Enc.src t) span && n * Enc.most t ≤ Enc.dstCap t && d.eitherOk p (Enc.dst t) (Enc.dstCap t) &&
    d.eitherOk p (Enc.idx t) (8 * n) && (Enc.keyCount t == 0 || d.inGrant p (Enc.keyList t) (2 * Enc.keyCount t)) && ascending keys
  verdict ok 0xFF [] (if ok then d.encodeUs p c t c.maxUs else none) []
    (.encode { begun := false, record := t, engine := 0, frame := 0, pos := 0, fill := 0, bitsPrev := 0, lastKey := none,
               lastInter := none, keys := 0, capMiss := 0, keyAt := [], recon := 0, since := 0, poison := false }) []

/-! ### The verdict -/

/-- Admission of a command of a ring (R70). -/
def Dev.judgeCmd (d : Dev) (r : RingId) (c : Cmd) : Verdict :=
  if !c.headOk (r.fn == .pf) then .format
  else match ringPart r with
    | none => if c.opcode = 0x50 then d.judgeCopy none c else judgeNop c
    | some p =>
      match c.opcode with
      | 0x01 => d.judgeLoad p c
      | 0x02 => d.judgeUnload p c
      | 0x10 => d.judgeRun p c
      | 0x12 => d.judgeMix p c
      | 0x30 => d.judgeSample p c
      | 0x31 => d.judgeEncode p c
      | 0x40 => d.judgeUpdate p c
      | 0x41 => d.judgeSnapshot p c
      | 0x50 => d.judgeCopy (some p) c
      | 0x60 => judgeNop c
      | _ => .format

end Sys2Proof.Machine
end

