-- ==== Sys2Proof/Machine/Rings.lean ====
section
/-! DEFINITION. Rings and their commands (R62 to R71, R75, R77): the doorbells, admission, the start of commands, and the
commands that the ring chapter owns: LOAD_IMAGE, UNLOAD_IMAGE, RUN, SERVE_MIX, COPY and NOP. -/

namespace Sys2Proof.Machine

open Sys2Proof

/-! ### Doorbells (R63, R64) -/

def Dev.partOf (d : Dev) (r : RingId) : Option Part := (ringPart r).map d.part
def Dev.resets (d : Dev) (r : RingId) : Bool := match d.partOf r with | some x => x.state == .resetting | none => false

/-- Whether a doorbell write is taken: a 32-bit write of an index below the ring's size, to a ring that is enabled and whose
partition is not RESETTING. -/
def Dev.bellOk (d : Dev) (r : RingId) (val : Word) (narrow : Bool) : Bool :=
  (d.ring r).en && !d.resets r && !narrow && val.toNat < (d.ring r).size

/-- A dropped doorbell is counted in the partition's PRT_P_DROP. -/
def Dev.dropBell (d : Dev) (r : RingId) : Dev := match ringPart r with | some p => d.dropCount p | none => d

/-- A fetched descriptor. -/
def fetchedCmd (i : BitVec 16) (w : Tab Word 16) : Cmd :=
  { index := i, words := w, stage := .fetched, admTick := 0, promise := 0, plains := [], waited := false, held := false,
    r64Tick := 0, startTick := 0, doneTick := 0, status := .ok, lastDesc := 0, info := 0, aux := 0, work := .none }

/-- Fetch the descriptor at SQ_HEAD, unless SQ_HEAD has reached the tail, or the last descriptor that stood in that place has
not been completed (log entry 23). -/
def Dev.fetchOne (d : Dev) (r : RingId) : Dev :=
  let x := d.ring r
  if x.sqHead == x.sqTail || x.cmds.any (fun c => c.index == x.sqHead) then d
  else
    let w : Tab Word 16 := readTab d.hostMem (x.sqBase + 64 * x.sqHead.toNat) 16
    let d := match ringPart r with | some p => d.acct p (fun a => a.host 64 false) | none => d
    d.updRing r (fun y => { y with
      cmds := y.cmds ++ [fetchedCmd x.sqHead w]
      sqHead := BitVec.ofNat 16 ((x.sqHead.toNat + 1) % x.size) })

/-- Fetch what can be fetched; a ring whose EN is clear fetches nothing (R87). -/
def Dev.fetchRing (d : Dev) (r : RingId) : Dev :=
  if d.resets r || !(d.ring r).en then d else (List.range (d.ring r).size).foldl (fun d _ => d.fetchOne r) d

/-- An SQ_TAIL doorbell: the KT9 fetches descriptors up to the new tail. -/
def Dev.sqTail (d : Dev) (r : RingId) (val : Word) (narrow : Bool) : Dev :=
  if !d.pwr.link || d.ccx.sup != .ready then d
  else if !d.bellOk r val narrow then d.dropBell r
  else (d.updRing r (fun x => { x with sqTail := val.setWidth 16 })).fetchRing r

/-- A CQ_HEAD doorbell: the host has consumed the records up to it. A head beyond the tail consumes the records written. -/
def Ring.consume (x : Ring) (head : Nat) : Ring :=
  let n := min ((head + x.size - x.consumed % x.size) % x.size) (x.written - x.consumed)
  { x with consumed := x.consumed + n, shortUsed := x.shortUsed.filter (fun s => x.consumed + n ≤ s.2) }

def Dev.cqHead (d : Dev) (r : RingId) (val : Word) (narrow : Bool) : Dev :=
  if !d.pwr.link || d.ccx.sup != .ready then d
  else if !d.bellOk r val narrow then d.dropBell r
  else d.updRing r (fun x => x.consume val.toNat)

/-! ### Requests on the bus (R42 to R50, R58, R63) -/

/-- The doorbell that a BAR2 offset of a host function names: its ring, and whether it is the CQ_HEAD doorbell. The physical
function's BAR2 holds all 65 pages, a virtual function's its own (R58, R63). -/
def bellAt (f : Fn) (off : Nat) : Option (RingId × Bool) :=
  let o := off % 4096
  let fn : Option Fn := match f with
    | .pf => if off / 4096 = 0 then some .pf else (finOf 64 (off / 4096 - 1)).map Fn.vf
    | .vf p => if off / 4096 = 0 then some (.vf p) else none
  fn.bind (fun fn => (finOf 4 (o / 0x10)).bind (fun q =>
    if o % 0x10 = 0 then some ({ fn := fn, q := q }, false) else if o % 0x10 = 4 then some ({ fn := fn, q := q }, true) else none))

/-- One 32-bit access in BAR2: a doorbell, narrow unless all its bytes are enabled, or a write to another offset of a page, which is
dropped with ACCESS_HOLE (R63). -/
def Dev.bell (d : Dev) (f : Fn) (a : Access) : Dev :=
  match bellAt f a.off with
  | some (r, true) => d.cqHead r a.val (a.be != allBytes)
  | some (r, false) => d.sqTail r a.val (a.be != allBytes)
  | none => d.logAccess Ev.accessHole a.writer a.off a.be

/-- A write request in BAR2; an unaligned one changes nothing (R48). -/
def Dev.bellWrite (d : Dev) (b : BusWrite) : Dev :=
  match b.writer with
  | .host f =>
    if BusWriteUnaligned b then (d.logAccess Ev.accessAlign b.writer b.off b.be).reply .unsupported
    else (busAccesses b).foldl (fun d a => d.bell f a) d
  | _ => d

/-- A write request in configuration space, by the physical function's host: the number of enabled virtual functions (R57) or the
size of BAR4 (R249). Another value changes nothing (log entry 46). -/
def Dev.configWrite (d : Dev) (b : BusWrite) : Dev :=
  match b.writer, b.space, b.data with
  | .host .pf, .enabledVfs, [v] => if v.toNat ≤ 64 then d.updHif (fun h => { h with vfs := v.toNat }) else d
  | .host .pf, .bar4Size, [v] => if 30 ≤ v.toNat && v.toNat ≤ 42 then d.updHif (fun h => { h with bar4Log := v.toNat }) else d
  | _, _, _ => d

/-- The write requests of one fabric cycle: those to registers, the doorbells, which never conflict (R51), and those to
configuration space. -/
def Dev.registerWrite (d : Dev) (ws : List BusWrite) : Dev :=
  let ws := ws.filter (fun b => d.reachable b.writer)
  let d := d.busWrites (ws.filter (fun b => b.space == .registers))
  let d := (ws.filter (fun b => b.space == .bar2)).foldl Dev.bellWrite d
  ws.foldl Dev.configWrite d

def execRegisterWrite (ws : List BusWrite) (s : State) : Host.Outcome State Fault Refusal :=
  .next { s with dev := s.dev.registerWrite ws }

/-! ### Admission (R64, R70, R75, R77) -/

def Cmd.live (c : Cmd) : Bool := c.stage == .admitted || c.stage == .started

/-- The shortfall slot of a ring position (R77). -/
def shortSlot (i : BitVec 16) : BitVec 16 := BitVec.ofNat 16 (i.toNat % 16)

/-- Whether the host has consumed the record that last referenced the slot of a command (R77). -/
def Ring.slotFree (x : Ring) (c : Cmd) : Bool :=
  !x.shortUsed.any (fun s => s.1 == shortSlot c.index) &&
  !x.cmds.any (fun e => e.stage == .done && e.status == .refusedFit && e.info == shortSlot c.index)

/-- The 64 words of a shortfall record (R75). -/
def shortRecord (c : Cmd) (stage : BitVec 8) (l : List Shortfall) : List Word :=
  let n64 (n : Nat) : List Word := [BitVec.ofNat 32 n, BitVec.ofNat 32 (n / 2 ^ 32)]
  let ws := [BitVec.ofNat 32 (c.index.toNat + 65536 * c.tag.toNat),
      BitVec.ofNat 32 (stage.toNat + 256 * (min l.length 7) + 65536 * b2n (7 < l.length))] ++ List.replicate 6 0 ++
    (l.take 7).flatMap (fun s => [BitVec.ofNat 32 (s.res.toNat + 256 * s.scope.toNat), 0] ++ n64 s.need ++ n64 s.grant ++
      n64 (s.need - s.grant))
  ws ++ List.replicate (64 - ws.length) 0

/-- A command is admitted: its promise, its plains, its work and its staged entries are kept (R152). -/
def Dev.takeIn (d : Dev) (r : RingId) (c : Cmd) (us : BitVec 24) (plains : List (Fin 64)) (work : Work)
    (staged : List (Fin 64 × Nat × Desc)) : Dev :=
  let d := d.updCmd r c.index (fun c => { c with
    stage := .admitted, admTick := d.pwr.aon, promise := us, plains := plains, work := work })
  d.updCcx (fun x => { x with
    staging := if staged.isEmpty then x.staging else x.staging ++ [{ ring := r, index := c.index, entries := staged }] })

/-- The commands whose entries fill the staging memory: those that have not started (R152). -/
def Dev.stagedCmds (d : Dev) : Nat :=
  (d.ccx.staging.filter (fun s => !(d.ring s.ring).cmds.any (fun c => c.index == s.index && c.stage == .started))).length

/-- The commands of a partition's rings, with their rings. -/
def Dev.cmdsOf (d : Dev) (p : Fin 64) : List (RingId × Cmd) :=
  (partRings p).flatMap (fun r => (d.ring r).cmds.map (fun c => (r, c)))

/-- The verdict takes effect. A refusal for fit waits until its shortfall slot is free; a tiled command waits for staging. -/
def Dev.applyVerdict (d : Dev) (r : RingId) (c : Cmd) : Verdict → Dev
  | .ok us plains work staged =>
    if !staged.isEmpty && 256 ≤ d.stagedCmds then d else d.takeIn r c us plains work staged
  | .format => d.finish r c.index .refusedFormat
  | .promise => d.finish r c.index .refusedPromise
  | .short stage l =>
    match ringPart r with
    | none => d
    | some p =>
      if !(d.ring r).slotFree c then d
      else
        let x := d.part p
        let a := (dword x.shortLo x.shortHi).toNat + 0x1000 * r.q.val + 0x100 * (c.index.toNat % 16)
        (d.hostWrite (some p) a ((shortRecord c stage l).flatMap wordBytes)).finish r c.index .refusedFit (shortSlot c.index)

/-- Admission of the next command of a ring, in ring order. -/
def Dev.admission (d : Dev) (r : RingId) : Dev :=
  if d.ccx.sup != .ready || !d.ccx.harts || d.resets r then d
  else match (d.ring r).cmds.find? (fun c => c.stage == .fetched) with
    | none => d
    | some c =>
      if d.isTripped then d.finish r c.index .thermalTrip
      else match ringPart r with
        | none => d.applyVerdict r c (d.judgeCmd r c)
        | some p => if (d.part p).lost then d.finish r c.index .plainLost else d.applyVerdict r c (d.judgeCmd r c)

/-! ### The start of a command (R64, R68, R71) -/

/-- The WAIT word that a command's start depends on (R264, R343, R359). -/
def Cmd.startWait (c : Cmd) : Word :=
  match c.opcode with
  | 0x40 => Upd.wait c
  | 0x30 => Job.wait c
  | 0x31 => Enc.wait c
  | _ => 0

/-- Whether a plain has finished the last descriptor of any earlier command (R64): threads of one may still run on it. An UPDATE
holds its plains until it completes. -/
def Dev.plainFree (d : Dev) (i : Fin 64) : Bool :=
  (d.plain i).state != .fenced && (match (d.plain i).job with
    | none => true
    | some (r, k) => match d.cmd r k with
      | some c => (match c.work with | .run w => w.begun && (d.plain i).seq.over | _ => false)
      | none => true)

/-- Whether the admitted command `x` of ring `r` goes before one of ring `q` that needs the same plain: the one admitted first, and
of two admitted at one tick the one of the lower ring number (R64). -/
def Cmd.before (r : RingId) (x : Cmd) (q : RingId) (c : Cmd) : Bool :=
  x.stage == .admitted && x.plains.any c.plains.contains && r != q &&
  (x.admTick.toNat < c.admTick.toNat || (x.admTick == c.admTick && r.q < q.q))

/-- Whether the plains and the partition's other commands let a command start: LOAD_IMAGE runs alone (R64, R68). -/
def Dev.turnOf (d : Dev) (p : Fin 64) (r : RingId) (c : Cmd) : Bool :=
  c.plains.all d.plainFree &&
  (d.cmdsOf p).all (fun x => !Cmd.before x.1 x.2 r c && !(x.2.stage == .started && (x.2.opcode == 0x01 || c.opcode == 0x01)))

/-- Whether no admitted UPDATE that names one of a SNAPSHOT's local shards is incomplete (R285). One that stands behind the SNAPSHOT on
its own ring cannot complete first, and does not count (log entry 39). -/
def Dev.snapshotFree (d : Dev) (p : Fin 64) (r : RingId) (c : Cmd) : Bool :=
  let mine := d.namedLocal p (Snap.first c) (Snap.count c)
  let ahead := ((d.ring r).cmds.takeWhile (fun x => x.index != c.index)).map (·.index)
  c.opcode != 0x41 || (d.cmdsOf p).all (fun x =>
    !(x.2.opcode == 0x40 && x.2.live && (x.1 != r || ahead.contains x.2.index) && mine.any (Upd.names x.2)))

/-- The command that a ring may start next, with its place: every earlier one has started, a completion slot and its shortfall
slot are free (R64). -/
def Ring.nextStart (x : Ring) : Option Cmd :=
  match (x.cmds.zip (List.range x.cmds.length)).find? (fun y => y.1.stage == .fetched || y.1.stage == .admitted) with
  | some (c, pos) =>
    if c.stage == .admitted && x.written - x.consumed + pos + 1 < x.size && x.slotFree c then some c else none
  | none => none

/-- A plain passes to a command at its START. The command that ran its last entry there keeps the list of what it completed (R64,
R143). -/
def Dev.takePlain (d : Dev) (j : RingId × BitVec 16) (i : Fin 64) : Dev :=
  let d := match (d.plain i).job with
    | some (r, k) => d.updCmd r k (fun c => { c with work := c.work.updRun (fun w => { w with done := w.done ++ [(i, (d.plain i).seq.done)] }) })
    | none => d
  d.updPlain i (fun x => { x with job := some j, seq := { x.seq with done := [], lastDone := 0x1FF } })

/-- START: the tick is taken, and the command holds its plains. A collective's START is its last peer's arrival (R71). A LOAD_IMAGE
that starts during a fill waits for it, outside its promise (R61). -/
def Dev.startCmd (d : Dev) (r : RingId) (c : Cmd) : Dev :=
  let coll := match c.work with | .collective _ _ => true | _ => false
  let hold := d.holdInForce
  let fills := match ringPart r with | some p => c.opcode == 0x01 && !(d.part p).fills.isEmpty | none => false
  let d := d.updCmd r c.index (fun c => { c with
    stage := .started, r64Tick := d.pwr.aon, startTick := if coll then 0 else d.pwr.aon, held := hold, waited := c.waited || fills })
  c.plains.foldl (fun d i => d.takePlain (r, c.index) i) d

/-- A collective's arrival waits for its header's counter (R311). -/
def Dev.beginColl (d : Dev) (p : Fin 64) (r : RingId) (c : Cmd) (x : CollectiveDef) : Dev :=
  match x.groups.findSome? (fun g => d.abortedBy p g.1) with
  | some cause => d.finish r c.index (abortStatus cause)
  | none =>
    let w := Coll.waitW x
    if enOf w && !d.waitMet p (ctrOf w) (valOf w) then
      (d.beginWait p (.command r c.index) (ctrOf w) (valOf w)).updColl r c.index (fun u => { u with waitBegun := true })
    else d

def Dev.commandStart (d : Dev) (r : RingId) : Dev :=
  if d.ccx.sup != .ready || d.isTripped || d.resets r then d
  else match (d.ring r).nextStart with
    | none => d
    | some c =>
      match ringPart r with
      | none => d.startCmd r c
      | some p =>
        if (d.part p).lost || !d.turnOf p r c || !d.snapshotFree p r c then d
        else
          let w := c.startWait
          let met := !enOf w || d.waitMet p (ctrOf w) (valOf w) || (c.waited && !d.waiting (.command r c.index))
          if !met then
            if c.waited then d
            else (d.beginWait p (.command r c.index) (ctrOf w) (valOf w)).updCmd r c.index (fun c => { c with waited := true })
          else
            let d := (d.endWait (.command r c.index)).startCmd r c
            match c.work with
            | .collective x _ => match x.entry.collective with
              | some y => d.beginColl p r c y
              | none => d
            | .snapshot _ => d.snapStart p r c
            | .sample _ => d.jobStart r c
            | _ => d

/-! ### RUN and SERVE_MIX (R119, R132, R152) -/

/-- A started RUN or SERVE_MIX begins on its plains with its staged entries. -/
def Dev.beginRun (d : Dev) (r : RingId) (op : Nat) : Dev :=
  if d.ccx.sup != .ready || d.isTripped then d
  else match (d.ring r).cmds.find? (fun c => c.stage == .started && c.opcode == op && (match c.work with | .run w => !w.begun | _ => false)) with
  | none => d
  | some c =>
    match c.work with
    | .run w =>
      let es := (d.ccx.staging.filter (fun s => s.ring == r && s.index == c.index)).flatMap (·.entries)
      let d := d.updCcx (fun x => { x with staging := x.staging.filter (fun s => !(s.ring == r && s.index == c.index)) })
      let d := d.launch r c.index w.entry c.plains es
      (d.updCmd r c.index (fun c => { c with work := .run { w with begun := true } })).tryFinish r c.index
    | _ => d

/-! ### LOAD_IMAGE and UNLOAD_IMAGE (R61, R68, R108, R131, R212, R227, R255, R289, R307) -/

/-- A plain takes its part of an image: the static entries, the seed, the stream counters at 0, the bytes in SRAM. -/
def Plain.load (x : Plain) (i : Fin 64) (im : Image) : Plain :=
  { x with
    table := (im.statics.filter (fun e => e.plain == i)).foldl (fun m e =>
      (List.range 64).foldl (fun m k => Sparse.set 0 m (64 * e.index + k) (wd e.words k)) m) []
    dynFirst := BitVec.ofNat 9 im.dynFirst
    dynCount := 0
    seed := match im.seeds.find? (fun s => s.1 == i) with | some s => s.2 | none => 0
    ctrs := Tab.all 66 0 }

/-- The counters of an image, each in its home at 0 (R212). -/
def Image.placed (im : Image) : List Counter :=
  im.counters.map (fun c => { num := c.num, home := c.home, value := 0, satHi := false, satLo := false, cls := c.cls.getD .peerData, adds := [] })

/-- The glen store takes the table, SNAPSHOT_PENDING cleared on every entry (R255, R289). -/
def Dev.loadTable (d : Dev) (p : Fin 64) (r : RingId) : Dev :=
  let n := (d.part p).tblCount.toNat
  let d := if n = 0 then d else (d.memRead (.command r) (d.part p).tblBase (256 * n)).1
  let l := d.tableOf p
  let d := d.updPart p (fun x => { x with shards := l })
  d.each ((List.range n).filter (fun k => (l.getD k (Tab.all 64 0)).snapPending)) (fun d k => d.setShard p k (fun s => s.flag 18 false))

/-- The image is loaded: the partition is LOADED, and its whole grant comes into use (R60, R61). -/
def Dev.load (d : Dev) (p : Fin 64) (r : RingId) (c : Cmd) (im : Image) : Dev :=
  let ps := d.plainsOf p
  let d := d.each ps (fun d i => d.updPlain i (fun x => x.load i im))
  let d := d.each im.sram (fun d x => if d.plainOwner x.plain == some p then d.sramWrite x.plain x.addr x.bytes else d)
  let d := d.each (d.barsOf p) (fun d s => d.updBar s (fun b => if b.state = .failed then b.idle b.gen else b))
  let d := d.each ps (fun d i => d.updDom (plainDom i) (fun k => if k.state = .pllOff then { k with state := .gated } else k))
  let d := d.loadTable p r
  (d.updPart p (fun x => { x with
    state := .loaded, imageId := c.imageId, image := some im, counters := im.placed, ctrQ := d.newQuota p, aborted := [] })).relist p

/-- The bytes of the image that a LOAD_IMAGE reads. -/
def Dev.readImage (d : Dev) (r : RingId) (p : Fin 64) (c : Cmd) : Dev :=
  let n := (c.s 0).toNat
  if c.ptrHost then d.acct p (fun a => a.host n false)
  else (granulePieces c.ptr n).foldl (fun d x => d.transfer (.command r) x.1 x.2 false) d

/-- A started LOAD_IMAGE: it waits for the fills of its partition, outside its promise. A partition that has become LOADED since
admission refuses it (R68). -/
def Dev.loadImage (d : Dev) (p : Fin 64) (q : Fin 4) : Dev :=
  let r : RingId := { fn := .vf p, q := q }
  if d.ccx.sup != .ready || d.isTripped then d
  else match d.started r 0x01 with
  | none => d
  | some c =>
    if !(d.part p).fills.isEmpty then d
    else match if (d.part p).state = .loaded then none else d.imageAt c.ptrHost c.ptr with
      | none => d.finish r c.index .refusedFormat
      | some im =>
        let d := (d.readImage r p c).updCmd r c.index (fun x => { x with startTick := if x.waited then d.pwr.aon else x.startTick })
        (d.load p r c im).finish r c.index .ok

/-- A started UNLOAD_IMAGE: the counters and the glen store are released, and the partition is IDLE. One that is no longer LOADED
refuses it (R68). -/
def Dev.unloadImage (d : Dev) (p : Fin 64) (q : Fin 4) : Dev :=
  let r : RingId := { fn := .vf p, q := q }
  if d.ccx.sup != .ready || d.isTripped then d
  else match d.started r 0x02 with
  | none => d
  | some c =>
    if (d.part p).state != .loaded then d.finish r c.index .refusedFormat
    else (((d.unload p).updPart p (fun x => { x with state := .idle })).settlePart p).finish r c.index .ok

/-! ### COPY and NOP (R67, R374) -/

/-- The source bytes of a COPY, with their marks. -/
def Dev.copyRead (d : Dev) (r : RingId) (x : Bool × Nat) (n : Nat) : Dev × List MByte :=
  if x.1 then d.fetchBytes r true x.2 n
  else (granulePieces x.2 n).foldl (fun (acc : Dev × List MByte) y =>
    let (d, b) := acc.1.locRead (.command r) .dev y.1 y.2
    (d, acc.2 ++ b)) (d, [])

/-- The addresses of the marked lines among some bytes from `a` up. -/
def markedLines (a : Nat) (b : List MByte) : List Nat :=
  ((b.zip (List.range b.length)).filterMap (fun y => if y.1.2 then some (lineOf (a + y.2)) else none)).eraseDups

/-- The bytes reach their destination: to host memory each marked line goes as zeros, and bites. -/
def Dev.copyWrite (d : Dev) (r : RingId) (src : Nat) (x : Bool × Nat) (b : List MByte) : Dev :=
  if x.1 then
    let d := (markedLines src b).foldl (fun d l => d.biteDev (ringPart r) 6 0 l) d
    d.hostWrite (ringPart r) x.2 (b.map (fun y => if y.2 then 0 else y.1))
  else (granulePieces x.2 b.length).foldl (fun d y =>
    d.locWrite (.command r) .dev y.1 ((b.drop (y.1 - x.2)).take y.2)) d

/-- Whether some regulator still holds requests of a ring's command. -/
def Dev.holdsAny (d : Dev) (r : RingId) : Bool := (List.finRange 64).any (fun p => d.holds p (.command r))

/-- The transfer of a COPY, with whether it met a mark on the way to host memory. -/
def Dev.copyBytes (d : Dev) (r : RingId) (c : Cmd) : Dev × Bool :=
  let dst := CopyCmd.dst c
  let (d, b) := d.copyRead r (CopyCmd.src c) (CopyCmd.len c)
  (d.copyWrite r (CopyCmd.src c).2 dst b, dst.1 && b.any (·.2))

/-- A started COPY issues its reads; when they are back it writes what it read, and it completes when its writes have passed the
regulators (R81, log entry 26). -/
def Dev.copy (d : Dev) (r : RingId) : Dev :=
  if d.ccx.sup != .ready || d.isTripped then d
  else match d.started r 0x50 with
  | none => d
  | some c =>
    let stage (s : ReqStage) (bad : Bool) (d : Dev) : Dev := d.updCmd r c.index (fun c => { c with work := .copy s bad })
    let finish (bad : Bool) (d : Dev) : Dev := d.finish r c.index (if bad then .poisonConsumed else .ok)
    let move (d : Dev) : Dev :=
      let (d, bad) := (stage .moved false d).copyBytes r c
      if d.holdsAny r then stage .moved bad d else finish bad d
    match c.work with
    | .copy .moved bad => if d.holdsAny r then d else finish bad d
    | .copy .started _ => if d.holdsAny r then d else move d
    | _ =>
      let d := d.chargeReads (d.copyBytes r c).1
      if d.holdsAny r then stage .started false d else move d

def Dev.nop (d : Dev) (r : RingId) : Dev :=
  if d.ccx.sup != .ready || d.isTripped then d
  else match d.started r 0x60 with
  | none => d
  | some c => d.finish r c.index .ok

/-! ### Completion records (R65, R66) -/

def Dev.recordWrite (d : Dev) (r : RingId) : Dev :=
  if d.ccx.sup != .ready then d else (d.writeRecord r).fetchRing r

/-! ### Meanings -/

def execSqTail (r : RingId) (val : Word) (narrow : Bool) (s : State) : Host.Outcome State Fault Refusal :=
  .next { s with dev := s.dev.sqTail r val narrow }
def execCqHead (r : RingId) (val : Word) (narrow : Bool) (s : State) : Host.Outcome State Fault Refusal :=
  .next { s with dev := s.dev.cqHead r val narrow }
def execAdmission (r : RingId) (s : State) : Host.Outcome State Fault Refusal := .next { s with dev := s.dev.admission r }
def execCommandStart (r : RingId) (s : State) : Host.Outcome State Fault Refusal := .next { s with dev := s.dev.commandStart r }
def execCompletionRecordWrite (r : RingId) (s : State) : Host.Outcome State Fault Refusal := .next { s with dev := s.dev.recordWrite r }
def execLoadImage (p : Fin 64) (q : Fin 4) (s : State) : Host.Outcome State Fault Refusal := .next { s with dev := s.dev.loadImage p q }
def execUnloadImage (p : Fin 64) (q : Fin 4) (s : State) : Host.Outcome State Fault Refusal := .next { s with dev := s.dev.unloadImage p q }
def execRun (p : Fin 64) (q : Fin 4) (s : State) : Host.Outcome State Fault Refusal := .next { s with dev := s.dev.beginRun { fn := .vf p, q := q } 0x10 }
def execServeMix (p : Fin 64) (q : Fin 4) (s : State) : Host.Outcome State Fault Refusal := .next { s with dev := s.dev.beginRun { fn := .vf p, q := q } 0x12 }
def execCopy (r : RingId) (s : State) : Host.Outcome State Fault Refusal := .next { s with dev := s.dev.copy r }
def execNop (r : RingId) (s : State) : Host.Outcome State Fault Refusal := .next { s with dev := s.dev.nop r }

end Sys2Proof.Machine
end

