-- ==== Sys2Proof/Machine/Scalar.lean ====
section
/-! DEFINITION. The scalar instructions of a thread: RV64IMFC with Zicsr (R116, R121). The spec names the RISC-V extensions
and not their encodings: those are PRESUMED from the RISC-V unprivileged manual (log entry 22). -/

namespace Sys2Proof.Machine

open Sys2Proof

/-- What an instruction does beyond the registers of its thread (R117, R119, R120). -/
inductive Effect where
  | done (x : Thread)
  | load (isF : Bool) (rd : Fin 32) (addr : DWord) (size : Nat) (signed : Bool)
  | store (addr : DWord) (size : Nat) (val : Nat)
  | ecall
  | ebreak
  | illegal

/-! ### Fields and registers -/

def regF (w : Word) (lo : Nat) : Fin 32 := ⟨bits w lo 5 % 32, Nat.mod_lt _ (by decide)⟩
def rdOf (w : Word) : Fin 32 := regF w 7
def rs1Of (w : Word) : Fin 32 := regF w 15
def rs2Of (w : Word) : Fin 32 := regF w 20
def rs3Of (w : Word) : Fin 32 := regF w 27
def f3Of (w : Word) : Nat := bits w 12 3
def f7Of (w : Word) : Nat := bits w 25 7

def Thread.xr (x : Thread) (r : Fin 32) : DWord := if r = 0 then 0 else Tab.at x.x r
def Thread.fr (x : Thread) (r : Fin 32) : Word := Tab.at x.f r
def Thread.setF (x : Thread) (rd : Fin 32) (v : Word) : Thread := { x with f := Tab.upd x.f rd (fun _ => v) }
/-- The exception flags accrue in fflags. -/
def Thread.accrue (x : Thread) (fl : FFlags) : Thread := { x with fcsr := x.fcsr ||| BitVec.ofNat 8 (fl % 32) }

def sext (n : Nat) (v : Nat) : DWord := (BitVec.ofNat n v).signExtend 64
def immI (w : Word) : DWord := sext 12 (bits w 20 12)
def immS (w : Word) : DWord := sext 12 (bits w 7 5 + 32 * bits w 25 7)
def immB (w : Word) : DWord := sext 13 (2 * bits w 8 4 + 32 * bits w 25 6 + 2048 * bits w 7 1 + 4096 * bits w 31 1)
def immU (w : Word) : DWord := sext 32 (4096 * bits w 12 20)
def immJ (w : Word) : DWord := sext 21 (2 * bits w 21 10 + 2048 * bits w 20 1 + 4096 * bits w 12 8 + 2 ^ 20 * bits w 31 1)

/-! ### Compressed instructions, expanded to the 32-bit instruction each stands for -/

def encR (op f3 f7 rd rs1 rs2 : Nat) : Word := BitVec.ofNat 32 (op + 128 * rd + 4096 * f3 + 2 ^ 15 * rs1 + 2 ^ 20 * rs2 + 2 ^ 25 * f7)
def encI (op f3 rd rs1 imm : Nat) : Word := BitVec.ofNat 32 (op + 128 * rd + 4096 * f3 + 2 ^ 15 * rs1 + 2 ^ 20 * (imm % 4096))
def encS (op f3 rs1 rs2 imm : Nat) : Word :=
  BitVec.ofNat 32 (op + 128 * (imm % 32) + 4096 * f3 + 2 ^ 15 * rs1 + 2 ^ 20 * rs2 + 2 ^ 25 * (imm / 32 % 128))
def encB (f3 rs1 rs2 imm : Nat) : Word :=
  BitVec.ofNat 32 (0x63 + 128 * (imm / 2048 % 2) + 256 * (imm / 2 % 16) + 4096 * f3 + 2 ^ 15 * rs1 + 2 ^ 20 * rs2 +
    2 ^ 25 * (imm / 32 % 64) + 2 ^ 31 * (imm / 4096 % 2))
def encJ (rd imm : Nat) : Word :=
  BitVec.ofNat 32 (0x6F + 128 * rd + 2 ^ 12 * (imm / 4096 % 256) + 2 ^ 20 * (imm / 2048 % 2) + 2 ^ 21 * (imm / 2 % 1024) +
    2 ^ 31 * (imm / 2 ^ 20 % 2))

/-- A 6-bit immediate as 12 bits, sign-extended. -/
def imm6 (c : Word) : Nat := (sext 6 (bits c 2 5 + 32 * bits c 12 1)).toNat % 2 ^ 20
def immCJ (c : Word) : Nat :=
  (sext 12 (2 * bits c 3 3 + 16 * bits c 11 1 + 32 * bits c 2 1 + 64 * bits c 7 1 + 128 * bits c 6 1 + 256 * bits c 9 2 +
    1024 * bits c 8 1 + 2048 * bits c 12 1)).toNat % 2 ^ 21
def immCB (c : Word) : Nat :=
  (sext 9 (2 * bits c 3 2 + 8 * bits c 10 2 + 32 * bits c 2 1 + 64 * bits c 5 2 + 256 * bits c 12 1)).toNat % 2 ^ 13

/-- Quadrant 0. -/
def expand0 (c : Word) : Option Word :=
  let rd := 8 + bits c 2 3
  let rs := 8 + bits c 7 3
  let w := 8 * bits c 10 3 + 4 * bits c 6 1 + 64 * bits c 5 1
  let q := 8 * bits c 10 3 + 64 * bits c 5 2
  match bits c 13 3 with
  | 0 =>
    let n := 4 * bits c 6 1 + 8 * bits c 5 1 + 16 * bits c 11 2 + 64 * bits c 7 4
    if n = 0 then none else some (encI 0x13 0 rd 2 n)
  | 2 => some (encI 0x03 2 rd rs w)
  | 3 => some (encI 0x03 3 rd rs q)
  | 6 => some (encS 0x23 2 rs rd w)
  | 7 => some (encS 0x23 3 rs rd q)
  | _ => none

/-- Quadrant 1. -/
def expand1 (c : Word) : Option Word :=
  let rd := bits c 7 5
  let r := 8 + bits c 7 3
  let r2 := 8 + bits c 2 3
  let sh := bits c 2 5 + 32 * bits c 12 1
  match bits c 13 3 with
  | 0 => some (encI 0x13 0 rd rd (imm6 c))
  | 1 => if rd = 0 then none else some (encI 0x1B 0 rd rd (imm6 c))
  | 2 => some (encI 0x13 0 rd 0 (imm6 c))
  | 3 =>
    if rd = 2 then
      let n := 16 * bits c 6 1 + 32 * bits c 2 1 + 64 * bits c 5 1 + 128 * bits c 3 2 + 512 * bits c 12 1
      if n = 0 then none else some (encI 0x13 0 2 2 ((sext 10 n).toNat % 4096))
    else if sh = 0 then none else some (BitVec.ofNat 32 (0x37 + 128 * rd + 4096 * (imm6 c % 2 ^ 20)))
  | 4 =>
    match bits c 10 2 with
    | 0 => some (encI 0x13 5 r r sh)
    | 1 => some (encI 0x13 5 r r (sh + 0x400))
    | 2 => some (encI 0x13 7 r r (imm6 c))
    | _ =>
      match bits c 12 1, bits c 5 2 with
      | 0, 0 => some (encR 0x33 0 0x20 r r r2)
      | 0, 1 => some (encR 0x33 4 0 r r r2)
      | 0, 2 => some (encR 0x33 6 0 r r r2)
      | 0, _ => some (encR 0x33 7 0 r r r2)
      | _, 0 => some (encR 0x3B 0 0x20 r r r2)
      | _, 1 => some (encR 0x3B 0 0 r r r2)
      | _, _ => none
  | 5 => some (encJ 0 (immCJ c))
  | 6 => some (encB 0 r 0 (immCB c))
  | _ => some (encB 1 r 0 (immCB c))

/-- Quadrant 2. -/
def expand2 (c : Word) : Option Word :=
  let rd := bits c 7 5
  let rs2 := bits c 2 5
  match bits c 13 3 with
  | 0 => some (encI 0x13 1 rd rd (rs2 + 32 * bits c 12 1))
  | 2 => if rd = 0 then none else some (encI 0x03 2 rd 2 (4 * bits c 4 3 + 32 * bits c 12 1 + 64 * bits c 2 2))
  | 3 => if rd = 0 then none else some (encI 0x03 3 rd 2 (8 * bits c 5 2 + 32 * bits c 12 1 + 64 * bits c 2 3))
  | 4 =>
    if bits c 12 1 = 0 then
      if rs2 = 0 then (if rd = 0 then none else some (encI 0x67 0 0 rd 0)) else some (encR 0x33 0 0 rd 0 rs2)
    else if rs2 = 0 then (if rd = 0 then some 0x00100073 else some (encI 0x67 0 1 rd 0))
    else some (encR 0x33 0 0 rd rd rs2)
  | 6 => some (encS 0x23 2 2 rs2 (4 * bits c 9 4 + 64 * bits c 7 2))
  | 7 => some (encS 0x23 3 2 rs2 (8 * bits c 10 3 + 64 * bits c 7 3))
  | _ => none

/-- The instruction at the low end of a word: 32 bits of it with its length, none where no supported one is coded. -/
def expandC (w : Word) : Option Word × Nat :=
  match bits w 0 2 with
  | 0 => (expand0 (w &&& 0xFFFF), 2)
  | 1 => (expand1 (w &&& 0xFFFF), 2)
  | 2 => (expand2 (w &&& 0xFFFF), 2)
  | _ => (some w, 4)

/-! ### Integer arithmetic (I, M) -/

def slt (a b : DWord) : Bool := a.toInt < b.toInt
def bool64 (b : Bool) : DWord := if b then 1 else 0

/-- Signed division of M: by zero −1, and the overflow wraps. -/
def divS (a b : Int) : Int := if b = 0 then -1 else a.tdiv b
def remS (a b : Int) : Int := if b = 0 then a else a.tmod b

def alu64 (f3 f7 : Nat) (a b : DWord) : Option DWord :=
  match f7, f3 with
  | 0x00, 0 => some (a + b)
  | 0x20, 0 => some (a - b)
  | 0x00, 1 => some (a <<< (b.toNat % 64))
  | 0x00, 2 => some (bool64 (slt a b))
  | 0x00, 3 => some (bool64 (a < b))
  | 0x00, 4 => some (a ^^^ b)
  | 0x00, 5 => some (a >>> (b.toNat % 64))
  | 0x20, 5 => some (a.sshiftRight (b.toNat % 64))
  | 0x00, 6 => some (a ||| b)
  | 0x00, 7 => some (a &&& b)
  | 0x01, 0 => some (a * b)
  | 0x01, 1 => some (BitVec.ofInt 64 (a.toInt * b.toInt / 2 ^ 64))
  | 0x01, 2 => some (BitVec.ofInt 64 (a.toInt * (b.toNat : Int) / 2 ^ 64))
  | 0x01, 3 => some (BitVec.ofNat 64 (a.toNat * b.toNat / 2 ^ 64))
  | 0x01, 4 => some (BitVec.ofInt 64 (divS a.toInt b.toInt))
  | 0x01, 5 => some (if b = 0 then BitVec.allOnes 64 else BitVec.ofNat 64 (a.toNat / b.toNat))
  | 0x01, 6 => some (BitVec.ofInt 64 (remS a.toInt b.toInt))
  | 0x01, 7 => some (if b = 0 then a else BitVec.ofNat 64 (a.toNat % b.toNat))
  | _, _ => none

/-- The 32-bit operations of RV64: their result is sign-extended. -/
def alu32 (f3 f7 : Nat) (a b : Word) : Option DWord :=
  let r : Option Word := match f7, f3 with
    | 0x00, 0 => some (a + b)
    | 0x20, 0 => some (a - b)
    | 0x00, 1 => some (a <<< (b.toNat % 32))
    | 0x00, 5 => some (a >>> (b.toNat % 32))
    | 0x20, 5 => some (a.sshiftRight (b.toNat % 32))
    | 0x01, 0 => some (a * b)
    | 0x01, 4 => some (BitVec.ofInt 32 (divS a.toInt b.toInt))
    | 0x01, 5 => some (if b = 0 then BitVec.allOnes 32 else BitVec.ofNat 32 (a.toNat / b.toNat))
    | 0x01, 6 => some (BitVec.ofInt 32 (remS a.toInt b.toInt))
    | 0x01, 7 => some (if b = 0 then a else BitVec.ofNat 32 (a.toNat % b.toNat))
    | _, _ => none
  r.map (fun v => v.signExtend 64)

/-- Register-immediate operations: funct7 counts for shifts alone. -/
def aluImm (w : Word) (a : DWord) : Option DWord :=
  match f3Of w with
  | 1 => if bits w 26 6 = 0 then some (a <<< bits w 20 6) else none
  | 5 => if bits w 26 6 = 0 then some (a >>> bits w 20 6) else if bits w 26 6 = 0x10 then some (a.sshiftRight (bits w 20 6)) else none
  | k => alu64 k 0 a (immI w)

def aluImm32 (w : Word) (a : Word) : Option DWord :=
  match f3Of w with
  | 0 => alu32 0 0 a ((immI w).setWidth 32)
  | 1 => if f7Of w = 0 then alu32 1 0 a (BitVec.ofNat 32 (bits w 20 5)) else none
  | 5 => if f7Of w = 0 || f7Of w = 0x20 then alu32 5 (f7Of w) a (BitVec.ofNat 32 (bits w 20 5)) else none
  | _ => none

def branchTaken (f3 : Nat) (a b : DWord) : Option Bool :=
  match f3 with
  | 0 => some (a == b)
  | 1 => some (a != b)
  | 4 => some (slt a b)
  | 5 => some (!slt a b)
  | 6 => some (a < b)
  | 7 => some (!(a < b))
  | _ => none

/-! ### Floating point (F) -/

def rmOf (n : Nat) : Option Rm :=
  match n with
  | 0 => some .rne
  | 1 => some .rtz
  | 2 => some .rdn
  | 3 => some .rup
  | 4 => some .rmm
  | _ => none

def Thread.frm (x : Thread) : Nat := x.fcsr.toNat / 32
/-- The rounding mode of an instruction: its own, or frm. -/
def Thread.rm (x : Thread) (w : Word) : Option Rm := rmOf (if f3Of w = 7 then x.frm else f3Of w)

def signalling (a : Word) : Bool := isNanW a && !bit a 22
def nv (b : Bool) : FFlags := if b then 16 else 0
def orFl (a b : FFlags) : FFlags := a ||| b

/-- The flags of a pair of operands, one of which signals. -/
def fop2 (op : Val → Val → Val × FFlags) (rm : Rm) (a b : Word) : Word × FFlags :=
  let r := Fmt.fp32.op2 rm op a.toNat b.toNat
  (BitVec.ofNat 32 r.1, orFl r.2 (nv (signalling a || signalling b)))

def faddR (rm : Rm) (a b : Word) : Word × FFlags := fop2 (Val.add rm) rm a b
def fsubR (rm : Rm) (a b : Word) : Word × FFlags := fop2 (fun p q => Val.add rm p q.neg) rm a b
def fmulR (rm : Rm) (a b : Word) : Word × FFlags := fop2 Val.mul rm a b
def fdivR (rm : Rm) (a b : Word) : Word × FFlags := fop2 Val.div rm a b
def fsqrtR (rm : Rm) (a : Word) : Word × FFlags :=
  let (v, fl) := Val.sqrt (f32 a)
  let (r, fr) := Fmt.fp32.round rm v
  (BitVec.ofNat 32 r, orFl (fl + fr) (nv (signalling a)))

/-- a × b + c with one rounding; the product and the addend may be negated. -/
def fmaR (rm : Rm) (negP negC : Bool) (a b c : Word) : Word × FFlags :=
  let (p, fp) := Val.mul (f32 a) (f32 b)
  let p := if negP then p.neg else p
  let q := if negC then (f32 c).neg else f32 c
  let (s, fs) := Val.add rm p q
  let (r, fr) := Fmt.fp32.round rm s
  (BitVec.ofNat 32 r, orFl (orFl fp (orFl fs fr)) (nv (signalling a || signalling b || signalling c)))

def fsgnj (k : Nat) (a b : Word) : Word :=
  let s := b &&& 0x80000000
  let m := a &&& 0x7FFFFFFF
  match k with
  | 0 => m ||| s
  | 1 => m ||| (s ^^^ 0x80000000)
  | _ => a ^^^ s

/-- minimumNumber and maximumNumber: −0 is less than +0, a NaN gives the other operand. -/
def fminmax (wantMax : Bool) (a b : Word) : Word × FFlags :=
  let fl := nv (signalling a || signalling b)
  if isNanW a && isNanW b then (0x7FC00000, fl)
  else if isNanW a then (b, fl)
  else if isNanW b then (a, fl)
  else
    let less := flt a b || ((f32 a).isZero && (f32 b).isZero && bit a 31 && !bit b 31)
    (if less == wantMax then b else a, fl)

/-- feq, flt and fle: the last two signal on any NaN. -/
def fcmp (k : Nat) (a b : Word) : Bool × FFlags :=
  let nan := isNanW a || isNanW b
  match k with
  | 2 => ((f32 a).eq (f32 b), nv (signalling a || signalling b))
  | 1 => (flt a b, nv nan)
  | _ => (flt a b || (f32 a).eq (f32 b), nv nan)

def fclass (a : Word) : Nat :=
  let neg := bit a 31
  let ex := bits a 23 8
  let fr := bits a 0 23
  if ex = 255 then (if fr = 0 then (if neg then 1 else 128) else if signalling a then 256 else 512)
  else if ex = 0 then (if fr = 0 then (if neg then 8 else 16) else if neg then 4 else 32)
  else if neg then 2 else 64

/-- The target range of an integer conversion: W, WU, L, LU. -/
def intRange (k : Nat) : Int × Int :=
  match k with
  | 0 => (-2 ^ 31, 2 ^ 31 - 1)
  | 1 => (0, 2 ^ 32 - 1)
  | 2 => (-2 ^ 63, 2 ^ 63 - 1)
  | _ => (0, 2 ^ 64 - 1)

def fToInt (k : Nat) (rm : Rm) (a : Word) : DWord × FFlags :=
  let (lo, hi) := intRange k
  let (n, fl) := (f32 a).toInt rm lo hi
  (if k < 2 then (BitVec.ofInt 32 n).signExtend 64 else BitVec.ofInt 64 n, fl)

def fOfInt (k : Nat) (rm : Rm) (a : DWord) : Word × FFlags :=
  let n : Int := match k with
    | 0 => (a.setWidth 32).toInt
    | 1 => ((a.setWidth 32).toNat : Int)
    | 2 => a.toInt
    | _ => (a.toNat : Int)
  let (r, fl) := Fmt.fp32.round rm (Val.ofInt n)
  (BitVec.ofNat 32 r, fl)

/-- The OP-FP instructions of single precision. -/
def Thread.opFp (x : Thread) (w : Word) : Option Thread :=
  let rd := rdOf w
  let a := x.fr (rs1Of w)
  let b := x.fr (rs2Of w)
  let n := (rs2Of w).val
  let k := f3Of w
  let put (r : Word × FFlags) : Thread := (x.setF rd r.1).accrue r.2
  match f7Of w with
  | 0x00 => (x.rm w).map (fun rm => put (faddR rm a b))
  | 0x04 => (x.rm w).map (fun rm => put (fsubR rm a b))
  | 0x08 => (x.rm w).map (fun rm => put (fmulR rm a b))
  | 0x0C => (x.rm w).map (fun rm => put (fdivR rm a b))
  | 0x2C => if n = 0 then (x.rm w).map (fun rm => put (fsqrtR rm a)) else none
  | 0x10 => if k < 3 then some (x.setF rd (fsgnj k a b)) else none
  | 0x14 => if k < 2 then some (put (fminmax (k == 1) a b)) else none
  | 0x50 => if k < 3 then (let r := fcmp k a b; some ((x.setX rd (bool64 r.1)).accrue r.2)) else none
  | 0x60 => if n < 4 then (x.rm w).map (fun rm => let r := fToInt n rm a; (x.setX rd r.1).accrue r.2) else none
  | 0x68 => if n < 4 then (x.rm w).map (fun rm => put (fOfInt n rm (x.xr (rs1Of w)))) else none
  | 0x70 =>
    if n ≠ 0 then none
    else if k = 0 then some (x.setX rd (a.signExtend 64))
    else if k = 1 then some (x.setX rd (BitVec.ofNat 64 (fclass a)))
    else none
  | 0x78 => if n = 0 && k = 0 then some (x.setF rd ((x.xr (rs1Of w)).setWidth 32)) else none
  | _ => none

def Thread.fma (x : Thread) (w : Word) (negP negC : Bool) : Option Thread :=
  if bits w 25 2 ≠ 0 then none
  else (x.rm w).map (fun rm =>
    let r := fmaR rm negP negC (x.fr (rs1Of w)) (x.fr (rs2Of w)) (x.fr (rs3Of w))
    (x.setF (rdOf w) r.1).accrue r.2)

/-! ### Control and status registers (Zicsr, Zve32f, R121) -/

def Thread.readCsr (x : Thread) (n : Nat) : Option DWord :=
  match n with
  | 0x001 => some (BitVec.ofNat 64 (x.fcsr.toNat % 32))
  | 0x002 => some (BitVec.ofNat 64 (x.fcsr.toNat / 32))
  | 0x003 => some (x.fcsr.setWidth 64)
  | 0x008 => some (BitVec.ofNat 64 x.vstart)
  | 0x009 => some (bool64 x.vxsat)
  | 0x00A => some (x.vxrm.setWidth 64)
  | 0x00F => some (BitVec.ofNat 64 (2 * x.vxrm.toNat + b2n x.vxsat))
  | 0x800 => some (x.tsrctl.setWidth 64)
  | 0xC20 => some (BitVec.ofNat 64 x.vl)
  | 0xC21 => some x.vtype
  | 0xC22 => some 128
  | _ => none

def Thread.writeCsr (x : Thread) (n : Nat) (v : DWord) : Option Thread :=
  match n with
  | 0x001 => some { x with fcsr := (x.fcsr &&& 0xE0) ||| BitVec.ofNat 8 (v.toNat % 32) }
  | 0x002 => some { x with fcsr := (x.fcsr &&& 0x1F) ||| BitVec.ofNat 8 (32 * (v.toNat % 8)) }
  | 0x003 => some { x with fcsr := v.setWidth 8 }
  | 0x008 => some { x with vstart := v.toNat % 1024 }
  | 0x009 => some { x with vxsat := v.toNat % 2 == 1 }
  | 0x00A => some { x with vxrm := v.setWidth 2 }
  | 0x00F => some { x with vxrm := BitVec.ofNat 2 (v.toNat / 2), vxsat := v.toNat % 2 == 1 }
  | 0x800 => some { x with tsrctl := v.setWidth 2 }
  | _ => none

/-- The six CSR instructions: a write that its operand makes none does not happen. -/
def Thread.csr (x : Thread) (w : Word) : Option Thread :=
  let n := bits w 20 12
  let rs := rs1Of w
  let src : DWord := if f3Of w < 4 then x.xr rs else BitVec.ofNat 64 rs.val
  match x.readCsr n with
  | none => none
  | some old =>
    let new := match f3Of w % 4 with
      | 1 => some src
      | 2 => if rs = 0 then none else some (old ||| src)
      | _ => if rs = 0 then none else some (old &&& ~~~ src)
    match new with
    | none => some (x.setX (rdOf w) old)
    | some v => (x.writeCsr n v).map (fun y => y.setX (rdOf w) old)

/-! ### One scalar instruction -/

def Effect.of (x : Option Thread) : Effect := match x with | some y => .done y | none => .illegal

/-- The thread at the next instruction. -/
def Thread.next (x : Thread) (len : Nat) : Thread := { x with pc := x.pc + BitVec.ofNat 64 len }

def loadEffect (x : Thread) (w : Word) (len : Nat) : Effect :=
  let a := x.xr (rs1Of w) + immI w
  let _ := len
  match f3Of w with
  | 0 => .load false (rdOf w) a 1 true
  | 1 => .load false (rdOf w) a 2 true
  | 2 => .load false (rdOf w) a 4 true
  | 3 => .load false (rdOf w) a 8 true
  | 4 => .load false (rdOf w) a 1 false
  | 5 => .load false (rdOf w) a 2 false
  | 6 => .load false (rdOf w) a 4 false
  | _ => .illegal

def storeEffect (x : Thread) (w : Word) : Effect :=
  let k := f3Of w
  let v := (x.xr (rs2Of w)).toNat
  if k < 4 then .store (x.xr (rs1Of w) + immS w) (2 ^ k) (v % 256 ^ (2 ^ k)) else .illegal

/-- What a 32-bit scalar instruction of length `len` in memory does. A branch or jump writes the pc itself. -/
def Thread.scalar (x : Thread) (w : Word) (len : Nat) : Effect :=
  let rd := rdOf w
  let a := x.xr (rs1Of w)
  let b := x.xr (rs2Of w)
  let next (y : Option Thread) : Effect := Effect.of (y.map (fun z => z.next len))
  match bits w 0 7 with
  | 0x37 => next (some (x.setX rd (immU w)))
  | 0x17 => next (some (x.setX rd (x.pc + immU w)))
  | 0x6F =>
    let y := x.setX rd (x.pc + BitVec.ofNat 64 len)
    .done { y with pc := x.pc + immJ w }
  | 0x67 =>
    if f3Of w ≠ 0 then .illegal
    else
      let y := x.setX rd (x.pc + BitVec.ofNat 64 len)
      .done { y with pc := (a + immI w) &&& ~~~ 1 }
  | 0x63 =>
    match branchTaken (f3Of w) a b with
    | none => .illegal
    | some t => if t then .done { x with pc := x.pc + immB w } else .done (x.next len)
  | 0x03 => loadEffect x w len
  | 0x23 => storeEffect x w
  | 0x13 => next ((aluImm w a).map (fun v => x.setX rd v))
  | 0x1B => next ((aluImm32 w (a.setWidth 32)).map (fun v => x.setX rd v))
  | 0x33 => next ((alu64 (f3Of w) (f7Of w) a b).map (fun v => x.setX rd v))
  | 0x3B => next ((alu32 (f3Of w) (f7Of w) (a.setWidth 32) (b.setWidth 32)).map (fun v => x.setX rd v))
  | 0x0F => if f3Of w = 0 then next (some x) else .illegal
  | 0x73 =>
    if f3Of w % 4 ≠ 0 then next (x.csr w)
    else if w = 0x00000073 then .ecall
    else if w = 0x00100073 then .ebreak
    else .illegal
  | 0x07 => if f3Of w = 2 then .load true rd (a + immI w) 4 false else .illegal
  | 0x27 => if f3Of w = 2 then .store (a + immS w) 4 (x.fr (rs2Of w)).toNat else .illegal
  | 0x43 => next (x.fma w false false)
  | 0x47 => next (x.fma w false true)
  | 0x4B => next (x.fma w true false)
  | 0x4F => next (x.fma w true true)
  | 0x53 => next (x.opFp w)
  | _ => .illegal

/-- Whether an instruction goes to the vector unit (R118): OP-V, and the loads and stores of the vector widths. -/
def isVector (w : Word) : Bool :=
  bits w 0 7 == 0x57 || ((bits w 0 7 == 0x07 || bits w 0 7 == 0x27) && (f3Of w == 0 || 5 ≤ f3Of w))

end Sys2Proof.Machine
end

