-- ==== Sys2Proof/Machine/Vector.lean ====
section
/-! DEFINITION. The vector instructions of a thread: Zve32f and Zvfbfmin with VLEN 1,024 and ELEN 32 (R116, R121). The
encodings and the meanings are PRESUMED from the RISC-V vector specification (log entry 22); encodings that it reserves are
illegal instructions here. -/

namespace Sys2Proof.Machine

open Sys2Proof

/-! ### vtype, groups, elements -/

/-- A legal vtype: element width in bits, LMUL in eighths, and the tail and mask policies. -/
structure VT where
  sew   : Nat
  lmul8 : Nat
  ta    : Bool
  ma    : Bool
deriving DecidableEq, Repr

def lmulOf (code : Nat) : Option Nat :=
  match code with
  | 0 => some 8
  | 1 => some 16
  | 2 => some 32
  | 3 => some 64
  | 6 => some 2
  | 7 => some 4
  | _ => none

/-- The vtype that a value asks for; none sets vill. -/
def vtypeOf (n : Nat) : Option VT :=
  if 256 ≤ n || 2 < n / 8 % 8 then none
  else
    let sew := 8 * 2 ^ (n / 8 % 8)
    match lmulOf (n % 8) with
    | some l => if sew ≤ 4 * l then some { sew := sew, lmul8 := l, ta := n / 64 % 2 == 1, ma := n / 128 % 2 == 1 } else none
    | none => none

def Thread.vt (x : Thread) : Option VT := vtypeOf x.vtype.toNat
def VT.vlmax (t : VT) : Nat := 128 * t.lmul8 / t.sew
/-- EMUL in eighths of an operand with another element width. -/
def VT.emul8 (t : VT) (eew : Nat) : Nat := eew * t.lmul8 / t.sew

def regsOf (emul8 : Nat) : Nat := max 1 (emul8 / 8)
/-- A register group that its EMUL allows to begin at v. -/
def groupOk (v emul8 : Nat) : Bool := 1 ≤ emul8 && emul8 ≤ 64 && v % regsOf emul8 == 0
def disjoint (d dn s sn : Nat) : Bool := d + dn ≤ s || s + sn ≤ d
/-- The overlap of a destination group with a source group of another element width. -/
def overlapOk (d de8 deew s se8 seew : Nat) : Bool :=
  disjoint d (regsOf de8) s (regsOf se8) || deew == seew ||
  (if deew < seew then d == s else 8 ≤ se8 && s + regsOf se8 == d + regsOf de8)

def vreg (v : Nat) : Fin 32 := ⟨v % 32, Nat.mod_lt _ (by decide)⟩
def Thread.el (x : Thread) (v eew e : Nat) : Nat :=
  (Tab.at x.v (vreg (v + e * eew / 1024))).toNat / 2 ^ (e * eew % 1024) % 2 ^ eew
def Thread.setEl (x : Thread) (v eew e n : Nat) : Thread :=
  let sh := e * eew % 1024
  { x with v := Tab.upd x.v (vreg (v + e * eew / 1024)) (fun r =>
      (r &&& ~~~ (BitVec.ofNat 1024 (2 ^ eew - 1) <<< sh)) ||| (BitVec.ofNat 1024 (n % 2 ^ eew) <<< sh)) }
def Thread.vbit (x : Thread) (v e : Nat) : Bool := x.el v 1 e == 1

/-- What a vector instruction runs in: its thread, its vtype, whether it is unmasked, and whether an agnostic element takes
all ones, which the vector specification leaves open (a free value, log entry 5). -/
structure VCtx where
  x  : Thread
  t  : VT
  vm : Bool
  ag : Nat → Bool

def VCtx.active (c : VCtx) (e : Nat) : Bool := c.vm || c.x.vbit 0 e
/-- The active elements of the body. -/
def VCtx.body (c : VCtx) : List Nat :=
  ((List.range (c.x.vl - c.x.vstart)).map (fun k => c.x.vstart + k)).filter c.active

/-- The result of one element: its bits, and its flags: fflags, and 32 for saturation. -/
abbrev ElRes := Nat × Nat

def Thread.flag (x : Thread) (fl : Nat) : Thread := { x.accrue fl with vxsat := x.vxsat || fl / 32 % 2 == 1 }

/-- Write a destination group from element `lo` of the body: the active elements take `f`, the inactive and the tail ones
follow their policies. -/
def VCtx.putFrom (c : VCtx) (lo vd eew emul8 : Nat) (f : Nat → ElRes) : Thread :=
  let x := c.x
  if x.vl ≤ x.vstart then { x with vstart := 0 }
  else
    let lo := max lo x.vstart
    let total := regsOf emul8 * 1024 / eew
    let ones := 2 ^ eew - 1
    let y := ((List.range (x.vl - lo)).map (fun k => lo + k)).foldl (fun (y : Thread) e =>
      if c.active e then (let r := f e; (y.setEl vd eew e r.1).flag r.2)
      else if c.t.ma && c.ag e then y.setEl vd eew e ones else y) x
    let y := if !c.t.ta then y else ((List.range (total - x.vl)).map (fun k => x.vl + k)).foldl (fun (y : Thread) e =>
      if c.ag e then y.setEl vd eew e ones else y) y
    { y with vstart := 0 }

def VCtx.put (c : VCtx) (vd eew emul8 : Nat) (f : Nat → ElRes) : Thread := c.putFrom 0 vd eew emul8 f

/-- Write a mask register: its tail is always agnostic. -/
def VCtx.putMask (c : VCtx) (vd : Nat) (f : Nat → Bool × Nat) : Thread :=
  { c with t := { c.t with ta := true } }.put vd 1 8 (fun e => let r := f e; (b2n r.1, r.2))

/-- Write element 0 of a register and no other element of the body. -/
def VCtx.putScalar (c : VCtx) (vd eew : Nat) (r : ElRes) : Thread :=
  if c.x.vl ≤ c.x.vstart then { c.x with vstart := 0 }
  else
    let y := (c.x.setEl vd eew 0 r.1).flag r.2
    let y := if !c.t.ta then y else ((List.range (1024 / eew - 1)).map (fun k => 1 + k)).foldl (fun (y : Thread) e =>
      if c.ag e then y.setEl vd eew e (2 ^ eew - 1) else y) y
    { y with vstart := 0 }

/-- A destination that a masked instruction may write: not the mask itself. -/
def VCtx.dst (c : VCtx) (vd emul8 : Nat) : Bool := groupOk vd emul8 && (c.vm || vd != 0)

/-! ### Integers -/

def sgn (n v : Nat) : Int := (BitVec.ofNat n v).toInt
def wrap (n : Nat) (v : Int) : Nat := (v % 2 ^ n).toNat

/-- The increment of a fixed-point shift right by `d` (vxrm). -/
def rshift (vxrm : Nat) (v : Int) (d : Nat) : Int :=
  let q := v / 2 ^ d
  let low := (v % 2 ^ d).toNat
  let half := 2 ^ d / 2
  let up := match vxrm with
    | 0 => decide (0 < d) && half ≤ low
    | 1 => decide (0 < d) && (half < low || (half == low && q % 2 == 1))
    | 2 => false
    | _ => low != 0 && q % 2 == 0
  if up then q + 1 else q

/-- A value clamped to a range, with the saturation flag. -/
def clampTo (n : Nat) (lo hi v : Int) : ElRes := if v < lo then (wrap n lo, 32) else if hi < v then (wrap n hi, 32) else (wrap n v, 0)
def clampS (n : Nat) (v : Int) : ElRes := clampTo n (-2 ^ (n - 1)) (2 ^ (n - 1) - 1) v
def clampU (n : Nat) (v : Int) : ElRes := clampTo n 0 (2 ^ n - 1) v

/-- The forms of an OPI function: 1 vector-vector, 2 vector-scalar, 4 vector-immediate. -/
def opiForms (f6 : Nat) : Nat :=
  match f6 with
  | 0x00 => 7 | 0x02 => 3 | 0x03 => 6 | 0x04 => 3 | 0x05 => 3 | 0x06 => 3 | 0x07 => 3
  | 0x09 => 7 | 0x0A => 7 | 0x0B => 7
  | 0x20 => 7 | 0x21 => 7 | 0x22 => 3 | 0x23 => 3 | 0x25 => 7 | 0x27 => 3
  | 0x28 => 7 | 0x29 => 7 | 0x2A => 7 | 0x2B => 7
  | _ => 0

/-- The element-wise OPI functions: `a` of vs2, `b` the other operand. -/
def opiEl (f6 n vxrm a b : Nat) : ElRes :=
  let sa := sgn n a
  let sb := sgn n b
  let sh := b % n
  match f6 with
  | 0x00 => (wrap n (a + b : Int), 0)
  | 0x02 => (wrap n (a - b : Int), 0)
  | 0x03 => (wrap n (b - a : Int), 0)
  | 0x04 => (min a b, 0)
  | 0x05 => (if sa < sb then a else b, 0)
  | 0x06 => (max a b, 0)
  | 0x07 => (if sa < sb then b else a, 0)
  | 0x09 => (a &&& b, 0)
  | 0x0A => (a ||| b, 0)
  | 0x0B => (a ^^^ b, 0)
  | 0x20 => clampU n (a + b : Int)
  | 0x21 => clampS n (sa + sb)
  | 0x22 => clampU n (a - b : Int)
  | 0x23 => clampS n (sa - sb)
  | 0x25 => (a * 2 ^ sh % 2 ^ n, 0)
  | 0x27 => clampS n (rshift vxrm (sa * sb) (n - 1))
  | 0x28 => (a / 2 ^ sh, 0)
  | 0x29 => (wrap n (sa / 2 ^ sh), 0)
  | 0x2A => (wrap n (rshift vxrm a sh), 0)
  | _ => (wrap n (rshift vxrm sa sh), 0)

/-- Narrowing shifts and clips: `a` has 2n bits. -/
def opiNarrow (f6 n vxrm a b : Nat) : ElRes :=
  let sh := b % (2 * n)
  match f6 with
  | 0x2C => (a / 2 ^ sh % 2 ^ n, 0)
  | 0x2D => (wrap n (sgn (2 * n) a / 2 ^ sh), 0)
  | 0x2E => clampU n (rshift vxrm a sh)
  | _ => clampS n (rshift vxrm (sgn (2 * n) a) sh)

/-- Integer compares. -/
def opiCmp (f6 n a b : Nat) : Bool :=
  match f6 with
  | 0x18 => a == b
  | 0x19 => a != b
  | 0x1A => a < b
  | 0x1B => sgn n a < sgn n b
  | 0x1C => a ≤ b
  | 0x1D => sgn n a ≤ sgn n b
  | 0x1E => b < a
  | _ => sgn n b < sgn n a

def cmpForms (f6 : Nat) : Nat :=
  match f6 with
  | 0x18 => 7 | 0x19 => 7 | 0x1A => 3 | 0x1B => 3 | 0x1C => 7 | 0x1D => 7 | 0x1E => 6 | 0x1F => 6
  | _ => 0

/-- The element-wise OPM functions of one width. -/
def opmEl (f6 n vxrm a b : Nat) : Option ElRes :=
  let sa := sgn n a
  let sb := sgn n b
  match f6 with
  | 0x08 => some (wrap n (rshift vxrm (a + b : Int) 1), 0)
  | 0x09 => some (wrap n (rshift vxrm (sa + sb) 1), 0)
  | 0x0A => some (wrap n (rshift vxrm (a - b : Int) 1), 0)
  | 0x0B => some (wrap n (rshift vxrm (sa - sb) 1), 0)
  | 0x20 => some (if b = 0 then 2 ^ n - 1 else a / b, 0)
  | 0x21 => some (wrap n (divS sa sb), 0)
  | 0x22 => some (if b = 0 then a else a % b, 0)
  | 0x23 => some (wrap n (remS sa sb), 0)
  | 0x24 => some (a * b / 2 ^ n, 0)
  | 0x25 => some (a * b % 2 ^ n, 0)
  | 0x26 => some (wrap n (sa * (b : Int) / 2 ^ n), 0)
  | 0x27 => some (wrap n (sa * sb / 2 ^ n), 0)
  | _ => none

/-- Multiply-add: `b` of vs1 or rs1, `a` of vs2, `c` of vd. -/
def opmMac (f6 n a b c : Nat) : Option Nat :=
  match f6 with
  | 0x29 => some (wrap n (b * c + a : Int))
  | 0x2B => some (wrap n ((a : Int) - b * c))
  | 0x2D => some (wrap n (b * a + c : Int))
  | 0x2F => some (wrap n ((c : Int) - b * a))
  | _ => none

/-- Widening functions: `a` of vs2 with its width, `b`, `c` of vd in 2n bits. -/
def opmWide (f6 n a b c : Nat) : Option Nat :=
  let sa := sgn n a
  let sb := sgn n b
  let w (v : Int) : Option Nat := some (wrap (2 * n) v)
  match f6 with
  | 0x30 => w (a + b : Int)
  | 0x31 => w (sa + sb)
  | 0x32 => w (a - b : Int)
  | 0x33 => w (sa - sb)
  | 0x34 => w (a + b : Int)
  | 0x35 => w (a + sb)
  | 0x36 => w (a - b : Int)
  | 0x37 => w (a - sb)
  | 0x38 => w (a * b : Int)
  | 0x3A => w (sa * b)
  | 0x3B => w (sa * sb)
  | 0x3C => w (a * b + c : Int)
  | 0x3D => w (sa * sb + c)
  | 0x3E => w (sa * b + c)
  | 0x3F => w (a * sb + c)
  | _ => none

def maskLogic (f6 : Nat) (a b : Bool) : Bool :=
  match f6 with
  | 0x18 => a && !b
  | 0x19 => a && b
  | 0x1A => a || b
  | 0x1B => a != b
  | 0x1C => a || !b
  | 0x1D => !(a && b)
  | 0x1E => !(a || b)
  | _ => a == b

def redEl (f6 n a b : Nat) : Nat :=
  match f6 with
  | 0 => (a + b) % 2 ^ n
  | 1 => a &&& b
  | 2 => a ||| b
  | 3 => a ^^^ b
  | 4 => min a b
  | 5 => if sgn n a < sgn n b then a else b
  | 6 => max a b
  | _ => if sgn n a < sgn n b then b else a

/-! ### Fields -/

def f6Of (w : Word) : Nat := bits w 26 6
def vdOf (w : Word) : Nat := bits w 7 5
def vs1Of (w : Word) : Nat := bits w 15 5
def vs2Of (w : Word) : Nat := bits w 20 5
def vmOf (w : Word) : Bool := bit w 25
def simm5 (w : Word) (n : Nat) : Nat := wrap n (sgn 5 (vs1Of w))

def guarded (b : Bool) (x : Thread) : Option Thread := if b then some x else none

/-! ### OPIVV, OPIVX, OPIVI -/

/-- The form bit of a funct3: vector-vector, vector-scalar, vector-immediate. -/
def formBit (f3 : Nat) : Nat := match f3 with | 0 => 1 | 2 => 1 | 1 => 1 | 3 => 4 | _ => 2
def hasForm (mask f3 : Nat) : Bool := mask / formBit f3 % 2 == 1

/-- The second operand of an integer instruction; an unsigned immediate where `u` says. -/
def VCtx.srcB (c : VCtx) (w : Word) (n : Nat) (u : Bool) : Nat → Nat :=
  match f3Of w with
  | 0 => fun e => c.x.el (vs1Of w) n e
  | 2 => fun e => c.x.el (vs1Of w) n e
  | 3 => fun _ => if u then vs1Of w else simm5 w n
  | _ => fun _ => (c.x.xr (rs1Of w)).toNat % 2 ^ n

/-- vs1 is a legal group of its EMUL when the form reads it. -/
def VCtx.srcOk (_c : VCtx) (w : Word) (emul8 : Nat) : Bool := formBit (f3Of w) != 1 || groupOk (vs1Of w) emul8
/-- vs1 may overlap the destination as their widths allow. -/
def lapB (w : Word) (de8 deew se8 seew : Nat) : Bool :=
  formBit (f3Of w) != 1 || overlapOk (vdOf w) de8 deew (vs1Of w) se8 seew

def VCtx.slideUp (c : VCtx) (w : Word) (off : Nat) : Option Thread :=
  let n := c.t.sew
  guarded (c.dst (vdOf w) c.t.lmul8 && groupOk (vs2Of w) c.t.lmul8 && vdOf w != vs2Of w)
    (c.putFrom off (vdOf w) n c.t.lmul8 (fun e => (c.x.el (vs2Of w) n (e - off), 0)))

def VCtx.slideDown (c : VCtx) (w : Word) (off : Nat) : Option Thread :=
  let n := c.t.sew
  guarded (c.dst (vdOf w) c.t.lmul8 && groupOk (vs2Of w) c.t.lmul8)
    (c.put (vdOf w) n c.t.lmul8 (fun e => (if e + off < c.t.vlmax then c.x.el (vs2Of w) n (e + off) else 0, 0)))

/-- Gather: the index of each element, and the width and EMUL of a vector of indices. -/
def VCtx.rgather (c : VCtx) (w : Word) (idx : Nat → Nat) (ie8 : Nat) : Option Thread :=
  let n := c.t.sew
  let r := regsOf c.t.lmul8
  let lapped := formBit (f3Of w) != 1 || (groupOk (vs1Of w) ie8 && disjoint (vdOf w) r (vs1Of w) (regsOf ie8))
  guarded (c.dst (vdOf w) c.t.lmul8 && groupOk (vs2Of w) c.t.lmul8 && vdOf w != vs2Of w && lapped)
    (c.put (vdOf w) n c.t.lmul8 (fun e => (if idx e < c.t.vlmax then c.x.el (vs2Of w) n (idx e) else 0, 0)))

/-- Add and subtract with carry, and their carry-outs (vmadc, vmsbc). -/
def VCtx.carry (c : VCtx) (w : Word) : Option Thread :=
  let n := c.t.sew
  let l := c.t.lmul8
  let b := c.srcB w n false
  let sub := f6Of w == 0x12 || f6Of w == 0x13
  let cin (e : Nat) : Int := if !c.vm && c.x.vbit 0 e then 1 else 0
  let v (e : Nat) : Int :=
    let a : Int := c.x.el (vs2Of w) n e
    if sub then a - b e - cin e else a + b e + cin e
  let all := { c with vm := true }
  let srcs := groupOk (vs2Of w) l && c.srcOk w l && (!sub || f3Of w != 3)
  if f6Of w == 0x10 || f6Of w == 0x12 then
    guarded (srcs && !c.vm && c.dst (vdOf w) l) (all.put (vdOf w) n l (fun e => (wrap n (v e), 0)))
  else
    guarded (srcs && overlapOk (vdOf w) 8 1 (vs2Of w) l n && lapB w 8 1 l n)
      (all.putMask (vdOf w) (fun e => (decide (v e < 0) || decide (2 ^ n ≤ v e), 0)))

def VCtx.opi (c : VCtx) (w : Word) : Option Thread :=
  let n := c.t.sew
  let l := c.t.lmul8
  let f6 := f6Of w
  let vd := vdOf w
  let rm := c.x.vxrm.toNat
  let a (e : Nat) : Nat := c.x.el (vs2Of w) n e
  let shift := f6 == 0x25 || (0x28 ≤ f6 && f6 ≤ 0x2F)
  let b := c.srcB w n shift
  let f3 := f3Of w
  let off := if f3 = 3 then vs1Of w else (c.x.xr (rs1Of w)).toNat
  if hasForm (opiForms f6) f3 then
    guarded (c.dst vd l && groupOk (vs2Of w) l && c.srcOk w l) (c.put vd n l (fun e => opiEl f6 n rm (a e) (b e)))
  else if hasForm (cmpForms f6) f3 then
    guarded (groupOk (vs2Of w) l && c.srcOk w l && overlapOk vd 8 1 (vs2Of w) l n && lapB w 8 1 l n)
      (c.putMask vd (fun e => (opiCmp f6 n (a e) (b e), 0)))
  else match f6 with
    | 0x0C =>
      let idx : Nat → Nat := match f3 with
        | 0 => fun e => c.x.el (vs1Of w) n e
        | 3 => fun _ => vs1Of w
        | _ => fun _ => (c.x.xr (rs1Of w)).toNat
      c.rgather w idx l
    | 0x0E =>
      if f3 = 0 then c.rgather w (fun e => c.x.el (vs1Of w) 16 e) (c.t.emul8 16) else c.slideUp w off
    | 0x0F => if f3 = 0 then none else c.slideDown w off
    | 0x10 => c.carry w
    | 0x11 => c.carry w
    | 0x12 => c.carry w
    | 0x13 => c.carry w
    | 0x17 =>
      let all := { c with vm := true }
      guarded (groupOk vd l && c.srcOk w l && (if c.vm then vs2Of w == 0 else groupOk (vs2Of w) l && vd != 0))
        (all.put vd n l (fun e => (if c.vm || c.x.vbit 0 e then b e else a e, 0)))
    | 0x27 =>
      let nr := vs1Of w + 1
      let evl := nr * 1024 / n
      if f3 ≠ 3 || !c.vm || !(nr == 1 || nr == 2 || nr == 4 || nr == 8) || vd % nr ≠ 0 || vs2Of w % nr ≠ 0 then none
      else
        let y := ((List.range (evl - c.x.vstart)).map (fun k => c.x.vstart + k)).foldl
          (fun (y : Thread) e => y.setEl vd n e (c.x.el (vs2Of w) n e)) c.x
        some { y with vstart := 0 }
    | 0x30 => wred c w
    | 0x31 => wred c w
    | _ =>
      if 0x2C ≤ f6 && f6 ≤ 0x2F then
        guarded (2 * n ≤ 32 && 2 * l ≤ 64 && c.dst vd l && groupOk (vs2Of w) (2 * l) && c.srcOk w l &&
            overlapOk vd l n (vs2Of w) (2 * l) (2 * n))
          (c.put vd n l (fun e => opiNarrow f6 n rm (c.x.el (vs2Of w) (2 * n) e) (b e)))
      else none
where
  /-- Widening sum reductions. -/
  wred (c : VCtx) (w : Word) : Option Thread :=
    let n := c.t.sew
    let signed := f6Of w == 0x31
    let s := c.body.foldl (fun (s : Int) e =>
      let v := c.x.el (vs2Of w) n e
      s + (if signed then sgn n v else (v : Int))) (c.x.el (vs1Of w) (2 * n) 0 : Int)
    guarded (f3Of w == 0 && 2 * n ≤ 32 && groupOk (vs2Of w) c.t.lmul8 && c.x.vstart == 0)
      (c.putScalar (vdOf w) (2 * n) (wrap (2 * n) s, 0))

/-! ### OPMVV, OPMVX -/

/-- The set bits of a mask register among the active elements of the body. -/
def VCtx.setBitsOf (c : VCtx) (v : Nat) : List Nat := c.body.filter (fun e => c.x.vbit v e)

/-- vmsbf, vmsof, vmsif: relative to the first set bit. -/
def VCtx.setFirst (c : VCtx) (w : Word) : Option Thread :=
  let first := (c.setBitsOf (vs2Of w)).head?
  let f (e : Nat) : Bool := match first, vs1Of w with
    | none, k => k != 2
    | some k, 1 => e < k
    | some k, 2 => e == k
    | some k, _ => e ≤ k
  guarded (c.x.vstart == 0 && vdOf w != vs2Of w && (c.vm || vdOf w != 0)) (c.putMask (vdOf w) (fun e => (f e, 0)))

def VCtx.iota (c : VCtx) (w : Word) : Option Thread :=
  let n := c.t.sew
  let l := c.t.lmul8
  let on := c.setBitsOf (vs2Of w)
  if vs1Of w = 17 then
    guarded (c.dst (vdOf w) l && vs2Of w == 0) (c.put (vdOf w) n l (fun e => (e, 0)))
  else
    guarded (c.x.vstart == 0 && c.dst (vdOf w) l && disjoint (vdOf w) (regsOf l) (vs2Of w) 1)
      (c.put (vdOf w) n l (fun e => ((on.filter (fun k => k < e)).length, 0)))

/-- vcompress: the tail begins after the packed elements. -/
def VCtx.compress (c : VCtx) (w : Word) : Option Thread :=
  let n := c.t.sew
  let l := c.t.lmul8
  let on := { c with vm := true }.setBitsOf (vs1Of w)
  let y := (on.zip (List.range on.length)).foldl (fun (y : Thread) p => y.setEl (vdOf w) n p.2 (c.x.el (vs2Of w) n p.1)) c.x
  let y := if !c.t.ta || c.x.vl = 0 then y
    else ((List.range (regsOf l * 1024 / n - on.length)).map (fun k => on.length + k)).foldl (fun (y : Thread) e =>
      if c.ag e then y.setEl (vdOf w) n e (2 ^ n - 1) else y) y
  guarded (c.vm && c.x.vstart == 0 && groupOk (vdOf w) l && groupOk (vs2Of w) l && vdOf w != vs2Of w &&
    disjoint (vdOf w) (regsOf l) (vs1Of w) 1) y

/-- vzext and vsext. -/
def VCtx.extend (c : VCtx) (w : Word) : Option Thread :=
  let n := c.t.sew
  let l := c.t.lmul8
  let k := match vs1Of w / 2 with | 1 => 8 | 2 => 4 | _ => 2
  let m := n / k
  guarded (2 ≤ vs1Of w && vs1Of w ≤ 7 && 8 ≤ m && c.dst (vdOf w) l && groupOk (vs2Of w) (l / k) &&
      overlapOk (vdOf w) l n (vs2Of w) (l / k) m)
    (c.put (vdOf w) n l (fun e =>
      let v := c.x.el (vs2Of w) m e
      (if vs1Of w % 2 = 1 then wrap n (sgn m v) else v, 0)))

def VCtx.opm (c : VCtx) (w : Word) : Option Thread :=
  let n := c.t.sew
  let l := c.t.lmul8
  let f6 := f6Of w
  let vd := vdOf w
  let vv := f3Of w == 2
  let rm := c.x.vxrm.toNat
  let a (e : Nat) : Nat := c.x.el (vs2Of w) n e
  let b := c.srcB w n false
  let same := c.dst vd l && groupOk (vs2Of w) l && c.srcOk w l
  let wide := 2 * n ≤ 32 && 2 * l ≤ 64 && c.dst vd (2 * l) && c.srcOk w l && lapB w (2 * l) (2 * n) l n
  if f6 < 8 && vv then
    let r := c.body.foldl (fun s e => redEl f6 n (a e) s) (c.x.el (vs1Of w) n 0)
    guarded (groupOk (vs2Of w) l && c.x.vstart == 0) (c.putScalar vd n (r, 0))
  else match f6 with
    | 0x0E =>
      let s := (c.x.xr (rs1Of w)).toNat % 2 ^ n
      guarded (!vv && c.dst vd l && groupOk (vs2Of w) l && vd != vs2Of w)
        (c.put vd n l (fun e => (if e = 0 then s else a (e - 1), 0)))
    | 0x0F =>
      let s := (c.x.xr (rs1Of w)).toNat % 2 ^ n
      guarded (!vv && c.dst vd l && groupOk (vs2Of w) l)
        (c.put vd n l (fun e => (if e + 1 = c.x.vl then s else a (e + 1), 0)))
    | 0x10 =>
      let done (v : DWord) : Thread := { c.x.setX (rdOf w) v with vstart := 0 }
      if !vv then guarded (c.vm && vs2Of w == 0) (c.putScalar vd n ((c.x.xr (rs1Of w)).toNat % 2 ^ n, 0))
      else match vs1Of w with
        | 0 => guarded c.vm (done (BitVec.ofInt 64 (sgn n (a 0))))
        | 16 => guarded (c.x.vstart == 0) (done (BitVec.ofNat 64 (c.setBitsOf (vs2Of w)).length))
        | 17 => guarded (c.x.vstart == 0) (done (match (c.setBitsOf (vs2Of w)).head? with
            | some e => BitVec.ofNat 64 e
            | none => BitVec.allOnes 64))
        | _ => none
    | 0x12 => if vv then c.extend w else none
    | 0x14 =>
      if !vv then none
      else if 1 ≤ vs1Of w && vs1Of w ≤ 3 then c.setFirst w
      else if vs1Of w = 16 || vs1Of w = 17 then c.iota w
      else none
    | 0x17 => if vv then c.compress w else none
    | _ =>
      if 0x18 ≤ f6 && f6 ≤ 0x1F then
        guarded (vv && c.vm) (c.putMask vd (fun e => (maskLogic f6 (c.x.vbit (vs2Of w) e) (c.x.vbit (vs1Of w) e), 0)))
      else if (opmEl f6 n rm 0 0).isSome then
        guarded same (c.put vd n l (fun e => (opmEl f6 n rm (a e) (b e)).getD (0, 0)))
      else if (opmMac f6 n 0 0 0).isSome then
        guarded same (c.put vd n l (fun e => ((opmMac f6 n (a e) (b e) (c.x.el vd n e)).getD 0, 0)))
      else if (opmWide f6 n 0 0 0).isNone || (f6 = 0x3E && vv) then none
      else if 0x34 ≤ f6 && f6 ≤ 0x37 then
        guarded (wide && groupOk (vs2Of w) (2 * l))
          (c.put vd (2 * n) (2 * l) (fun e => ((opmWide f6 n (c.x.el (vs2Of w) (2 * n) e) (b e) 0).getD 0, 0)))
      else
        guarded (wide && groupOk (vs2Of w) l && overlapOk vd (2 * l) (2 * n) (vs2Of w) l n)
          (c.put vd (2 * n) (2 * l) (fun e => ((opmWide f6 n (a e) (b e) (c.x.el vd (2 * n) e)).getD 0, 0)))

/-! ### OPFVV, OPFVF -/

def el32 (n : Nat) : Word := BitVec.ofNat 32 n
def elRes (r : Word × FFlags) : ElRes := (r.1.toNat, r.2)

/-- floor((sqrt(4·2^16·den/num) + 1) / 2): 256 over the square root, to the nearest integer. -/
def rsqrtNearest (num den : Nat) : Nat := (isqrt (4 * 65536 * den / num) + 1) / 2

/-- The 7-bit estimate of 1/sqrt(a). -/
def frsqrt7 (a : Word) : Word × FFlags :=
  match f32 a with
  | .nan => (0x7FC00000, nv (signalling a))
  | .inf n => if n then (0x7FC00000, 16) else (0, 0)
  | .fin n m e =>
    if m = 0 then (if n then 0xFF800000 else 0x7F800000, 8)
    else if n then (0x7FC00000, 16)
    else
      let k := Nat.log2 m
      let ex : Int := (k : Int) + e
      let fr := (m * 2 ^ 24 / 2 ^ k - 2 ^ 24) / 2 ^ 18
      let odd := ex % 2 == 1
      let q := rsqrtNearest ((if odd then 2 else 1) * (129 + 2 * fr)) 128
      (toF32 (.fin false q ((if odd then -(ex - 1) / 2 else -ex / 2) - 8)), 0)

/-- The 7-bit estimate of 1/a. -/
def frec7 (rm : Rm) (a : Word) : Word × FFlags :=
  match f32 a with
  | .nan => (0x7FC00000, nv (signalling a))
  | .inf n => (if n then 0x80000000 else 0, 0)
  | .fin n m e =>
    if m = 0 then (if n then 0xFF800000 else 0x7F800000, 8)
    else
      let k := Nat.log2 m
      let ex : Int := (k : Int) + e
      if ex < -128 then
        let toMax := match rm with | .rtz => true | .rdn => !n | .rup => n | _ => false
        ((if toMax then 0x7F7FFFFF else 0x7F800000) ||| (if n then 0x80000000 else 0), 5)
      else
        let fr := (m * 2 ^ 24 / 2 ^ k - 2 ^ 24) / 2 ^ 17
        let q := (2 * 65536 + (257 + 2 * fr)) / (2 * (257 + 2 * fr))
        (toF32 (.fin n q (-ex - 8)), 0)

/-- One conversion of vfncvtbf16.f.f.w (R102, R103, R121): its code, its flags, and what it sets in TIL_NF_STAT. -/
def narrowBf16 (rnd : Rm ⊕ DWord) (sat : Bool) (a : Word) : Nat × FFlags × ConvFlags :=
  match f32 a with
  | .nan => (0x7FC0, nv (signalling a), { nf := true, sat := false })
  | .inf n => (Fmt.bf16.overflow sat n, 0, { nf := true, sat := false })
  | .fin neg m e =>
    if m = 0 then (signBit Fmt.bf16 neg, 0, ConvFlags.none)
    else
      let q := Fmt.bf16.ulpExp m e
      let t := match rnd with
        | .inl rm => (cutTo rm neg m e q).1
        | .inr draw => srCut m e q draw
      let inexact := (cutTo .rtz neg m e q).2
      if Fmt.bf16.beyond m e || Fmt.bf16.beyond t q then (Fmt.bf16.overflow sat neg, 5, { nf := false, sat := true })
      else
        let tiny := decide ((Nat.log2 m : Int) + e < Fmt.bf16.emin)
        (Fmt.bf16.encode neg t q, (if inexact then 1 else 0) + (if inexact && tiny then 2 else 0), ConvFlags.none)

def widenBf16 (n : Nat) : Word × FFlags :=
  let v := Fmt.bf16.decode n
  (toF32 v, nv (v.isNan && n / 64 % 2 == 0))

/-- The element-wise OPF functions: `a` of vs2, `b` of vs1 or rs1. -/
def opfEl (f6 : Nat) (vf : Bool) (rm : Rm) (a b : Word) : Option (Word × FFlags) :=
  match f6 with
  | 0x00 => some (faddR rm a b)
  | 0x02 => some (fsubR rm a b)
  | 0x04 => some (fminmax false a b)
  | 0x06 => some (fminmax true a b)
  | 0x08 => some (fsgnj 0 a b, 0)
  | 0x09 => some (fsgnj 1 a b, 0)
  | 0x0A => some (fsgnj 2 a b, 0)
  | 0x20 => some (fdivR rm a b)
  | 0x21 => if vf then some (fdivR rm b a) else none
  | 0x24 => some (fmulR rm a b)
  | 0x27 => if vf then some (fsubR rm b a) else none
  | _ => none

/-- Fused multiply-add: `c` of vd. -/
def opfMac (f6 : Nat) (rm : Rm) (a b c : Word) : Option (Word × FFlags) :=
  match f6 with
  | 0x28 => some (fmaR rm false false c b a)
  | 0x29 => some (fmaR rm true true c b a)
  | 0x2A => some (fmaR rm false true c b a)
  | 0x2B => some (fmaR rm true false c b a)
  | 0x2C => some (fmaR rm false false b a c)
  | 0x2D => some (fmaR rm true true b a c)
  | 0x2E => some (fmaR rm false true b a c)
  | 0x2F => some (fmaR rm true false b a c)
  | _ => none

def opfCmp (f6 : Nat) (vf : Bool) (a b : Word) : Option (Bool × FFlags) :=
  match f6 with
  | 0x18 => some (fcmp 2 a b)
  | 0x19 => some (fcmp 0 a b)
  | 0x1B => some (fcmp 1 a b)
  | 0x1C => let r := fcmp 2 a b; some (!r.1, r.2)
  | 0x1D => if vf then some (fcmp 1 b a) else none
  | 0x1F => if vf then some (fcmp 0 b a) else none
  | _ => none

/-- Conversions of one width (SEW 32). -/
def cvt32 (k : Nat) (rm : Rm) (a : Nat) : Option ElRes :=
  let toI (s : Nat) (rm : Rm) : Option ElRes := let r := fToInt s rm (el32 a); some (r.1.toNat % 2 ^ 32, r.2)
  match k with
  | 0 => toI 1 rm
  | 1 => toI 0 rm
  | 2 => some (elRes (fOfInt 1 rm (BitVec.ofNat 64 a)))
  | 3 => some (elRes (fOfInt 0 rm (BitVec.ofNat 64 a)))
  | 6 => toI 1 .rtz
  | 7 => toI 0 .rtz
  | _ => none

/-- FP32 to a 16-bit integer. -/
def cvt16 (k : Nat) (rm : Rm) (a : Nat) : Option ElRes :=
  let go (signed : Bool) (rm : Rm) : Option ElRes :=
    let r := (f32 (el32 a)).toInt rm (if signed then -32768 else 0) (if signed then 32767 else 65535)
    some (wrap 16 r.1, r.2)
  match k with
  | 0x10 => go false rm
  | 0x11 => go true rm
  | 0x16 => go false .rtz
  | 0x17 => go true .rtz
  | _ => none

/-- What a vector instruction did: the thread after it, the draws that it consumed and its conversion flags. -/
structure VRes where
  x     : Thread
  drawn : Nat
  conv  : ConvFlags

def VRes.of (o : Option Thread) : Option VRes := o.map (fun x => { x := x, drawn := 0, conv := ConvFlags.none })

/-- vfncvtbf16.f.f.w: under TSRCTL.SR each converted element takes a draw, in element order (R106, R121). -/
def VCtx.ncvtBf16 (c : VCtx) (w : Word) (draw : Nat → DWord) : Option VRes :=
  let l := c.t.lmul8
  let sr := c.x.tsrctl.toNat % 2 == 1
  let sat := c.x.tsrctl.toNat / 2 == 1
  let body := c.body
  let rm := rmOf c.x.frm
  if c.t.sew ≠ 16 || 32 < l || !c.dst (vdOf w) l || !groupOk (vs2Of w) (2 * l) || !overlapOk (vdOf w) l 16 (vs2Of w) (2 * l) 32 ||
      (!sr && rm.isNone) then none
  else
    let el (e : Nat) : Nat × FFlags × ConvFlags :=
      narrowBf16 (if sr then .inr (draw (body.idxOf e)) else .inl (rm.getD .rne)) sat (el32 (c.x.el (vs2Of w) 32 e))
    some { x := c.put (vdOf w) 16 l (fun e => let r := el e; (r.1, r.2.1)), drawn := if sr then body.length else 0
           conv := body.foldl (fun f e => f.or (el e).2.2) ConvFlags.none }

/-- VFUNARY0: the conversions. -/
def VCtx.cvt (c : VCtx) (w : Word) (rm : Rm) : Option Thread :=
  let n := c.t.sew
  let l := c.t.lmul8
  let k := vs1Of w
  let vd := vdOf w
  let wideOk := n == 16 && l ≤ 32 && c.dst vd (2 * l) && groupOk (vs2Of w) l && overlapOk vd (2 * l) 32 (vs2Of w) l 16
  let a (e : Nat) : Nat := c.x.el (vs2Of w) n e
  match k with
  | 10 => guarded wideOk (c.put vd 32 (2 * l) (fun e => (( toF32 (Val.ofNat (a e))).toNat, 0)))
  | 11 => guarded wideOk (c.put vd 32 (2 * l) (fun e => ((toF32 (Val.ofInt (sgn 16 (a e)))).toNat, 0)))
  | 13 => guarded wideOk (c.put vd 32 (2 * l) (fun e => elRes (widenBf16 (a e))))
  | _ =>
    if (cvt32 k rm 0).isSome then
      guarded (n == 32 && c.dst vd l && groupOk (vs2Of w) l) (c.put vd 32 l (fun e => (cvt32 k rm (a e)).getD (0, 0)))
    else if (cvt16 k rm 0).isSome then
      guarded (n == 16 && l ≤ 32 && c.dst vd l && groupOk (vs2Of w) (2 * l) && overlapOk vd l 16 (vs2Of w) (2 * l) 32)
        (c.put vd 16 l (fun e => (cvt16 k rm (c.x.el (vs2Of w) 32 e)).getD (0, 0)))
    else none

/-- Reductions of FP32: the ordered sum in element order; the order of the unordered sum is open (log entry 22). -/
def VCtx.fred (c : VCtx) (w : Word) (rm : Rm) : Option Thread :=
  let s := el32 (c.x.el (vs1Of w) 32 0)
  let l := c.body.map (fun e => el32 (c.x.el (vs2Of w) 32 e))
  let fold (f : Word → Word → Word × FFlags) : Word × FFlags :=
    l.foldl (fun acc v => let r := f acc.1 v; (r.1, orFl acc.2 r.2)) (s, 0)
  let r := match f6Of w with
    | 0x01 => if l.isEmpty then (s, 0) else (let r := Config.redUsum (match rm with | .rne => 0 | .rtz => 1 | .rdn => 2 | .rup => 3 | .rmm => 4) s l; (r.1, r.2.toNat))
    | 0x03 => fold (faddR rm)
    | 0x05 => fold (fminmax false)
    | _ => fold (fminmax true)
  guarded (groupOk (vs2Of w) c.t.lmul8 && c.x.vstart == 0) (c.putScalar (vdOf w) 32 (elRes r))

def VCtx.opf32 (c : VCtx) (w : Word) (rm : Rm) : Option Thread :=
  let l := c.t.lmul8
  let f6 := f6Of w
  let vd := vdOf w
  let vf := f3Of w == 5
  let s := c.x.fr (rs1Of w)
  let a (e : Nat) : Word := el32 (c.x.el (vs2Of w) 32 e)
  let b (e : Nat) : Word := if vf then s else el32 (c.x.el (vs1Of w) 32 e)
  let srcOk := groupOk (vs2Of w) l && (vf || groupOk (vs1Of w) l)
  if !vf && (f6 = 1 || f6 = 3 || f6 = 5 || f6 = 7) then c.fred w rm
  else if (opfEl f6 vf rm 0 0).isSome then
    guarded (c.dst vd l && srcOk) (c.put vd 32 l (fun e => elRes ((opfEl f6 vf rm (a e) (b e)).getD (0, 0))))
  else if (opfMac f6 rm 0 0 0).isSome then
    guarded (c.dst vd l && srcOk)
      (c.put vd 32 l (fun e => elRes ((opfMac f6 rm (a e) (b e) (el32 (c.x.el vd 32 e))).getD (0, 0))))
  else if (opfCmp f6 vf 0 0).isSome then
    guarded (srcOk && overlapOk vd 8 1 (vs2Of w) l 32 && (vf || overlapOk vd 8 1 (vs1Of w) l 32))
      (c.putMask vd (fun e => (opfCmp f6 vf (a e) (b e)).getD (false, 0)))
  else match f6 with
    | 0x0E => guarded (vf && c.dst vd l && groupOk (vs2Of w) l && vd != vs2Of w)
        (c.put vd 32 l (fun e => ((if e = 0 then s else a (e - 1)).toNat, 0)))
    | 0x0F => guarded (vf && c.dst vd l && groupOk (vs2Of w) l)
        (c.put vd 32 l (fun e => ((if e + 1 = c.x.vl then s else a (e + 1)).toNat, 0)))
    | 0x10 =>
      if vf then guarded (c.vm && vs2Of w == 0) (c.putScalar vd 32 (s.toNat, 0))
      else guarded (c.vm && vs1Of w == 0) { c.x.setF (rdOf w) (a 0) with vstart := 0 }
    | 0x13 =>
      let one (f : Word → Word × FFlags) : Option Thread :=
        guarded (!vf && c.dst vd l && groupOk (vs2Of w) l) (c.put vd 32 l (fun e => elRes (f (a e))))
      match vs1Of w with
      | 0 => one (fsqrtR rm)
      | 4 => one frsqrt7
      | 5 => one (frec7 rm)
      | 16 => one (fun v => (BitVec.ofNat 32 (fclass v), 0))
      | _ => none
    | 0x17 =>
      let all := { c with vm := true }
      guarded (vf && groupOk vd l && (if c.vm then vs2Of w == 0 else groupOk (vs2Of w) l && vd != 0))
        (all.put vd 32 l (fun e => ((if c.vm || c.x.vbit 0 e then s else a e).toNat, 0)))
    | _ => none

def VCtx.opf (c : VCtx) (w : Word) (draw : Nat → DWord) : Option VRes :=
  if f3Of w = 1 && f6Of w = 0x12 && vs1Of w = 29 then c.ncvtBf16 w draw
  else VRes.of (match rmOf c.x.frm with
    | none => none
    | some rm =>
      if f3Of w = 1 && f6Of w = 0x12 then c.cvt w rm
      else if c.t.sew = 32 then c.opf32 w rm
      else none)

/-! ### vsetvli, vsetivli, vsetvl -/

def Thread.setVl (x : Thread) (w : Word) : Option Thread :=
  let keep := !(bit w 31 && bit w 30) && vs1Of w = 0 && vdOf w = 0
  let ty : Option Nat :=
    if !bit w 31 then some (bits w 20 11)
    else if bit w 30 then some (bits w 20 10)
    else if bits w 25 7 = 0x40 then some (x.xr (rs2Of w)).toNat
    else none
  match ty with
  | none => none
  | some n =>
    let bad : Thread := { x.setX (rdOf w) 0 with vtype := 0x8000000000000000, vl := 0, vstart := 0 }
    match vtypeOf n with
    | none => some bad
    | some t =>
      if keep && (match x.vt with | some o => o.vlmax != t.vlmax | none => true) then some bad
      else
        let avl := if bit w 31 && bit w 30 then vs1Of w
          else if vs1Of w ≠ 0 then (x.xr (rs1Of w)).toNat
          else if vdOf w ≠ 0 then t.vlmax else x.vl
        let vl := min avl t.vlmax
        some { x.setX (rdOf w) (BitVec.ofNat 64 vl) with vtype := BitVec.ofNat 64 n, vl := vl, vstart := 0 }

/-- An OP-V instruction. -/
def Thread.opV (x : Thread) (w : Word) (ag : Nat → Bool) (draw : Nat → DWord) : Option VRes :=
  if f3Of w = 7 then VRes.of (x.setVl w)
  else match x.vt with
    | none => none
    | some t =>
      let c : VCtx := { x := x, t := t, vm := vmOf w, ag := ag }
      match f3Of w with
      | 0 => VRes.of (c.opi w)
      | 3 => VRes.of (c.opi w)
      | 4 => VRes.of (c.opi w)
      | 2 => VRes.of (c.opm w)
      | 6 => VRes.of (c.opm w)
      | _ => c.opf w draw

/-! ### Vector loads and stores -/

/-- A vector access: its data width, its elements, its fields and the registers of each, whether it is unmasked, whether only
its first element can fault, whether its tail is agnostic whatever vtype says, and the address of a field of an element. -/
structure VMem where
  eew   : Nat
  evl   : Nat
  nf    : Nat
  regs  : Nat
  vd    : Nat
  vm    : Bool
  first : Bool
  ta    : Bool
  addr  : Nat → Nat → DWord

def eewOf (f3 : Nat) : Option Nat := match f3 with | 0 => some 8 | 5 => some 16 | 6 => some 32 | _ => none

def Thread.vmem (x : Thread) (w : Word) : Option VMem :=
  let load := bits w 0 7 == 0x07
  let nf := bits w 29 3 + 1
  let vm := vmOf w
  let vd := vdOf w
  let base := x.xr (rs1Of w)
  let at' (n : Nat) : DWord := base + BitVec.ofNat 64 n
  match eewOf (f3Of w) with
  | none => none
  | some eew =>
    if bit w 28 then none
    else if bits w 26 2 = 0 && vs2Of w = 8 then
      if vm && (nf == 1 || nf == 2 || nf == 4 || nf == 8) && vd % nf == 0 && (load || eew == 8) then
        some { eew := eew, evl := nf * 1024 / eew, nf := 1, regs := nf, vd := vd, vm := true, first := false, ta := false,
               addr := fun e _ => at' (e * (eew / 8)) }
      else none
    else match x.vt with
      | none => none
      | some t =>
        let ta := t.ta
        let segOk (emul8 : Nat) : Bool :=
          groupOk vd emul8 && nf * emul8 ≤ 64 && vd + nf * regsOf emul8 ≤ 32 && (vm || !load || vd != 0)
        let e8 := t.emul8 eew
        match bits w 26 2 with
        | 0 =>
          match vs2Of w with
          | 0 =>
            if segOk e8 then some { eew := eew, evl := x.vl, nf := nf, regs := regsOf e8, vd := vd, vm := vm, first := false,
                                    ta := ta, addr := fun e f => at' ((e * nf + f) * (eew / 8)) }
            else none
          | 16 =>
            if load && segOk e8 then some { eew := eew, evl := x.vl, nf := nf, regs := regsOf e8, vd := vd, vm := vm, first := true,
                                            ta := ta, addr := fun e f => at' ((e * nf + f) * (eew / 8)) }
            else none
          | 11 =>
            if vm && eew == 8 && nf == 1 then some { eew := 8, evl := (x.vl + 7) / 8, nf := 1, regs := 1, vd := vd, vm := true,
                                                     first := false, ta := true, addr := fun e _ => at' e }
            else none
          | _ => none
        | 2 =>
          let stride := x.xr (rs2Of w)
          if segOk e8 then some { eew := eew, evl := x.vl, nf := nf, regs := regsOf e8, vd := vd, vm := vm, first := false, ta := ta,
                                  addr := fun e f => at' (f * (eew / 8)) + BitVec.ofNat 64 e * stride }
          else none
        | _ =>
          let l := t.lmul8
          let total := nf * regsOf l
          let lap := !load || (if nf = 1 then overlapOk vd l t.sew (vs2Of w) e8 eew else disjoint vd total (vs2Of w) (regsOf e8))
          if segOk l && groupOk (vs2Of w) e8 && lap then
            some { eew := t.sew, evl := x.vl, nf := nf, regs := regsOf l, vd := vd, vm := vm, first := false, ta := ta,
                   addr := fun e f => at' (x.el (vs2Of w) eew e + f * (t.sew / 8)) }
          else none

end Sys2Proof.Machine
end

