-- ==== Sys2Proof/Machine/Threads.lean ====
section
/-! DEFINITION. The thread engine of a plain (R116 to R121): which thread issues, the thread address map, and how threads end. -/

namespace Sys2Proof.Machine

open Sys2Proof

/-! ### The thread address map (R117, R181, R215) -/

/-- Where a thread address lies; the ports have a 64-byte slot for each thread. -/
inductive Region where
  | sram (a : Nat)
  | dma (slot : Nat) (off : Nat)
  | syn (slot : Nat) (off : Nat)
  | outside
deriving DecidableEq, Repr

def regionOf (a : DWord) : Region :=
  let n := a.toNat
  if n < sramBytes then .sram n
  else if 0x02000000 ≤ n && n < 0x02001000 then .dma ((n - 0x02000000) / 64) (n % 64)
  else if 0x02010000 ≤ n && n < 0x02011000 then .syn ((n - 0x02010000) / 64) (n % 64)
  else .outside

def aligned (a : DWord) (size : Nat) : Bool := a.toNat % size == 0

/-- The fault of an access at the thread's present instruction: cause 2 when misaligned, 3 outside the map (R120). -/
def accessCause (a : DWord) (size : Nat) : Option Nat :=
  if !aligned a size then some 2 else if regionOf a == .outside then some 3 else none

def Dev.faultHere (d : Dev) (i t : Fin 64) (cause : Nat) : Dev := d.threadFault i t cause (d.thread i t).pc

/-- The bytes of a request slot with some of them replaced. -/
def slotPut (s : Tab Word 16) (off : Nat) (b : List Byte) : Tab Word 16 :=
  let l := s.toList.flatMap wordBytes
  let l := l.take off ++ b ++ l.drop (off + b.length)
  Vector.ofFn (fun k => bytesWord ((l.drop (4 * k.val)).take 4))

/-- A store to the SYN port (R215). -/
def Dev.synStore (d : Dev) (i t : Fin 64) (off : Nat) (v : Word) : Dev :=
  match off with
  | 0x00 => d.synAdd i t v
  | 0x04 => d.synWait i t v
  | 0x08 => d.readSel i t v
  | 0x10 => d.remoteCol i t v
  | 0x14 => d.remoteAdd i t v
  | 0x18 => d.barIssue i t v false
  | 0x1C => d.barIssue i t v true
  | _ => d.portOp i t (fun d _ => d.portFault i t)

/-- A store of a thread. The pc stays at the instruction. -/
def Dev.threadStore (d : Dev) (i t : Fin 64) (a : DWord) (size val : Nat) : Dev :=
  match accessCause a size with
  | some c => d.faultHere i t c
  | none => match regionOf a with
    | .sram n => d.sramWrite i n (leBytes size val)
    | .dma u off =>
      if u ≠ t.val then d.faultHere i t 3
      else
        let w := slotPut (d.thread i t).slot off (leBytes size val)
        let d := d.updThread i t (fun x => { x with slot := w })
        if 0x3C < off + size then d.issue i t w else d
    | .syn u off => if u ≠ t.val || size ≠ 4 then d.faultHere i t 3 else d.synStore i t off (BitVec.ofNat 32 val)
    | .outside => d.faultHere i t 3

/-- What a load from a port returns: 0, the counter that READ selects, or a free value for another thread's READ, which the
spec does not state (log entry 5); none faults. -/
def Dev.portLoad (d : Dev) (i t : Fin 64) (r : Region) (size : Nat) : Dev × Option Word :=
  match r with
  | .dma _ _ => (d, some 0)
  | .syn u off =>
    if size ≠ 4 then (d, none)
    else if off ≠ 0x0C then (d, some 0)
    else if u = t.val then
      match d.plainOwner i with
      | some p => (d, some (d.synValue p i t))
      | none => (d, some 0)
    else
      let (v, d) := d.fresh
      (d, some (lo32 v))
  | _ => (d, none)

/-- A marked line stops the thread, and its command ends with POISON_CONSUMED (R127). -/
def Dev.threadPoison (d : Dev) (i t : Fin 64) (line : Nat) : Dev :=
  let job := (d.thread i t).job
  ((d.stopThread i t).biteSram (d.plainOwner i) 0 i.val i line).endOf job .poisonConsumed

def Thread.loaded (x : Thread) (isF : Bool) (rd : Fin 32) (size : Nat) (signed : Bool) (v : Nat) : Thread :=
  if isF then x.setF rd (BitVec.ofNat 32 v)
  else x.setX rd (if signed then sext (8 * size) v else BitVec.ofNat 64 v)

/-- A scalar load: from SRAM it returns later (R118), from a port at once. -/
def Dev.threadLoad (d : Dev) (i t : Fin 64) (len : Nat) (isF : Bool) (rd : Fin 32) (a : DWord) (size : Nat) (signed : Bool) : Dev :=
  match accessCause a size with
  | some c => d.faultHere i t c
  | none => match regionOf a with
    | .sram n => d.updThread i t (fun x => { x.next len with stall := .load isF rd n size signed })
    | r =>
      let (d, v) := d.portLoad i t r size
      match v with
      | none => d.faultHere i t 3
      | some v => d.updThread i t (fun x => (x.loaded isF rd size signed v.toNat).next len)

/-! ### Vector loads and stores -/

/-- A vector access in progress: the device, whether it ended early, and the element and the field at which it must go on. -/
structure VRun where
  d      : Dev
  ended  : Bool
  resume : Option (Nat × Nat)

/-- One field of one element. -/
def VRun.load (r : VRun) (i t : Fin 64) (m : VMem) (e f : Nat) : VRun :=
  if r.ended then r
  else
    let a := m.addr e f
    let size := m.eew / 8
    let put (d : Dev) (v : Nat) : Dev := d.updThread i t (fun x => x.setEl (m.vd + f * m.regs) m.eew e v)
    match accessCause a size with
    | some c =>
      if m.first && e ≠ 0 then
        { r with d := r.d.updThread i t (fun x => { x with vl := e }), ended := true }
      else { r with d := r.d.faultHere i t c, ended := true }
    | none => match regionOf a with
      | .sram n =>
        let (d, b, bad) := r.d.sramRead i n size
        match bad with
        | l :: _ => { r with d := d.threadPoison i t l, ended := true }
        | [] => { r with d := put d (leNat b) }
      | g =>
        let (d, v) := r.d.portLoad i t g size
        match v with
        | none => { r with d := d.faultHere i t 3, ended := true }
        | some v => { r with d := put d v.toNat }

def VRun.store (r : VRun) (i t : Fin 64) (m : VMem) (x0 : Thread) (e f : Nat) : VRun :=
  if r.ended then r
  else
    let d := r.d.threadStore i t (m.addr e f) (m.eew / 8) (x0.el (m.vd + f * m.regs) m.eew e)
    let x := d.thread i t
    if !x.live then { r with d := d, ended := true }
    else if x.stall != .none then { d := d, ended := true, resume := some (if f + 1 < m.nf then (e, f + 1) else (e + 1, 0)) }
    else { r with d := d }

/-- The inactive elements and the tail of a load's destinations take what their policies say. -/
def Thread.loadTail (x : Thread) (m : VMem) (t : VT) (vl : Nat) (ag : Nat → Bool) : Thread :=
  let ones := 2 ^ m.eew - 1
  let body := (List.range (vl - x.vstart)).map (fun k => x.vstart + k)
  let off := body.filter (fun e => !(m.vm || x.vbit 0 e) && t.ma && ag e)
  let tail := ((List.range (m.regs * 1024 / m.eew - vl)).map (fun k => vl + k)).filter (fun e => (m.ta || t.ta) && ag e)
  (List.range m.nf).foldl (fun (y : Thread) f =>
    (off ++ tail).foldl (fun (y : Thread) e => y.setEl (m.vd + f * m.regs) m.eew e ones) y) x

/-- The fields of the active elements that a vector access still has to take, in order. -/
def Thread.accesses (x : Thread) (m : VMem) : List (Nat × Nat) :=
  (((List.range (m.evl - x.vstart)).map (fun k => x.vstart + k)).filter (fun e => m.vm || x.vbit 0 e)).flatMap (fun e =>
    ((List.range m.nf).filter (fun f => x.vstart < e || x.vfield ≤ f)).map (fun f => (e, f)))

/-- A vector load or store. A store that stalls at a port goes on from the next field when the thread issues again. -/
def Dev.vectorMem (d : Dev) (i t : Fin 64) (load : Bool) (m : VMem) (ag : Nat → Bool) : Dev :=
  let x := d.thread i t
  let start : VRun := { d := d, ended := false, resume := none }
  let r := (x.accesses m).foldl (fun (r : VRun) y => if load then r.load i t m y.1 y.2 else r.store i t m x y.1 y.2) start
  let y := r.d.thread i t
  if !y.live then r.d
  else match r.resume with
    | some (e, f) =>
      if e < m.evl then r.d.updThread i t (fun z => { z with vstart := e, vfield := f })
      else r.d.updThread i t (fun z => { z.next 4 with vstart := 0, vfield := 0 })
    | none =>
      let tail (z : Thread) : Thread := match z.vt with
        | some vt => if load && x.vstart < m.evl then { z.loadTail m vt (if m.first then z.vl else m.evl) ag with vl := z.vl } else z
        | none => z
      r.d.updThread i t (fun z => { (tail z).next 4 with vstart := 0, vfield := 0 })

/-- Whether a vector load reads SRAM before an access of it faults: then it returns later (R118). -/
def Thread.loadsSram (x : Thread) (m : VMem) : Bool :=
  (((x.accesses m).map (fun y => m.addr y.1 y.2)).takeWhile (fun a => (accessCause a (m.eew / 8)).isNone)).any (fun a =>
    match regionOf a with | .sram _ => true | _ => false)

/-! ### Issue (R118) -/

/-- What stands at a thread's pc in the instruction cache (R119). -/
inductive Fetched where
  | fault (cause : Nat)
  | ins (w : Option Word) (len : Nat)
deriving DecidableEq, Repr

def Plain.fetch (x : Plain) (pc : DWord) : Fetched :=
  if !aligned pc 2 then .fault 2
  else if sramBytes ≤ pc.toNat then .fault 3
  else
    let r := expandC (readWord x.icache pc.toNat)
    if sramBytes < pc.toNat + r.2 then .fault 3 else .ins r.1 r.2

def Fetched.vector : Fetched → Bool
  | .ins (some w) _ => isVector w
  | _ => false

/-- Whether a thread's next instruction is of a kind; one that faults is scalar. -/
def Dev.nextIs (d : Dev) (i t : Fin 64) (vector : Bool) : Bool :=
  ((d.plain i).fetch (d.thread i t).pc).vector == vector

/-- The threads in the order of the search, from the one after the last that issued. -/
def searchOrder (last : Fin 64) : List (Fin 64) :=
  (List.range 64).map (fun k => ⟨(last.val + 1 + k) % 64, Nat.mod_lt _ (by decide)⟩)

/-- The thread that issues next. -/
def Dev.pick (d : Dev) (i : Fin 64) (vector : Bool) : Option (Fin 64) :=
  (searchOrder (if vector then (d.plain i).rrVector else (d.plain i).rrScalar)).find? (fun t =>
    d.ready i t && d.nextIs i t vector)

/-- A thread executes ECALL and ends; its plain's share may end with it (R119). -/
def Dev.endThread (d : Dev) (i t : Fin 64) : Dev :=
  let job := (d.thread i t).job
  (d.stopThread i t).settle i job

def Dev.runScalar (d : Dev) (i t : Fin 64) (w : Word) (len : Nat) : Dev :=
  match (d.thread i t).scalar w len with
  | .done x => d.updThread i t (fun _ => x)
  | .load isF rd a size signed => d.threadLoad i t len isF rd a size signed
  | .store a size val =>
    let d := d.threadStore i t a size val
    if (d.thread i t).live then d.updThread i t (fun x => x.next len) else d
  | .ecall => d.endThread i t
  | .ebreak => d.faultHere i t 4
  | .illegal => d.faultHere i t 1

/-- Stream 2 + t of R105. -/
def threadStream (t : Fin 64) : Fin 66 := ⟨2 + t.val, by omega⟩

/-- One free bit for each element of the largest group, 16 free values (log entry 5). -/
def Dev.agnostic (d : Dev) : (Nat → Bool) × Dev :=
  let n := d.free
  (fun e => (Config.freeValue (n + e / 64)).toNat / 2 ^ (e % 64) % 2 == 1, { d with free := n + 16 })

def Dev.runVector (d : Dev) (i t : Fin 64) (w : Word) : Dev :=
  let x := d.thread i t
  let (ag, d) := d.agnostic
  if bits w 0 7 = 0x57 then
    let p := d.plain i
    let s := threadStream t
    match x.opV w ag (fun k => srDraw p.seed s.val (Tab.at p.ctrs s + BitVec.ofNat 64 k)) with
    | none => d.faultHere i t 1
    | some r =>
      let d := d.updThread i t (fun _ => r.x.next 4)
      let d := d.updPlain i (fun p => { p with ctrs := Tab.upd p.ctrs s (fun c => c + BitVec.ofNat 64 r.drawn) })
      d.noteConv i r.conv
  else match x.vmem w with
    | none => d.faultHere i t 1
    | some m =>
      let load := bits w 0 7 == 0x07
      if load && x.loadsSram m then d.updThread i t (fun x => { x with stall := .vload }) else d.vectorMem i t load m ag

/-- Run the next instruction of a thread. -/
def Dev.runThread (d : Dev) (i t : Fin 64) : Dev :=
  match (d.plain i).fetch (d.thread i t).pc with
  | .fault c => d.faultHere i t c
  | .ins none _ => d.faultHere i t 1
  | .ins (some w) len => if isVector w then d.runVector i t w else d.runScalar i t w len

/-- The SRAM load that a thread waits for returns: a scalar one, or the vector load at its pc. -/
def Dev.loadReturn (d : Dev) (i t : Fin 64) : Dev :=
  if !(d.thread i t).live || ((d.plain i).state != .busy && (d.plain i).state != .idle) then d
  else match (d.thread i t).stall with
  | .load isF rd a size signed =>
    let (d, b, bad) := d.sramRead i a size
    match bad with
    | l :: _ => d.threadPoison i t l
    | [] => d.updThread i t (fun x => { x.loaded isF rd size signed (leNat b) with stall := d.heldIn i t })
  | .vload =>
    match (d.plain i).fetch (d.thread i t).pc with
    | .ins (some w) _ =>
      let (ag, d) := d.agnostic
      match (d.thread i t).vmem w with
      | some m =>
        let d := (d.updThread i t (fun x => { x with stall := .none })).vectorMem i t true m ag
        if (d.thread i t).live then d.updThread i t (fun x => { x with stall := d.heldIn i t }) else d
      | none => d
    | _ => d
  | _ => d

/-- The thread engine issues one instruction of a kind (R118); a parity error in the instruction cache or the register files
fences the plain (R385). -/
def Dev.threadIssue (d : Dev) (i : Fin 64) (vector : Bool) : Dev :=
  match d.pick i vector with
  | none => d
  | some t =>
    if (d.plain i).coreBad then d.fencePlain i 1
    else
      let d := d.updPlain i (fun x => if vector then { x with rrVector := t } else { x with rrScalar := t })
      d.runThread i t

/-- Thread t executes ECALL: it is the thread that issues next and ECALL stands at its pc. -/
def Dev.threadEcall (d : Dev) (i t : Fin 64) : Dev :=
  if d.pick i false = some t && (d.plain i).fetch (d.thread i t).pc == .ins (some 0x00000073) 4 then d.threadIssue i false else d

/-! ### Meanings -/

def execThreadInstruction (i : Fin 64) (vector : Bool) (s : State) : Host.Outcome State Fault Refusal := .next { s with dev := s.dev.threadIssue i vector }
def execEcall (i t : Fin 64) (s : State) : Host.Outcome State Fault Refusal := .next { s with dev := s.dev.threadEcall i t }
def execThreadLoadReturn (i t : Fin 64) (s : State) : Host.Outcome State Fault Refusal := .next { s with dev := s.dev.loadReturn i t }

end Sys2Proof.Machine
end

