-- ==== Sys2Proof/Machine/Dispatch.lean ====
section
/-! DEFINITION. What each command does: one arm per constructor of Instr, each one direct call of its meaning. -/

namespace Sys2Proof.Machine

/-- The effect of a command on everything but the queue of waiting commands. -/
def exec (i : Instr) (s : State) : Host.Outcome State Fault Refusal :=
  match i with
  | .sqTail r val narrow => Sys2Proof.Machine.execSqTail r val narrow s
  | .cqHead r val narrow => Sys2Proof.Machine.execCqHead r val narrow s
  | .admission r => Sys2Proof.Machine.execAdmission r s
  | .commandStart r => Sys2Proof.Machine.execCommandStart r s
  | .completionRecordWrite r => Sys2Proof.Machine.execCompletionRecordWrite r s
  | .loadImage p q => Sys2Proof.Machine.execLoadImage p q s
  | .unloadImage p q => Sys2Proof.Machine.execUnloadImage p q s
  | .run p q => Sys2Proof.Machine.execRun p q s
  | .serveMix p q => Sys2Proof.Machine.execServeMix p q s
  | .sampleJob p q => Sys2Proof.Machine.execSampleJob p q s
  | .encode p q => Sys2Proof.Machine.execEncode p q s
  | .update p q => Sys2Proof.Machine.execUpdate p q s
  | .snapshot p q => Sys2Proof.Machine.execSnapshot p q s
  | .copy r => Sys2Proof.Machine.execCopy r s
  | .nop r => Sys2Proof.Machine.execNop r s
  | .partitionReset w p => Sys2Proof.Machine.execPartitionReset w p s
  | .vfFlr p => Sys2Proof.Machine.execVfFlr p s
  | .partitionResetEnd p => Sys2Proof.Machine.execPartitionResetEnd p s
  | .mapWrite w m k val be => Sys2Proof.Machine.execMapWrite w m k val be s
  | .grantFillDone u => Sys2Proof.Machine.execGrantFillDone u s
  | .acctSnap w => Sys2Proof.Machine.execAcctSnap w s
  | .acctSnapDone => Sys2Proof.Machine.execAcctSnapDone s
  | .ringEnable w r cfg => Sys2Proof.Machine.execRingEnable w r cfg s
  | .ringDisable w r cfg => Sys2Proof.Machine.execRingDisable w r cfg s
  | .jrnEnable w val => Sys2Proof.Machine.execJrnEnable w val s
  | .jrnDisable w val => Sys2Proof.Machine.execJrnDisable w val s
  | .registerWrite ws => Sys2Proof.Machine.execRegisterWrite ws s
  | .atomicPairLowWrite w off val => Sys2Proof.Machine.execAtomicPairLowWrite w off val s
  | .atomicPairHighWrite w off val => Sys2Proof.Machine.execAtomicPairHighWrite w off val s
  | .atomicPairLowRead w off wide => Sys2Proof.Machine.execAtomicPairLowRead w off wide s
  | .hifJrnLostRead a => Sys2Proof.Machine.execHifJrnLostRead a s
  | .prtPDropRead p a => Sys2Proof.Machine.execPrtPDropRead p a s
  | .tilParCntRead pl a => Sys2Proof.Machine.execTilParCntRead pl a s
  | .dleSTmaxRead u a => Sys2Proof.Machine.execDleSTmaxRead u a s
  | .dlePWaitRead p a => Sys2Proof.Machine.execDlePWaitRead p a s
  | .bsnPWaitRead p a => Sys2Proof.Machine.execBsnPWaitRead p a s
  | .glnPRepairRead p a => Sys2Proof.Machine.execGlnPRepairRead p a s
  | .colCReplayRead c a => Sys2Proof.Machine.execColCReplayRead c a s
  | .colCDropRead c a => Sys2Proof.Machine.execColCDropRead c a s
  | .netPortFecCorrRead n a => Sys2Proof.Machine.execNetPortFecCorrRead n a s
  | .netPortFecUncorrRead n a => Sys2Proof.Machine.execNetPortFecUncorrRead n a s
  | .netPortStrangerRead n a => Sys2Proof.Machine.execNetPortStrangerRead n a s
  | .smpPCorruptRead p a => Sys2Proof.Machine.execSmpPCorruptRead p a s
  | .rasEvDropRead src a => Sys2Proof.Machine.execRasEvDropRead src a s
  | .rasEccCntRead a => Sys2Proof.Machine.execRasEccCntRead a s
  | .bar4Read f off len => Sys2Proof.Machine.execBar4Read f off len s
  | .bar4Write f off data ep => Sys2Proof.Machine.execBar4Write f off data ep s
  | .clockStartDone dom => Sys2Proof.Machine.execClockStartDone dom s
  | .cdcTimeout dom v => Sys2Proof.Machine.execCdcTimeout dom v s
  | .tilSrSeedWrite w pl lo hi => Sys2Proof.Machine.execTilSrSeedWrite w pl lo hi s
  | .tilDtWinWrite w pl k val => Sys2Proof.Machine.execTilDtWinWrite w pl k val s
  | .synPCtrAdd w p val => Sys2Proof.Machine.execSynPCtrAdd w p val s
  | .synBarCtrlClear w u => Sys2Proof.Machine.execSynBarCtrlClear w u s
  | .colCRetrain w c => Sys2Proof.Machine.execColCRetrain w c s
  | .colCDisable w c => Sys2Proof.Machine.execColCDisable w c s
  | .colAxArm w a val => Sys2Proof.Machine.execColAxArm w a val s
  | .colPGclrClear w p => Sys2Proof.Machine.execColPGclrClear w p s
  | .netTgtWord0Write w val => Sys2Proof.Machine.execNetTgtWord0Write w val s
  | .medEFail w e => Sys2Proof.Machine.execMedEFail w e s
  | .medEReturn w e => Sys2Proof.Machine.execMedEReturn w e s
  | .medPKeyreq w p val => Sys2Proof.Machine.execMedPKeyreq w p val s
  | .medPShareWrite w p val => Sys2Proof.Machine.execMedPShareWrite w p val s
  | .rasEvEnable w val => Sys2Proof.Machine.execRasEvEnable w val s
  | .rasEvDisable w val => Sys2Proof.Machine.execRasEvDisable w val s
  | .rasFlipGo w => Sys2Proof.Machine.execRasFlipGo w s
  | .flipDone => Sys2Proof.Machine.execFlipDone s
  | .rasPlainFence w pl => Sys2Proof.Machine.execRasPlainFence w pl s
  | .plainFenceRecords p => Sys2Proof.Machine.execPlainFenceRecords p s
  | .plainPortTimeout pl => Sys2Proof.Machine.execPlainPortTimeout pl s
  | .rasPlainReturn w pl => Sys2Proof.Machine.execRasPlainReturn w pl s
  | .plainBistDone pl ok => Sys2Proof.Machine.execPlainBistDone pl ok s
  | .ccxSupFence w => Sys2Proof.Machine.execCcxSupFence w s
  | .hartHeartbeat h => Sys2Proof.Machine.execHartHeartbeat h s
  | .heartbeatTimeout h => Sys2Proof.Machine.execHeartbeatTimeout h s
  | .fenceWaitExpiry => Sys2Proof.Machine.execFenceWaitExpiry s
  | .controlComplexReloadDone ok => Sys2Proof.Machine.execControlComplexReloadDone ok s
  | .pwrRstModule w => Sys2Proof.Machine.execPwrRstModule w s
  | .moduleReset => Sys2Proof.Machine.execModuleReset s
  | .perstAssert => Sys2Proof.Machine.execPerstAssert s
  | .hotReset => Sys2Proof.Machine.execHotReset s
  | .pfFlr => Sys2Proof.Machine.execPfFlr s
  | .standbyPowerOn straps => Sys2Proof.Machine.execStandbyPowerOn straps s
  | .standbyPowerLoss => Sys2Proof.Machine.execStandbyPowerLoss s
  | .pwrPinmuxWrite w val => Sys2Proof.Machine.execPwrPinmuxWrite w val s
  | .pinmuxWindowEnd n => Sys2Proof.Machine.execPinmuxWindowEnd n s
  | .mainSupplyConfirmed => Sys2Proof.Machine.execMainSupplyConfirmed s
  | .firmwareCheckDone ok => Sys2Proof.Machine.execFirmwareCheckDone ok s
  | .memoryFillDone fail => Sys2Proof.Machine.execMemoryFillDone fail s
  | .hartRelease => Sys2Proof.Machine.execHartRelease s
  | .tableReady => Sys2Proof.Machine.execTableReady s
  | .linkTrained => Sys2Proof.Machine.execLinkTrained s
  | .threadInstruction pl vector => Sys2Proof.Machine.execThreadInstruction pl vector s
  | .ecall pl t => Sys2Proof.Machine.execEcall pl t s
  | .threadLoadReturn pl t => Sys2Proof.Machine.execThreadLoadReturn pl t s
  | .synAdd pl t val => Sys2Proof.Machine.execSynAdd pl t val s
  | .synWait pl t val => Sys2Proof.Machine.execSynWait pl t val s
  | .readSel pl t val => Sys2Proof.Machine.execReadSel pl t val s
  | .synRead pl t rd => Sys2Proof.Machine.execSynRead pl t rd s
  | .remoteCol pl t val => Sys2Proof.Machine.execRemoteCol pl t val s
  | .remoteAdd pl t val => Sys2Proof.Machine.execRemoteAdd pl t val s
  | .barArrive pl t val => Sys2Proof.Machine.execBarArrive pl t val s
  | .barSync pl t val => Sys2Proof.Machine.execBarSync pl t val s
  | .dmaCopy pl t req => Sys2Proof.Machine.execDmaCopy pl t req s
  | .kvAppend pl t req => Sys2Proof.Machine.execKvAppend pl t req s
  | .pageLoad pl t req => Sys2Proof.Machine.execPageLoad pl t req s
  | .halo pl t req => Sys2Proof.Machine.execHalo pl t req s
  | .expand pl t req => Sys2Proof.Machine.execExpand pl t req s
  | .gather pl t req => Sys2Proof.Machine.execGather pl t req s
  | .dmaRequestStart pl id => Sys2Proof.Machine.execDmaRequestStart pl id s
  | .kvCommit pl id => Sys2Proof.Machine.execKvCommit pl id s
  | .dmaRequestDone pl id => Sys2Proof.Machine.execDmaRequestDone pl id s
  | .descriptorStart pl idle => Sys2Proof.Machine.execDescriptorStart pl idle s
  | .sequencerStep pl => Sys2Proof.Machine.execSequencerStep pl s
  | .tileDrainDone pl half => Sys2Proof.Machine.execTileDrainDone pl half s
  | .descriptorComplete pl => Sys2Proof.Machine.execDescriptorComplete pl s
  | .plainClockStop pl idle => Sys2Proof.Machine.execPlainClockStop pl idle s
  | .plainWakeDone pl => Sys2Proof.Machine.execPlainWakeDone pl s
  | .counterAddApply p ctr => Sys2Proof.Machine.execCounterAddApply p ctr s
  | .counterWaitRelease who => Sys2Proof.Machine.execCounterWaitRelease who s
  | .counterWatchdog who => Sys2Proof.Machine.execCounterWatchdog who s
  | .barrierArrival pl t => Sys2Proof.Machine.execBarrierArrival pl t s
  | .barrierComplete u => Sys2Proof.Machine.execBarrierComplete u s
  | .barrierWatchdog u => Sys2Proof.Machine.execBarrierWatchdog u s
  | .remoteAddReceive c val => Sys2Proof.Machine.execRemoteAddReceive c val s
  | .groupMessageReceive c m => Sys2Proof.Machine.execGroupMessageReceive c m s
  | .groupAbortReceive c group cause => Sys2Proof.Machine.execGroupAbortReceive c group cause s
  | .regulatorPass p tier cycles => Sys2Proof.Machine.execRegulatorPass p tier cycles s
  | .demandRead addr => Sys2Proof.Machine.execDemandRead addr s
  | .readModifyWrite addr data => Sys2Proof.Machine.execReadModifyWrite addr data s
  | .scrubRead u => Sys2Proof.Machine.execScrubRead u s
  | .daleTempReadout u temp cycles => Sys2Proof.Machine.execDaleTempReadout u temp cycles s
  | .basinModeRead c mr4 atLimit => Sys2Proof.Machine.execBasinModeRead c mr4 atLimit s
  | .glenChunkDone c => Sys2Proof.Machine.execGlenChunkDone c s
  | .shardPhaseAdvance p shard => Sys2Proof.Machine.execShardPhaseAdvance p shard s
  | .snapshotChunkRead p q => Sys2Proof.Machine.execSnapshotChunkRead p q s
  | .snapshotWriteTimeout p q => Sys2Proof.Machine.execSnapshotWriteTimeout p q s
  | .colFlitReceive c f => Sys2Proof.Machine.execColFlitReceive c f s
  | .colReplay c acked => Sys2Proof.Machine.execColReplay c acked s
  | .colFastRetrain c => Sys2Proof.Machine.execColFastRetrain c s
  | .colRetrainDone c ok => Sys2Proof.Machine.execColRetrainDone c ok s
  | .colLaneLoss c lanes => Sys2Proof.Machine.execColLaneLoss c lanes s
  | .colReady c => Sys2Proof.Machine.execColReady c s
  | .collectiveArrivalSend p q => Sys2Proof.Machine.execCollectiveArrivalSend p q s
  | .collectiveStart p q => Sys2Proof.Machine.execCollectiveStart p q s
  | .collectiveOpStart p q => Sys2Proof.Machine.execCollectiveOpStart p q s
  | .collectiveDataReceive c p q m => Sys2Proof.Machine.execCollectiveDataReceive c p q m s
  | .collectiveOpDone p q => Sys2Proof.Machine.execCollectiveOpDone p q s
  | .gatherForward c m => Sys2Proof.Machine.execGatherForward c m s
  | .gatherServe c m => Sys2Proof.Machine.execGatherServe c m s
  | .gatherDataReceive m => Sys2Proof.Machine.execGatherDataReceive m s
  | .remoteRegisterWrite c off val be => Sys2Proof.Machine.execRemoteRegisterWrite c off val be s
  | .snapshotTreeForward c p addr bytes => Sys2Proof.Machine.execSnapshotTreeForward c p addr bytes s
  | .ethFrameReceive n f => Sys2Proof.Machine.execEthFrameReceive n f s
  | .rxBufferRelease n prio bytes => Sys2Proof.Machine.execRxBufferRelease n prio bytes s
  | .pfcFrameReceive n enable quanta => Sys2Proof.Machine.execPfcFrameReceive n enable quanta s
  | .roceReadResponse tgt psn offset data ce => Sys2Proof.Machine.execRoceReadResponse tgt psn offset data ce s
  | .roceAckReceive tgt psn => Sys2Proof.Machine.execRoceAckReceive tgt psn s
  | .roceNakReceive tgt psn => Sys2Proof.Machine.execRoceNakReceive tgt psn s
  | .cnpReceive tgt => Sys2Proof.Machine.execCnpReceive tgt s
  | .roceAckTimeout tgt => Sys2Proof.Machine.execRoceAckTimeout tgt s
  | .rateIncrease tgt => Sys2Proof.Machine.execRateIncrease tgt s
  | .sampleReadDone p q k => Sys2Proof.Machine.execSampleReadDone p q k s
  | .sampleReadTimeout p q => Sys2Proof.Machine.execSampleReadTimeout p q s
  | .sampleDecodeDone p q k => Sys2Proof.Machine.execSampleDecodeDone p q k s
  | .sampleJobClose p q => Sys2Proof.Machine.execSampleJobClose p q s
  | .mediaEngineFail e => Sys2Proof.Machine.execMediaEngineFail e s
  | .mediaPictureTimeout e => Sys2Proof.Machine.execMediaPictureTimeout e s
  | .mediaBistDone e ok => Sys2Proof.Machine.execMediaBistDone e ok s
  | .encodeFrameDone p q => Sys2Proof.Machine.execEncodeFrameDone p q s
  | .eventRecordCommit => Sys2Proof.Machine.execEventRecordCommit s
  | .supplySample v10 => Sys2Proof.Machine.execSupplySample v10 s
  | .dieHeatStep d temp => Sys2Proof.Machine.execDieHeatStep d temp s
  | .designPowerStep watts => Sys2Proof.Machine.execDesignPowerStep watts s
  | .throttleNInput level => Sys2Proof.Machine.execThrottleNInput level s
  | .leakDetect => Sys2Proof.Machine.execLeakDetect s
  | .ppsEdge => Sys2Proof.Machine.execPpsEdge s
  | .flowPulse => Sys2Proof.Machine.execFlowPulse s
  | .flowWindowEnd => Sys2Proof.Machine.execFlowWindowEnd s
  | .pllPowerDown dom => Sys2Proof.Machine.execPllPowerDown dom s
  | .smbReadIdentity pecOk => Sys2Proof.Machine.execSmbReadIdentity pecOk s
  | .smbReadStatus pecOk => Sys2Proof.Machine.execSmbReadStatus pecOk s
  | .smbReadTemperatures pecOk => Sys2Proof.Machine.execSmbReadTemperatures pecOk s
  | .smbReadSupply pecOk => Sys2Proof.Machine.execSmbReadSupply pecOk s
  | .smbReset val pecOk => Sys2Proof.Machine.execSmbReset val pecOk s
  | .smbAlertResponse => Sys2Proof.Machine.execSmbAlertResponse s
  | .bypass => Sys2Proof.Machine.execBypass s
  | .idcode => Sys2Proof.Machine.execIdcode s
  | .samplePreload => Sys2Proof.Machine.execSamplePreload s
  | .extest => Sys2Proof.Machine.execExtest s
  | .extestPulse => Sys2Proof.Machine.execExtestPulse s
  | .extestTrain => Sys2Proof.Machine.execExtestTrain s
  | .dbgRead sram off => Sys2Proof.Machine.execDbgRead sram off s
  | .meterSample mv ma => Sys2Proof.Machine.execMeterSample mv ma s
  | .meterIntervalEnd => Sys2Proof.Machine.execMeterIntervalEnd s
  | .activityFrame => Sys2Proof.Machine.execActivityFrame s
  | .activityFrameTimeout => Sys2Proof.Machine.execActivityFrameTimeout s
  | .meterLogWriteDone => Sys2Proof.Machine.execMeterLogWriteDone s
  | .meterStatus => Sys2Proof.Machine.execMeterStatus s
  | .meterRead seq count => Sys2Proof.Machine.execMeterRead seq count s
  | .readAudit => Sys2Proof.Machine.execReadAudit s
  | .calWrite param val => Sys2Proof.Machine.execCalWrite param val s
  | .perstDeassert => Sys2Proof.Machine.execPerstDeassert s
  | .netPortLinkChange n link fecLock => Sys2Proof.Machine.execNetPortLinkChange n link fecLock s
  | .leakClear => Sys2Proof.Machine.execLeakClear s
  | .domainClockGate dom => Sys2Proof.Machine.execDomainClockGate dom s
  | .pfcPauseExpiry n prio => Sys2Proof.Machine.execPfcPauseExpiry n prio s
  | .calEnChange shorted => Sys2Proof.Machine.execCalEnChange shorted s

end Sys2Proof.Machine
end

