-- ==== Sys2Proof/Safety.lean ====
section
/-! DEFINITION. The terms that claims use: a step that goes on, a command that completes with an effect, a queue of well-formed
commands, and storage in its canonical form. -/

namespace Sys2Proof.Machine

open Sys2Proof

/-- A step that goes on. -/
def Goes (s : State) : Prop := ∃ t, step s = .next t

/-- The command `c` completes at `s`: it answers a next state, leaves the queue alone, and the KT9 is then as `post` says. -/
def Completes (c : Instr) (s : State) (post : Dev → Prop) : Prop :=
  ∃ t, exec c s = .next t ∧ t.pending = s.pending ∧ post t.dev

/-- Every command that waits is one that an agent can send. -/
def QueueWf (s : State) : Prop := ∀ c ∈ s.pending, c.wf = true

/-- A plain's SRAM, its parity and its descriptor table are in their canonical forms. -/
def Plain.storageWf (x : Plain) : Prop := x.sram.wf = true ∧ Sparse.wf 0 x.parity = true ∧ Sparse.wf 0 x.table = true

/-- Device memory, its check bits, the host's memory and what every plain stores are in their canonical forms. -/
def Dev.storageWf (d : Dev) : Prop :=
  d.mem.wf = true ∧ Sparse.wf 0 d.ecc = true ∧ d.hostMem.wf = true ∧ ∀ i, (d.plain i).storageWf

/-- Nothing is stored: device memory, its check bits and the host's memory are what they were. -/
def Dev.sameMemory (d e : Dev) : Prop := e.mem = d.mem ∧ e.ecc = d.ecc ∧ e.hostMem = d.hostMem

/-- What a COPY leaves in memory: its destination reads the bytes that its source held, and no other byte changed (R374, R435). -/
def Dev.copied (d : Dev) (c : Cmd) (e : Dev) : Prop :=
  let src := readBytes (if (CopyCmd.src c).1 then d.hostMem else d.mem) (CopyCmd.src c).2 (CopyCmd.len c)
  let a := (CopyCmd.dst c).2
  if (CopyCmd.dst c).1 then
    readBytes e.hostMem a (CopyCmd.len c) = src ∧
      (∀ k, ¬ (a ≤ k ∧ k < a + CopyCmd.len c) → readByte e.hostMem k = readByte d.hostMem k) ∧ e.mem = d.mem
  else
    readBytes e.mem a (CopyCmd.len c) = src ∧
      (∀ k, ¬ (a ≤ k ∧ k < a + CopyCmd.len c) → readByte e.mem k = readByte d.mem k) ∧ e.hostMem = d.hostMem

/-- The register that a read of an RC register begins with, and the access (R9, R46). -/
def rcRead : Instr → Option (Reg × ReadAcc)
  | .hifJrnLostRead a => some (.jrnLost, a)
  | .prtPDropRead p a => some (.pDrop p, a)
  | .tilParCntRead i a => some (.til i .parCnt, a)
  | .dleSTmaxRead k a => some (.sTmax k, a)
  | .dlePWaitRead p a => some (.dle p .wait, a)
  | .bsnPWaitRead p a => some (.bsn p .wait, a)
  | .glnPRepairRead p a => some (.gln p .repair, a)
  | .colCReplayRead c a => some (.cReplay c, a)
  | .colCDropRead c a => some (.cDrop c, a)
  | .netPortFecCorrRead n a => some (.fecCorr n, a)
  | .netPortFecUncorrRead n a => some (.fecUncorr n, a)
  | .netPortStrangerRead n a => some (.stranger n, a)
  | .smpPCorruptRead p a => some (.corrupt p, a)
  | .rasEvDropRead k a => some (.evDrop k, a)
  | .rasEccCntRead a => some (.eccCnt, a)
  | _ => none

/-- A command that reads or writes one register, other than the flip's GO. -/
def oneRegister : Instr → Bool
  | .hifJrnLostRead _ | .prtPDropRead _ _ | .tilParCntRead _ _ | .dleSTmaxRead _ _ | .dlePWaitRead _ _ | .bsnPWaitRead _ _
  | .glnPRepairRead _ _ | .colCReplayRead _ _ | .colCDropRead _ _ | .netPortFecCorrRead _ _ | .netPortFecUncorrRead _ _
  | .netPortStrangerRead _ _ | .smpPCorruptRead _ _ | .rasEvDropRead _ _ | .rasEccCntRead _ | .partitionReset _ _ | .acctSnap _
  | .ringEnable _ _ _ | .ringDisable _ _ _ | .jrnEnable _ _ | .jrnDisable _ _ | .tilDtWinWrite _ _ _ _ | .tilSrSeedWrite _ _ _ _
  | .synPCtrAdd _ _ _ | .synBarCtrlClear _ _ | .colCRetrain _ _ | .colCDisable _ _ | .colAxArm _ _ _ | .colPGclrClear _ _
  | .netTgtWord0Write _ _ | .medEFail _ _ | .medEReturn _ _ | .medPKeyreq _ _ _ | .medPShareWrite _ _ _ | .rasEvEnable _ _
  | .rasEvDisable _ _ | .rasPlainFence _ _ | .rasPlainReturn _ _ | .ccxSupFence _ | .pwrRstModule _ | .pwrPinmuxWrite _ _
  | .mapWrite _ _ _ _ _ | .atomicPairLowRead _ _ _ => true
  | _ => false

end Sys2Proof.Machine
end

