-- ==== Sys2Proof/Certificates/Slice0/Obligations.lean ====
section
/-! DEFINITION. The statements for the provers. `Completes c s post` (Safety.lean): the command `c` answers a next state at `s`,
leaves the queue of waiting commands alone, and leaves the KT9 as `post` says. -/

open Sys2Proof Sys2Proof.Machine

/-! ### The block (the model's own step) -/

/-- A step with the command `c` at the front of the queue is `c`'s meaning on the rest of the queue. The model's choices it
rests on: log entry 1. -/
def Obligations.StepRunsTheFrontCommand : Prop :=
  ∀ (c : Instr) (rest : List Instr) (s : State), s.pending = c :: rest →
    step s = exec c { s with pending := rest }

/-- With no command waiting, one always-on tick passes while standby power is up, and nothing else changes (log entry 2: the
model's choice). The model's choices it rests on: log entry 2. -/
def Obligations.IdleStepTicks : Prop :=
  ∀ s : State, s.pending = [] →
    ∃ t, step s = .next t ∧ t.pending = [] ∧
      t.dev.pwr.aon = (if s.dev.pwr.standby then s.dev.pwr.aon + 1 else s.dev.pwr.aon) ∧
      { t.dev with pwr := { t.dev.pwr with aon := s.dev.pwr.aon } } = s.dev

/-- No command is refused and none faults, whatever state the KT9 is in: every one answers a next state, and leaves the queue of
waiting commands alone. The model's choices it rests on: log entries 43, 44. -/
def Obligations.EveryCommandGoesOn : Prop :=
  ∀ (c : Instr) (s : State), ∃ t, exec c s = .next t ∧ t.pending = s.pending

/-- Headline: from any state of the KT9 every run goes on: after `k` steps there is a next state, never a fault or a refusal; the
queue has lost its first `k` commands and gained none, so what still waits is well formed if it was. The model's choices it rests
on: log entries 1, 2, 43. -/
def Obligations.EveryRunGoesOn : Prop :=
  ∀ (k : Nat) (s : State),
    ∃ t, Sys2Proof.core.run k s = .next t ∧ t.pending = s.pending.drop k ∧ (QueueWf s → QueueWf t)

/-- Every step keeps all storage in its canonical form: device memory, its check bits, host memory, and every plain's SRAM,
parity and descriptor table. The model's choices it rests on: log entries 10, 21. -/
def Obligations.StepKeepsStorageCanonical : Prop :=
  ∀ s t : State, s.dev.storageWf → step s = .next t → t.dev.storageWf

/-- At reset no command waits and all storage is in its canonical form. Every register reads at reset what its reset column
says: a table of the columns that are not 0, by register. The model's choices it rests on: log entries 3, 4. -/
def Obligations.StateAtReset : Prop :=
  (QueueWf State.reset ∧ State.reset.dev.storageWf) ∧
  ((∀ r : RingId, State.reset.dev.readReg (.ring r 4) = 0x600) ∧
   (∀ (p : Fin 64),
     State.reset.dev.readReg (.pState p) = 0 ∧ State.reset.dev.readReg (.quota p) = 0 ∧
     State.reset.dev.readReg (.syn p .wdog) = 0x0249F000 ∧ State.reset.dev.readReg (.dleCfg p) = 0x00040000 ∧
     State.reset.dev.readReg (.bsnCfg p) = 0x00040000 ∧ State.reset.dev.readReg (.dle p .tokens) = 4096 ∧
     State.reset.dev.readReg (.bsn p .tokens) = 4096 ∧ State.reset.dev.readReg (.share p) = 0) ∧
   (∀ i : Fin 64,
     State.reset.dev.readReg (.til i .state) = 0x01FFFF01 ∧ State.reset.dev.readReg (.til i .ctrl) = 0x00010001 ∧
     State.reset.dev.readReg (.til i .seqStat) = 0x0003FFFF ∧ State.reset.dev.readReg (.til i .seqRange) = 0x01FF01FF ∧
     State.reset.dev.readReg (.til i .dtCfg) = 0x100 ∧ State.reset.dev.readReg (.til i .runLo) = 0) ∧
   (∀ b : Fin 32, State.reset.dev.readReg (.bar b .cfg) = 1 ∧ State.reset.dev.readReg (.bar b .wdog) = 0x0249F000) ∧
   (∀ k : Fin 12, State.reset.dev.readReg (.sStat k) = 0x0000C800) ∧
   (∀ c : Fin 24, State.reset.dev.readReg (.gStat c) = 0x0000FF00) ∧
   (∀ (a : Fin 4) (b : Fin 2), State.reset.dev.readReg (.axMode a b) = 0xFF00 ∧ State.reset.dev.readReg (.axLen a b) = 1) ∧
   (∀ e : Fin 4, State.reset.dev.readReg (.eStat e) = 1) ∧
   State.reset.dev.readReg .jrnCfg = 0x60 ∧ State.reset.dev.readReg .evCfg = 0x60 ∧
   State.reset.dev.readReg .thrCfg = 0x50695F55 ∧ State.reset.dev.readReg .glnStore = 65536 ∧
   State.reset.dev.readReg .flipCfg = 0x00010000 ∧ State.reset.dev.readReg .supCfg = 192000 ∧
   State.reset.dev.readReg (.scrubCfg 0) = 0x00010001 ∧ State.reset.dev.readReg (.scrubCfg 1) = 0x00004001 ∧
   State.reset.dev.readReg (.scrubCfg 2) = 0x00004001)

/-! ### Register accesses (R9, R40 to R56, R432) -/

/-- R46: a read of an RC register, of 1, 2 or 4 bytes at a naturally aligned offset, by a reader whose space holds it, returns the
field, in the byte lanes of the access, and leaves the whole field 0; nothing else of the KT9 changes but the clock that the access
wants (R41) and, where one is owed to the plain, its fill (R61). (The other readers and the longer reads: O9.) -/
def Obligations.ReadClearRegistersReturnTheirCountAndClear : Prop :=
  ∀ (s : State) (a : ReadAcc), (∀ n, a.size ≠ .wide n) → readUnaligned a.lane.val a.size = false →
    s.dev.reachable a.reader = true →
    let keep : Dev → Prop := fun d => s.dev.sameMemory d ∧ d.plainMap = s.dev.plainMap ∧ d.bars = s.dev.bars ∧
      d.waits = s.dev.waits ∧ d.targets = s.dev.targets ∧ d.axes = s.dev.axes ∧ d.ccx = s.dev.ccx ∧
      d.pwr = { s.dev.pwr with doms := d.pwr.doms } ∧
      d.mtr = s.dev.mtr ∧ d.hif.rings = s.dev.hif.rings ∧ d.hif.jSeq = s.dev.hif.jSeq ∧ d.ras.staging = s.dev.ras.staging
    (s.dev.owns a.reader .jrnLost = true → Completes (.hifJrnLostRead a) s (fun d =>
      d.out.replies = .words [readLanes s.dev.hif.jLostCnt a] :: s.dev.out.replies ∧ d.hif.jLostCnt = 0 ∧
      d.parts = s.dev.parts ∧ d.plains = s.dev.plains ∧ keep d)) ∧
    (∀ p, s.dev.owns a.reader (.pDrop p) = true → Completes (.prtPDropRead p a) s (fun d =>
      d.out.replies = .words [readLanes (s.dev.part p).drop a] :: s.dev.out.replies ∧ (d.part p).drop = 0 ∧
      (∀ q, q ≠ p → d.part q = s.dev.part q) ∧ d.plains = s.dev.plains ∧ keep d)) ∧
    (∀ i, s.dev.owns a.reader (.til i .parCnt) = true → Completes (.tilParCntRead i a) s (fun d =>
      d.out.replies = .words [readLanes ((s.dev.plain i).parCnt.setWidth 32) a] :: s.dev.out.replies ∧
      (d.plain i).parCnt = 0 ∧ (∀ j, j ≠ i → d.plain j = s.dev.plain j) ∧
      (s.dev.owed (.plain i) = false → d.parts = s.dev.parts) ∧ keep d)) ∧
    (∀ k, s.dev.owns a.reader (.sTmax k) = true → Completes (.dleSTmaxRead k a) s (fun d =>
      d.out.replies = .words [readLanes ((Tab.at s.dev.daleStacks k).tmax.setWidth 32) a] :: s.dev.out.replies ∧
      (Tab.at d.daleStacks k).tmax = 0 ∧ (∀ j, j ≠ k → Tab.at d.daleStacks j = Tab.at s.dev.daleStacks j) ∧ keep d)) ∧
    (∀ p, s.dev.owns a.reader (.dle p .wait) = true → Completes (.dlePWaitRead p a) s (fun d =>
      d.out.replies = .words [readLanes (s.dev.part p).dale.wait a] :: s.dev.out.replies ∧ (d.part p).dale.wait = 0 ∧
      (d.part p).dale.tokens = (s.dev.part p).dale.tokens ∧ (∀ q, q ≠ p → d.part q = s.dev.part q) ∧ keep d)) ∧
    (∀ p, s.dev.owns a.reader (.bsn p .wait) = true → Completes (.bsnPWaitRead p a) s (fun d =>
      d.out.replies = .words [readLanes (s.dev.part p).basin.wait a] :: s.dev.out.replies ∧ (d.part p).basin.wait = 0 ∧
      (d.part p).basin.tokens = (s.dev.part p).basin.tokens ∧ (∀ q, q ≠ p → d.part q = s.dev.part q) ∧ keep d)) ∧
    (∀ p, s.dev.owns a.reader (.gln p .repair) = true → Completes (.glnPRepairRead p a) s (fun d =>
      d.out.replies = .words [readLanes (s.dev.part p).repair a] :: s.dev.out.replies ∧ (d.part p).repair = 0 ∧
      (∀ q, q ≠ p → d.part q = s.dev.part q) ∧ keep d)) ∧
    (∀ c, s.dev.owns a.reader (.cReplay c) = true → Completes (.colCReplayRead c a) s (fun d =>
      d.out.replies = .words [readLanes (Tab.at s.dev.cols c).replays a] :: s.dev.out.replies ∧
      (Tab.at d.cols c).replays = 0 ∧ (∀ k, k ≠ c → d.col k = s.dev.col k) ∧ keep d)) ∧
    (∀ c, s.dev.owns a.reader (.cDrop c) = true → Completes (.colCDropRead c a) s (fun d =>
      d.out.replies = .words [readLanes (Tab.at s.dev.cols c).drops a] :: s.dev.out.replies ∧
      (Tab.at d.cols c).drops = 0 ∧ (∀ k, k ≠ c → d.col k = s.dev.col k) ∧ keep d)) ∧
    (∀ n, s.dev.owns a.reader (.fecCorr n) = true → Completes (.netPortFecCorrRead n a) s (fun d =>
      d.out.replies = .words [readLanes (Tab.at s.dev.ports n).fecCorr a] :: s.dev.out.replies ∧
      (Tab.at d.ports n).fecCorr = 0 ∧ (∀ k, k ≠ n → d.port k = s.dev.port k) ∧ keep d)) ∧
    (∀ n, s.dev.owns a.reader (.fecUncorr n) = true → Completes (.netPortFecUncorrRead n a) s (fun d =>
      d.out.replies = .words [readLanes (Tab.at s.dev.ports n).fecUncorr a] :: s.dev.out.replies ∧
      (Tab.at d.ports n).fecUncorr = 0 ∧ (∀ k, k ≠ n → d.port k = s.dev.port k) ∧ keep d)) ∧
    (∀ n, s.dev.owns a.reader (.stranger n) = true → Completes (.netPortStrangerRead n a) s (fun d =>
      d.out.replies = .words [readLanes (Tab.at s.dev.ports n).stranger a] :: s.dev.out.replies ∧
      (Tab.at d.ports n).stranger = 0 ∧ (∀ k, k ≠ n → d.port k = s.dev.port k) ∧ keep d)) ∧
    (∀ p, s.dev.owns a.reader (.corrupt p) = true → Completes (.smpPCorruptRead p a) s (fun d =>
      d.out.replies = .words [readLanes (s.dev.part p).corrupt a] :: s.dev.out.replies ∧ (d.part p).corrupt = 0 ∧
      (∀ q, q ≠ p → d.part q = s.dev.part q) ∧ keep d)) ∧
    (∀ k, s.dev.owns a.reader (.evDrop k) = true → Completes (.rasEvDropRead k a) s (fun d =>
      d.out.replies = .words [readLanes ((Tab.at s.dev.ras.drops k).setWidth 32) a] :: s.dev.out.replies ∧
      Tab.at d.ras.drops k = 0 ∧ (∀ j, j ≠ k → Tab.at d.ras.drops j = Tab.at s.dev.ras.drops j) ∧ keep d)) ∧
    (s.dev.owns a.reader .eccCnt = true → Completes (.rasEccCntRead a) s (fun d =>
      d.out.replies = .words [readLanes (BitVec.ofNat 32 (s.dev.ras.eccDale.toNat + 65536 * s.dev.ras.eccBasin.toNat)) a]
        :: s.dev.out.replies ∧ d.ras.eccDale = 0 ∧ d.ras.eccBasin = 0 ∧
      d.ras.drops = s.dev.ras.drops ∧ keep d))

/-- R40: a read of an offset that no entry holds, in the reader's own register space, returns 0x0000_0000 and changes nothing; a
write of one is dropped, and logs an ACCESS_HOLE event with the offset and the writer. -/
def Obligations.HolesReadZeroAndWritesOfThemAreLogged : Prop :=
  ∀ (s : State) (w : Writer) (off : Nat), s.dev.reachable w = true → s.dev.regFor w off = none → off % 4 = 0 →
    (∀ v : Word, Completes (.registerWrite [word32 w off v]) s (fun d =>
      d = s.dev.logAccess Ev.accessHole w off 0xF ∧ d.hif = s.dev.hif ∧ d.parts = s.dev.parts ∧ d.plains = s.dev.plains ∧
      s.dev.sameMemory d)) ∧
    Completes (.atomicPairLowRead w off .b4) s (fun d => d = s.dev.reply (.words [0x00000000]))

/-- An aligned 32-bit write of a register that holds a plain value: PRT_QUOTA keeps its two fields, the journal takes one
sequence number, and every plain, slot, col and byte of device memory stays. The low word of an atomic pair waits, by writer,
for the high word: no register changes and nothing is journalled. The high word then applies both words, and both writes are
journalled. A read of the low word returns it, or its addressed byte, and shadows the high word; an aligned 64-bit read returns
both words as they stand, and leaves no shadow. An unaligned write or read gets an Unsupported Request and an ACCESS_ALIGN event,
and changes no register. A longer read that begins with an RC register clears it; a reader whose space does not hold the register
reads a hole, and one that cannot be heard does nothing. The model's choices it rests on: log entries 15, 46. -/
def Obligations.RegisterWritesAndAtomicPairs : Prop :=
  (∀ (s : State) (w : Writer) (off o : Nat) (p : Fin 64) (v : Word),
     s.dev.reachable w = true → s.dev.regFor w off = some (o, .quota p) → off % 4 = 0 →
     Completes (.registerWrite [word32 w off v]) s (fun d =>
       (d.part p).quota = v &&& 0x00FF0FFF ∧ (∀ q, q ≠ p → d.part q = s.dev.part q) ∧ d.hif.jSeq = s.dev.hif.jSeq + 1 ∧
       d.plains = s.dev.plains ∧ d.bars = s.dev.bars ∧ d.cols = s.dev.cols ∧ d.ras = s.dev.ras ∧ d.mem = s.dev.mem ∧
       d.ecc = s.dev.ecc ∧ d.pwr = s.dev.pwr)) ∧
  ((∀ (s : State) (w : Writer) (off o : Nat) (p : Fin 64) (v : Word),
     s.dev.reachable w = true → s.dev.regFor w off = some (o, .pShortLo p) → off % 4 = 0 →
     Completes (.atomicPairLowWrite w off v) s (fun d =>
       d.hif.stagedLow w o = some v ∧ d.part p = s.dev.part p ∧ d.hif.jSeq = s.dev.hif.jSeq)) ∧
   (∀ (s : State) (w : Writer) (off o : Nat) (p : Fin 64) (lo hi : Word),
     s.dev.reachable w = true → s.dev.regFor w off = some (o, .pShortHi p) → off % 4 = 0 →
     s.dev.hif.stagedLow w (o - 4) = some lo →
     Completes (.atomicPairHighWrite w off hi) s (fun d =>
       (d.part p).shortLo = lo &&& 0xFFFF0000 ∧ (d.part p).shortHi = hi ∧ d.hif.stagedLow w (o - 4) = none ∧
       d.hif.jSeq = s.dev.hif.jSeq + 2)) ∧
   (∀ (s : State) (w : Writer) (off o : Nat) (p : Fin 64),
     s.dev.reachable w = true → s.dev.regFor w off = some (o, .pShortLo p) → off % 4 = 0 →
     s.dev.hif.shadow.find? (fun x => x.1 == w && x.2.1 == o) = none →
     Completes (.atomicPairLowRead w off .b4) s (fun d =>
       d.out.replies = .words [(s.dev.part p).shortLo] :: s.dev.out.replies ∧
       (d.hif.shadow.find? (fun x => x.1 == w && x.2.1 == o + 4)).map (fun x => x.2.2) = some (s.dev.part p).shortHi) ∧
     (∀ k : Fin 4, Completes (.atomicPairLowRead w (off + k.val) .b1) s (fun d =>
       d.out.replies = .words [BitVec.ofNat 32 (bits (s.dev.part p).shortLo (8 * k.val) 8)] :: s.dev.out.replies ∧
       (d.hif.shadow.find? (fun x => x.1 == w && x.2.1 == o + 4)).map (fun x => x.2.2) = some (s.dev.part p).shortHi)) ∧
     (off % 8 = 0 → s.dev.regFor w (off + 4) = some (o + 4, .pShortHi p) →
       Completes (.atomicPairLowRead w off (.wide 2)) s (fun d =>
         d.out.replies = .words [(s.dev.part p).shortLo, (s.dev.part p).shortHi] :: s.dev.out.replies ∧
         d.hif.shadow.find? (fun x => x.1 == w && x.2.1 == o + 4) = none))) ∧
   (∀ (s : State) (b : BusWrite), s.dev.reachable b.writer = true → b.space = .registers → BusWriteUnaligned b = true →
     Completes (.registerWrite [b]) s (fun d =>
       d = (s.dev.logAccess Ev.accessAlign b.writer b.off b.be).reply .unsupported)) ∧
   (∀ (s : State) (w : Writer) (off : Nat) (size : AccSize), s.dev.reachable w = true → readUnaligned off size = true →
     Completes (.atomicPairLowRead w off size) s (fun d =>
       d = (s.dev.logAccess Ev.accessAlign w off 0xF).reply .unsupported))) ∧
  (∀ (c : Instr) (r : Reg) (a : ReadAcc) (s : State), rcRead c = some (r, a) →
    (s.dev.reachable a.reader = false → Completes c s (fun d => d = s.dev)) ∧
    (s.dev.reachable a.reader = true → readUnaligned (r.off + a.lane.val) a.size = true → Completes c s (fun d =>
      d = (s.dev.logAccess Ev.accessAlign a.reader (r.off + a.lane.val) 0xF).reply .unsupported)) ∧
    (s.dev.reachable a.reader = true → readUnaligned (r.off + a.lane.val) a.size = false → s.dev.owns a.reader r = false →
      Completes c s (fun d => d = s.dev.reply (.words (List.replicate (accWords a.size) 0)))) ∧
    (∀ n, a.size = .wide (n + 1) → s.dev.reachable a.reader = true → readUnaligned (r.off + a.lane.val) a.size = false →
      s.dev.owns a.reader r = true → s.dev.hif.shadow.find? (fun x => x.1 == a.reader && x.2.1 == r.off) = none →
      Completes c s (fun d => d.readReg r = 0 ∧
        ∃ vs, vs.length = n ∧ d.out.replies = .words (s.dev.readReg r :: vs) :: s.dev.out.replies)))

/-- A register access stores nothing to device memory, and changes none of its check bits: a read or a write of one register,
but for GO of the flip, whose work is to make an error. The model's choices it rests on: log entry 10. -/
def Obligations.RegisterAccessesKeepDeviceMemory : Prop :=
  (∀ (c : Instr) (s t : State), oneRegister c = true → exec c s = .next t →
    t.dev.mem = s.dev.mem ∧ t.dev.ecc = s.dev.ecc) ∧
  (∀ (s t : State) (w : Writer) (off : Nat) (v : Word), (∀ o, s.dev.regFor w off ≠ some (o, .flipCtrl)) →
    exec (.registerWrite [word32 w off v]) s = .next t →
    t.dev.mem = s.dev.mem ∧ t.dev.ecc = s.dev.ecc)

/-- A ring's EN: enabled from 0, its indices and phase start over; disabled, it keeps its bases and indices. EN of the journal
and of the event ring; an entry that is on its way when EN of the journal is cleared may be abandoned, and then waits at the head
of the staging buffer. The model's choices it rests on: log entries 5, 23. -/
def Obligations.RingsEnableAndDisable : Prop :=
  (∀ (s : State) (w : Writer) (r : RingId) (cfg : Word),
     s.dev.reachable w = true → s.dev.owns w (.ring r 4) = true → s.dev.ccx.sup ≠ .failed →
     (bit cfg 0 = true → (s.dev.ring r).en = false → Completes (.ringEnable w r cfg) s (fun d =>
       (d.ring r).en = true ∧ (d.ring r).sqHead = 0 ∧ (d.ring r).sqTail = 0 ∧ (d.ring r).written = 0 ∧
       (d.ring r).consumed = 0 ∧ (d.ring r).phase = true ∧ (d.ring r).sqBaseLo = (s.dev.ring r).sqBaseLo ∧
       (d.ring r).cmds = (s.dev.ring r).cmds)) ∧
     (bit cfg 0 = false → (s.dev.ring r).en = true → Completes (.ringDisable w r cfg) s (fun d =>
       (d.ring r).en = false ∧ (d.ring r).sqHead = (s.dev.ring r).sqHead ∧ (d.ring r).written = (s.dev.ring r).written ∧
       (d.ring r).phase = (s.dev.ring r).phase ∧ (d.ring r).cqBaseLo = (s.dev.ring r).cqBaseLo ∧
       (d.ring r).cmds = (s.dev.ring r).cmds))) ∧
  (∀ (s : State) (w : Writer) (v : Word), s.dev.reachable w = true →
     (s.dev.owns w .jrnCfg = true → bit v 0 = true → s.dev.hif.jEn = false →
       Completes (.jrnEnable w v) s (fun d => d.hif.jEn = true ∧ d.hif.staging = [])) ∧
     (s.dev.owns w .jrnCfg = true → bit v 0 = false → s.dev.hif.jEn = true →
       Completes (.jrnDisable w v) s (fun d => d.hif.jEn = false ∧
         (d.hif.jProd = s.dev.hif.jProd ∨ ∃ x, s.dev.hif.jLast = some x ∧ d.hif.jProd = x.prod ∧ d.hif.jPhase = x.phase ∧
           d.hif.staging.head? = some x.entry))) ∧
     (s.dev.owns w .evCfg = true → bit v 0 = true → s.dev.ras.en = false →
       Completes (.rasEvEnable w v) s (fun d => d.ras.en = true ∧ d.ras.prod = 0 ∧ d.ras.cons = 0)) ∧
     (s.dev.owns w .evCfg = true → bit v 0 = false → s.dev.ras.en = true →
       Completes (.rasEvDisable w v) s (fun d => d.ras.en = false ∧ d.ras.writing = none ∧
         d.ras.staging = (match s.dev.ras.writing with | some e => [e] | none => []) ++ s.dev.ras.staging)))

/-- A write of one owner byte of a map, where the former owner's partition is not LOADED or RESETTING: the byte holds the new
owner (64 to 0xFE as 0xFF), and the other owners of the map stay. A map write that takes a plain from a LOADED or RESETTING
partition changes no owner, and is journalled as ignored. -/
def Obligations.MapWritesAssignOrAreHeld : Prop :=
  (∀ (s : State) (w : Writer) (k : Fin 16) (j : Fin 4) (v : Word),
     s.dev.reachable w = true → s.dev.owns w (.plainMap k) = true →
     (∀ q, ownerOf (s.dev.plainMap.toList.getD (4 * k.val + j.val) 0xFF) = some q →
       (s.dev.part q).state = .empty ∨ (s.dev.part q).state = .idle) →
     Completes (.mapWrite w .plain ⟨k.val, by omega⟩ v (BitVec.ofNat 4 (2 ^ j.val))) s (fun d =>
       d.plainMap.toList.getD (4 * k.val + j.val) 0xFF = ownerStored (BitVec.ofNat 8 (bits v (8 * j.val) 8)) ∧
       (∀ i : Fin 64, i.val ≠ 4 * k.val + j.val → Tab.at d.plainMap i = Tab.at s.dev.plainMap i) ∧
       d.barMap = s.dev.barMap ∧ d.daleMap = s.dev.daleMap ∧ d.basinMap = s.dev.basinMap)) ∧
  (∀ (s : State) (w : Writer) (k : Fin 16) (j : Fin 4) (v : Word) (q : Fin 64),
     s.dev.reachable w = true → s.dev.owns w (.plainMap k) = true →
     ownerOf (s.dev.plainMap.toList.getD (4 * k.val + j.val) 0xFF) = some q →
     (s.dev.part q).state = .loaded ∨ (s.dev.part q).state = .resetting →
     Completes (.mapWrite w .plain ⟨k.val, by omega⟩ v (BitVec.ofNat 4 (2 ^ j.val))) s (fun d =>
       d.plainMap = s.dev.plainMap ∧ d.parts = s.dev.parts ∧ d.plains = s.dev.plains ∧ d.hif.jSeq = s.dev.hif.jSeq + 1))

/-! ### Registers that are commands, fences and partition resets (R60, R61, R77 to R87, R105, R155, R213, R227, R296 to R299, R307, R334,
R342, R357, R358, R377, R385 to R392) -/

/-- TIL_DT_WIN writes a word of the selected entry while the owner is neither LOADED nor RESETTING; a write of the seed pair
sets the whole seed and zeroes all 66 stream counters while the plain is not BUSY. SYN_P_CTR_ADD sends AMOUNT, negated with SUB,
to the selected counter of the partition, and wakes its home if that is STOPPED; where no counter is selected, or its partition is
RESETTING or its home is FENCED, it adds nothing. CLEAR returns a FAILED slot to IDLE with its generation number kept. -/
def Obligations.PlainAndSynRegisters : Prop :=
  (∀ (s : State) (w : Writer) (i : Fin 64), s.dev.reachable w = true →
     (∀ (k : Fin 64) (v : Word), s.dev.owns w (.til i (.dtWin k)) = true →
       (∀ o, s.dev.plainOwner i = some o → s.dev.locked o = false) → Sparse.wf 0 (s.dev.plain i).table = true →
       Completes (.tilDtWinWrite w i k v) s (fun d =>
         Sparse.get 0 (d.plain i).table (64 * (s.dev.plain i).dtSel.toNat + k.val) = v ∧
         (d.plain i).threads = (s.dev.plain i).threads ∧
         (s.dev.owed (.plain i) = false → (d.plain i).sram = (s.dev.plain i).sram ∧
           ∀ a, a ≠ 64 * (s.dev.plain i).dtSel.toNat + k.val →
             Sparse.get 0 (d.plain i).table a = Sparse.get 0 (s.dev.plain i).table a))) ∧
     (∀ lo hi : Word, s.dev.owns w (.til i .seedLo) = true → (s.dev.plain i).state ≠ .busy →
       Completes (.tilSrSeedWrite w i lo hi) s (fun d =>
         (d.plain i).seed = dword lo hi ∧ (d.plain i).ctrs = Tab.all 66 0 ∧ (d.plain i).threads = (s.dev.plain i).threads ∧
         (s.dev.owed (.plain i) = false → (d.plain i).sram = (s.dev.plain i).sram ∧
           (d.plain i).table = (s.dev.plain i).table)))) ∧
  ((∀ (s : State) (w : Writer) (p : Fin 64) (v : Word) (c : Counter),
     s.dev.reachable w = true → s.dev.owns w (.syn p .ctrAdd) = true → (s.dev.part p).counter (s.dev.part p).ctrSel = some c →
     (s.dev.part p).state ≠ .resetting → (s.dev.plain c.home).state ≠ .fenced →
     Completes (.synPCtrAdd w p v) s (fun d =>
       (d.part p).counter (s.dev.part p).ctrSel =
         some { c with adds := c.adds ++
           [{ plain := none, thread := none, amt := if bit v 16 then - (bits v 0 16 : Int) else (bits v 0 16 : Int) }] } ∧
       ((s.dev.plain c.home).state = .stopped → (d.plain c.home).state = .waking) ∧
       (∀ q, q ≠ p → d.part q = s.dev.part q))) ∧
   (∀ (s : State) (w : Writer) (p : Fin 64) (v : Word),
     s.dev.reachable w = true → s.dev.owns w (.syn p .ctrAdd) = true →
     (∀ c, (s.dev.part p).counter (s.dev.part p).ctrSel = some c →
       (s.dev.part p).state = .resetting ∨ (s.dev.plain c.home).state = .fenced) →
     Completes (.synPCtrAdd w p v) s (fun d => d.parts = s.dev.parts ∧ d.plains = s.dev.plains)) ∧
   (∀ (s : State) (w : Writer) (b : Fin 32),
     s.dev.reachable w = true → s.dev.owns w (.bar b .ctrl) = true → (Tab.at s.dev.bars b).state = .failed →
     Completes (.synBarCtrlClear w b) s (fun d =>
       (Tab.at d.bars b).state = .idle ∧ (Tab.at d.bars b).gen = (Tab.at s.dev.bars b).gen ∧
       (Tab.at d.bars b).counts = Tab.all 64 0 ∧ (Tab.at d.bars b).stalled = [] ∧
       (∀ k, k ≠ b → Tab.at d.bars k = Tab.at s.dev.bars k))))

/-- COL_C_CTRL: RETRAIN trains the col again; DISABLE takes a col that no active bank names DOWN. COL_AX_CTRL arms the switch of
an axis with its slot, and CLEAR of COL_P_GCLR forgets the partition's aborted groups. The model's choices it rests on: log
entry 32. -/
def Obligations.ColRegisterCommands : Prop :=
  ∀ (s : State) (w : Writer), s.dev.reachable w = true →
    (∀ c : Fin 16, s.dev.owns w (.cCtrl c) = true → (s.dev.col c).disable = false →
      Completes (.colCRetrain w c) s (fun d =>
        (d.col c).state = .training ∧ (d.col c).disable = false ∧ ∀ k, k ≠ c → d.col k = s.dev.col k)) ∧
    (∀ c : Fin 16, s.dev.owns w (.cCtrl c) = true → (s.dev.col c).disable = false → s.dev.named c = false →
      (s.dev.col c).state ≠ .down →
      Completes (.colCDisable w c) s (fun d =>
        (d.col c).disable = true ∧ (d.col c).state = .down ∧ (d.col c).unacked = [] ∧
        ∀ k, k ≠ c → d.col k = s.dev.col k)) ∧
    (∀ (a : Fin 4) (v : Word), s.dev.owns w (.axCtrl a) = true →
      Completes (.colAxArm w a v) s (fun d =>
        (d.axis a).arm = bit v 1 ∧ (d.axis a).slot.val = bits v 2 5 ∧ (d.axis a).active = (s.dev.axis a).active ∧
        (d.axis a).banks = (s.dev.axis a).banks)) ∧
    (∀ p : Fin 64, s.dev.owns w (.pGclr p) = true →
      Completes (.colPGclrClear w p) s (fun d =>
        (d.part p).aborted = [] ∧ (d.part p).abort = (s.dev.part p).abort ∧ ∀ q, q ≠ p → d.part q = s.dev.part q))

/-- Word 0 of a target entry opens its queue pair (VALID 1: RTS, at 50 GB/s, with no retry counted) or closes it (RESET). The
media registers: FAIL takes a working engine out, RETURN starts the self test of a failed one, and the test's end makes it READY
or FAILED again; KEYREQ sets bits; a share within 12,000 and 3,000 Mpixel/s is stored. The model's choices it rests on: log
entries 34, 35. -/
def Obligations.TargetAndMediaRegisters : Prop :=
  (∀ (s : State) (w : Writer) (v : Word) (t : Fin 256), s.dev.reachable w = true → s.dev.owns w (.tgtWin 0) = true →
     s.dev.tgtSel.toNat = t.val →
     Completes (.netTgtWord0Write w v) s (fun d =>
       if bit v 0 then (Tab.at d.targets t).qp = .rts ∧ (Tab.at d.targets t).rate = 50 ∧ (Tab.at d.targets t).retries = 0
       else (Tab.at d.targets t).qp = .reset)) ∧
  ((∀ (s : State) (w : Writer) (e : Fin 4), s.dev.reachable w = true → s.dev.owns w (.eCtrl e) = true →
     ((Tab.at s.dev.engines e).works = true → Completes (.medEFail w e) s (fun d => (Tab.at d.engines e).state = .failed)) ∧
     ((Tab.at s.dev.engines e).state = .failed → Completes (.medEReturn w e) s (fun d =>
       (Tab.at d.engines e).state = .bist ∧ ∀ k, k ≠ e → Tab.at d.engines k = Tab.at s.dev.engines k))) ∧
   (∀ (s : State) (e : Fin 4), (Tab.at s.dev.engines e).works = true →
     Completes (.mediaEngineFail e) s (fun d => (Tab.at d.engines e).state = .failed) ∧
     Completes (.mediaPictureTimeout e) s (fun d => (Tab.at d.engines e).state = .failed)) ∧
   (∀ (s : State) (e : Fin 4) (ok : Bool), (Tab.at s.dev.engines e).state = .bist →
     Completes (.mediaBistDone e ok) s (fun d => (Tab.at d.engines e).state = if ok then .ready else .failed)) ∧
   (∀ (s : State) (w : Writer) (p : Fin 64) (v : Word), s.dev.reachable w = true →
     (s.dev.owns w (.keyReq p) = true → Completes (.medPKeyreq w p v) s (fun d =>
       (d.part p).keyReq = (s.dev.part p).keyReq ||| v.setWidth 4)) ∧
     (s.dev.owns w (.share p) = true → s.dev.locked p = false → (∀ q, q ≠ p → (s.dev.part q).share = 0) →
       bits v 0 14 ≤ 12000 → bits v 16 12 ≤ 3000 → Completes (.medPShareWrite w p v) s (fun d =>
       (d.part p).share = v &&& 0x0FFF3FFF))))

/-- GO starts a flip and FLIP_DONE ends it; SNAP starts an accounting snapshot and its last record ends it. The model's choices
it rests on: log entry 12. -/
def Obligations.BusyBitsOfFlipAndSnapshot : Prop :=
  ∀ (s : State) (w : Writer), s.dev.reachable w = true →
    (s.dev.owns w .flipCtrl = true → s.dev.ras.flipBusy = false → Completes (.rasFlipGo w) s (fun d =>
      d.ras.flipBusy = true)) ∧
    Completes .flipDone s (fun d => d.ras.flipBusy = false ∧ d.ras.flipMiss = s.dev.ras.flipMiss) ∧
    (s.dev.owns w .acctCtrl = true → s.dev.acctBusy = false → Completes (.acctSnap w) s (fun d =>
      d.acctBusy = true ∧ d.parts = s.dev.parts ∧ d.mem = s.dev.mem)) ∧
    Completes .acctSnapDone s (fun d => d.acctBusy = false ∧ d.hostMem = s.dev.hostMem)

/-- FENCE of RAS_PLAIN_CTRL and a port timeout make a plain FENCED; RETURN of a fenced plain without an owner starts its self
test, which returns it STOPPED and filled, or FENCED again. FENCE_WAIT's end halts the plains that still run; the reload, once
the writes that were issued are done, opens the next epoch, the supervisor is READY (or FAILED when the firmware fails or the epochs are spent), and every ring is disabled
with no command. Once every started command of a partition that lost a plain has stopped, nothing of it stays admitted or
staged. The model's choices it rests on: log entries 17, 25. -/
def Obligations.FencesEndAndPlainsReturn : Prop :=
  ((∀ (s : State) (w : Writer) (i : Fin 64), s.dev.reachable w = true → s.dev.owns w .plainCtrl = true →
     ((s.dev.plain i).state ≠ .fenced → Completes (.rasPlainFence w i) s (fun d => (d.plain i).state = .fenced)) ∧
     ((s.dev.plain i).state = .fenced → s.dev.plainOwner i = none →
       Completes (.rasPlainReturn w i) s (fun d => (d.plain i).state = .bist))) ∧
   (∀ (s : State) (i : Fin 64), (s.dev.plain i).state ≠ .fenced →
     Completes (.plainPortTimeout i) s (fun d => (d.plain i).state = .fenced)) ∧
   (∀ (s : State) (i : Fin 64), (s.dev.plain i).state = .bist →
     Completes (.plainBistDone i true) s (fun d => (d.plain i).state = .stopped ∧ (d.plain i).sram = [] ∧
       (d.plain i).parity = [] ∧ (d.plain i).table = [] ∧ (d.plain i).seed = 0 ∧ (d.plain i).ctrs = Tab.all 66 0) ∧
     Completes (.plainBistDone i false) s (fun d => (d.plain i).state = .fenced))) ∧
  (∀ (s : State) (f : Fence), s.dev.ccx.fence = some f →
     (f.waited = false → s.dev.ccx.fenceWait.toNat ≤ (s.dev.pwr.aon - f.tick).toNat →
       Completes .fenceWaitExpiry s (fun d =>
         (∀ i, (d.plain i).seq.over = true ∧ (d.plain i).threaded = false) ∧ d.ccx.epoch = s.dev.ccx.epoch ∧
         ∃ g, d.ccx.fence = some g ∧ g.waited = true ∧ g.cause = f.cause)) ∧
     (f.waited = true → s.dev.writesIssued = false → s.dev.ccx.epoch ≠ 0xFFFF →
       (∀ p, (s.dev.part p).state = .resetting → (s.dev.part p).dale.drained = true ∧ (s.dev.part p).basin.drained = true) →
       ∀ ok : Bool, Completes (.controlComplexReloadDone ok) s (fun d =>
       d.ccx.epoch = s.dev.ccx.epoch + 1 ∧ d.ccx.sup = (if ok then .ready else .failed) ∧ d.ccx.harts = ok ∧
       d.ccx.fence = none ∧ (∀ (p : Fin 64) (q : Fin 4), ((d.part p).rings.at q).en = false ∧ ((d.part p).rings.at q).cmds = []) ∧
       ∀ q : Fin 4, (Tab.at d.hif.rings q).en = false))) ∧
  (∀ (s : State) (p : Fin 64), (s.dev.part p).lost = true → s.dev.startedOf p = [] →
     Completes (.plainFenceRecords p) s (fun d =>
       (∀ q, ∀ c ∈ ((d.part p).rings.at q).cmds, c.stage ≠ .admitted) ∧ (d.part p).lost = true ∧
       ∀ e ∈ d.ccx.staging, e.ring.fn ≠ .vf p))

/-- Heartbeats are taken at the present tick; a hart silent for 153,600 ticks and a write of CCX_SUP_CTRL.FENCE fence the
module: the supervisor is FENCING with its cause, and no wait and no glen is left. The model's choices it rests on: log entry
17. -/
def Obligations.SupervisorHeartbeatsAndFence : Prop :=
  ∀ s : State,
    (∀ h : Fin 4, s.dev.ccx.harts = true → Completes (.hartHeartbeat h) s (fun d =>
      Tab.at d.ccx.beats h = s.dev.pwr.aon ∧ ∀ k, k ≠ h → Tab.at d.ccx.beats k = Tab.at s.dev.ccx.beats k)) ∧
    (∀ h : Fin 4, s.dev.ccx.harts = true → s.dev.ccx.sup = .ready → 153600 ≤ (s.dev.pwr.aon - Tab.at s.dev.ccx.beats h).toNat →
      Completes (.heartbeatTimeout h) s (fun d => d.ccx.sup = .fencing ∧ d.ccx.lastCause = 1 ∧ d.waits = [])) ∧
    (∀ w : Writer, s.dev.reachable w = true → s.dev.owns w .supCtrl = true → s.dev.ccx.sup = .ready →
      Completes (.ccxSupFence w) s (fun d => d.ccx.sup = .fencing ∧ d.ccx.lastCause = 2 ∧ d.waits = []))

/-- The record being written commits: its 32 bytes stand in the ring at PROD, and PROD advances round the ring. The model's
choices it rests on: log entry 38. -/
def Obligations.EventRecordCommits : Prop :=
  ∀ (s : State) (e : Event), s.dev.ras.writing = some e → s.dev.hostMem.wf = true →
    Completes .eventRecordCommit s (fun d =>
      d.ras.prod = BitVec.ofNat 16 ((s.dev.ras.prod.toNat + 1) % s.dev.ras.size) ∧
      readBytes d.hostMem ((dword s.dev.ras.evBaseLo s.dev.ras.evBaseHi).toNat + 32 * s.dev.ras.prod.toNat) 32 =
        e.words.flatMap wordBytes ∧
      (∀ a, a < (dword s.dev.ras.evBaseLo s.dev.ras.evBaseHi).toNat + 32 * s.dev.ras.prod.toNat ∨
          (dword s.dev.ras.evBaseLo s.dev.ras.evBaseHi).toNat + 32 * s.dev.ras.prod.toNat + 32 ≤ a →
        readByte d.hostMem a = readByte s.dev.hostMem a) ∧ d.mem = s.dev.mem ∧ d.parts = s.dev.parts)

/-- R80: a partition reset starts by a write of PRT_P_CTRL.RESET, which the physical function and the partition's own window
both hold, and by a Function Level Reset; the partition is then RESETTING, its commands are gone without a record, its waits and
the early messages for it end. Requested while the partition is RESETTING, it has no further effect. -/
def Obligations.PartitionResetStarts : Prop :=
  ∀ (s : State) (p : Fin 64),
    (s.dev.owns (.host .pf) (.pCtrl p) = true ∧ s.dev.owns (.host (.vf p)) (.pCtrl p) = true) ∧
    ((s.dev.part p).state ≠ .resetting →
      (∀ w, s.dev.reachable w = true → s.dev.owns w (.pCtrl p) = true →
        Completes (.partitionReset w p) s (fun d => (d.part p).state = .resetting ∧
          (∀ q, ((d.part p).rings.at q).cmds = []) ∧ (∀ x ∈ d.waits, x.part ≠ p) ∧ (∀ m ∈ d.early, m.part ≠ p))) ∧
      Completes (.vfFlr p) s (fun d => (d.part p).state = .resetting ∧
        (∀ q, ((d.part p).rings.at q).cmds = []) ∧ (∀ x ∈ d.waits, x.part ≠ p) ∧ (∀ m ∈ d.early, m.part ≠ p))) ∧
    ((s.dev.part p).state = .resetting →
      (∀ w, s.dev.reachable w = true → s.dev.owns w (.pCtrl p) = true →
        Completes (.partitionReset w p) s (fun d => d.parts = s.dev.parts ∧ d.plains = s.dev.plains ∧ d.waits = s.dev.waits ∧
          d.early = s.dev.early ∧ d.groups = s.dev.groups ∧ d.targets = s.dev.targets ∧ d.ccx = s.dev.ccx ∧
          d.mem = s.dev.mem ∧ d.ecc = s.dev.ecc)) ∧
      Completes (.vfFlr p) s (fun d => d = s.dev))

/-- A partition reset ends once every write that the partition issued has passed its regulator: the image is unloaded with its counters
and shards, the rings are at their enable-time values with EN clear and their bases kept, and device memory keeps every byte. A fill
that is owed to a new owner of a dale granule zeroes the granule, makes its check bits valid, leaves every other byte, and is then no
longer owed; a plain's fill also zeroes its seed and its stream counters. The model's choices it rests on: log entries 13, 17. -/
def Obligations.PartitionResetEndsAndFills : Prop :=
  (∀ (s : State) (p : Fin 64), (s.dev.part p).state = .resetting →
     (((s.dev.part p).dale.drained && (s.dev.part p).basin.drained) = false →
       Completes (.partitionResetEnd p) s (fun d => d = s.dev)) ∧
     ((s.dev.part p).dale.drained = true → (s.dev.part p).basin.drained = true →
     Completes (.partitionResetEnd p) s (fun d =>
       ((d.part p).state = .idle ∨ (d.part p).state = .empty) ∧ (d.part p).image = none ∧ (d.part p).counters = [] ∧
       (d.part p).shards = [] ∧ d.mem = s.dev.mem ∧ d.ecc = s.dev.ecc ∧
       ∀ q, ((d.part p).rings.at q).en = false ∧ ((d.part p).rings.at q).sqHead = 0 ∧ ((d.part p).rings.at q).written = 0 ∧
         ((d.part p).rings.at q).phase = true ∧
         ((d.part p).rings.at q).sqBaseLo = ((s.dev.part p).rings.at q).sqBaseLo ∧
         ((d.part p).rings.at q).cqBaseHi = ((s.dev.part p).rings.at q).cqBaseHi))) ∧
  (∀ s : State, s.dev.storageWf →
     (∀ g : Fin 576, s.dev.owed (.dale g) = true → Completes (.grantFillDone (.dale g)) s (fun d =>
       (∀ a, g.val * 2 ^ 30 ≤ a → a < (g.val + 1) * 2 ^ 30 → readByte d.mem a = 0 ∧ d.eccAt a = 0) ∧
       (∀ a, a < g.val * 2 ^ 30 ∨ (g.val + 1) * 2 ^ 30 ≤ a → readByte d.mem a = readByte s.dev.mem a ∧
         d.eccAt a = s.dev.eccAt a) ∧ d.owed (.dale g) = false ∧ d.plains = s.dev.plains)) ∧
     (∀ i : Fin 64, s.dev.owed (.plain i) = true → Completes (.grantFillDone (.plain i)) s (fun d =>
       (d.plain i).sram = [] ∧ (d.plain i).parity = [] ∧ (d.plain i).rowBuf = [] ∧ (d.plain i).table = [] ∧
       (d.plain i).seed = 0 ∧ (d.plain i).ctrs = Tab.all 66 0 ∧ d.mem = s.dev.mem ∧ d.owed (.plain i) = false)))

/-! ### Power, start-up, resets and pins (R397 to R418) -/

/-- Start-up goes through its steps: main rails, firmware check, memory fill (all storage zero and valid), hart release, table,
link; the first failure is named, and a failed start-up goes on to link training without the harts. Over the link the host
enables up to 64 virtual functions and gives BAR4 a size of 2^30 to 2^42 bytes. Standby power: at power-on the straps are sampled and the tick counter is 0;
when it is lost, nothing but the metering log and what lies outside the module survives. The model's choices it rests on: log
entries 3, 18, 46. -/
def Obligations.StartUpAndStandbyPower : Prop :=
  (∀ s : State,
     (s.dev.pwr.standby = true → s.dev.pwr.main = false → s.dev.pwr.leak = false → 4500 ≤ s.dev.pwr.vin.toNat →
       Completes .mainSupplyConfirmed s (fun d => d.pwr.main = true ∧ d.pwr.boot.step = 1 ∧ d.pwr.boot.fail = false)) ∧
     (s.dev.pwr.main = true → s.dev.pwr.boot.step.toNat ≤ 2 → s.dev.pwr.boot.fwOk = false →
       Completes (.firmwareCheckDone true) s (fun d =>
         d.pwr.boot.fwOk = true ∧ d.pwr.boot.step = (if s.dev.pwr.boot.filled then 3 else 2)) ∧
       (s.dev.pwr.boot.fail = false → Completes (.firmwareCheckDone false) s (fun d =>
         d.pwr.boot.fail = true ∧ d.ccx.sup = .failed ∧ d.ccx.harts = s.dev.ccx.harts)) ∧
       (s.dev.pwr.boot.fail = true → Completes (.firmwareCheckDone false) s (fun d => d = s.dev))) ∧
     (s.dev.pwr.main = true → s.dev.pwr.boot.step ≠ 0 → s.dev.pwr.boot.filled = false →
       Completes (.memoryFillDone none) s (fun d =>
         d.mem = [] ∧ d.ecc = [] ∧ d.pwr.boot.filled = true ∧ ∀ i, (d.plain i).sram = [] ∧ (d.plain i).parity = []) ∧
       (s.dev.pwr.boot.fail = false →
         (∀ k, Completes (.memoryFillDone (some (.stack k))) s (fun d =>
           d.pwr.boot.fail = true ∧ d.pwr.boot.unit.toNat = k.val ∧ d.pwr.boot.basin = false ∧ d.ccx.sup = .failed)) ∧
         (∀ c, Completes (.memoryFillDone (some (.channel c))) s (fun d =>
           d.pwr.boot.fail = true ∧ d.pwr.boot.unit.toNat = c.val ∧ d.pwr.boot.basin = true ∧ d.ccx.sup = .failed)))) ∧
     (s.dev.pwr.main = true → s.dev.pwr.boot.step = 3 → s.dev.pwr.boot.fail = false →
       Completes .hartRelease s (fun d => d.pwr.boot.step = 4 ∧ d.ccx.harts = true)) ∧
     (s.dev.pwr.boot.fail = true → Completes .hartRelease s (fun d => d = s.dev)) ∧
     (s.dev.pwr.main = true → s.dev.pwr.boot.step = 4 → Completes .tableReady s (fun d => d.pwr.boot.step = 5)) ∧
     (s.dev.pwr.main = true → s.dev.pwr.perst = false → s.dev.pwr.boot.step = 5 ∨ s.dev.pwr.boot.fail = true →
       Completes .linkTrained s (fun d => d.pwr.link = true ∧ d.hif = s.dev.hif ∧ d.ccx = s.dev.ccx)) ∧
     (∀ v : Word, s.dev.pwr.link = true →
       Completes (.registerWrite [{ word32 (.host .pf) 0 v with space := .enabledVfs }]) s (fun d =>
         d = s.dev.updHif (fun h => { h with vfs := if v.toNat ≤ 64 then v.toNat else h.vfs })) ∧
       Completes (.registerWrite [{ word32 (.host .pf) 0 v with space := .bar4Size }]) s (fun d =>
         d = s.dev.updHif (fun h => { h with bar4Log := if 30 ≤ v.toNat ∧ v.toNat ≤ 42 then v.toNat else h.bar4Log })))) ∧
  (∀ (s : State) (straps : BitVec 4),
     (s.dev.pwr.standby = false → Completes (.standbyPowerOn straps) s (fun d =>
       d.pwr.standby = true ∧ d.pwr.strap = straps ∧ d.pwr.aon = 0 ∧ d.mtr.boot = s.dev.mtr.boot + 1 ∧
       d.mtr.log = s.dev.mtr.log ∧ d.hostMem = s.dev.hostMem)) ∧
     (s.dev.pwr.standby = true → Completes .standbyPowerLoss s (fun d =>
       d.pwr.standby = false ∧ d.pwr.main = false ∧ d.mtr.on = false ∧ d.mtr.pending = [] ∧ d.mem = [] ∧
       d.hostMem = s.dev.hostMem)))

/-- A module reset, from the register 1 ms after its write, PERST#, the link or the SMBus: every partition is EMPTY, no command,
grant or entry of a shard table is left, the epoch is 0, and start-up restarts at the firmware step; the tick counter, the
straps, the metering block and the host's memory keep their values. PWR_RST_CTRL asks for a reset that the row MODULE_RESET
carries out; PERST# is released; an FLR of the physical function starts a reset of every partition and returns its own rings,
journal and event log to their reset values. The model's choices it rests on: log entries 13, 17, 31. -/
def Obligations.ModuleResetsAndTheirRequests : Prop :=
  (∀ (s : State), s.dev.pwr.standby = true → s.dev.pwr.perst = false →
     let post : Dev → Prop := fun d =>
       (∀ p, (d.part p).state = .empty ∧ (d.part p).shards = [] ∧ ∀ q, ((d.part p).rings.at q).cmds = []) ∧
       (∀ i, Tab.at d.plainMap i = 0xFF) ∧ d.ccx.epoch = 0 ∧ d.ccx.harts = false ∧ d.pwr.link = false ∧
       d.pwr.boot.step = (if s.dev.pwr.main then 1 else 0) ∧ d.mem = [] ∧ d.pwr.aon = s.dev.pwr.aon ∧
       d.pwr.strap = s.dev.pwr.strap ∧ d.mtr = s.dev.mtr ∧ d.hostMem = s.dev.hostMem ∧ d.out = s.dev.out
     (s.dev.pwr.rstPend = true → Completes .moduleReset s post) ∧
     (s.dev.pwr.link = true → Completes .hotReset s post) ∧
     Completes (.smbReset 0xA5 true) s post ∧
     Completes .perstAssert s (fun d => post d ∧ d.pwr.perst = true)) ∧
  (∀ s : State,
     (∀ w, s.dev.reachable w = true → s.dev.owns w .rstCtrl = true → Completes (.pwrRstModule w) s (fun d =>
       d.pwr.rstPend = true ∧ d.parts = s.dev.parts ∧ d.plains = s.dev.plains)) ∧
     Completes .perstDeassert s (fun d => d.pwr.perst = false ∧ d.parts = s.dev.parts ∧ d.mem = s.dev.mem) ∧
     (s.dev.pwr.link = true → Completes .pfFlr s (fun d =>
       (∀ p, (d.part p).state = .resetting) ∧ (∀ q, Tab.at d.hif.rings q = Ring.reset) ∧ d.hif.jCfg = 0x60 ∧
       d.ras.evCfg = 0x60 ∧ d.ras.prod = 0 ∧ d.acctBusy = false ∧ d.plainMap = s.dev.plainMap ∧ d.mem = s.dev.mem)))

/-- A supply sample: VIN takes the sample, and each condition is entered at its fourth sample in a row below its threshold and
left at the 1,000th at or above its leaving level. The statement is of samples that do not begin a shutdown. THROTTLE_N on its
pin asks for the power cap; a leak is latched, and its clearing logged; with the main rails down nothing is shut down. The
model's choices it rests on: log entries 17, 18. -/
def Obligations.SupplyThrottleAndLeak : Prop :=
  (∀ (s : State) (v : BitVec 16), s.dev.pwr.standby = true → 3600 ≤ v.toNat → s.dev.pwr.shut.inForce = false →
     Completes (.supplySample v) s (fun d =>
       d.pwr.vin = v ∧
       d.pwr.nvw.inForce = (if s.dev.pwr.nvw.inForce then decide ((if 4500 ≤ v.toNat then s.dev.pwr.nvw.above + 1 else 0) < 1000)
         else decide (4 ≤ (if v.toNat < 4400 then s.dev.pwr.nvw.below + 1 else 0))) ∧
       d.pwr.capSag.inForce = (if s.dev.pwr.capSag.inForce then
           decide ((if 4100 ≤ v.toNat then s.dev.pwr.capSag.above + 1 else 0) < 1000)
         else decide (4 ≤ (if v.toNat < 4000 then s.dev.pwr.capSag.below + 1 else 0))) ∧
       d.pwr.capped = (d.pwr.capSag.inForce || d.pwr.throttled) ∧ d.plains = s.dev.plains ∧ d.mem = s.dev.mem)) ∧
  (∀ s : State,
     (∀ level, Completes (.throttleNInput level) s (fun d =>
       d.pwr.throttle = level ∧ d.pwr.capped = (d.pwr.capSag.inForce || d.pwr.throttled) ∧ d.parts = s.dev.parts)) ∧
     (s.dev.pwr.standby = true → s.dev.pwr.leak = false → Completes .leakDetect s (fun d =>
       d.pwr.leak = true ∧ d.pwr.main = false)) ∧
     (s.dev.pwr.leak = true → Completes .leakClear s (fun d => d.pwr.leak = false ∧ d.parts = s.dev.parts)))

/-- The frequency holds: a die at 100 °C or more loses 100 MHz down to 400, one at 95 °C or less gains 100 up to 1,200; the
design power steps the same way about its limits, which the power cap halves. Clock domains: a running domain outside the plains
and the ones that always run is gated; a gated one that is not in use loses its PLL; a stopped one that something demanded
starts, a plain's with the plain, and one that nothing demanded stays; a crossing into a stopped one ends with CDC_TIMEOUT. The
model's choices it rests on: log entries 14, 39, 46. -/
def Obligations.ClockHoldsAndDomains : Prop :=
  (∀ s : State,
     (∀ (k : Fin 4) (t : Byte), Completes (.dieHeatStep k t) s (fun d =>
       Tab.at d.pwr.heatMhz k = (if 100 ≤ t.toNat then max 400 (Tab.at s.dev.pwr.heatMhz k - 100)
         else if t.toNat ≤ 95 then min 1200 (Tab.at s.dev.pwr.heatMhz k + 100) else Tab.at s.dev.pwr.heatMhz k) ∧
       Tab.at d.pwr.dieTemp k = t ∧ d.pwr.powerMhz = s.dev.pwr.powerMhz)) ∧
     (∀ w : BitVec 16, Completes (.designPowerStep w) s (fun d =>
       d.pwr.watts = w ∧
       (s.dev.pwr.capped = false → 2600 < w.toNat → d.pwr.powerMhz = max 400 (s.dev.pwr.powerMhz - 100)) ∧
       (s.dev.pwr.capped = true → 1300 < w.toNat → d.pwr.powerMhz = max 400 (s.dev.pwr.powerMhz - 100)) ∧
       (s.dev.pwr.capped = false → w.toNat < 2450 → d.pwr.powerMhz = min 1200 (s.dev.pwr.powerMhz + 100)) ∧
       (s.dev.pwr.capped = true → w.toNat < 1150 → d.pwr.powerMhz = min 1200 (s.dev.pwr.powerMhz + 100))))) ∧
  (∀ (s : State) (k : Fin 100),
     (64 ≤ k.val → k.val < 94 → (s.dev.dom k).state = .running →
       Completes (.domainClockGate k) s (fun d => d.dom k = { state := .gated, mhz := 0, starting := false })) ∧
     ((s.dev.dom k).state = .gated → s.dev.inUse k = false →
       Completes (.pllPowerDown k) s (fun d => d.dom k = { state := .pllOff, mhz := 0, starting := false })) ∧
     (s.dev.pwr.main = true → s.dev.clockDue k = true → ((s.dev.dom k).state = .gated ∨ (s.dev.dom k).state = .pllOff) →
       Completes (.clockStartDone k) s (fun d =>
         ((d.dom k).state = .running ∨ (d.dom k).state = .held) ∧ (d.dom k).mhz = BitVec.ofNat 12 (s.dev.domMhz k.val) ∧
         (d.dom k).starting = false ∧ ∀ j, j ≠ k → d.dom j = s.dev.dom j)) ∧
     (s.dev.clockDue k = false → Completes (.clockStartDone k) s (fun d => d = s.dev)) ∧
     (∀ (w : Writer) (off : Nat), ((s.dev.dom k).state = .gated ∨ (s.dev.dom k).state = .pllOff) →
       Completes (.cdcTimeout k (.access w off)) s (fun d =>
         d.out.replies = .abort :: s.dev.out.replies ∧ d.parts = s.dev.parts ∧ d.hif = s.dev.hif)))

/-- Pins: a switch that no window holds stores the function and opens its window; the window's end closes it; the PPS edge
copies the tick counter, flow pulses are counted and their window's end publishes the count. The model's choices it rests on:
log entry 18. -/
def Obligations.PinsAndTheirWindows : Prop :=
  ∀ s : State,
    (∀ (w : Writer) (v : Word) (n : Fin 8), s.dev.reachable w = true → s.dev.owns w .pinmux = true → s.dev.pwr.winBusy = 0 →
      Completes (.pwrPinmuxWrite w v) s (fun d =>
        pinCode d.pwr.pinmux n.val = pinStored n.val (pinCode v n.val) ∧
        (d.pwr.winBusy.toNat / 2 ^ n.val % 2 = 1 ↔ pinStored n.val (pinCode v n.val) ≠ pinCode s.dev.pwr.pinmux n.val))) ∧
    (∀ n : Fin 8, Completes (.pinmuxWindowEnd n) s (fun d =>
      d.pwr.winBusy.toNat / 2 ^ n.val % 2 = 0 ∧ d.pwr.pinmux = s.dev.pwr.pinmux)) ∧
    (s.dev.pwr.pinIs 2 3 = true → Completes .ppsEdge s (fun d => d.pwr.pps = s.dev.pwr.aon)) ∧
    (s.dev.pwr.pinIs 3 4 = true → Completes .flowPulse s (fun d =>
      d.pwr.pulses = s.dev.pwr.pulses + 1 ∧ d.pwr.flow = s.dev.pwr.flow)) ∧
    Completes .flowWindowEnd s (fun d => d.pwr.flow = s.dev.pwr.pulses ∧ d.pwr.pulses = 0)

/-- The SMBus answers a read with its block, and a wrong PEC with a NACK; a status read releases SMB_ALERT_N; the alert response
names the module's address. JTAG, while standby power is up: each instruction is held by the TAP; EXTEST's three act only while PERST# is asserted; IDCODE
shifts out 0x10840A5B and DBG_READ, with the debug strap, the word it names. The model's choices it rests on: log entries 17,
18. -/
def Obligations.SmbusAndJtagAnswer : Prop :=
  (∀ s : State, s.dev.pwr.standby = true →
     Completes (.smbReadIdentity true) s (fun d =>
       d.out.replies = .bytes ([0x40, 0x08, 0x11, 0x00] ++ wordBytes Config.serial) :: s.dev.out.replies) ∧
     Completes (.smbReadStatus true) s (fun d => d.pwr.alertN = true ∧
       d.out.replies = .bytes (wordBytes (s.dev.readReg .supStat) ++ s.dev.mainBytes (wordBytes s.dev.trip))
         :: s.dev.out.replies) ∧
     Completes (.smbReadTemperatures true) s (fun d =>
       d.out.replies = .bytes (s.dev.mainBytes (s.dev.pwr.dieTemp.toList ++ s.dev.daleStacks.toList.map (fun x => x.temp)))
         :: s.dev.out.replies) ∧
     Completes (.smbReadSupply true) s (fun d =>
       d.out.replies = .bytes (leBytes 2 (10 * s.dev.pwr.vin.toNat) ++ leBytes 2 s.dev.pwr.v12.toNat ++
         leBytes 2 s.dev.pwr.watts.toNat ++ [BitVec.ofNat 8 (b2n s.dev.pwr.nvw.inForce + 2 * b2n s.dev.pwr.capped +
           4 * b2n s.dev.pwr.leak), 0]) :: s.dev.out.replies) ∧
     (s.dev.pwr.alertN = false → Completes .smbAlertResponse s (fun d =>
       d.out.replies = .bytes [BitVec.ofNat 8 (2 * (0x60 + s.dev.pwr.strap.toNat % 4))] :: s.dev.out.replies)) ∧
     (∀ c ∈ [Instr.smbReadIdentity false, .smbReadStatus false, .smbReadTemperatures false, .smbReadSupply false,
         .smbReset 0xA5 false], Completes c s (fun d => d = s.dev.reply .nack))) ∧
  (∀ s : State, s.dev.pwr.standby = true →
     Completes .bypass s (fun d => d.pwr.jtag = .bypass ∧ d.out = s.dev.out) ∧
     Completes .idcode s (fun d => d.pwr.jtag = .idcode ∧ d.out.replies = .words [0x10840A5B] :: s.dev.out.replies) ∧
     Completes .samplePreload s (fun d => d.pwr.jtag = .samplePreload ∧ d.out = s.dev.out) ∧
     Completes .extest s (fun d => d.pwr.jtag = if s.dev.pwr.perst then .extest else .bypass) ∧
     Completes .extestPulse s (fun d => d.pwr.jtag = if s.dev.pwr.perst then .extestPulse else .bypass) ∧
     Completes .extestTrain s (fun d => d.pwr.jtag = if s.dev.pwr.perst then .extestTrain else .bypass) ∧
     (∀ (i : Fin 64) (off : Nat), s.dev.pwr.strap.toNat / 4 % 2 = 1 → off < sramBytes →
       Completes (.dbgRead (some i) off) s (fun d =>
         d.pwr.jtag = .dbgRead ∧ d.out.replies = .words [readWord (s.dev.plain i).sram off] :: s.dev.out.replies)) ∧
     (∀ (r : Reg) (off : Nat), s.dev.pwr.strap.toNat / 4 % 2 = 1 → regAt off = some r →
       Completes (.dbgRead none off) s (fun d =>
         d.pwr.jtag = .dbgRead ∧ d.out.replies = .words [s.dev.readReg r] :: s.dev.out.replies)))

/-! ### Device memory, its protection and its temperatures (R58, R236 to R248, R368 to R373) -/

/-- Where no bit is wrong and no fill is owed, a BAR4 write inside one line stores its bytes and no other, and a BAR4 read returns
what is stored; of a dale granule whose fill is owed, a read returns zeros and the granule is zero. A BAR4 access of a virtual
function beyond its granules reads zeros; such a write changes no byte and is logged. A function that is not enabled, or has no
link, reaches nothing. The model's choices it rests on: log entries 16, 46. -/
def Obligations.Bar4ReadsAndWrites : Prop :=
  (∀ (s : State) (f : Fn) (o : Nat) (a : Nat), s.dev.reachable (.host f) = true → s.dev.storageWf → s.dev.ecc = [] →
     s.dev.bar4Addr f o = some a → s.dev.trippedAt a = false → a % 64 = o % 64 →
     ((∀ u, s.dev.owed u = false) →
       (∀ data : List Byte, data ≠ [] → o % 64 + data.length ≤ 64 →
         Completes (.bar4Write f o data false) s (fun d =>
           readBytes d.mem a data.length = data ∧
           (∀ k, k < a ∨ a + data.length ≤ k → readByte d.mem k = readByte s.dev.mem k) ∧ d.ecc = [] ∧
           d.plains = s.dev.plains ∧ d.hostMem = s.dev.hostMem)) ∧
       (∀ n, 1 ≤ n → o % 64 + n ≤ 64 → Completes (.bar4Read f o n) s (fun d =>
         d.out.replies = .bytes (readBytes s.dev.mem a n) :: s.dev.out.replies ∧ d.mem = s.dev.mem))) ∧
     (∀ (g : Fin 576) (n : Nat), place a = .dale g → s.dev.owed (.dale g) = true → 1 ≤ n → o % 64 + n ≤ 64 →
       Completes (.bar4Read f o n) s (fun d =>
         d.out.replies = .bytes (List.replicate n 0) :: s.dev.out.replies ∧ d.owed (.dale g) = false ∧
         ∀ k, g.val * 2 ^ 30 ≤ k → k < (g.val + 1) * 2 ^ 30 → readByte d.mem k = 0))) ∧
  (∀ (s : State) (f : Fn) (o n : Nat) (data : List Byte), s.dev.reachable (.host f) = false →
     Completes (.bar4Read f o n) s (fun d => d = s.dev) ∧ Completes (.bar4Write f o data false) s (fun d => d = s.dev)) ∧
  (∀ (s : State) (p : Fin 64) (o n : Nat) (data : List Byte), s.dev.reachable (.host (.vf p)) = true → 1 ≤ n →
     o % 64 + n ≤ 64 → data.length = n → s.dev.bar4Addr (.vf p) o = none →
     Completes (.bar4Read (.vf p) o n) s (fun d =>
       d.out.replies = .bytes (List.replicate n 0) :: s.dev.out.replies ∧ d.mem = s.dev.mem) ∧
     Completes (.bar4Write (.vf p) o data false) s (fun d => d.mem = s.dev.mem ∧ d.ecc = s.dev.ecc ∧
       d = s.dev.log Ev.accessHole (ownerByte (some p)) (Writer.code (.host (.vf p))).toNat (BitVec.ofNat 32 o)
         (BitVec.ofNat 32 (o / 2 ^ 32 % 2 ^ 12)) 0))

/-- Where no fill is owed, a demand read answers the line, and a write of part of a line stores its bytes and leaves every other
byte of memory. A demand read of a line that is marked answers poison and leaves memory as it was; one of a line with a word of two wrong bits
makes the line a mark, and answers poison. A tripped unit answers nothing. The model's choices it rests on: log entry 21. -/
def Obligations.DemandReadsAndNarrowWrites : Prop :=
  (∀ (s : State) (a : BitVec 44), s.dev.storageWf → s.dev.ecc = [] → place a.toNat ≠ .hole →
     s.dev.trippedAt a.toNat = false → (∀ u, s.dev.owed u = false) →
     Completes (.demandRead a) s (fun d =>
       d.out.replies = .bytes (readBytes s.dev.mem (lineOf a.toNat) 64) :: s.dev.out.replies ∧ d.mem = s.dev.mem) ∧
     (∀ data : List Byte, data ≠ [] → a.toNat % 64 + data.length ≤ 64 →
       Completes (.readModifyWrite a data) s (fun d =>
         readBytes d.mem a.toNat data.length = data ∧ d.ecc = [] ∧
         ∀ k, k < a.toNat ∨ a.toNat + data.length ≤ k → readByte d.mem k = readByte s.dev.mem k))) ∧
  (∀ (s : State) (a : BitVec 44) (b : List Byte), s.dev.trippedAt a.toNat = true →
     Completes (.demandRead a) s (fun d => d = s.dev) ∧ Completes (.readModifyWrite a b) s (fun d => d = s.dev)) ∧
  (∀ (s : State) (a : BitVec 44), place a.toNat ≠ .hole → s.dev.trippedAt a.toNat = false → (∀ u, s.dev.owed u = false) →
     (s.dev.isMark (lineOf a.toNat) = true → Completes (.demandRead a) s (fun d =>
       d.out.replies = .poisoned :: s.dev.out.replies ∧ d.mem = s.dev.mem ∧ d.ecc = s.dev.ecc)) ∧
     (Sparse.wf 0 s.dev.ecc = true → s.dev.isMark (lineOf a.toNat) = false → s.dev.lineUncorr (lineOf a.toNat) = true →
       Completes (.demandRead a) s (fun d =>
         d.out.replies = .poisoned :: s.dev.out.replies ∧ d.isMark (lineOf a.toNat) = true)))

/-- One wrong bit of a word is corrected by a scrubber's or an engine's read of its line: its check bits are valid after it, the
data stays, and the correction is counted. A scrubber read completes in every state: it reads on where its scrubber is enabled and
its unit runs, the line or slot counter of the unit advancing by one and starting over after the last, and does nothing otherwise.
An SRAM line with a bad parity byte becomes a mark, and no stored byte changes; device memory keeps its bytes where no bit is
wrong. The model's choices it rests on: log entries 6, 21. -/
def Obligations.CorrectionsAndScrubbers : Prop :=
  (∀ (d : Dev) (a : Nat), Sparse.wf 0 d.ecc = true → eccClass (d.eccAt a) = .corrected →
     (d.correctWord a).eccAt a = 0 ∧ (d.correctWord a).mem = d.mem ∧
     (∀ b, b / 8 ≠ a / 8 → (d.correctWord a).eccAt b = d.eccAt b) ∧
     (tierCode a = 2 → (d.correctWord a).ras.eccBasin = satInc16 d.ras.eccBasin) ∧
     (tierCode a = 1 → (d.correctWord a).ras.eccDale = satInc16 d.ras.eccDale)) ∧
  (∀ s : State,
     (∀ i : Fin 64,
       (bit (Tab.at s.dev.ras.scrubCfg 0) 0 = true → ((s.dev.plain i).state = .idle ∨ (s.dev.plain i).state = .busy) →
         Completes (.scrubRead (.sram i)) s (fun d =>
           (d.plain i).scrubLine = (if (s.dev.plain i).scrubLine + 1 = sramBytes / 64 then 0
             else (s.dev.plain i).scrubLine + 1) ∧ (d.plain i).sram = (s.dev.plain i).sram ∧
           (Sparse.wf 0 (s.dev.plain i).parity = true → (s.dev.plain i).parAt (64 * (s.dev.plain i).scrubLine) ≠ 0 →
             (d.plain i).marked (64 * (s.dev.plain i).scrubLine) = true) ∧
           (∀ j, j ≠ i → d.plain j = s.dev.plain j) ∧ s.dev.sameMemory d)) ∧
       ((bit (Tab.at s.dev.ras.scrubCfg 0) 0 = false ∨ ((s.dev.plain i).state ≠ .idle ∧ (s.dev.plain i).state ≠ .busy)) →
         Completes (.scrubRead (.sram i)) s (fun d => d = s.dev))) ∧
     (∀ k : Fin 12,
       (bit (Tab.at s.dev.ras.scrubCfg 1) 0 = true → (Tab.at s.dev.daleStacks k).state ≠ .tripped →
         Completes (.scrubRead (.dale k)) s (fun d =>
           (Tab.at d.daleStacks k).scrub = (if (Tab.at s.dev.daleStacks k).scrub + 1 = daleSlots then 0
             else (Tab.at s.dev.daleStacks k).scrub + 1) ∧ d.plains = s.dev.plains ∧ d.hostMem = s.dev.hostMem ∧
           (s.dev.ecc = [] → d.mem = s.dev.mem ∧ d.ecc = []))) ∧
       ((bit (Tab.at s.dev.ras.scrubCfg 1) 0 = false ∨ (Tab.at s.dev.daleStacks k).state = .tripped) →
         Completes (.scrubRead (.dale k)) s (fun d => d = s.dev))) ∧
     (∀ c : Fin 24,
       (bit (Tab.at s.dev.ras.scrubCfg 2) 0 = true → (Tab.at s.dev.channels c).tripped = false →
         Completes (.scrubRead (.basin c)) s (fun d =>
           (Tab.at d.channels c).scrub = (if (Tab.at s.dev.channels c).scrub + 1 = basinSlots then 0
             else (Tab.at s.dev.channels c).scrub + 1) ∧ d.plains = s.dev.plains ∧ d.hostMem = s.dev.hostMem ∧
           (s.dev.ecc = [] → d.mem = s.dev.mem ∧ d.ecc = []))) ∧
       ((bit (Tab.at s.dev.ras.scrubCfg 2) 0 = false ∨ (Tab.at s.dev.channels c).tripped = true) →
         Completes (.scrubRead (.basin c)) s (fun d => d = s.dev))))

/-- A regulator that holds no request only refills: 5 × RATE eighths of a byte a cycle, never above BURST. A request passes as soon
as the tokens of its charge are there: the charge leaves the bucket and is counted. While they are not there, and at RATE 0 in any
case, the request stays and every cycle counts as one of waiting. The model's choices it rests on: log entry 16. -/
def Obligations.RegulatorRefillsAndCharges : Prop :=
  ∀ (s : State) (p : Fin 64) (n : Nat),
    ((s.dev.part p).dale.queue = [] → Completes (.regulatorPass p .dale n) s (fun d =>
      (d.part p).dale.tokens = min (s.dev.part p).dale.depth ((s.dev.part p).dale.tokens + 5 * (s.dev.part p).dale.rate * n) ∧
      (d.part p).dale.charge = (s.dev.part p).dale.charge ∧ (d.part p).basin = (s.dev.part p).basin ∧
      ∀ q, q ≠ p → d.part q = s.dev.part q)) ∧
    (∀ x : MemReq, (s.dev.part p).basin.queue = [x] → (s.dev.part p).basin.rate ≠ 0 →
      8 * chargeOf x.addr x.bytes ≤ (s.dev.part p).basin.tokens →
      (s.dev.part p).basin.tokens ≤ (s.dev.part p).basin.depth →
      Completes (.regulatorPass p .basin n) s (fun d =>
        (d.part p).basin.queue = [] ∧
        (d.part p).basin.tokens = min (s.dev.part p).basin.depth
          ((s.dev.part p).basin.tokens - 8 * chargeOf x.addr x.bytes + 5 * (s.dev.part p).basin.rate * n) ∧
        (d.part p).basin.charge = (s.dev.part p).basin.charge + BitVec.ofNat 64 (chargeOf x.addr x.bytes) ∧
        (d.part p).basin.wait = (s.dev.part p).basin.wait ∧ (d.part p).dale = (s.dev.part p).dale)) ∧
    (∀ (x : MemReq) (rest : List MemReq), (s.dev.part p).basin.queue = x :: rest →
      ((s.dev.part p).basin.rate = 0 ∨
        (s.dev.part p).basin.tokens + 5 * (s.dev.part p).basin.rate * n < 8 * chargeOf x.addr x.bytes) →
      Completes (.regulatorPass p .basin n) s (fun d =>
        (d.part p).basin.queue = x :: rest ∧ (d.part p).basin.charge = (s.dev.part p).basin.charge ∧
        (d.part p).basin.tokens = min (s.dev.part p).basin.depth
          ((s.dev.part p).basin.tokens + 5 * (s.dev.part p).basin.rate * n) ∧
        (d.part p).basin.wait = satInc (s.dev.part p).basin.wait n ∧ (d.part p).dale = (s.dev.part p).dale))

/-- A readout of a dale stack below the trip: TEMP, TMAX and the slots of R245 (200 up to 85 °C, 110 from 95 °C, 9 fewer for
each degree between); a basin package's mode register below its limit is held. At 105 °C a stack trips: it reads TRIPPED with no
slot, and a basin channel trips at its limit; the first trip is held in DLE_TRIP with its unit and temperature. -/
def Obligations.TemperatureReadoutsAndTrips : Prop :=
  (∀ s : State,
     (∀ (k : Fin 12) (t : Byte) (n : Nat), (Tab.at s.dev.daleStacks k).state ≠ .tripped → t.toNat < 105 →
       Completes (.daleTempReadout k t n) s (fun d =>
         (Tab.at d.daleStacks k).temp = t ∧
         (Tab.at d.daleStacks k).tmax = (if (Tab.at s.dev.daleStacks k).tmax < t then t else (Tab.at s.dev.daleStacks k).tmax) ∧
         (Tab.at d.daleStacks k).slots.toNat =
           (if t.toNat ≤ 85 then 200 else if 95 ≤ t.toNat then 110 else 200 - 9 * (t.toNat - 85)) ∧
         ((Tab.at d.daleStacks k).state = if t.toNat ≤ 85 then StackState.full else .throttled) ∧
         (∀ j, j ≠ k → Tab.at d.daleStacks j = Tab.at s.dev.daleStacks j) ∧ d.mem = s.dev.mem)) ∧
     (∀ (c : Fin 24) (m : Byte), (Tab.at s.dev.channels c).tripped = false →
       Completes (.basinModeRead c m false) s (fun d =>
         (Tab.at d.channels c).mr4 = m ∧ (Tab.at d.channels c).tripped = false ∧
         ∀ j, j ≠ c → Tab.at d.channels j = Tab.at s.dev.channels j) ∧
       Completes (.basinModeRead c m true) s (fun d =>
         (Tab.at d.channels c).mr4 = m ∧ (Tab.at d.channels c).tripped = true ∧
         (s.dev.isTripped = false → d.trip = BitVec.ofNat 32 (3 + 16 * c.val)) ∧
         (s.dev.isTripped = true → d.trip = s.dev.trip) ∧ d.mem = s.dev.mem))) ∧
  (∀ (s : State) (k : Fin 12) (t : Byte) (n : Nat), (Tab.at s.dev.daleStacks k).state ≠ .tripped → 105 ≤ t.toNat →
     Completes (.daleTempReadout k t n) s (fun d =>
       (Tab.at d.daleStacks k).state = .tripped ∧ (Tab.at d.daleStacks k).slots = 0 ∧
       (s.dev.isTripped = false → d.trip = BitVec.ofNat 32 (1 + 16 * k.val + 65536 * t.toNat)) ∧
       (s.dev.isTripped = true → d.trip = s.dev.trip)))

/-! ### Rings and commands (R62 to R87, R25 to R28) -/

/-- An SQ_TAIL doorbell that is taken sets the tail; one descriptor behind it is fetched from its place in the submission queue
and SQ_HEAD advances. A doorbell that is not taken is dropped, and counted in the partition's PRT_P_DROP. A CQ_HEAD doorbell
consumes the records up to it. None of the three stores to memory. A host write in BAR2 is the doorbell that its offset names; one to
another offset of a doorbell page is dropped, and logged as ACCESS_HOLE. The model's choices it rests on: log entries 23, 46. -/
def Obligations.DoorbellsMoveTheRing : Prop :=
  (∀ (s : State) (f : Fn) (off : Nat) (val : Word), s.dev.reachable (.host f) = true → off % 4 = 0 →
    (bellAt f off = none → Completes (.registerWrite [{ word32 (.host f) off val with space := .bar2 }]) s (fun d =>
      d = s.dev.logAccess Ev.accessHole (.host f) off allBytes)) ∧
    (∀ r, bellAt f off = some (r, false) → Completes (.registerWrite [{ word32 (.host f) off val with space := .bar2 }]) s
      (fun d => Completes (.sqTail r val false) s (fun e => d = e))) ∧
    (∀ r, bellAt f off = some (r, true) → Completes (.registerWrite [{ word32 (.host f) off val with space := .bar2 }]) s
      (fun d => Completes (.cqHead r val false) s (fun e => d = e)))) ∧
  ∀ (s : State) (r : RingId) (val : Word) (narrow : Bool), s.dev.pwr.link = true → s.dev.ccx.sup = .ready →
    (s.dev.bellOk r val narrow = true → Completes (.sqTail r val narrow) s (fun d =>
      (d.ring r).sqTail = val.setWidth 16 ∧ s.dev.sameMemory d)) ∧
    (s.dev.bellOk r val narrow = true → (s.dev.ring r).cmds = [] →
      val.toNat = ((s.dev.ring r).sqHead.toNat + 1) % (s.dev.ring r).size → 1 < (s.dev.ring r).size →
      (s.dev.ring r).size ≤ 65536 → (s.dev.ring r).sqHead.toNat < (s.dev.ring r).size →
      Completes (.sqTail r val narrow) s (fun d =>
        (d.ring r).cmds = [fetchedCmd (s.dev.ring r).sqHead
          (readTab s.dev.hostMem ((s.dev.ring r).sqBase + 64 * (s.dev.ring r).sqHead.toNat) 16)] ∧
        (d.ring r).sqHead = val.setWidth 16)) ∧
    (∀ p : Fin 64, r.fn = .vf p → s.dev.bellOk r val narrow = false →
      Completes (.sqTail r val narrow) s (fun d =>
        (d.part p).drop = satInc (s.dev.part p).drop ∧ d.ring r = s.dev.ring r ∧ s.dev.sameMemory d) ∧
      Completes (.cqHead r val narrow) s (fun d =>
        (d.part p).drop = satInc (s.dev.part p).drop ∧ d.ring r = s.dev.ring r ∧ s.dev.sameMemory d)) ∧
    (s.dev.bellOk r val narrow = true → Completes (.cqHead r val narrow) s (fun d =>
      (d.ring r).consumed = (s.dev.ring r).consumed +
        min ((val.toNat + (s.dev.ring r).size - (s.dev.ring r).consumed % (s.dev.ring r).size) % (s.dev.ring r).size)
          ((s.dev.ring r).written - (s.dev.ring r).consumed) ∧
      (d.ring r).written = (s.dev.ring r).written ∧ (d.ring r).cmds = (s.dev.ring r).cmds ∧ s.dev.sameMemory d))

/-- Admission gives the oldest fetched command of a ring its verdict: an admitted command takes the promise, its plains, its work and
the tick of admission, and its dynamic entries are staged; a command that fails a format check, and one whose promise is too short,
are done with that status and no promise; one that is over grant is done with REFUSED_FIT, its shortfall record written to its slot
in host memory, and waits while that slot is in use. After a trip every command ends with THERMAL_TRIP, and in a partition that lost
a plain with PLAIN_LOST. The model's choices it rests on: log entries 24, 25. -/
def Obligations.AdmissionGivesItsVerdict : Prop :=
  ∀ (s : State) (r : RingId) (c : Cmd), s.dev.ccx.sup = .ready → s.dev.ccx.harts = true → s.dev.resets r = false →
    (s.dev.ring r).cmds = [c] → c.stage = .fetched →
    (s.dev.isTripped = true → Completes (.admission r) s (fun d =>
      ∃ e, (d.ring r).cmds = [e] ∧ e.stage = .done ∧ e.status = .thermalTrip ∧ e.index = c.index ∧ s.dev.sameMemory d)) ∧
    (∀ p, r.fn = .vf p → s.dev.isTripped = false → (s.dev.part p).lost = true → Completes (.admission r) s (fun d =>
      ∃ e, (d.ring r).cmds = [e] ∧ e.stage = .done ∧ e.status = .plainLost ∧ e.promise = 0 ∧ e.index = c.index ∧
        s.dev.sameMemory d)) ∧
    (s.dev.isTripped = false → (∀ p, r.fn = .vf p → (s.dev.part p).lost = false) →
      (∀ us plains work staged, s.dev.judgeCmd r c = .ok us plains work staged →
        (staged = [] ∨ s.dev.stagedCmds < 256 → Completes (.admission r) s (fun d =>
          (d.ring r).cmds = [{ c with stage := .admitted, admTick := s.dev.pwr.aon, promise := us, plains := plains, work := work }] ∧
          d.ccx.staging = s.dev.ccx.staging ++ (if staged = [] then [] else [{ ring := r, index := c.index, entries := staged }]) ∧
          d.plains = s.dev.plains ∧ s.dev.sameMemory d)) ∧
        (staged ≠ [] → 256 ≤ s.dev.stagedCmds → Completes (.admission r) s (fun d => d = s.dev))) ∧
      (s.dev.judgeCmd r c = .format → Completes (.admission r) s (fun d =>
        ∃ e, (d.ring r).cmds = [e] ∧ e.stage = .done ∧ e.status = .refusedFormat ∧ e.promise = 0 ∧ e.index = c.index ∧
          s.dev.sameMemory d)) ∧
      (s.dev.judgeCmd r c = .promise → Completes (.admission r) s (fun d =>
        ∃ e, (d.ring r).cmds = [e] ∧ e.stage = .done ∧ e.status = .refusedPromise ∧ e.promise = 0 ∧ e.index = c.index ∧
          s.dev.sameMemory d)) ∧
      (∀ (p : Fin 64) (stage : BitVec 8) (l : List Shortfall), r.fn = .vf p → s.dev.judgeCmd r c = .short stage l →
        ((s.dev.ring r).slotFree c = true → s.dev.hostMem.wf = true → Completes (.admission r) s (fun d =>
          (∃ e, (d.ring r).cmds = [e] ∧ e.stage = .done ∧ e.status = .refusedFit ∧ e.promise = 0 ∧ e.info = shortSlot c.index ∧
            e.index = c.index) ∧
          readBytes d.hostMem ((dword (s.dev.part p).shortLo (s.dev.part p).shortHi).toNat + 0x1000 * r.q.val +
            0x100 * (c.index.toNat % 16)) 256 = (shortRecord c stage l).flatMap wordBytes ∧
          d.mem = s.dev.mem ∧ d.ecc = s.dev.ecc)) ∧
        ((s.dev.ring r).slotFree c = false → Completes (.admission r) s (fun d => d = s.dev))))

/-- A command starts when its ring, its plains and its WAIT let it: START takes the always-on tick, and the command takes its
plains; one whose WAIT is not satisfied begins to wait. The completion record of the ring's oldest command, once it is done and a
slot is free, is 32 bytes at CQ_TAIL; every other byte of host memory is unchanged. A NOP that started ends with OK inside its
promise. The model's choices it rests on: log entries 23, 25. -/
def Obligations.CommandsStartEndAndAreRecorded : Prop :=
  ∀ (s : State), s.dev.ccx.sup = .ready →
    (∀ (q : Fin 4) (c : Cmd), s.dev.isTripped = false → (s.dev.ring { fn := .pf, q := q }).cmds = [c] →
      (s.dev.ring { fn := .pf, q := q }).nextStart = some c → c.plains = [] → (∀ x y, c.work ≠ .collective x y) →
      Completes (.commandStart { fn := .pf, q := q }) s (fun d =>
        ∃ e, (d.ring { fn := .pf, q := q }).cmds = [e] ∧ e.stage = .started ∧ e.startTick = s.dev.pwr.aon ∧
          e.r64Tick = s.dev.pwr.aon ∧ e.words = c.words ∧ s.dev.sameMemory d ∧ d.parts = s.dev.parts)) ∧
    (∀ (p : Fin 64) (r : RingId) (c : Cmd), r.fn = .vf p → s.dev.isTripped = false → (s.dev.part p).state ≠ .resetting →
      (s.dev.part p).lost = false → (s.dev.ring r).cmds = [c] → (s.dev.ring r).nextStart = some c →
      s.dev.turnOf p r c = true → s.dev.snapshotFree p r c = true →
      (enOf c.startWait = false ∨ s.dev.waitMet p (ctrOf c.startWait) (valOf c.startWait) = true →
        (∀ x y, c.work ≠ .collective x y) → (∀ x, c.work ≠ .snapshot x) → (∀ x, c.work ≠ .sample x) →
        Completes (.commandStart r) s (fun d =>
          ∃ e, (d.ring r).cmds = [e] ∧ e.stage = .started ∧ e.startTick = s.dev.pwr.aon ∧ e.words = c.words ∧
            (∀ i ∈ c.plains, d.plain i = { s.dev.plain i with
              job := some (r, c.index), seq := { (s.dev.plain i).seq with done := [], lastDone := 0x1FF } }) ∧
            (∀ i, i ∉ c.plains → d.plain i = s.dev.plain i) ∧ s.dev.sameMemory d)) ∧
      (enOf c.startWait = true → s.dev.waitMet p (ctrOf c.startWait) (valOf c.startWait) = false → c.waited = false →
        Completes (.commandStart r) s (fun d =>
          (d.ring r).cmds = [{ c with waited := true }] ∧
          d.waits = s.dev.waits ++ [{
            part := p, who := .command r c.index, ctr := ctrOf c.startWait, val := valOf c.startWait
            since := s.dev.pwr.aon, met := false }] ∧
          d.plains = s.dev.plains ∧ s.dev.sameMemory d))) ∧
    (∀ (r : RingId) (c : Cmd) (rest : List Cmd), (s.dev.ring r).cmds = c :: rest → c.stage = .done →
      (s.dev.ring r).written - (s.dev.ring r).consumed + 1 < (s.dev.ring r).size → s.dev.hostMem.wf = true →
      Completes (.completionRecordWrite r) s (fun d =>
        (d.ring r).written = (s.dev.ring r).written + 1 ∧
        readBytes d.hostMem ((s.dev.ring r).cqBase + 32 * ((s.dev.ring r).written % (s.dev.ring r).size)) 32 =
          (c.record s.dev.ccx.epoch (s.dev.ring r).phase).flatMap wordBytes ∧
        (∀ a, ¬ ((s.dev.ring r).cqBase + 32 * ((s.dev.ring r).written % (s.dev.ring r).size) ≤ a ∧
            a < (s.dev.ring r).cqBase + 32 * ((s.dev.ring r).written % (s.dev.ring r).size) + 32) →
          readByte d.hostMem a = readByte s.dev.hostMem a) ∧
        d.mem = s.dev.mem ∧ d.ecc = s.dev.ecc)) ∧
    (∀ (r : RingId) (c : Cmd), s.dev.isTripped = false → (s.dev.ring r).cmds = [c] → c.stage = .started → c.opcode = 0x60 →
      c.plains = [] → c.work = .none → elapsedUs c.startTick s.dev.pwr.aon ≤ c.promise.toNat →
      Completes (.nop r) s (fun d =>
        (d.ring r).cmds = [{ c with
          stage := .done, doneTick := s.dev.pwr.aon, status := .ok, lastDesc := 0, info := 0, aux := 0, work := .none }] ∧
        s.dev.sameMemory d ∧ d.plains = s.dev.plains))

/-- A started LOAD_IMAGE whose partition owes no fill and is not LOADED leaves the partition LOADED with that image, its counters at
0, and its plains' stream counters at 0; while a fill is owed it waits. A started UNLOAD_IMAGE of a LOADED partition leaves it IDLE
with no image, counters or shard table. Either ends with REFUSED_FORMAT where the partition has meanwhile got into the other state.
A started RUN or SERVE_MIX begins on its idle plain, on which no thread runs: the plain is BUSY with the entries of its static range
to run and its instruction cache taken from SRAM. The model's choices it rests on: log entries 11, 25, 37. -/
def Obligations.ImageCommandsTakeEffect : Prop :=
  ∀ (s : State) (p : Fin 64) (q : Fin 4) (c : Cmd), s.dev.ccx.sup = .ready → s.dev.isTripped = false →
    (s.dev.ring { fn := .vf p, q := q }).cmds = [c] → c.stage = .started →
    (c.opcode = 0x01 → (s.dev.part p).fills ≠ [] → Completes (.loadImage p q) s (fun d => d = s.dev)) ∧
    (c.opcode = 0x01 → (s.dev.part p).fills = [] → (s.dev.part p).state = .loaded → c.plains = [] →
      elapsedUs c.startTick s.dev.pwr.aon ≤ c.promise.toNat → Completes (.loadImage p q) s (fun d =>
        (∃ e, (d.ring { fn := .vf p, q := q }).cmds = [e] ∧ e.stage = .done ∧ e.status = .refusedFormat) ∧
        d.parts = s.dev.parts ∧ d.plains = s.dev.plains ∧ s.dev.sameMemory d)) ∧
    (c.opcode = 0x02 → (s.dev.part p).state ≠ .loaded → c.plains = [] →
      elapsedUs c.startTick s.dev.pwr.aon ≤ c.promise.toNat → Completes (.unloadImage p q) s (fun d =>
        (∃ e, (d.ring { fn := .vf p, q := q }).cmds = [e] ∧ e.stage = .done ∧ e.status = .refusedFormat) ∧
        d.plains = s.dev.plains ∧ (d.part p).state = (s.dev.part p).state ∧ s.dev.sameMemory d)) ∧
    (∀ im : Image, c.opcode = 0x01 → (s.dev.part p).fills = [] → (s.dev.part p).state ≠ .loaded →
      s.dev.imageAt c.ptrHost c.ptr = some im →
      Completes (.loadImage p q) s (fun d =>
        (d.part p).state = .loaded ∧ (d.part p).imageId = c.imageId ∧ (d.part p).image = some im ∧
        (d.part p).counters = im.placed ∧ (∀ i ∈ s.dev.plainsOf p, (d.plain i).ctrs = Tab.all 66 0) ∧
        d.hostMem = s.dev.hostMem)) ∧
    (c.opcode = 0x02 → (s.dev.part p).state = .loaded → s.dev.granted p = true →
      Completes (.unloadImage p q) s (fun d =>
        (d.part p).state = .idle ∧ (d.part p).image = none ∧ (d.part p).imageId = 0 ∧ (d.part p).counters = [] ∧
        (d.part p).shards = [] ∧ s.dev.sameMemory d)) ∧
    (∀ (k : Instr) (op : Nat) (w : RunWork) (i : Fin 64),
      (k = .run p q ∧ op = 0x10) ∨ (k = .serveMix p q ∧ op = 0x12) → c.opcode = op → c.work = .run w → w.begun = false →
      c.plains = [i] → (s.dev.plain i).state = .idle → (s.dev.plain i).threaded = false → w.entry.list i (s.dev.plain i).dynFirst.toNat 0 ≠ [] →
      s.dev.ccx.staging = [] →
      Completes k s (fun d =>
        (d.plain i).state = .busy ∧ (d.plain i).seq.list = w.entry.list i (s.dev.plain i).dynFirst.toNat 0 ∧
        (d.plain i).icache = (s.dev.plain i).sram ∧ (d.plain i).sram = (s.dev.plain i).sram ∧
        (d.plain i).job = some ({ fn := .vf p, q := q }, c.index) ∧ (d.plain i).acc = Tab.all 2 AccHalf.reset ∧
        (∀ j, j ≠ i → d.plain j = s.dev.plain j) ∧ s.dev.sameMemory d))

/-- A COPY issues its reads; when a regulator holds none of them it moves its bytes, whether each end is host or device memory:
afterwards the destination reads the bytes that the source held before, and every byte outside the destination, in either memory, is
unchanged. It ends with OK when the regulators hold none of its writes, and waits while they do. The model's choices it rests on: log
entry 26. -/
def Obligations.CopyMovesItsBytes : Prop :=
  ∀ (s : State) (r : RingId) (c : Cmd), s.dev.ccx.sup = .ready → s.dev.isTripped = false →
    (s.dev.ring r).cmds = [c] → c.stage = .started → c.opcode = 0x50 → c.plains = [] →
    (∀ b, c.work = .copy .issued b → (s.dev.chargeReads (s.dev.copyBytes r c).1).holdsAny r = true →
      Completes (.copy r) s (fun d =>
        (d.ring r).cmds = [{ c with work := .copy .started false }] ∧ d.plains = s.dev.plains ∧ s.dev.sameMemory d)) ∧
    (∀ b, (c.work = .copy .issued b ∧ (s.dev.chargeReads (s.dev.copyBytes r c).1).holdsAny r = false) ∨
        (c.work = .copy .started b ∧ s.dev.holdsAny r = false) →
      s.dev.storageWf → s.dev.ecc = [] → (∀ u, s.dev.owed u = false) →
      ((CopyCmd.src c).1 = false → ∀ a, (CopyCmd.src c).2 ≤ a → a < (CopyCmd.src c).2 + CopyCmd.len c → s.dev.trippedAt a = false) →
      Completes (.copy r) s (fun d => s.dev.copied c d ∧ d.ecc = [] ∧ d.plains = s.dev.plains)) ∧
    (∀ b, c.work = .copy .moved b → s.dev.holdsAny r = false → elapsedUs c.startTick s.dev.pwr.aon ≤ c.promise.toNat →
      Completes (.copy r) s (fun d =>
        (∃ e, (d.ring r).cmds = [e] ∧ e.stage = .done ∧ e.status = if b then .poisonConsumed else .ok) ∧
        d.plains = s.dev.plains ∧ s.dev.sameMemory d)) ∧
    (∀ b g, c.work = .copy g b → g ≠ .issued → s.dev.holdsAny r = true → Completes (.copy r) s (fun d => d = s.dev))

/-! ### Threads, counters and barriers (R117 to R121, R211 to R231) -/

/-- The thread that issues next runs the instruction at its pc: ADDI writes rd and advances the pc by 4; a word store writes its
four bytes of SRAM and no other byte; a word load from SRAM stalls the thread until the load returns, and vsetvli sets vl to at
most VLMAX. A vector load from SRAM stalls the thread at its pc until it returns. No other thread of the plain changes, and no memory
outside the plain. ECALL ends the thread; an SRAM load that returns writes its register and ends the stall. The model's choices it
rests on: log entries 22, 37. -/
def Obligations.ThreadsRunEndAndLoad : Prop :=
  (∀ (s : State) (i t : Fin 64) (rd rs1 rs2 : Fin 32) (imm : Nat), (s.dev.plain i).coreBad = false → imm < 2048 →
     (s.dev.pick i false = some t →
       (s.dev.plain i).fetch (s.dev.thread i t).pc = .ins (some (encI 0x13 0 rd.val rs1.val imm)) 4 →
       Completes (.threadInstruction i false) s (fun d =>
         (d.thread i t).xr rd = (if rd = 0 then 0 else (s.dev.thread i t).xr rs1 + BitVec.ofNat 64 imm) ∧
         (∀ r, r ≠ rd → (d.thread i t).xr r = (s.dev.thread i t).xr r) ∧
         (d.thread i t).pc = (s.dev.thread i t).pc + 4 ∧ (d.thread i t).f = (s.dev.thread i t).f ∧
         (d.plain i).rrScalar = t ∧ (d.plain i).sram = (s.dev.plain i).sram ∧
         (∀ k, k ≠ t → d.thread i k = s.dev.thread i k) ∧ s.dev.sameMemory d)) ∧
     (s.dev.pick i false = some t → s.dev.storageWf →
       (s.dev.plain i).fetch (s.dev.thread i t).pc = .ins (some (encS 0x23 2 rs1.val rs2.val imm)) 4 →
       ((s.dev.thread i t).xr rs1 + BitVec.ofNat 64 imm).toNat % 4 = 0 →
       ((s.dev.thread i t).xr rs1 + BitVec.ofNat 64 imm).toNat < sramBytes →
       (s.dev.plain i).marked (lineOf ((s.dev.thread i t).xr rs1 + BitVec.ofNat 64 imm).toNat) = false →
       Completes (.threadInstruction i false) s (fun d =>
         readBytes (d.plain i).sram ((s.dev.thread i t).xr rs1 + BitVec.ofNat 64 imm).toNat 4 =
           wordBytes (lo32 ((s.dev.thread i t).xr rs2)) ∧
         (∀ a, ¬ (((s.dev.thread i t).xr rs1 + BitVec.ofNat 64 imm).toNat ≤ a ∧
             a < ((s.dev.thread i t).xr rs1 + BitVec.ofNat 64 imm).toNat + 4) →
           readByte (d.plain i).sram a = readByte (s.dev.plain i).sram a) ∧
         (d.thread i t).pc = (s.dev.thread i t).pc + 4 ∧ (d.thread i t).x = (s.dev.thread i t).x ∧
         (∀ k, k ≠ t → d.thread i k = s.dev.thread i k) ∧ s.dev.sameMemory d)) ∧
     (s.dev.pick i false = some t →
       (s.dev.plain i).fetch (s.dev.thread i t).pc = .ins (some (encI 0x03 2 rd.val rs1.val imm)) 4 →
       ((s.dev.thread i t).xr rs1 + BitVec.ofNat 64 imm).toNat % 4 = 0 →
       ((s.dev.thread i t).xr rs1 + BitVec.ofNat 64 imm).toNat < sramBytes →
       Completes (.threadInstruction i false) s (fun d =>
         (d.thread i t).stall = .load false rd ((s.dev.thread i t).xr rs1 + BitVec.ofNat 64 imm).toNat 4 true ∧
         (d.thread i t).pc = (s.dev.thread i t).pc + 4 ∧ (d.thread i t).x = (s.dev.thread i t).x ∧
         (d.plain i).sram = (s.dev.plain i).sram ∧ s.dev.sameMemory d)) ∧
     (s.dev.pick i true = some t → rs1 ≠ 0 → rd ≠ 0 →
       (s.dev.plain i).fetch (s.dev.thread i t).pc = .ins (some (encI 0x57 7 rd.val rs1.val 0xD0)) 4 →
       Completes (.threadInstruction i true) s (fun d =>
         (d.thread i t).vl = min ((s.dev.thread i t).xr rs1).toNat 32 ∧
         (d.thread i t).xr rd = BitVec.ofNat 64 (min ((s.dev.thread i t).xr rs1).toNat 32) ∧
         (d.thread i t).pc = (s.dev.thread i t).pc + 4 ∧ (d.thread i t).v = (s.dev.thread i t).v ∧
         (d.plain i).sram = (s.dev.plain i).sram ∧ s.dev.sameMemory d))) ∧
  (∀ (s : State) (i t : Fin 64) (w : Word) (m : VMem), (s.dev.plain i).coreBad = false → s.dev.pick i true = some t →
     (s.dev.plain i).fetch (s.dev.thread i t).pc = .ins (some w) 4 → isVector w = true → bits w 0 7 = 0x07 →
     (s.dev.thread i t).vmem w = some m → (s.dev.thread i t).loadsSram m = true →
     Completes (.threadInstruction i true) s (fun d =>
       (d.thread i t).stall = .vload ∧ (d.thread i t).pc = (s.dev.thread i t).pc ∧ (d.thread i t).v = (s.dev.thread i t).v ∧
       (∀ k, k ≠ t → d.thread i k = s.dev.thread i k) ∧ (d.plain i).sram = (s.dev.plain i).sram ∧ s.dev.sameMemory d)) ∧
  (∀ (s : State) (i t : Fin 64),
     (s.dev.pick i false = some t → (s.dev.plain i).coreBad = false →
       (s.dev.plain i).fetch (s.dev.thread i t).pc = .ins (some 0x00000073) 4 →
       Completes (.ecall i t) s (fun d =>
         (d.thread i t).live = false ∧ (d.thread i t).x = (s.dev.thread i t).x ∧ (d.thread i t).pc = (s.dev.thread i t).pc ∧
         (∀ k, k ≠ t → d.thread i k = s.dev.thread i k) ∧ (d.plain i).sram = (s.dev.plain i).sram ∧ s.dev.sameMemory d)) ∧
     (∀ (rd : Fin 32) (a size : Nat) (signed : Bool), (s.dev.thread i t).stall = .load false rd a size signed →
       (s.dev.thread i t).live = true → (s.dev.plain i).state = .busy → (s.dev.plain i).parity = [] →
       Completes (.threadLoadReturn i t) s (fun d =>
         (d.thread i t).stall = s.dev.heldIn i t ∧
         (d.thread i t).xr rd = (if rd = 0 then 0
           else if signed then sext (8 * size) (leNat (readBytes (s.dev.plain i).sram a size))
           else BitVec.ofNat 64 (leNat (readBytes (s.dev.plain i).sram a size))) ∧
         (∀ r, r ≠ rd → (d.thread i t).xr r = (s.dev.thread i t).xr r) ∧ (d.plain i).sram = (s.dev.plain i).sram ∧
         (∀ k, k ≠ t → d.thread i k = s.dev.thread i k) ∧ s.dev.sameMemory d)))

/-- The port operations of a ready thread (R215 to R218, R222): ADD joins the counter's additions and wakes a stopped home, WAIT
stalls the thread until its counter holds enough, READ_SEL and READ return the counter and its sticky flags, the thread's own
addition before it included, REMOTE_COL and REMOTE_ADD send an addition on the port of a bound col, or leave it waiting there,
BAR_ARRIVE and BAR_SYNC send an arrival to the hub. The model's choices it rests on: log entries 37, 48. -/
def Obligations.SynPortOperations : Prop :=
  ∀ (s : State) (p i t : Fin 64) (v : Word), s.dev.plainOwner i = some p → s.dev.ready i t = true →
    (∀ c : Counter, bits v 12 3 = 0 → (ctrOf v).toNat < s.dev.quotaQ p → (s.dev.part p).counter (ctrOf v) = some c →
      (s.dev.part p).state ≠ .resetting → (s.dev.plain c.home).state ≠ .fenced →
      Completes (.synAdd i t v) s (fun d =>
        (d.part p).counter (ctrOf v) =
          some { c with adds := c.adds ++ [{ plain := some i, thread := some t, amt := signedAmt v }] } ∧
        (d.plain c.home).state = (if (s.dev.plain c.home).state = .stopped then .waking else (s.dev.plain c.home).state) ∧
        (∀ j, j ≠ c.home → d.plain j = s.dev.plain j) ∧ s.dev.sameMemory d)) ∧
    (bits v 12 4 = 0 → (ctrOf v).toNat < s.dev.quotaQ p →
      (valOf v = 0 → Completes (.synWait i t v) s (fun d => d = s.dev)) ∧
      (valOf v ≠ 0 → (∀ c, (s.dev.part p).counter (ctrOf v) = some c → c.adds = []) → Completes (.synWait i t v) s (fun d =>
        (d.thread i t).stall = .synWait ∧
        d.waits = s.dev.waits ++ [{
          part := p, who := .thread i t, ctr := ctrOf v, val := valOf v, since := s.dev.pwr.aon
          met := s.dev.waitMet p (ctrOf v) (valOf v) }] ∧
        (∀ k, k ≠ t → d.thread i k = s.dev.thread i k) ∧ d.parts = s.dev.parts ∧ s.dev.sameMemory d))) ∧
    (bits v 12 20 = 0 → (ctrOf v).toNat < s.dev.quotaQ p →
      Completes (.readSel i t v) s (fun d =>
        (d.thread i t).readSel = ctrOf v ∧ (d.thread i t).x = (s.dev.thread i t).x ∧ d.parts = s.dev.parts ∧
        s.dev.sameMemory d)) ∧
    (∀ (rd : Fin 32) (c : Counter), (s.dev.part p).counter (s.dev.thread i t).readSel = some c →
      (c.adds = [] → Completes (.synRead i t rd) s (fun d =>
        (d.thread i t).xr rd = (if rd = 0 then 0 else
          BitVec.ofNat 64 (c.value.toNat + 65536 * b2n c.satHi + 131072 * b2n c.satLo)) ∧
        (∀ r, r ≠ rd → (d.thread i t).xr r = (s.dev.thread i t).xr r) ∧ d.parts = s.dev.parts ∧ s.dev.sameMemory d)) ∧
      (∀ n : Int, c.adds = [{ plain := some i, thread := some t, amt := n }] → 0 ≤ (c.value.toNat : Int) + n →
        (c.value.toNat : Int) + n ≤ 65535 → (s.dev.part p).state ≠ .resetting → (s.dev.plain c.home).state ≠ .fenced →
        Completes (.synRead i t rd) s (fun d =>
          (d.thread i t).xr rd = (if rd = 0 then 0 else
            BitVec.ofNat 64 (((c.value.toNat : Int) + n).toNat + 65536 * b2n c.satHi + 131072 * b2n c.satLo)) ∧
          (∀ r, r ≠ rd → (d.thread i t).xr r = (s.dev.thread i t).xr r) ∧ s.dev.sameMemory d))) ∧
    (∀ c : Fin 16, bits v 0 4 = c.val → bits v 4 28 = 0 → s.dev.colPart c = some p →
      Completes (.remoteCol i t v) s (fun d =>
        (d.thread i t).remoteCol.toNat = c.val ∧ (d.thread i t).x = (s.dev.thread i t).x ∧ s.dev.sameMemory d)) ∧
    (∀ (c k : Fin 16) (rest : List (Fin 16)), (s.dev.thread i t).remoteCol.toNat = c.val → bits v 12 3 = 0 →
      (ctrOf v).toNat < s.dev.quotaQ p → s.dev.colPart c = some p →
      ((s.dev.bank (axisOf c)).line = false → Completes (.remoteAdd i t v) s (fun d => d = s.dev)) ∧
      ((s.dev.bank (axisOf c)).line = true → s.dev.portCols (axisOf c) (plusCol c) = k :: rest → (s.dev.col k).txWait = [] →
        ((s.dev.col k).state = .active → (s.dev.col k).unacked.length < 1024 → Completes (.remoteAdd i t v) s (fun d =>
          (∃ f : Flit, d.out.cols = (k, f) :: s.dev.out.cols ∧ f.body = .remoteAdd v ∧ f.part = p ∧ f.crcOk = true ∧
            f.seq = (s.dev.col k).txSeq) ∧
          d.plains = s.dev.plains ∧ s.dev.sameMemory d)) ∧
        ((s.dev.col k).state ≠ .active → Completes (.remoteAdd i t v) s (fun d =>
          (∃ b, (d.col k).txWait = [(b, p, .remoteAdd v)]) ∧ d.out = s.dev.out ∧ d.plains = s.dev.plains ∧
          s.dev.sameMemory d)))) ∧
    (∀ (b : Fin 32) (sync : Bool), bits v 0 5 = b.val → bits v 5 27 = 0 → s.dev.barOwner b = some p →
      (s.dev.part p).bars.contains b = true → (Tab.at s.dev.bars b).member i = true → (Tab.at s.dev.bars b).state ≠ .failed →
      ((Tab.at s.dev.bars b).groupEn = true → 2 ≤ (Tab.at s.dev.bars b).members.toNat) →
      Completes (if sync then .barSync i t v else .barArrive i t v) s (fun d =>
        (Tab.at d.bars b).flying = (Tab.at s.dev.bars b).flying ++ [{
          plain := i, thread := t, sync := sync, pc := (s.dev.thread i t).pc, job := (s.dev.thread i t).job }] ∧
        (Tab.at d.bars b).counts = (Tab.at s.dev.bars b).counts ∧
        (d.thread i t).stall = (if sync then .barSync b else .none) ∧ s.dev.sameMemory d))

/-- At its home a counter takes the net amount of the cycle once, held between 0 and 65,535 with the sticky flag of the bound
that it met; the waits that it then meets are satisfied, whatever is added later. In a resetting partition, or at a fenced home, the
additions are dropped. A satisfied wait is released, and no other; an expired one ends with its watchdog. The model's choices it
rests on: log entry 38. -/
def Obligations.CountersApplyReleaseAndExpire : Prop :=
  ∀ s : State,
    (∀ (p : Fin 64) (n : BitVec 12) (c : Counter) (v : Int) (u : BitVec 16), (s.dev.part p).counter n = some c → c.adds ≠ [] →
      v = (c.value.toNat : Int) + c.adds.foldl (fun a b => a + b.amt) 0 →
      u = (if 65535 < v then 0xFFFF else if v < 0 then 0 else BitVec.ofInt 16 v) →
      ((s.dev.part p).state ≠ .resetting → (s.dev.plain c.home).state ≠ .fenced →
        Completes (.counterAddApply p n) s (fun d =>
          (d.part p).counter n = some { c with
            adds := [], value := u, satHi := c.satHi || decide (65535 < v), satLo := c.satLo || decide (v < 0) } ∧
          d.waits = s.dev.waits.map (fun w => if w.part = p ∧ w.ctr = n
            then { w with met := w.met || decide (w.val = 0) || decide (w.val ≤ u) } else w) ∧
          (∀ q, q ≠ p → d.part q = s.dev.part q) ∧ d.plains = s.dev.plains ∧ s.dev.sameMemory d)) ∧
      ((s.dev.part p).state = .resetting ∨ (s.dev.plain c.home).state = .fenced →
        Completes (.counterAddApply p n) s (fun d =>
          (d.part p).counter n = some { c with adds := [] } ∧ d.waits = s.dev.waits ∧ d.plains = s.dev.plains ∧
          s.dev.sameMemory d))) ∧
    (∀ (who : Waiter) (w : Wait), s.dev.waitOf who = some w →
      (w.met = true → Completes (.counterWaitRelease who) s (fun d =>
        d.waiting who = false ∧
        (∀ i t, who = .thread i t → (d.thread i t).stall = s.dev.heldIn i t ∧ (d.thread i t).live = (s.dev.thread i t).live) ∧
        (∀ i, who = .descriptor i → (d.plain i).seq.waiting = false) ∧ d.parts = s.dev.parts ∧ s.dev.sameMemory d)) ∧
      (w.met = false → Completes (.counterWaitRelease who) s (fun d => d = s.dev))) ∧
    (∀ (i t : Fin 64) (w : Wait), s.dev.waitOf (.thread i t) = some w → w.met = false →
      (s.dev.part w.part).ctrWdog.toNat ≤ (s.dev.pwr.aon - w.since).toNat →
      Completes (.counterWatchdog (.thread i t)) s (fun d =>
        d.waiting (.thread i t) = false ∧ (d.thread i t).live = false ∧ s.dev.sameMemory d))

/-- An arrival at the hub counts for its plain and makes the slot ACTIVE; one of a plain that has arrived is held with its thread for the
next generation; a slot whose members all arrived completes: GEN
advances, it is IDLE again and its stalled threads go on; a slot whose watchdog expires is FAILED. The model's choices it rests
on: log entries 33, 38. -/
def Obligations.BarrierSlotsCountCompleteAndExpire : Prop :=
  ∀ (s : State) (b : Fin 32),
    (∀ (i t : Fin 64) (a : Arrival), (Tab.at s.dev.bars b).flying = [a] → a.plain = i → a.thread = t →
      (∀ k, k ≠ b → (Tab.at s.dev.bars k).flying = []) → (Tab.at s.dev.bars b).state ≠ .failed →
      (Tab.at s.dev.bars b).member i = true → (Tab.at s.dev.bars b).groupEn = false → (∀ c, (s.dev.col c).rxWait = []) →
      ((Tab.at s.dev.bars b).arrived i = false → Completes (.barrierArrival i t) s (fun d =>
        (Tab.at d.bars b).state = .active ∧ (Tab.at d.bars b).flying = [] ∧
        Tab.at (Tab.at d.bars b).counts i = Tab.at (Tab.at s.dev.bars b).counts i + 1 ∧
        (∀ j, j ≠ i → Tab.at (Tab.at d.bars b).counts j = Tab.at (Tab.at s.dev.bars b).counts j) ∧
        (a.sync = true → (d.thread i t).stall = .barSync b) ∧
        (∀ k, k ≠ b → Tab.at d.bars k = Tab.at s.dev.bars k) ∧ s.dev.sameMemory d)) ∧
      ((Tab.at s.dev.bars b).arrived i = true → Completes (.barrierArrival i t) s (fun d =>
        (Tab.at d.bars b).held = (Tab.at s.dev.bars b).held ++ [a] ∧ (Tab.at d.bars b).flying = [] ∧
        (Tab.at d.bars b).counts = (Tab.at s.dev.bars b).counts ∧
        (a.job ≠ none → (s.dev.thread i t).stall = .none → (d.thread i t).stall = .barHeld b) ∧
        (∀ k, k ≠ b → Tab.at d.bars k = Tab.at s.dev.bars k) ∧ s.dev.sameMemory d))) ∧
    ((Tab.at s.dev.bars b).state = .active → (Tab.at s.dev.bars b).complete = true → (Tab.at s.dev.bars b).groupEn = false →
      (Tab.at s.dev.bars b).held = [] → (∀ c, (s.dev.col c).rxWait = []) →
      Completes (.barrierComplete b) s (fun d =>
        (Tab.at d.bars b).state = .idle ∧ (Tab.at d.bars b).gen = (Tab.at s.dev.bars b).gen + 1 ∧
        (Tab.at d.bars b).counts = Tab.all 64 0 ∧ (Tab.at d.bars b).stalled = [] ∧
        (∀ a ∈ (Tab.at s.dev.bars b).stalled, (s.dev.thread a.plain a.thread).stall = .barSync b →
          (d.thread a.plain a.thread).stall = s.dev.heldIn a.plain a.thread) ∧
        (∀ k, k ≠ b → Tab.at d.bars k = Tab.at s.dev.bars k) ∧ s.dev.sameMemory d)) ∧
    ((Tab.at s.dev.bars b).state = .active → s.dev.barDue b = none → (Tab.at s.dev.bars b).groupEn = false →
      (Tab.at s.dev.bars b).wdog.toNat ≤ (s.dev.pwr.aon - (Tab.at s.dev.bars b).first).toNat →
      Completes (.barrierWatchdog b) s (fun d =>
        (Tab.at d.bars b).state = .failed ∧ (Tab.at d.bars b).gen = (Tab.at s.dev.bars b).gen ∧
        (Tab.at d.bars b).stalled = [] ∧ s.dev.sameMemory d))

/-! ### DMA, the sequencer and the matrix engine (R125 to R155, R181 to R210) -/

/-- A store of a request's last word issues it: a request that passes its checks joins the engine of the plain behind the
others, and nothing moves yet; while the thread has sixteen that are not complete, the engine holds the thread at the store. One that
fails its checks, or whose kind is another, ends the thread. The model's choices it rests on: log entries 27, 50. -/
def Obligations.DmaRequestsAreIssuedOrFault : Prop :=
  ∀ (s : State) (p i t : Fin 64) (w : Tab Word 16) (c : Instr) (k : Nat), s.dev.plainOwner i = some p → s.dev.ready i t = true →
    (c, k) ∈ [(Instr.dmaCopy i t w, 0x01), (.kvAppend i t w, 0x04), (.pageLoad i t w, 0x05), (.halo i t w, 0x08),
      (.expand i t w, 0x09), (.gather i t w, 0x0A)] →
    (reqKind w = k → s.dev.issueOk p i t w = true → (s.dev.plain i).outstanding t < 16 →
      Completes c s (fun d =>
        (d.plain i).reqs = (s.dev.plain i).reqs ++ [s.dev.newReq i t w] ∧
        (s.dev.newReq i t w).words = w ∧ (s.dev.newReq i t w).stage = .issued ∧ (s.dev.newReq i t w).thread = t ∧
        (d.plain i).nextReq = (s.dev.plain i).nextReq + 1 ∧ (d.plain i).threads = (s.dev.plain i).threads ∧
        (d.waiting (.request i (s.dev.plain i).nextReq) = (s.dev.waiting (.request i (s.dev.plain i).nextReq) ||
          (enOf (reqWait w) && !s.dev.waitMet p (ctrOf (reqWait w)) (valOf (reqWait w))))) ∧
        (d.plain i).sram = (s.dev.plain i).sram ∧ (∀ j, j ≠ i → d.plain j = s.dev.plain j) ∧ d.parts = s.dev.parts ∧
        s.dev.sameMemory d)) ∧
    (reqKind w = k → s.dev.issueOk p i t w = true → 16 ≤ (s.dev.plain i).outstanding t →
      Completes c s (fun d =>
        (d.thread i t).stall = .dmaFull w (s.dev.thread i t).pc ∧ (d.plain i).reqs = (s.dev.plain i).reqs ∧
        (∀ u, u ≠ t → d.thread i u = s.dev.thread i u) ∧ (∀ j, j ≠ i → d.plain j = s.dev.plain j) ∧ d.parts = s.dev.parts ∧
        s.dev.sameMemory d)) ∧
    (s.dev.issueOk p i t w = false ∨ reqKind w ≠ k → Completes c s (fun d =>
      (d.thread i t).live = false ∧ (d.plain i).sram = (s.dev.plain i).sram ∧ s.dev.sameMemory d))

/-- A COPY request of one row from device memory to the plain's own SRAM issues its reads when it starts, and moves its bytes and
ends when they are back; the commit of a KV page writes the four bytes of the directory entry; a request that has moved and written
everything is gone and applies its POST, a signed addition. The model's choices it rests on: log entries 27, 47, 50. -/
def Obligations.DmaRequestsMoveCommitAndPost : Prop :=
  ∀ (s : State) (p i : Fin 64) (id : Nat) (q : DmaReq), s.dev.plainOwner i = some p → s.dev.req i id = some q →
    (reqKind q.words = 0x01 → CopyReq.rows q.words = 1 → CopyReq.conv q.words = false → (locAt q.words 8).loc i = .dev →
      (locAt q.words 10).loc i = .sram i → (s.dev.plain i).state = .busy →
      (s.dev.ccx.sup = .ready → (s.dev.part p).state ≠ .resetting → s.dev.canStart i q = true →
        s.dev.ownerAt (locAt q.words 8).addr = some p → 0 < CopyReq.rowBytes q.words →
        Completes (.dmaRequestStart i id) s (fun d =>
          d.req i id = some { q with stage := .started, since := s.dev.pwr.aon } ∧ d.holds p (.request i id) = true ∧
          (d.plain i).sram = (s.dev.plain i).sram ∧ (d.plain i).threads = (s.dev.plain i).threads ∧
          (∀ j, j ≠ i → d.plain j = s.dev.plain j) ∧ s.dev.sameMemory d)) ∧
      (q.stage = .started → s.dev.holds p (.request i id) = false → q.commits = [] → q.toCome = 0 → s.dev.storageWf →
        s.dev.ecc = [] → (s.dev.plain i).parity = [] → (∀ u, s.dev.owed u = false) →
        s.dev.trippedAt (locAt q.words 8).addr = false →
        Completes (.dmaRequestDone i id) s (fun d =>
          readBytes (d.plain i).sram (locAt q.words 10).addr (CopyReq.rowBytes q.words) =
            readBytes s.dev.mem (locAt q.words 8).addr (CopyReq.rowBytes q.words) ∧
          (∀ a, ¬ ((locAt q.words 10).addr ≤ a ∧ a < (locAt q.words 10).addr + CopyReq.rowBytes q.words) →
            readByte (d.plain i).sram a = readByte (s.dev.plain i).sram a) ∧
          d.req i id = none ∧ (∀ j, j ≠ i → (d.plain j).sram = (s.dev.plain j).sram ∧ (d.plain j).reqs = (s.dev.plain j).reqs) ∧
          s.dev.sameMemory d))) ∧
    (∀ (a : Nat) (v : Word) (rest : List (Nat × Word)), s.dev.storageWf → s.dev.ecc = [] → (∀ u, s.dev.owed u = false) →
      q.commits = (a, v) :: rest → s.dev.rival p i q = false → s.dev.holds p (.request i id) = false →
      Completes (.kvCommit i id) s (fun d =>
        readBytes d.mem a 4 = wordBytes v ∧ (∀ k, ¬ (a ≤ k ∧ k < a + 4) → readByte d.mem k = readByte s.dev.mem k) ∧
        d.req i id = some { q with commits := rest } ∧ (d.plain i).sram = (s.dev.plain i).sram ∧
        d.hostMem = s.dev.hostMem)) ∧
    (q.stage = .moved → s.dev.holds p (.request i id) = true → Completes (.dmaRequestDone i id) s (fun d => d = s.dev)) ∧
    (q.stage = .moved → q.commits = [] → q.toCome = 0 → s.dev.holds p (.request i id) = false →
      (∀ j ∈ reqPlains i q.words, (s.dev.plain j).state ≠ .fenced) → (∀ w pc, (s.dev.thread i q.thread).stall ≠ .dmaFull w pc) →
      Completes (.dmaRequestDone i id) s (fun d =>
        d.req i id = none ∧ (∀ j, (d.plain j).threads = (s.dev.plain j).threads ∧ (d.plain j).sram = (s.dev.plain j).sram) ∧
        s.dev.sameMemory d ∧
        (∀ c, (s.dev.part p).counter (ctrOf (reqPost q.words)) = some c → (s.dev.part p).state ≠ .resetting →
          (s.dev.plain c.home).state ≠ .fenced →
          (d.part p).counter (ctrOf (reqPost q.words)) = some (if enOf (reqPost q.words)
            then { c with adds := c.adds ++ [{ plain := some i, thread := none, amt := (valOf (reqPost q.words)).toInt }] }
            else c))))

/-- The next entry of a plain starts: it is the running entry at step 0, and waits where its WAIT is not satisfied. A step of a
MATMUL entry advances the step; the entry's last step moves it to those that finish; a step whose tile needs a half that still drains
waits. The model's choices it rests on: log entries 28, 49. -/
def Obligations.SequencerStartsAndSteps : Prop :=
  ∀ (s : State) (p i : Fin 64), s.dev.plainOwner i = some p →
    (∀ (e : Nat) (rest : List Nat) (idle : DWord), (s.dev.plain i).seq.cur = none →
      (s.dev.plain i).seq.list = e :: rest → (s.dev.plain i).seq.halt = false → (s.dev.plain i).job ≠ none →
      (s.dev.plain i).state = .idle ∨ (s.dev.plain i).state = .busy →
      Completes (.descriptorStart i idle) s (fun d =>
        (d.plain i).state = .busy ∧ (d.plain i).seq.cur = some e ∧ (d.plain i).seq.list = rest ∧ (d.plain i).seq.step = 0 ∧
        (d.plain i).seq.waiting = (enOf ((s.dev.plain i).desc e).waitW &&
          !s.dev.waitMet p (ctrOf ((s.dev.plain i).desc e).waitW) (valOf ((s.dev.plain i).desc e).waitW)) ∧
        ((d.plain i).seq.waiting = true → d.waiting (.descriptor i) = true) ∧
        (d.plain i).sram = (s.dev.plain i).sram ∧ (d.plain i).threads = (s.dev.plain i).threads ∧
        (∀ j, j ≠ i → d.plain j = s.dev.plain j) ∧ d.parts = s.dev.parts ∧ s.dev.sameMemory d)) ∧
    (∀ (e : Nat) (t : Desc) (n : Nat), (s.dev.plain i).state = .busy → (s.dev.plain i).coreBad = false →
      (s.dev.plain i).seq.cur = some e → (s.dev.plain i).seq.waiting = false →
      t = (s.dev.plain i).desc e → n = (s.dev.plain i).seq.step.toNat → t.isPair = false → n < t.steps →
      ((s.dev.plain i).parity = [] →
        (t.starts n = true → t.c.accIn = false ∧
          ((s.dev.plain i).half (other ((s.dev.plain i).seq.half.getD 1))).state = .free) →
        Completes (.sequencerStep i) s (fun d =>
          (d.plain i).seq.step = (s.dev.plain i).seq.step + 1 ∧
          (d.plain i).seq.cur = (if n + 1 = t.steps then none else some e) ∧
          (d.plain i).seq.finishing = (s.dev.plain i).seq.finishing ++ (if n + 1 = t.steps then [e] else []) ∧
          (d.plain i).sram = (s.dev.plain i).sram ∧ (d.plain i).threads = (s.dev.plain i).threads ∧
          (∀ j, j ≠ i → d.plain j = s.dev.plain j) ∧ s.dev.sameMemory d)) ∧
      (t.starts n = true → n ≠ 0 → ((s.dev.plain i).half (other ((s.dev.plain i).seq.half.getD 1))).state ≠ .free →
        Completes (.sequencerStep i) s (fun d => d = s.dev)))

/-- The rows of a tile that drains stand in SRAM when its drain is done, no other byte of SRAM changes, and its half is free; drains
end in the order of their tiles. The entry that may complete next applies its POST and is the last done. The model's choices it
rests on: log entries 28, 47. -/
def Obligations.TilesDrainAndEntriesComplete : Prop :=
  ∀ (s : State) (i : Fin 64),
    (∀ (k : Fin 2) (h : AccHalf), h = (s.dev.plain i).half k → h.state = .draining →
      ((s.dev.plain i).drainsFirst k = false → Completes (.tileDrainDone i k) s (fun d => d = s.dev)) ∧
      ((s.dev.plain i).drainsFirst k = true → (s.dev.plain i).state = .busy ∨ (s.dev.plain i).state = .idle →
        (s.dev.plain i).storageWf →
        Completes (.tileDrainDone i k) s (fun d =>
          (d.plain i).half k = { h with state := .free, out := [] } ∧
          (∀ j, j ≠ k → (d.plain i).half j = (s.dev.plain i).half j) ∧
          (∀ a, (∀ w ∈ h.out, ¬ (w.1 ≤ a ∧ a < w.1 + w.2.length)) →
            readByte (d.plain i).sram a = readByte (s.dev.plain i).sram a) ∧
          ((s.dev.plain i).parity = [] → h.out.Pairwise (fun u v => u.1 + u.2.length ≤ v.1 ∨ v.1 + v.2.length ≤ u.1) →
            ∀ w ∈ h.out, readBytes (d.plain i).sram w.1 w.2.length = w.2) ∧
          (d.plain i).threads = (s.dev.plain i).threads ∧ (d.plain i).seq = (s.dev.plain i).seq ∧
          (∀ j, j ≠ i → d.plain j = s.dev.plain j) ∧ s.dev.sameMemory d))) ∧
    (∀ (p : Fin 64) (e : Nat), s.dev.plainOwner i = some p → (s.dev.plain i).completable = some e →
      (s.dev.plain i).state = .busy → (s.dev.plain i).seq.poisonAt.contains e = false →
      Completes (.descriptorComplete i) s (fun d =>
        (d.plain i).seq.lastDone = BitVec.ofNat 9 e ∧ (d.plain i).seq.done = (s.dev.plain i).seq.done ++ [e] ∧
        (d.plain i).seq.finishing = (s.dev.plain i).seq.finishing.tail ∧
        (∀ j, (d.plain j).sram = (s.dev.plain j).sram ∧ (d.plain j).threads = (s.dev.plain j).threads) ∧
        (∀ c, (s.dev.part p).counter (ctrOf ((s.dev.plain i).desc e).postW) = some c → (s.dev.part p).state ≠ .resetting →
          (s.dev.plain c.home).state ≠ .fenced →
          (d.part p).counter (ctrOf ((s.dev.plain i).desc e).postW) = some (if enOf ((s.dev.plain i).desc e).postW
            then { c with adds := c.adds ++ [{
              plain := some i, thread := none, amt := (valOf ((s.dev.plain i).desc e).postW).toInt }] }
            else c)) ∧
        s.dev.sameMemory d))

/-- The clock of an idle plain with nothing pending stops after its idle count; a plain that wakes runs again, BUSY where it has
descriptors or threads to run and IDLE where it has none. The model's choices it rests on: log entry 39. -/
def Obligations.PlainClocksStopAndWake : Prop :=
  ∀ (s : State) (i : Fin 64),
    (∀ idle : DWord, (s.dev.plain i).state = .idle → s.dev.inactive i = true → bit (s.dev.plain i).ctrl 0 = true →
      bits (s.dev.plain i).ctrl 4 16 ≤ idle.toNat →
      Completes (.plainClockStop i idle) s (fun d =>
        (d.plain i).state = .stopped ∧ d.dom (plainDom i) = { state := .gated, mhz := 0, starting := false } ∧
        (d.plain i).sram = (s.dev.plain i).sram ∧ (d.plain i).threads = (s.dev.plain i).threads ∧
        (∀ j, j ≠ i → d.plain j = s.dev.plain j) ∧ (∀ k, k ≠ plainDom i → d.dom k = s.dev.dom k) ∧ s.dev.sameMemory d)) ∧
    (∀ idle : DWord, s.dev.inactive i = false ∨ (s.dev.plain i).state = .busy →
      Completes (.plainClockStop i idle) s (fun d => d = s.dev)) ∧
    ((s.dev.plain i).state = .waking →
      Completes (.plainWakeDone i) s (fun d =>
        (d.plain i).state = (if (s.dev.plain i).seq.over && !(s.dev.plain i).threaded then .idle else .busy) ∧
        (d.dom (plainDom i)).mhz = BitVec.ofNat 12 (s.dev.domMhz i.val) ∧
        (d.plain i).sram = (s.dev.plain i).sram ∧ (d.plain i).threads = (s.dev.plain i).threads ∧
        (∀ j, j ≠ i → d.plain j = s.dev.plain j) ∧ (∀ k, k ≠ plainDom i → d.dom k = s.dev.dom k) ∧ s.dev.sameMemory d))

/-! ### Training state (R255 to R291) -/

/-- An UPDATE of one local shard whose gradient is due begins its step: PHASE is MOMENTS, the cursors are 0 and STEP_TARGET is
the UPDATE's STEP; where the step's NF bit is set, the shard is skipped, NF is cleared and the command ends with
OK_SKIPPED_NONFINITE. The entry is written through to the table in device memory; no other byte of memory changes. The model's
choices it rests on: log entries 21, 29. -/
def Obligations.UpdateBeginsOrSkipsItsShard : Prop :=
  ∀ (s : State) (p : Fin 64) (q : Fin 4) (c : Cmd) (w : UpdateWork) (k : Nat) (x : Shard), s.dev.ccx.sup = .ready →
    s.dev.isTripped = false → s.dev.storageWf → s.dev.ecc = [] → (∀ u, s.dev.owed u = false) →
    (s.dev.ring { fn := .vf p, q := q }).cmds = [c] →
    (∀ j, j ≠ q → (s.dev.ring { fn := .vf p, q := j }).cmds = []) → c.stage = .started → c.work = .update w → w.stage = .begin →
    w.poison = false → Upd.refresh c = false → s.dev.namedLocal p (Upd.first c) (Upd.count c) = [k] → s.dev.shard p k = some x →
    x.lost = false → x.phase = 0 → x.weightsStep < Upd.step c → elapsedUs c.startTick s.dev.pwr.aon ≤ c.promise.toNat →
    Completes (.update p q) s (fun d =>
      ∃ y : Shard, d.shard p k = some y ∧
        readBytes d.mem ((s.dev.part p).tblBase + 256 * k) 256 = y.toList.flatMap wordBytes ∧
        (∀ a, ¬ ((s.dev.part p).tblBase + 256 * k ≤ a ∧ a < (s.dev.part p).tblBase + 256 * k + 256) →
          readByte d.mem a = readByte s.dev.mem a) ∧ d.hostMem = s.dev.hostMem ∧
        (if (s.dev.part p).nf.toNat / 2 ^ ((Upd.step c).toNat % 2) % 2 = 1 then
          y = x.skip (Upd.step c) ∧ (d.part p).nf = (s.dev.part p).nf &&& ~~~ BitVec.ofNat 2 (2 ^ ((Upd.step c).toNat % 2)) ∧
          ∃ e, (d.ring { fn := .vf p, q := q }).cmds = [e] ∧ e.stage = .done ∧ e.status = .okSkippedNonfinite
        else x.noGradient = false → y = setWd (x.setPhase 1).clearCursors 13 (Upd.step c)))

/-- A glen's chunk done advances the shard's cursor of that channel by one chunk and counts the glen's busy cycles; a phase
whose chunks are all done gives way to the next: MOMENTS to DIRECTION for a matrix rule and to WEIGHTS for any other, with a new
MOMENTS_STEP and one more APPLIED, DIRECTION to WEIGHTS, and WEIGHTS to AVERAGE where the shard keeps one. A chunk waits while a
regulator holds requests of its glen, and while a snapshot has still to read it. The model's choices it rests on: log entry 29. -/
def Obligations.ChunksAndPhasesAdvance : Prop :=
  ∀ (s : State) (p : Fin 64) (r : RingId) (c : Cmd) (w : UpdateWork) (k : Nat) (x : Shard), s.dev.ccx.sup = .ready →
    s.dev.isTripped = false → s.dev.ecc = [] → w.stage = .apply →
    (∀ g : Fin 24, s.dev.glenPick g = some (p, r, c, w, k, x) →
      (s.dev.holds p (.glen g) = false → s.dev.snapHolds p k x g (x.cursor g) = false →
        Completes (.glenChunkDone g) s (fun d =>
          d.shard p k = some (x.setCursor g (x.cursor g + 1)) ∧ (Tab.at d.glens g).cyc = (Tab.at s.dev.glens g).cyc + 128 ∧
          d.ecc = [] ∧ d.plains = s.dev.plains ∧ d.hostMem = s.dev.hostMem)) ∧
      (s.dev.holds p (.glen g) = true ∨ s.dev.snapHolds p k x g (x.cursor g) = true →
        Completes (.glenChunkDone g) s (fun d => d = s.dev))) ∧
    (∀ n : BitVec 16, n.toNat = k → s.dev.updateOn p k = some (r, c, w) → s.dev.shard p k = some x →
      s.dev.phaseDone r c w x = true → (∀ g ∈ x.channels, s.dev.holds p (.glen g) = false) →
      (x.phase = 1 → Completes (.shardPhaseAdvance p n) s (fun d =>
        ∃ y : Shard, d.shard p k = some y ∧ y.phase = (if x.matrix then 2 else 3) ∧ y.momentsStep = x.target ∧
          y.applied = x.applied + 1 ∧ y.weightsStep = x.weightsStep ∧ (∀ g : Fin 24, y.cursor g = 0) ∧
          d.hostMem = s.dev.hostMem)) ∧
      (x.phase = 2 → Completes (.shardPhaseAdvance p n) s (fun d =>
        ∃ y : Shard, d.shard p k = some y ∧ y.phase = 3 ∧ y.momentsStep = x.momentsStep ∧ y.applied = x.applied ∧
          d.hostMem = s.dev.hostMem)) ∧
      (x.phase = 3 → x.avgEn = true → Completes (.shardPhaseAdvance p n) s (fun d =>
        ∃ y : Shard, d.shard p k = some y ∧ y.phase = 4 ∧ y.weightsStep = x.target ∧ (∀ g : Fin 24, y.cursor g = 0) ∧
          d.hostMem = s.dev.hostMem)))

/-- A SNAPSHOT makes its records at START and sets SNAPSHOT_PENDING on every named local shard; when it begins, a shard that ships
nothing has it no more. A chunk read of an FP32 snapshot to host memory carries the chunk's bytes to their place in the output and
changes no other byte; data of a child goes up the tree to the root's memory; unacknowledged writes at the promise end the command
with WATCHDOG. The model's choices it rests on: log entries 7, 30, 39. -/
def Obligations.SnapshotsPassReadAndShip : Prop :=
  ∀ s : State, s.dev.storageWf → s.dev.ecc = [] → (∀ u, s.dev.owed u = false) → s.dev.ccx.sup = .ready →
    (∀ (p : Fin 64) (q : Fin 4) (c : Cmd) (w : SnapWork) (r : RingId), r = { fn := .vf p, q := q } →
      s.dev.isTripped = false → (s.dev.ring r).cmds = [c] → c.work = .snapshot w →
      ((s.dev.part p).state ≠ .resetting → (s.dev.part p).lost = false → (s.dev.ring r).nextStart = some c →
        s.dev.turnOf p r c = true → s.dev.snapshotFree p r c = true → enOf c.startWait = false →
        Completes (.commandStart r) s (fun d =>
          (∀ x ∈ snapRecs (s.dev.part p) c, x.remote = false →
            ∃ y : Shard, d.shard p x.shard = some y ∧ y.snapPending = true) ∧
          (∃ e v, (d.ring r).cmds = [e] ∧ e.stage = .started ∧ e.startTick = s.dev.pwr.aon ∧ e.work = .snapshot v ∧
            v.begun = false ∧ v.recs = snapRecs (s.dev.part p) c) ∧ d.hostMem = s.dev.hostMem)) ∧
      (c.stage = .started → w.begun = false →
        (w.todo ≠ [] → Completes (.snapshot p q) s (fun d =>
          (∀ k, d.shard p k = (s.dev.shard p k).map (fun y =>
            if w.recs.any (fun x => x.shard == k && !x.remote && x.bytes == 0) then y.flag 18 false else y)) ∧
          (∃ e, (d.ring r).cmds = [e] ∧ e.work = .snapshot { w with begun := true }) ∧ d.hostMem = s.dev.hostMem)) ∧
        (w.todo = [] → Snap.dest c = 0 → w.poison = false → elapsedUs c.startTick s.dev.pwr.aon ≤ c.promise.toNat →
          Completes (.snapshot p q) s (fun d => ∃ e, (d.ring r).cmds = [e] ∧ e.stage = .done ∧ e.status = .ok))) ∧
      (∀ (k : Nat) (rest : List Nat) (x : Shard) (rc : SnapRec) (ch : Fin 24) (n a m : Nat), c.stage = .started → w.begun = true →
        w.todo = k :: rest → s.dev.shard p k = some x → w.recs.find? (fun y => y.shard == k) = some rc →
        x.allChunks[w.chunk]? = some (ch, n) → w.chunk + 1 ≠ x.allChunks.length → Snap.dest c = 0 → Snap.bf16 c = false →
        a = x.chunkAt ch n + (if Snap.what c = 0 then 0x18000 else 0) → m = 4 * min 8192 (x.params - x.firstOf ch n) →
        s.dev.trippedAt a = false →
        Completes (.snapshotChunkRead p q) s (fun d =>
          readBytes d.hostMem (Snap.addr c + (rc.offset + 4 * x.firstOf ch n)) m = readBytes s.dev.mem a m ∧
          (∀ b, ¬ (Snap.addr c + (rc.offset + 4 * x.firstOf ch n) ≤ b ∧
              b < Snap.addr c + (rc.offset + 4 * x.firstOf ch n) + m) →
            readByte d.hostMem b = readByte s.dev.hostMem b) ∧
          (∃ e v, (d.ring r).cmds = [e] ∧ e.work = .snapshot v ∧ v.chunk = w.chunk + 1 ∧ v.todo = w.todo) ∧
          d.mem = s.dev.mem)) ∧
      (∀ t : Fin 256, c.stage = .started → w.begun = true → snapTarget c = some t →
        192 * c.promise.toNat ≤ 10 * (s.dev.pwr.aon - c.startTick).toNat →
        Completes (.snapshotWriteTimeout p q) s (fun d =>
          (∃ e, (d.ring r).cmds = [e] ∧ e.stage = .done ∧ (e.status = .watchdog ∨ e.status = .promiseBreach) ∧ e.lastDesc = 0) ∧
          (Tab.at d.targets t).reqs = (Tab.at s.dev.targets t).reqs.filter (fun q => !(q.ring == r && q.write)) ∧
          s.dev.sameMemory d))) ∧
    (∀ (c : Fin 16) (p : Fin 64) (x y : Fin 4) (a : Nat) (b : List Byte), s.dev.treeOf p = some (x, y) →
      s.dev.colPart c = some p → axisOf c = x → plusCol c = true → (s.dev.bank x).childEn 0 = true →
      ((s.dev.bank x).root = true → s.dev.inGrant p a b.length = true →
        Completes (.snapshotTreeForward c p a b) s (fun d =>
          readBytes d.mem a b.length = b ∧
          (∀ k, ¬ (a ≤ k ∧ k < a + b.length) → readByte d.mem k = readByte s.dev.mem k) ∧ d.hostMem = s.dev.hostMem)) ∧
      (∀ (k : Fin 16) (rest : List (Fin 16)), (s.dev.bank x).root = false → b ≠ [] → b.length ≤ flitPayload →
        s.dev.portCols x false = k :: rest → (s.dev.col k).txWait = [] → (s.dev.col k).state = .active →
        (s.dev.col k).unacked.length < 1024 →
        Completes (.snapshotTreeForward c p a b) s (fun d =>
          (∃ f : Flit, d.out.cols = (k, f) :: s.dev.out.cols ∧ f.body = .snapshot a b ∧ f.part = p) ∧ s.dev.sameMemory d)))

/-! ### Cols, collectives and gathers (R292 to R330) -/

/-- A good flit in sequence advances the sequence and is acknowledged, and a remote add that it carries joins its counter; a bad
flit, or one ahead of the sequence, is discarded and one replay asked for; a repeated flit delivers nothing. What a flit acknowledges
leaves the replay buffer. A replay resends every flit that has not arrived. More than 32 replays in 1 ms retrain the col, which goes
on or goes DOWN; lost lanes take it DOWN; a full training makes it READY, or ACTIVE where the active bank names it. The model's
choices it rests on: log entries 32, 48. -/
def Obligations.ColsReceiveReplayAndTrain : Prop :=
  ∀ (s : State) (c : Fin 16),
    (∀ f : Flit, (s.dev.col c).trained = true →
      (∀ (v : Word) (ct : Counter), f.crcOk = true → f.seq = (s.dev.col c).rxSeq → (s.dev.col c).rxWait = [] →
        flitBank f = (s.dev.axis (axisOf c)).active → s.dev.colPart c = some f.part → (s.dev.part f.part).state ≠ .resetting →
        s.dev.ccx.sup = .ready → f.body = .remoteAdd v → (s.dev.part f.part).counter (ctrOf v) = some ct →
        (s.dev.plain ct.home).state ≠ .fenced →
        Completes (.colFlitReceive c f) s (fun d =>
          (d.col c).rxSeq = (s.dev.col c).rxSeq + 1 ∧ (d.col c).rxWait = [] ∧ (d.col c).asked = false ∧
          (∃ g : Flit, (c, g) ∈ d.out.cols ∧ g.body = .ackOnly ∧ g.ack = (s.dev.col c).rxSeq + 1) ∧
          (d.part f.part).counter (ctrOf v) =
            some { ct with adds := ct.adds ++ [{ plain := none, thread := none, amt := signedAmt v }] } ∧
          (∀ k, k ≠ c → d.col k = s.dev.col k) ∧ s.dev.sameMemory d)) ∧
      (f.crcOk = false →
        Completes (.colFlitReceive c f) s (fun d =>
          d.out.naks = (c, (s.dev.col c).rxSeq) :: s.dev.out.naks ∧ (d.col c).rxSeq = (s.dev.col c).rxSeq ∧
          (d.col c).asked = true ∧ d.parts = s.dev.parts ∧ s.dev.sameMemory d)) ∧
      (f.crcOk = true → f.body ≠ .ackOnly → (s.dev.col c).rxSeq < f.seq → (s.dev.col c).asked = false →
        Completes (.colFlitReceive c f) s (fun d =>
          d.out.naks = (c, (s.dev.col c).rxSeq) :: s.dev.out.naks ∧ (d.col c).rxSeq = (s.dev.col c).rxSeq ∧
          (d.col c).rxWait = (s.dev.col c).rxWait ∧ s.dev.sameMemory d)) ∧
      (f.crcOk = true → f.body = .ackOnly ∨ f.seq < (s.dev.col c).rxSeq →
        Completes (.colFlitReceive c f) s (fun d =>
          (d.col c).rxSeq = (s.dev.col c).rxSeq ∧ (d.col c).rxWait = (s.dev.col c).rxWait ∧
          ((s.dev.col c).txWait = [] → (d.col c).unacked = (s.dev.col c).unacked.filter (fun g => f.ack ≤ g.seq)) ∧
          (∀ p n, (d.part p).counter n = (s.dev.part p).counter n) ∧ (∀ k, k ≠ c → d.col k = s.dev.col k) ∧
          s.dev.sameMemory d))) ∧
    (∀ acked : Nat, (s.dev.col c).trained = true → (s.dev.col c).txWait = [] →
      Completes (.colReplay c acked) s (fun d =>
        (d.col c).unacked = (s.dev.col c).unacked.filter (fun f => acked ≤ f.seq) ∧
        d.out.cols = (((s.dev.col c).unacked.filter (fun f => acked ≤ f.seq)).map
          (fun f => (c, { f with ack := (s.dev.col c).rxSeq }))).reverse ++ s.dev.out.cols ∧
        (d.col c).replays = satInc (s.dev.col c).replays ∧ (∀ k, k ≠ c → d.col k = s.dev.col k) ∧ s.dev.sameMemory d)) ∧
    ((s.dev.col c).trained = true → 32 < (s.dev.col c).replaysIn s.dev.pwr.aon →
      Completes (.colFastRetrain c) s (fun d =>
        (d.col c).state = .training ∧ (d.col c).fast = true ∧ (d.col c).unacked = (s.dev.col c).unacked ∧
        (∀ k, k ≠ c → d.col k = s.dev.col k) ∧ s.dev.sameMemory d)) ∧
    ((s.dev.col c).state = .training → (s.dev.col c).fast = true →
      ((s.dev.col c).txWait = [] → Completes (.colRetrainDone c true) s (fun d =>
        (d.col c).state = (if s.dev.named c then .active else .ready) ∧ (d.col c).fast = false ∧
        d.out.cols = ((s.dev.col c).unacked.map (fun f => (c, { f with ack := (s.dev.col c).rxSeq }))).reverse ++ s.dev.out.cols ∧
        (∀ k, k ≠ c → d.col k = s.dev.col k) ∧ s.dev.sameMemory d)) ∧
      Completes (.colRetrainDone c false) s (fun d => (d.col c).state = .down ∧ (d.col c).lanes = 0 ∧ s.dev.sameMemory d)) ∧
    (∀ lanes : Byte, lanes ≠ 0xFF → (s.dev.col c).state ≠ .down →
      Completes (.colLaneLoss c lanes) s (fun d => (d.col c).state = .down ∧ (d.col c).lanes = lanes ∧ s.dev.sameMemory d)) ∧
    ((s.dev.col c).disable = false → (s.dev.col c).state = .down →
      Completes (.colReady c) s (fun d =>
        (d.col c).state = (if s.dev.named c then .active else .ready) ∧ (d.col c).lanes = 0xFF ∧
        (∀ k, k ≠ c → d.col k = s.dev.col k) ∧ s.dev.sameMemory d))

/-- What a col delivers to its partition: a remote write stores into a register of the partition's window while REG_EN is set, a
remote add joins its counter and wakes a stopped home, a reduction message waits for its reduction, in the table or, where that is full,
in the col, and a group abort is latched. The model's choices it rests on: log entries 32, 33, 46. -/
def Obligations.ColsDeliverToTheirPartition : Prop :=
  ∀ (s : State) (c : Fin 16) (p : Fin 64), s.dev.colPart c = some p → (s.dev.part p).state ≠ .resetting →
    s.dev.ccx.sup = .ready →
    (∀ (off : Nat) (v : Word) (be : BitVec 4), (s.dev.bank (axisOf c)).regEn = true →
      (off % 4 ≠ 0 ∨ enablesOk be = false →
        Completes (.remoteRegisterWrite c off v be) s (fun d => d = s.dev.logAccess Ev.accessAlign (.col c) off be)) ∧
      (off % 4 = 0 → enablesOk be = true →
        (s.dev.regFor (.col c) off = none →
          Completes (.remoteRegisterWrite c off v be) s (fun d => d = s.dev.logAccess Ev.accessHole (.col c) off be)) ∧
        (∀ o, s.dev.regFor (.col c) off = some (o, .syn p .ctrSel) → be = allBytes →
          Completes (.remoteRegisterWrite c off v be) s (fun d =>
            (d.part p).ctrSel = v.setWidth 12 ∧ (d.part p).counters = (s.dev.part p).counters ∧
            (∀ q, q ≠ p → d.part q = s.dev.part q) ∧ d.plains = s.dev.plains ∧ d.mem = s.dev.mem ∧ d.ecc = s.dev.ecc)))) ∧
    (∀ (v : Word) (ct : Counter), (s.dev.part p).counter (ctrOf v) = some ct → (s.dev.plain ct.home).state ≠ .fenced →
      Completes (.remoteAddReceive c v) s (fun d =>
        (d.part p).counter (ctrOf v) =
          some { ct with adds := ct.adds ++ [{ plain := none, thread := none, amt := signedAmt v }] } ∧
        (d.plain ct.home).state = (if (s.dev.plain ct.home).state = .stopped then .waking else (s.dev.plain ct.home).state) ∧
        (∀ j, j ≠ ct.home → d.plain j = s.dev.plain j) ∧ (∀ q, q ≠ p → d.part q = s.dev.part q) ∧ s.dev.sameMemory d)) ∧
    (∀ m : GroupMsg, m.part = p → s.dev.abortedBy p m.group = none → (∀ r ∈ s.dev.groups, r.takes m = false) →
      (s.dev.early.length < 256 → Completes (.groupMessageReceive c m) s (fun d =>
        d.early = s.dev.early ++ [m] ∧ d.groups = s.dev.groups ∧ d.plains = s.dev.plains ∧ s.dev.sameMemory d)) ∧
      (256 ≤ s.dev.early.length → Completes (.groupMessageReceive c m) s (fun d =>
        d.early = s.dev.early ∧ d.groups = s.dev.groups ∧
        (∃ f : Flit, (d.col c).rxWait = (s.dev.col c).rxWait ++ [f] ∧ f.body = .group m ∧ f.part = p) ∧ s.dev.sameMemory d))) ∧
    (∀ (g : BitVec 24) (cause : AbortCause), s.dev.abortedBy p g = none →
      Completes (.groupAbortReceive c g cause) s (fun d =>
        d.abortedBy p g = some cause ∧
        (d.part p).abort = BitVec.ofNat 32 (g.toNat + 2 ^ 24 * (abortStatus cause).code) ∧ s.dev.sameMemory d))

/-- A collective command sends its arrival into its group once its header's wait is satisfied, starts at the last peer's arrival,
starts its ops in order, places converted results that arrive at the addresses of its destination, posts an op at its end, and goes on
to the next op or completes after the last. A sum of arrivals that is not MEMBERS ends it with WATCHDOG. The model's choices it rests
on: log entries 33, 47. -/
def Obligations.CollectivesArriveStartAndRunTheirOps : Prop :=
  ∀ (s : State) (p : Fin 64) (q : Fin 4) (c : Cmd) (x : CollectiveDef) (rw : RunWork) (w : CollWork) (r : RingId),
    r = { fn := .vf p, q := q } → (s.dev.ring r).cmds = [c] → c.stage = .started → c.work = .collective rw w →
    rw.entry.collective = some x → s.dev.ccx.sup = .ready → s.dev.isTripped = false → (∀ k, (s.dev.col k).rxWait = []) →
    (w.sent = false → s.dev.collReady p { ring := r, cmd := c, def' := x, work := w } = true →
      s.dev.runOf (.command r c.index) = none →
      Completes (.collectiveArrivalSend p q) s (fun d =>
        (∃ g, d.runOf (.command r c.index) = some g ∧ g.group = x.arrGroup ∧ g.members = x.arrMembers ∧
          g.gen = s.dev.genOf p x.arrGroup ∧ (s.dev.lineAxes p x.arrAxes = [] → g.result = some 1)) ∧
        (∃ e v, (d.ring r).cmds = [e] ∧ e.work = .collective rw v ∧ v.sent = true ∧ v.reached = w.reached) ∧
        s.dev.sameMemory d)) ∧
    (∀ (g : GroupRun) (n : Nat), w.sent = true → w.reached = false → s.dev.runOf (.command r c.index) = some g →
      g.result = some n →
      (n = x.arrMembers → Completes (.collectiveStart p q) s (fun d =>
        (∃ e v, (d.ring r).cmds = [e] ∧ e.startTick = s.dev.pwr.aon ∧ e.work = .collective rw v ∧ v.reached = true ∧
          v.op = w.op) ∧
        d.runOf (.command r c.index) = none ∧ s.dev.sameMemory d)) ∧
      (n ≠ x.arrMembers → w.opRunning = false → Completes (.collectiveStart p q) s (fun d =>
        (∃ e, (d.ring r).cmds = [e] ∧ e.stage = .done ∧ e.status = .watchdog) ∧ s.dev.sameMemory d))) ∧
    (∀ o : OpRun, w.reached = true → w.opRunning = false → s.dev.opRun p r c w.op = some o →
      Completes (.collectiveOpStart p q) s (fun d =>
        ∃ e v, (d.ring r).cmds = [e] ∧ e.work = .collective rw v ∧ v.opRunning = true ∧ v.op = w.op ∧
          v.since = s.dev.pwr.aon)) ∧
    (∀ (o : OpRun) (k : Fin 16) (m : DataMsg) (l : List CElem), s.dev.storageWf → s.dev.ecc = [] →
      (∀ u, s.dev.owed u = false) → w.opRunning = true →
      w.op = m.op → s.dev.opFor p q (axisOf k) m.op = some o → s.dev.colPart k = some p →
      (s.dev.part p).state ≠ .resetting → m.gather = true → m.marked = [] → m.vals ≠ [] → m.first + m.vals.length ≤ o.n →
      o.kind = 1 → Coll.dstShard o.op = false → (Coll.dst o.op).loc 0 = .dev →
      l = (m.vals.zip (List.range m.vals.length)).map (fun y => { elem := m.first + y.2, val := y.1, bad := false }) →
      Completes (.collectiveDataReceive k p q m) s (fun d =>
        readBytes d.mem ((Coll.dst o.op).addr + m.first * (elemBits (Coll.fmtOut o.op) / 8))
            ((elemBytes (Coll.fmtOut o.op) l).length) = (elemBytes (Coll.fmtOut o.op) l).map (·.1) ∧
        (∀ a, ¬ ((Coll.dst o.op).addr + m.first * (elemBits (Coll.fmtOut o.op) / 8) ≤ a ∧
            a < (Coll.dst o.op).addr + m.first * (elemBits (Coll.fmtOut o.op) / 8) + (elemBytes (Coll.fmtOut o.op) l).length) →
          readByte d.mem a = readByte s.dev.mem a) ∧
        (∃ e v, (d.ring r).cmds = [e] ∧ e.work = .collective rw v ∧ v.handled = w.handled + m.vals.length ∧ v.op = w.op) ∧
        d.hostMem = s.dev.hostMem ∧ d.plains = s.dev.plains)) ∧
    (∀ o : OpRun, w.reached = true → w.opRunning = true → s.dev.opRun p r c w.op = some o → s.dev.opOver o w = true → o.kind ≠ 4 →
      Coll.statsEn o.op = false →
      Completes (.collectiveOpDone p q) s (fun d =>
        (∃ e, (d.ring r).cmds = [e] ∧
          (if w.op + 1 < x.ops.length then
            ∃ v, e.work = .collective rw v ∧ v.op = w.op + 1 ∧ v.opRunning = false
          else e.stage = .done ∧ e.doneTick = s.dev.pwr.aon)) ∧
        (∀ ct, (s.dev.part p).counter (ctrOf (Coll.post o.op)) = some ct → (s.dev.part p).state ≠ .resetting →
          (s.dev.plain ct.home).state ≠ .fenced → enOf (Coll.post o.op) = true →
          (d.part p).counter (ctrOf (Coll.post o.op)) = some { ct with
            adds := ct.adds ++ [{ plain := none, thread := none, amt := (valOf (Coll.post o.op)).toInt }] }) ∧
        s.dev.sameMemory d))

/-- A gather's request goes one hop towards its owner; the owner answers with the working copy's parameters; the data that comes
back is placed by its offset at the plain that asked, and nothing else of its SRAM changes. The model's choices it rests on: log
entries 33, 48. -/
def Obligations.GathersForwardServeAndPlace : Prop :=
  ∀ (s : State) (m : GatherMsg), (s.dev.part m.part).state ≠ .resetting → s.dev.ccx.sup = .ready →
    (∀ (c : Fin 16) (a : Fin 4) (plus : Bool) (k : Fin 16), s.dev.colPart c = some m.part →
      (s.dev.col k).txWait = [] → (s.dev.col k).state = .active → (s.dev.col k).unacked.length < 1024 →
      m.data = none →
      (s.dev.routeTo m.part m.dst.toNat = some (a, plus) →
        (s.dev.portCols a plus)[m.offset / gatherPiece % (s.dev.portCols a plus).length]? = some k →
        Completes (.gatherForward c m) s (fun d =>
          ∃ f : Flit, d.out.cols = (k, f) :: s.dev.out.cols ∧ f.body = .gather m ∧ f.part = m.part ∧
            f.seq = (s.dev.col k).txSeq ∧ d.plains = s.dev.plains ∧ s.dev.sameMemory d)) ∧
      (∀ (rest : List (Fin 16)) (x : Shard), s.dev.ecc = [] → (∀ u, s.dev.owed u = false) →
        s.dev.shard m.part m.shard.toNat = some x → s.dev.routeTo m.part m.dst.toNat = none →
        (s.dev.part m.part).isLocal x = true → x.tier = 1 → s.dev.trippedAt (x.daleAddr + 2 * m.first) = false →
        0 < m.count → m.count ≤ gatherPiece → s.dev.routeBack m.part m.src.toNat = some (a, plus) →
        s.dev.portCols a plus = k :: rest →
        Completes (.gatherServe c m) s (fun d =>
          ∃ f : Flit, ∃ n : GatherMsg, d.out.cols = (k, f) :: s.dev.out.cols ∧ f.body = .gather n ∧ n.offset = 0 ∧
            n.req = m.req ∧ n.data = some ((List.range m.count).map (fun j =>
              BitVec.ofNat 16 (leNat (readBytes s.dev.mem (x.daleAddr + 2 * (m.first + j)) 2)))) ∧ s.dev.sameMemory d))) ∧
    (∀ (q : DmaReq) (e : List (BitVec 16)), s.dev.req m.plain m.req = some q → m.data = some e → m.marked = [] →
      s.dev.plainOwner m.plain = some m.part → reqKind q.words = 0x0A → q.stage = .moved → e.length ≤ q.toCome →
      (GatherReq.dst q.words).loc m.plain = .sram m.plain → (s.dev.plain m.plain).state = .busy →
      (s.dev.plain m.plain).parity = [] → (s.dev.plain m.plain).storageWf →
      Completes (.gatherDataReceive m) s (fun d =>
        readBytes (d.plain m.plain).sram ((GatherReq.dst q.words).addr + 2 * m.offset) (2 * e.length) =
          e.flatMap (fun v => leBytes 2 v.toNat) ∧
        (∀ a, ¬ ((GatherReq.dst q.words).addr + 2 * m.offset ≤ a ∧
            a < (GatherReq.dst q.words).addr + 2 * m.offset + 2 * e.length) →
          readByte (d.plain m.plain).sram a = readByte (s.dev.plain m.plain).sram a) ∧
        (∃ r, d.req m.plain m.req = some r ∧ r.toCome = q.toCome - e.length) ∧
        (∀ j, j ≠ m.plain → d.plain j = s.dev.plain j) ∧ s.dev.sameMemory d))

/-! ### Ethernet, samples and encoding (R331 to R366) -/

/-- A RoCE frame for an open queue pair joins the receive buffer of its priority; a frame for no queue pair is a stranger,
dropped, counted, its cause latched; an ARP request is answered; a frame that fails its check is dropped and counted, and the codewords
that the FEC corrected are counted. Freed space leaves the buffer; a pause stops a lossless priority and its end lets it go on; a link
change shows in the port's status. The model's choices it rests on: log entry 34. -/
def Obligations.PortsReceiveBufferAndPause : Prop :=
  ∀ (s : State) (n : Fin 2),
    (∀ f : Frame,
      Completes (.ethFrameReceive n f) s (fun d =>
        (d.port n).fecCorr = satInc (s.dev.port n).fecCorr f.corrected ∧
        (d.port n).fecUncorr = (if f.bytes ≤ 9216 && !f.fcsOk then satInc (s.dev.port n).fecUncorr else (s.dev.port n).fecUncorr) ∧
        (9216 < f.bytes ∨ f.fcsOk = false → (d.port n).held = (s.dev.port n).held ∧
          (d.port n).stranger = (s.dev.port n).stranger ∧ d.out.net = s.dev.out.net) ∧
        (∀ k, k ≠ n → d.port k = s.dev.port k) ∧ s.dev.sameMemory d) ∧
      (f.bytes ≤ 9216 → f.fcsOk = true → f.toPort = true →
        (∀ op : Byte, f.kind = .roce op →
          ((s.dev.frameCause n f).2 = none → (s.dev.port n).lossless f.prio = false → (s.dev.port n).heldAll + f.bytes ≤ rxBuffer →
            Completes (.ethFrameReceive n f) s (fun d =>
              Tab.at (d.port n).held f.prio = Tab.at (s.dev.port n).held f.prio + f.bytes ∧
              (d.port n).stranger = (s.dev.port n).stranger ∧ s.dev.sameMemory d)) ∧
          (f.qpn.toNat < 0x100 →
            Completes (.ethFrameReceive n f) s (fun d =>
              (d.port n).stranger = satInc (s.dev.port n).stranger ∧ (d.port n).cause = 2 ∧
              (d.port n).held = (s.dev.port n).held ∧ d.out.net = s.dev.out.net ∧ s.dev.sameMemory d))) ∧
        (f.kind = .arp →
          Completes (.ethFrameReceive n f) s (fun d =>
            d.out.net = .arpReply n :: s.dev.out.net ∧ (d.port n).held = (s.dev.port n).held ∧
            (d.port n).stranger = (s.dev.port n).stranger ∧ s.dev.sameMemory d)))) ∧
    (∀ (k : Fin 8) (bytes : Nat), Completes (.rxBufferRelease n k bytes) s (fun d =>
      Tab.at (d.port n).held k = Tab.at (s.dev.port n).held k - bytes ∧
      (∀ j, j ≠ k → Tab.at (d.port n).held j = Tab.at (s.dev.port n).held j) ∧ s.dev.sameMemory d)) ∧
    (∀ (k : Fin 8) (quanta : Tab (BitVec 16) 8), (s.dev.port n).lossless k = true → Tab.at quanta k ≠ 0 →
      Completes (.pfcFrameReceive n (BitVec.ofNat 8 (2 ^ k.val)) quanta) s (fun d =>
        (d.port n).isPaused k = true ∧ (∀ j, j ≠ n → d.port j = s.dev.port j) ∧ d.targets = s.dev.targets ∧ s.dev.sameMemory d)) ∧
    (∀ k : Fin 8, Completes (.pfcPauseExpiry n k) s (fun d =>
      (d.port n).isPaused k = false ∧ (d.port n).held = (s.dev.port n).held ∧ (∀ j, j ≠ n → d.port j = s.dev.port j) ∧
      s.dev.sameMemory d)) ∧
    (∀ link lock : Bool, Completes (.netPortLinkChange n link lock) s (fun d =>
      (d.port n).link = link ∧ (d.port n).fecLock = lock ∧ (d.port n).held = (s.dev.port n).held ∧
      (∀ j, j ≠ n → d.port j = s.dev.port j) ∧ s.dev.sameMemory d))

/-- A READ response is placed at its offset in the bitstream buffer; one that completes its request removes it and clears the
retries; an acknowledgement that covers every write removes them; a NAK or an ACK timeout resends, and after seven retries the
queue pair is in ERROR; a congestion notification halves the rate, and a quiet period raises it by 2.5 GB/s up to 50. A packet for a
queue pair that is not in RTS is a stranger. The model's choices it rests on: log entry 34. -/
def Obligations.QueuePairsCompleteRetryAndPace : Prop :=
  ∀ (s : State) (t : Fin 256) (x : Target), x = s.dev.target t →
    (∀ (c : Instr) (psn : BitVec 24) (off : Nat) (data : List Byte) (ce : Bool), x.qp ≠ .rts →
      c ∈ [Instr.roceReadResponse t psn off data ce, .roceAckReceive t psn, .roceNakReceive t psn, .cnpReceive t] →
      Completes c s (fun d =>
        (d.port x.portOf).stranger = satInc (s.dev.port x.portOf).stranger ∧
        (d.port x.portOf).cause = (if x.valid then 3 else 2) ∧ d.targets = s.dev.targets ∧ s.dev.sameMemory d)) ∧
    (∀ (q : NetReq) (psn : BitVec 24) (off a k : Nat) (data : List Byte) (ce : Bool), x.qp = .rts → s.dev.storageWf →
      s.dev.ecc = [] → (∀ u, s.dev.owed u = false) →
      x.reqs = [q] → q.issued = true → q.write = false → q.sample = some k → s.dev.sampleAt q.ring k = some a →
      (psn - q.psn).toNat < q.packets → off + data.length ≤ q.bytes → q.bytes ≤ q.got + data.length →
      Completes (.roceReadResponse t psn off data ce) s (fun d =>
        (d.target t).reqs = [] ∧ (d.target t).retries = 0 ∧ (d.target t).qp = .rts ∧
        readBytes d.mem (a + q.offset + off) data.length = data ∧
        (∀ b, ¬ (a + q.offset + off ≤ b ∧ b < a + q.offset + off + data.length) → readByte d.mem b = readByte s.dev.mem b) ∧
        d.hostMem = s.dev.hostMem)) ∧
    (∀ (q : NetReq) (psn : BitVec 24), x.qp = .rts → x.reqs = [q] → q.issued = true → q.write = true →
      (psn - (q.psn + BitVec.ofNat 24 (q.packets - 1))).toNat < 2 ^ 23 → (∀ p, s.dev.startedOf p = []) →
      Completes (.roceAckReceive t psn) s (fun d =>
        (d.target t).reqs = [] ∧ (d.target t).retries = 0 ∧ (d.target t).nextPsn = x.nextPsn ∧ s.dev.sameMemory d)) ∧
    (∀ q : NetReq, x.qp = .rts → x.reqs = [q] → q.issued = true → x.retries < 7 →
      (∀ psn : BitVec 24, (psn - q.psn).toNat < q.packets →
        Completes (.roceNakReceive t psn) s (fun d =>
          (d.target t).retries = x.retries + 1 ∧ (d.target t).reqs = [{ q with got := 0 }] ∧ (d.target t).qp = .rts ∧
          s.dev.sameMemory d)) ∧
      Completes (.roceAckTimeout t) s (fun d =>
        (d.target t).retries = x.retries + 1 ∧ (d.target t).reqs = [{ q with got := 0 }] ∧ (d.target t).qp = .rts ∧
        s.dev.sameMemory d)) ∧
    (∀ q : NetReq, x.qp = .rts → x.reqs = [q] → q.issued = true → 7 ≤ x.retries →
      Completes (.roceAckTimeout t) s (fun d => (d.target t).qp = .error ∧ (d.target t).reqs = [] ∧ s.dev.sameMemory d)) ∧
    (x.qp = .rts → due50 x.lastCnpRx s.dev.pwr.aon = true →
      Completes (.cnpReceive t) s (fun d =>
        (d.target t).rate = max (x.rate / 2) (1 / 2) ∧ (d.target t).lastCnpRx = some s.dev.pwr.aon ∧
        (d.target t).reqs = x.reqs ∧ (∀ k, k ≠ t → d.target k = s.dev.target k) ∧ s.dev.sameMemory d)) ∧
    (x.qp = .rts → (∀ u, x.lastCnpRx = some u → 1056 ≤ (s.dev.pwr.aon - u).toNat) → (∀ q ∈ x.reqs, q.issued = true) →
      Completes (.rateIncrease t) s (fun d =>
        (d.target t).rate = min (x.rate + 5 / 2) 50 ∧ (d.target t).reqs = x.reqs ∧
        (∀ k, k ≠ t → d.target k = s.dev.target k) ∧ s.dev.sameMemory d))

/-- A SAMPLE_JOB reads its list and its layout at START. A sample whose bytes stand in host or device memory is copied into the
bitstream buffer and goes to the working engine with the least queued work; one from the network does so when its bytes have
arrived. After the read budget, what is still being read is corrupt with cause 2. The model's choices it rests on: log entry 35.
-/
def Obligations.SampleJobsReadTheirSources : Prop :=
  ∀ (s : State) (p : Fin 64) (q : Fin 4) (c : Cmd) (w : SampleWork) (r : RingId), r = { fn := .vf p, q := q } →
    s.dev.ccx.sup = .ready → s.dev.isTripped = false → s.dev.storageWf → s.dev.ecc = [] → (∀ u, s.dev.owed u = false) →
    (s.dev.ring r).cmds = [c] → c.work = .sample w →
    ((s.dev.part p).state ≠ .resetting → (s.dev.part p).lost = false → (s.dev.ring r).nextStart = some c →
      s.dev.turnOf p r c = true → s.dev.snapshotFree p r c = true → enOf c.startWait = false →
      Completes (.commandStart r) s (fun d =>
        (∃ e v, (d.ring r).cmds = [e] ∧ e.stage = .started ∧ e.startTick = s.dev.pwr.aon ∧ e.work = .sample v ∧
          v.begun = w.begun ∧ v.layout = s.dev.peek false (Job.layout c) 64 ∧
          v.samples = samplesOf 0 ((List.range c.ptrCount).map (fun k => s.dev.peek c.ptrHost (c.ptr + 64 * k) 16))) ∧
        s.dev.sameMemory d)) ∧
    (c.stage = .started → w.begun = false →
      Completes (.sampleJob p q) s (fun d =>
        (∃ e, (d.ring r).cmds = [e] ∧ e.work = .sample { w with begun := true }) ∧ s.dev.sameMemory d)) ∧
    (∀ (k : Nat) (x : Sample) (e : Fin 4), c.stage = .started → w.begun = true → w.samples[k]? = some x → x.state = .reading →
      s.dev.bestEngine = some e →
      (Ent.src x.words ≠ 0 → (Ent.src x.words ≠ 1 → s.dev.trippedAt (Ent.srcAddr x.words) = false) →
        Completes (.sampleReadDone p q k) s (fun d =>
          readBytes d.mem (Lay.bsBuf w.layout + x.at') (Ent.srcBytes x.words) =
            readBytes (if Ent.src x.words = 1 then s.dev.hostMem else s.dev.mem) (Ent.srcAddr x.words) (Ent.srcBytes x.words) ∧
          (∀ a, ¬ (Lay.bsBuf w.layout + x.at' ≤ a ∧ a < Lay.bsBuf w.layout + x.at' + Ent.srcBytes x.words) →
            readByte d.mem a = readByte s.dev.mem a) ∧ d.hostMem = s.dev.hostMem ∧
          (∃ f v y, (d.ring r).cmds = [f] ∧ f.work = .sample v ∧ v.samples[k]? = some y ∧ y.state = .read ∧
            y.engine = some e ∧ y.words = x.words) ∧
          (Tab.at d.engines e).streams = (Tab.at s.dev.engines e).streams + 1)) ∧
      (Ent.src x.words = 0 → Ent.srcBytes x.words ≤ x.arrived →
        Completes (.sampleReadDone p q k) s (fun d =>
          (∃ f v y, (d.ring r).cmds = [f] ∧ f.work = .sample v ∧ v.samples[k]? = some y ∧ y.state = .read ∧
            y.engine = some e) ∧ s.dev.sameMemory d)) ∧
      (Ent.src x.words = 0 → x.arrived < Ent.srcBytes x.words →
        Completes (.sampleReadDone p q k) s (fun d => d = s.dev))) ∧
    (c.stage = .started → w.begun = true → 192 * Job.budget c ≤ 10 * (s.dev.pwr.aon - c.startTick).toNat →
      Completes (.sampleReadTimeout p q) s (fun d =>
        (∃ f v, (d.ring r).cmds = [f] ∧ f.work = .sample v ∧
          ∀ (k : Nat) (x : Sample), w.samples[k]? = some x →
            ∃ y : Sample, v.samples[k]? = some y ∧ y.state = (if x.state = .reading then .corrupt 2 else x.state)) ∧
        (∀ t, (Tab.at d.targets t).reqs = (Tab.at s.dev.targets t).reqs.filter (fun y => !(y.ring == r && !y.write))) ∧
        s.dev.sameMemory d))

/-- A decoded sample that is no reserve sample is written to its slot of the destination and to no other byte, and its engine is
free of it; a job whose every sample is written closes with its manifest, and OK where no slot had to be replaced. The model's
choices it rests on: log entries 9, 35. -/
def Obligations.SamplesAreWrittenAndTheJobCloses : Prop :=
  ∀ (s : State) (p : Fin 64) (q : Fin 4) (c : Cmd) (w : SampleWork) (r : RingId), r = { fn := .vf p, q := q } →
    s.dev.ccx.sup = .ready → s.dev.isTripped = false → s.dev.storageWf → s.dev.ecc = [] → (∀ u, s.dev.owed u = false) →
    (s.dev.ring r).cmds = [c] → c.stage = .started → c.work = .sample w → w.begun = true →
    (∀ (k : Nat) (x : Sample) (e : Fin 4) (out : List Byte) (short : Bool), w.samples[k]? = some x → x.state = .read →
      x.engine = some e → Lay.stem w.layout = false → Ent.reserve x.words = false → (Lay.dest w.layout).loc 0 = .dev →
      s.dev.trippedAt (Lay.bsBuf w.layout + x.at') = false →
      sampleOut w.layout (s.dev.stemAt w.layout) { w := [], b := [] } (Job.slots c) x.words (lo32 (Config.freeValue s.dev.free))
        (readBytes s.dev.mem (Lay.bsBuf w.layout + x.at') (Ent.srcBytes x.words)) = .ok (out, short) →
      out.length = pieceBytes w.layout (s.dev.stemAt w.layout) →
      Completes (.sampleDecodeDone p q k) s (fun d =>
        readBytes d.mem ((Lay.dest w.layout).addr + Ent.slot x.words * Lay.stride w.layout) out.length = out ∧
        (∀ a, ¬ ((Lay.dest w.layout).addr + Ent.slot x.words * Lay.stride w.layout ≤ a ∧
            a < (Lay.dest w.layout).addr + Ent.slot x.words * Lay.stride w.layout + out.length) →
          readByte d.mem a = readByte s.dev.mem a) ∧ d.hostMem = s.dev.hostMem ∧
        (∃ f v y, (d.ring r).cmds = [f] ∧ f.work = .sample v ∧ v.samples[k]? = some y ∧ y.state = .written ∧ y.short = short ∧
          y.engine = none))) ∧
    (∀ a : Nat, (∀ x ∈ w.samples, x.state = .written) → w.heads = [] → w.poison = false →
      hostBit (Lay.manifest w.layout) = (true, a) → elapsedUs c.startTick s.dev.pwr.aon ≤ c.promise.toNat →
      Completes (.sampleJobClose p q) s (fun d =>
        (∃ f, (d.ring r).cmds = [f] ∧ f.stage = .done ∧ f.status = .ok) ∧
        readWord d.hostMem (a + 12) = BitVec.ofNat 32 (c.tag.toNat + 65536 * s.dev.ccx.epoch.toNat) ∧
        (∀ k, k < a → readByte d.hostMem k = readByte s.dev.hostMem k) ∧ d.mem = s.dev.mem ∧ d.ecc = s.dev.ecc))

/-- An ENCODE that starts takes the working engine with the least queued work and begins at frame 0; a coded frame that is not
the last advances the frame, and its index entry names the place where its bytes begin. The model's choices it rests on: log
entries 9, 36. -/
def Obligations.EncodesBeginAndAdvance : Prop :=
  ∀ (s : State) (p : Fin 64) (q : Fin 4) (c : Cmd) (w : EncodeWork) (r : RingId), r = { fn := .vf p, q := q } →
    s.dev.ccx.sup = .ready → s.dev.isTripped = false → s.dev.storageWf → s.dev.ecc = [] → (∀ u, s.dev.owed u = false) →
    (s.dev.ring r).cmds = [c] → c.stage = .started → c.work = .encode w →
    (∀ e : Fin 4, w.begun = false → s.dev.bestEngine = some e →
      Completes (.encode p q) s (fun d =>
        (∃ f v, (d.ring r).cmds = [f] ∧ f.work = .encode v ∧ v.begun = true ∧ v.engine = e ∧ v.frame = 0 ∧ v.pos = 0 ∧
          v.record = s.dev.peek false (Enc.record c) 32) ∧
        (Tab.at d.engines e).streams = (Tab.at s.dev.engines e).streams + 1 ∧ (Tab.at d.engines e).state = .busy ∧
        s.dev.sameMemory d)) ∧
    (∀ a b : Nat, w.begun = true → (Tab.at s.dev.engines w.engine).works = true → w.frame + 1 < Enc.frames c →
      hostBit (Enc.dst w.record) = (true, a) → hostBit (Enc.idx w.record) = (true, b) → (Enc.src w.record).loc 0 = .dev →
      Completes (.encodeFrameDone p q) s (fun d =>
        (∃ f v, (d.ring r).cmds = [f] ∧ f.work = .encode v ∧ v.frame = w.frame + 1 ∧ w.pos ≤ v.pos ∧ v.engine = w.engine ∧
          readBytes d.hostMem (b + 8 * w.frame) 8 = leBytes 4 w.pos ++ leBytes 4 (v.pos - w.pos)) ∧
        d.mem = s.dev.mem ∧ d.ecc = []))

/-! ### Sealed metering (R419 to R430) -/

/-- Each sample adds to every shunt's energy; the interval's end waits for the activity frame; the frame, or its absence, closes
the interval with a MODULE record first, its input energy, and GAP where the frame is missing; a log write moves the oldest
pending record into the log. Nothing outside the metering block and the partitions' accounts changes. The metering port answers
STATUS, READ of up to 64 records and READ_AUDIT, refuses a longer READ, and changes nothing else; CAL_EN follows its pads. The model's choices it rests on: log entry 19. -/
def Obligations.MeterIntervalsAndPort : Prop :=
  (∀ (s : State), s.dev.mtr.on = true →
     (∀ mv ma : Tab Word 10, Completes (.meterSample mv ma) s (fun d =>
       (∀ k : Fin 10, Tab.at d.mtr.energy k = Tab.at s.dev.mtr.energy k +
         shuntEnergy (Tab.at mv k) (Tab.at ma k) (Tab.at s.dev.mtr.gain k) (Tab.at s.dev.mtr.offset k)) ∧
       { d with mtr := { d.mtr with energy := s.dev.mtr.energy } } = s.dev)) ∧
     (s.dev.mtr.awaiting = false → s.dev.mtr.pending.length < 255 →
       Completes .meterIntervalEnd s (fun d =>
         d.mtr.ticks = s.dev.mtr.ticks + 960000000 ∧ d.mtr.awaiting = true ∧ d.mtr.pending = s.dev.mtr.pending ∧
         { d with mtr := s.dev.mtr } = s.dev)) ∧
     (s.dev.mtr.awaiting = true → s.dev.mtr.pending = [] →
       Completes .activityFrame s (fun d =>
         (∃ m rest, d.mtr.pending = m :: rest ∧ m.kind = 2 ∧ m.gap = false ∧ m.aon = s.dev.pwr.aon ∧
           m.seq = s.dev.mtr.seq + 1 ∧ m.tStart = s.dev.mtr.tStart ∧ m.tEnd = s.dev.mtr.ticks ∧
           m.eInt = BitVec.ofNat 64 (s.dev.mtr.microJ 8 + s.dev.mtr.microJ 9)) ∧
         d.mtr.awaiting = false ∧ d.mtr.tStart = s.dev.mtr.ticks ∧ d.plains = s.dev.plains ∧ s.dev.sameMemory d) ∧
       Completes .activityFrameTimeout s (fun d =>
         (∃ m rest, d.mtr.pending = m :: rest ∧ m.kind = 2 ∧ m.gap = true ∧ m.aon = 0 ∧
           m.eInt = BitVec.ofNat 64 (s.dev.mtr.microJ 8 + s.dev.mtr.microJ 9) ∧ m.eTotal = m.eInt) ∧
         d.mtr.awaiting = false ∧ d.mtr.prev = s.dev.mtr.prev ∧ d.plains = s.dev.plains ∧ s.dev.sameMemory d)) ∧
     (∀ (m : MRec) (rest : List MRec), s.dev.mtr.writing = true → s.dev.mtr.pending = m :: rest →
       Completes .meterLogWriteDone s (fun d =>
         d.mtr.log = (m :: s.dev.mtr.log).take 1048576 ∧ d.mtr.pending = rest ∧ d.mtr.seq = m.seq ∧
         { d with mtr := s.dev.mtr } = s.dev))) ∧
  (∀ (s : State),
     (s.dev.mtr.on = true →
       Completes .meterStatus s (fun d => d = s.dev.reply
         (.words [s.dev.mtr.stat, Config.keyId, s.dev.mtr.paramVer, lo32 s.dev.mtr.seq, hi32 s.dev.mtr.seq])) ∧
       Completes .readAudit s (fun d => d = s.dev.reply (.records (s.dev.mtr.audit.reverse.map MRec.words))) ∧
       (∀ (seq : DWord) (n : Nat), Completes (.meterRead seq n) s (fun d => d = s.dev.reply (if n ≤ 64
         then .records ((s.dev.mtr.log.reverse.filter (fun m => seq ≤ m.seq && m.seq.toNat < seq.toNat + n)).map MRec.words)
         else .nack)))) ∧
     (∀ b : Bool, Completes (.calEnChange b) s (fun d =>
       d.mtr.calEn = b ∧ { d with mtr := { d.mtr with calEn := s.dev.mtr.calEn } } = s.dev)))

/-- A change of a parameter raises PARAM_VER by 1 and appends one AUDIT record, of the old value and the new one, which the
audit region keeps beside all the others; no gain, offset or trim changes until the next interval starts, when it takes effect.
The 1,024th record makes the region full (AUDIT_FULL); then every further change is refused, and so is one without CAL_EN or out of
range. (The premise of fewer than 254 records that wait is log entry 19's.) The model's choices it rests on: log entry 19. -/
def Obligations.CalibrationChangesTakeEffectNextInterval : Prop :=
  ∀ (s : State) (param : BitVec 16) (v : Word), s.dev.mtr.on = true →
    (s.dev.mtr.calEn = false ∨ s.dev.mtr.auditFull = true ∨ paramOk param v = false →
      Completes (.calWrite param v) s (fun d => d = s.dev.reply .nack)) ∧
    (s.dev.mtr.calEn = true → s.dev.mtr.auditFull = false → paramOk param v = true → s.dev.mtr.pending.length < 254 →
      Completes (.calWrite param v) s (fun d =>
        d.mtr.paramVer = s.dev.mtr.paramVer + 1 ∧ d.mtr.next = s.dev.mtr.next ++ [(param, v)] ∧
        d.mtr.gain = s.dev.mtr.gain ∧ d.mtr.offset = s.dev.mtr.offset ∧ d.mtr.trim = s.dev.mtr.trim ∧
        (∃ m, d.mtr.audit = m :: s.dev.mtr.audit ∧ m.kind = 3 ∧ m.eInt = param.setWidth 64 ∧
          m.eTotal = dword (s.dev.mtr.param param) v ∧ m.paramVer = s.dev.mtr.paramVer + 1) ∧
        (d.mtr.auditFull = true ↔ 1024 ≤ d.mtr.audit.length) ∧ bit d.mtr.stat 2 = d.mtr.auditFull ∧
        d.mtr.pending.length = s.dev.mtr.pending.length + 1 ∧ { d with mtr := s.dev.mtr, out := s.dev.out } = s.dev)) ∧
    (paramOk param v = true → s.dev.mtr.awaiting = true → s.dev.mtr.pending = [] → s.dev.mtr.next = [(param, v)] →
      Completes .activityFrame s (fun d => d.mtr.next = [] ∧ d.mtr.audit = s.dev.mtr.audit ∧ d.mtr.tStart = s.dev.mtr.ticks ∧
        (∀ k : Fin 10, Tab.at d.mtr.gain k = if param.toNat = k.val then v else Tab.at s.dev.mtr.gain k) ∧
        (∀ k : Fin 10, Tab.at d.mtr.offset k = if param.toNat = 16 + k.val then v else Tab.at s.dev.mtr.offset k) ∧
        d.mtr.trim = if param.toNat = 32 then v else s.dev.mtr.trim))
end

