-- ==== Sys2Proof/Laws/State.lean ====
section
/-! SUPPORT. The fields of the state that each update of one unit leaves alone, and what it makes of the one it changes: one
lemma for each field and update. -/

namespace Sys2Proof.Machine

open Sys2Proof

/-! ### `Dev.updPart` changes `parts` alone -/

@[simp] theorem Dev.updPart_free (d : Dev) (p : Fin 64) (f : Part → Part) : (d.updPart p f).free = d.free := rfl
@[simp] theorem Dev.updPart_images (d : Dev) (p : Fin 64) (f : Part → Part) : (d.updPart p f).images = d.images := rfl
@[simp] theorem Dev.updPart_out (d : Dev) (p : Fin 64) (f : Part → Part) : (d.updPart p f).out = d.out := rfl
@[simp] theorem Dev.updPart_hostMem (d : Dev) (p : Fin 64) (f : Part → Part) : (d.updPart p f).hostMem = d.hostMem := rfl
@[simp] theorem Dev.updPart_hif (d : Dev) (p : Fin 64) (f : Part → Part) : (d.updPart p f).hif = d.hif := rfl
@[simp] theorem Dev.updPart_plainMap (d : Dev) (p : Fin 64) (f : Part → Part) : (d.updPart p f).plainMap = d.plainMap := rfl
@[simp] theorem Dev.updPart_barMap (d : Dev) (p : Fin 64) (f : Part → Part) : (d.updPart p f).barMap = d.barMap := rfl
@[simp] theorem Dev.updPart_daleMap (d : Dev) (p : Fin 64) (f : Part → Part) : (d.updPart p f).daleMap = d.daleMap := rfl
@[simp] theorem Dev.updPart_basinMap (d : Dev) (p : Fin 64) (f : Part → Part) : (d.updPart p f).basinMap = d.basinMap := rfl
@[simp] theorem Dev.updPart_daleLast (d : Dev) (p : Fin 64) (f : Part → Part) : (d.updPart p f).daleLast = d.daleLast := rfl
@[simp] theorem Dev.updPart_basinLast (d : Dev) (p : Fin 64) (f : Part → Part) : (d.updPart p f).basinLast = d.basinLast := rfl
@[simp] theorem Dev.updPart_acctLo (d : Dev) (p : Fin 64) (f : Part → Part) : (d.updPart p f).acctLo = d.acctLo := rfl
@[simp] theorem Dev.updPart_acctHi (d : Dev) (p : Fin 64) (f : Part → Part) : (d.updPart p f).acctHi = d.acctHi := rfl
@[simp] theorem Dev.updPart_acctBusy (d : Dev) (p : Fin 64) (f : Part → Part) : (d.updPart p f).acctBusy = d.acctBusy := rfl
@[simp] theorem Dev.updPart_plains (d : Dev) (p : Fin 64) (f : Part → Part) : (d.updPart p f).plains = d.plains := rfl
@[simp] theorem Dev.updPart_waits (d : Dev) (p : Fin 64) (f : Part → Part) : (d.updPart p f).waits = d.waits := rfl
@[simp] theorem Dev.updPart_bars (d : Dev) (p : Fin 64) (f : Part → Part) : (d.updPart p f).bars = d.bars := rfl
@[simp] theorem Dev.updPart_mem (d : Dev) (p : Fin 64) (f : Part → Part) : (d.updPart p f).mem = d.mem := rfl
@[simp] theorem Dev.updPart_ecc (d : Dev) (p : Fin 64) (f : Part → Part) : (d.updPart p f).ecc = d.ecc := rfl
@[simp] theorem Dev.updPart_warnC (d : Dev) (p : Fin 64) (f : Part → Part) : (d.updPart p f).warnC = d.warnC := rfl
@[simp] theorem Dev.updPart_trip (d : Dev) (p : Fin 64) (f : Part → Part) : (d.updPart p f).trip = d.trip := rfl
@[simp] theorem Dev.updPart_daleStacks (d : Dev) (p : Fin 64) (f : Part → Part) : (d.updPart p f).daleStacks = d.daleStacks := rfl
@[simp] theorem Dev.updPart_channels (d : Dev) (p : Fin 64) (f : Part → Part) : (d.updPart p f).channels = d.channels := rfl
@[simp] theorem Dev.updPart_glens (d : Dev) (p : Fin 64) (f : Part → Part) : (d.updPart p f).glens = d.glens := rfl
@[simp] theorem Dev.updPart_cols (d : Dev) (p : Fin 64) (f : Part → Part) : (d.updPart p f).cols = d.cols := rfl
@[simp] theorem Dev.updPart_axes (d : Dev) (p : Fin 64) (f : Part → Part) : (d.updPart p f).axes = d.axes := rfl
@[simp] theorem Dev.updPart_early (d : Dev) (p : Fin 64) (f : Part → Part) : (d.updPart p f).early = d.early := rfl
@[simp] theorem Dev.updPart_pendFull (d : Dev) (p : Fin 64) (f : Part → Part) : (d.updPart p f).pendFull = d.pendFull := rfl
@[simp] theorem Dev.updPart_groups (d : Dev) (p : Fin 64) (f : Part → Part) : (d.updPart p f).groups = d.groups := rfl
@[simp] theorem Dev.updPart_groupGen (d : Dev) (p : Fin 64) (f : Part → Part) : (d.updPart p f).groupGen = d.groupGen := rfl
@[simp] theorem Dev.updPart_tgtSel (d : Dev) (p : Fin 64) (f : Part → Part) : (d.updPart p f).tgtSel = d.tgtSel := rfl
@[simp] theorem Dev.updPart_targets (d : Dev) (p : Fin 64) (f : Part → Part) : (d.updPart p f).targets = d.targets := rfl
@[simp] theorem Dev.updPart_ports (d : Dev) (p : Fin 64) (f : Part → Part) : (d.updPart p f).ports = d.ports := rfl
@[simp] theorem Dev.updPart_engines (d : Dev) (p : Fin 64) (f : Part → Part) : (d.updPart p f).engines = d.engines := rfl
@[simp] theorem Dev.updPart_ras (d : Dev) (p : Fin 64) (f : Part → Part) : (d.updPart p f).ras = d.ras := rfl
@[simp] theorem Dev.updPart_ccx (d : Dev) (p : Fin 64) (f : Part → Part) : (d.updPart p f).ccx = d.ccx := rfl
@[simp] theorem Dev.updPart_pwr (d : Dev) (p : Fin 64) (f : Part → Part) : (d.updPart p f).pwr = d.pwr := rfl
@[simp] theorem Dev.updPart_mtr (d : Dev) (p : Fin 64) (f : Part → Part) : (d.updPart p f).mtr = d.mtr := rfl

/-! ### `Dev.updPlain` changes `plains` alone -/

@[simp] theorem Dev.updPlain_free (d : Dev) (i : Fin 64) (f : Plain → Plain) : (d.updPlain i f).free = d.free := rfl
@[simp] theorem Dev.updPlain_images (d : Dev) (i : Fin 64) (f : Plain → Plain) : (d.updPlain i f).images = d.images := rfl
@[simp] theorem Dev.updPlain_out (d : Dev) (i : Fin 64) (f : Plain → Plain) : (d.updPlain i f).out = d.out := rfl
@[simp] theorem Dev.updPlain_hostMem (d : Dev) (i : Fin 64) (f : Plain → Plain) : (d.updPlain i f).hostMem = d.hostMem := rfl
@[simp] theorem Dev.updPlain_hif (d : Dev) (i : Fin 64) (f : Plain → Plain) : (d.updPlain i f).hif = d.hif := rfl
@[simp] theorem Dev.updPlain_plainMap (d : Dev) (i : Fin 64) (f : Plain → Plain) : (d.updPlain i f).plainMap = d.plainMap := rfl
@[simp] theorem Dev.updPlain_barMap (d : Dev) (i : Fin 64) (f : Plain → Plain) : (d.updPlain i f).barMap = d.barMap := rfl
@[simp] theorem Dev.updPlain_daleMap (d : Dev) (i : Fin 64) (f : Plain → Plain) : (d.updPlain i f).daleMap = d.daleMap := rfl
@[simp] theorem Dev.updPlain_basinMap (d : Dev) (i : Fin 64) (f : Plain → Plain) : (d.updPlain i f).basinMap = d.basinMap := rfl
@[simp] theorem Dev.updPlain_daleLast (d : Dev) (i : Fin 64) (f : Plain → Plain) : (d.updPlain i f).daleLast = d.daleLast := rfl
@[simp] theorem Dev.updPlain_basinLast (d : Dev) (i : Fin 64) (f : Plain → Plain) : (d.updPlain i f).basinLast = d.basinLast := rfl
@[simp] theorem Dev.updPlain_acctLo (d : Dev) (i : Fin 64) (f : Plain → Plain) : (d.updPlain i f).acctLo = d.acctLo := rfl
@[simp] theorem Dev.updPlain_acctHi (d : Dev) (i : Fin 64) (f : Plain → Plain) : (d.updPlain i f).acctHi = d.acctHi := rfl
@[simp] theorem Dev.updPlain_acctBusy (d : Dev) (i : Fin 64) (f : Plain → Plain) : (d.updPlain i f).acctBusy = d.acctBusy := rfl
@[simp] theorem Dev.updPlain_parts (d : Dev) (i : Fin 64) (f : Plain → Plain) : (d.updPlain i f).parts = d.parts := rfl
@[simp] theorem Dev.updPlain_waits (d : Dev) (i : Fin 64) (f : Plain → Plain) : (d.updPlain i f).waits = d.waits := rfl
@[simp] theorem Dev.updPlain_bars (d : Dev) (i : Fin 64) (f : Plain → Plain) : (d.updPlain i f).bars = d.bars := rfl
@[simp] theorem Dev.updPlain_mem (d : Dev) (i : Fin 64) (f : Plain → Plain) : (d.updPlain i f).mem = d.mem := rfl
@[simp] theorem Dev.updPlain_ecc (d : Dev) (i : Fin 64) (f : Plain → Plain) : (d.updPlain i f).ecc = d.ecc := rfl
@[simp] theorem Dev.updPlain_warnC (d : Dev) (i : Fin 64) (f : Plain → Plain) : (d.updPlain i f).warnC = d.warnC := rfl
@[simp] theorem Dev.updPlain_trip (d : Dev) (i : Fin 64) (f : Plain → Plain) : (d.updPlain i f).trip = d.trip := rfl
@[simp] theorem Dev.updPlain_daleStacks (d : Dev) (i : Fin 64) (f : Plain → Plain) : (d.updPlain i f).daleStacks = d.daleStacks := rfl
@[simp] theorem Dev.updPlain_channels (d : Dev) (i : Fin 64) (f : Plain → Plain) : (d.updPlain i f).channels = d.channels := rfl
@[simp] theorem Dev.updPlain_glens (d : Dev) (i : Fin 64) (f : Plain → Plain) : (d.updPlain i f).glens = d.glens := rfl
@[simp] theorem Dev.updPlain_cols (d : Dev) (i : Fin 64) (f : Plain → Plain) : (d.updPlain i f).cols = d.cols := rfl
@[simp] theorem Dev.updPlain_axes (d : Dev) (i : Fin 64) (f : Plain → Plain) : (d.updPlain i f).axes = d.axes := rfl
@[simp] theorem Dev.updPlain_early (d : Dev) (i : Fin 64) (f : Plain → Plain) : (d.updPlain i f).early = d.early := rfl
@[simp] theorem Dev.updPlain_pendFull (d : Dev) (i : Fin 64) (f : Plain → Plain) : (d.updPlain i f).pendFull = d.pendFull := rfl
@[simp] theorem Dev.updPlain_groups (d : Dev) (i : Fin 64) (f : Plain → Plain) : (d.updPlain i f).groups = d.groups := rfl
@[simp] theorem Dev.updPlain_groupGen (d : Dev) (i : Fin 64) (f : Plain → Plain) : (d.updPlain i f).groupGen = d.groupGen := rfl
@[simp] theorem Dev.updPlain_tgtSel (d : Dev) (i : Fin 64) (f : Plain → Plain) : (d.updPlain i f).tgtSel = d.tgtSel := rfl
@[simp] theorem Dev.updPlain_targets (d : Dev) (i : Fin 64) (f : Plain → Plain) : (d.updPlain i f).targets = d.targets := rfl
@[simp] theorem Dev.updPlain_ports (d : Dev) (i : Fin 64) (f : Plain → Plain) : (d.updPlain i f).ports = d.ports := rfl
@[simp] theorem Dev.updPlain_engines (d : Dev) (i : Fin 64) (f : Plain → Plain) : (d.updPlain i f).engines = d.engines := rfl
@[simp] theorem Dev.updPlain_ras (d : Dev) (i : Fin 64) (f : Plain → Plain) : (d.updPlain i f).ras = d.ras := rfl
@[simp] theorem Dev.updPlain_ccx (d : Dev) (i : Fin 64) (f : Plain → Plain) : (d.updPlain i f).ccx = d.ccx := rfl
@[simp] theorem Dev.updPlain_pwr (d : Dev) (i : Fin 64) (f : Plain → Plain) : (d.updPlain i f).pwr = d.pwr := rfl
@[simp] theorem Dev.updPlain_mtr (d : Dev) (i : Fin 64) (f : Plain → Plain) : (d.updPlain i f).mtr = d.mtr := rfl

/-! ### `Dev.updThread` changes `plains` alone -/

@[simp] theorem Dev.updThread_free (d : Dev) (i t : Fin 64) (f : Thread → Thread) : (d.updThread i t f).free = d.free := rfl
@[simp] theorem Dev.updThread_images (d : Dev) (i t : Fin 64) (f : Thread → Thread) : (d.updThread i t f).images = d.images := rfl
@[simp] theorem Dev.updThread_out (d : Dev) (i t : Fin 64) (f : Thread → Thread) : (d.updThread i t f).out = d.out := rfl
@[simp] theorem Dev.updThread_hostMem (d : Dev) (i t : Fin 64) (f : Thread → Thread) : (d.updThread i t f).hostMem = d.hostMem := rfl
@[simp] theorem Dev.updThread_hif (d : Dev) (i t : Fin 64) (f : Thread → Thread) : (d.updThread i t f).hif = d.hif := rfl
@[simp] theorem Dev.updThread_plainMap (d : Dev) (i t : Fin 64) (f : Thread → Thread) : (d.updThread i t f).plainMap = d.plainMap := rfl
@[simp] theorem Dev.updThread_barMap (d : Dev) (i t : Fin 64) (f : Thread → Thread) : (d.updThread i t f).barMap = d.barMap := rfl
@[simp] theorem Dev.updThread_daleMap (d : Dev) (i t : Fin 64) (f : Thread → Thread) : (d.updThread i t f).daleMap = d.daleMap := rfl
@[simp] theorem Dev.updThread_basinMap (d : Dev) (i t : Fin 64) (f : Thread → Thread) : (d.updThread i t f).basinMap = d.basinMap := rfl
@[simp] theorem Dev.updThread_daleLast (d : Dev) (i t : Fin 64) (f : Thread → Thread) : (d.updThread i t f).daleLast = d.daleLast := rfl
@[simp] theorem Dev.updThread_basinLast (d : Dev) (i t : Fin 64) (f : Thread → Thread) : (d.updThread i t f).basinLast = d.basinLast := rfl
@[simp] theorem Dev.updThread_acctLo (d : Dev) (i t : Fin 64) (f : Thread → Thread) : (d.updThread i t f).acctLo = d.acctLo := rfl
@[simp] theorem Dev.updThread_acctHi (d : Dev) (i t : Fin 64) (f : Thread → Thread) : (d.updThread i t f).acctHi = d.acctHi := rfl
@[simp] theorem Dev.updThread_acctBusy (d : Dev) (i t : Fin 64) (f : Thread → Thread) : (d.updThread i t f).acctBusy = d.acctBusy := rfl
@[simp] theorem Dev.updThread_parts (d : Dev) (i t : Fin 64) (f : Thread → Thread) : (d.updThread i t f).parts = d.parts := rfl
@[simp] theorem Dev.updThread_waits (d : Dev) (i t : Fin 64) (f : Thread → Thread) : (d.updThread i t f).waits = d.waits := rfl
@[simp] theorem Dev.updThread_bars (d : Dev) (i t : Fin 64) (f : Thread → Thread) : (d.updThread i t f).bars = d.bars := rfl
@[simp] theorem Dev.updThread_mem (d : Dev) (i t : Fin 64) (f : Thread → Thread) : (d.updThread i t f).mem = d.mem := rfl
@[simp] theorem Dev.updThread_ecc (d : Dev) (i t : Fin 64) (f : Thread → Thread) : (d.updThread i t f).ecc = d.ecc := rfl
@[simp] theorem Dev.updThread_warnC (d : Dev) (i t : Fin 64) (f : Thread → Thread) : (d.updThread i t f).warnC = d.warnC := rfl
@[simp] theorem Dev.updThread_trip (d : Dev) (i t : Fin 64) (f : Thread → Thread) : (d.updThread i t f).trip = d.trip := rfl
@[simp] theorem Dev.updThread_daleStacks (d : Dev) (i t : Fin 64) (f : Thread → Thread) : (d.updThread i t f).daleStacks = d.daleStacks := rfl
@[simp] theorem Dev.updThread_channels (d : Dev) (i t : Fin 64) (f : Thread → Thread) : (d.updThread i t f).channels = d.channels := rfl
@[simp] theorem Dev.updThread_glens (d : Dev) (i t : Fin 64) (f : Thread → Thread) : (d.updThread i t f).glens = d.glens := rfl
@[simp] theorem Dev.updThread_cols (d : Dev) (i t : Fin 64) (f : Thread → Thread) : (d.updThread i t f).cols = d.cols := rfl
@[simp] theorem Dev.updThread_axes (d : Dev) (i t : Fin 64) (f : Thread → Thread) : (d.updThread i t f).axes = d.axes := rfl
@[simp] theorem Dev.updThread_early (d : Dev) (i t : Fin 64) (f : Thread → Thread) : (d.updThread i t f).early = d.early := rfl
@[simp] theorem Dev.updThread_pendFull (d : Dev) (i t : Fin 64) (f : Thread → Thread) : (d.updThread i t f).pendFull = d.pendFull := rfl
@[simp] theorem Dev.updThread_groups (d : Dev) (i t : Fin 64) (f : Thread → Thread) : (d.updThread i t f).groups = d.groups := rfl
@[simp] theorem Dev.updThread_groupGen (d : Dev) (i t : Fin 64) (f : Thread → Thread) : (d.updThread i t f).groupGen = d.groupGen := rfl
@[simp] theorem Dev.updThread_tgtSel (d : Dev) (i t : Fin 64) (f : Thread → Thread) : (d.updThread i t f).tgtSel = d.tgtSel := rfl
@[simp] theorem Dev.updThread_targets (d : Dev) (i t : Fin 64) (f : Thread → Thread) : (d.updThread i t f).targets = d.targets := rfl
@[simp] theorem Dev.updThread_ports (d : Dev) (i t : Fin 64) (f : Thread → Thread) : (d.updThread i t f).ports = d.ports := rfl
@[simp] theorem Dev.updThread_engines (d : Dev) (i t : Fin 64) (f : Thread → Thread) : (d.updThread i t f).engines = d.engines := rfl
@[simp] theorem Dev.updThread_ras (d : Dev) (i t : Fin 64) (f : Thread → Thread) : (d.updThread i t f).ras = d.ras := rfl
@[simp] theorem Dev.updThread_ccx (d : Dev) (i t : Fin 64) (f : Thread → Thread) : (d.updThread i t f).ccx = d.ccx := rfl
@[simp] theorem Dev.updThread_pwr (d : Dev) (i t : Fin 64) (f : Thread → Thread) : (d.updThread i t f).pwr = d.pwr := rfl
@[simp] theorem Dev.updThread_mtr (d : Dev) (i t : Fin 64) (f : Thread → Thread) : (d.updThread i t f).mtr = d.mtr := rfl

/-! ### `Dev.updBar` changes `bars` alone -/

@[simp] theorem Dev.updBar_free (d : Dev) (s : Fin 32) (f : Barrier → Barrier) : (d.updBar s f).free = d.free := rfl
@[simp] theorem Dev.updBar_images (d : Dev) (s : Fin 32) (f : Barrier → Barrier) : (d.updBar s f).images = d.images := rfl
@[simp] theorem Dev.updBar_out (d : Dev) (s : Fin 32) (f : Barrier → Barrier) : (d.updBar s f).out = d.out := rfl
@[simp] theorem Dev.updBar_hostMem (d : Dev) (s : Fin 32) (f : Barrier → Barrier) : (d.updBar s f).hostMem = d.hostMem := rfl
@[simp] theorem Dev.updBar_hif (d : Dev) (s : Fin 32) (f : Barrier → Barrier) : (d.updBar s f).hif = d.hif := rfl
@[simp] theorem Dev.updBar_plainMap (d : Dev) (s : Fin 32) (f : Barrier → Barrier) : (d.updBar s f).plainMap = d.plainMap := rfl
@[simp] theorem Dev.updBar_barMap (d : Dev) (s : Fin 32) (f : Barrier → Barrier) : (d.updBar s f).barMap = d.barMap := rfl
@[simp] theorem Dev.updBar_daleMap (d : Dev) (s : Fin 32) (f : Barrier → Barrier) : (d.updBar s f).daleMap = d.daleMap := rfl
@[simp] theorem Dev.updBar_basinMap (d : Dev) (s : Fin 32) (f : Barrier → Barrier) : (d.updBar s f).basinMap = d.basinMap := rfl
@[simp] theorem Dev.updBar_daleLast (d : Dev) (s : Fin 32) (f : Barrier → Barrier) : (d.updBar s f).daleLast = d.daleLast := rfl
@[simp] theorem Dev.updBar_basinLast (d : Dev) (s : Fin 32) (f : Barrier → Barrier) : (d.updBar s f).basinLast = d.basinLast := rfl
@[simp] theorem Dev.updBar_acctLo (d : Dev) (s : Fin 32) (f : Barrier → Barrier) : (d.updBar s f).acctLo = d.acctLo := rfl
@[simp] theorem Dev.updBar_acctHi (d : Dev) (s : Fin 32) (f : Barrier → Barrier) : (d.updBar s f).acctHi = d.acctHi := rfl
@[simp] theorem Dev.updBar_acctBusy (d : Dev) (s : Fin 32) (f : Barrier → Barrier) : (d.updBar s f).acctBusy = d.acctBusy := rfl
@[simp] theorem Dev.updBar_parts (d : Dev) (s : Fin 32) (f : Barrier → Barrier) : (d.updBar s f).parts = d.parts := rfl
@[simp] theorem Dev.updBar_plains (d : Dev) (s : Fin 32) (f : Barrier → Barrier) : (d.updBar s f).plains = d.plains := rfl
@[simp] theorem Dev.updBar_waits (d : Dev) (s : Fin 32) (f : Barrier → Barrier) : (d.updBar s f).waits = d.waits := rfl
@[simp] theorem Dev.updBar_mem (d : Dev) (s : Fin 32) (f : Barrier → Barrier) : (d.updBar s f).mem = d.mem := rfl
@[simp] theorem Dev.updBar_ecc (d : Dev) (s : Fin 32) (f : Barrier → Barrier) : (d.updBar s f).ecc = d.ecc := rfl
@[simp] theorem Dev.updBar_warnC (d : Dev) (s : Fin 32) (f : Barrier → Barrier) : (d.updBar s f).warnC = d.warnC := rfl
@[simp] theorem Dev.updBar_trip (d : Dev) (s : Fin 32) (f : Barrier → Barrier) : (d.updBar s f).trip = d.trip := rfl
@[simp] theorem Dev.updBar_daleStacks (d : Dev) (s : Fin 32) (f : Barrier → Barrier) : (d.updBar s f).daleStacks = d.daleStacks := rfl
@[simp] theorem Dev.updBar_channels (d : Dev) (s : Fin 32) (f : Barrier → Barrier) : (d.updBar s f).channels = d.channels := rfl
@[simp] theorem Dev.updBar_glens (d : Dev) (s : Fin 32) (f : Barrier → Barrier) : (d.updBar s f).glens = d.glens := rfl
@[simp] theorem Dev.updBar_cols (d : Dev) (s : Fin 32) (f : Barrier → Barrier) : (d.updBar s f).cols = d.cols := rfl
@[simp] theorem Dev.updBar_axes (d : Dev) (s : Fin 32) (f : Barrier → Barrier) : (d.updBar s f).axes = d.axes := rfl
@[simp] theorem Dev.updBar_early (d : Dev) (s : Fin 32) (f : Barrier → Barrier) : (d.updBar s f).early = d.early := rfl
@[simp] theorem Dev.updBar_pendFull (d : Dev) (s : Fin 32) (f : Barrier → Barrier) : (d.updBar s f).pendFull = d.pendFull := rfl
@[simp] theorem Dev.updBar_groups (d : Dev) (s : Fin 32) (f : Barrier → Barrier) : (d.updBar s f).groups = d.groups := rfl
@[simp] theorem Dev.updBar_groupGen (d : Dev) (s : Fin 32) (f : Barrier → Barrier) : (d.updBar s f).groupGen = d.groupGen := rfl
@[simp] theorem Dev.updBar_tgtSel (d : Dev) (s : Fin 32) (f : Barrier → Barrier) : (d.updBar s f).tgtSel = d.tgtSel := rfl
@[simp] theorem Dev.updBar_targets (d : Dev) (s : Fin 32) (f : Barrier → Barrier) : (d.updBar s f).targets = d.targets := rfl
@[simp] theorem Dev.updBar_ports (d : Dev) (s : Fin 32) (f : Barrier → Barrier) : (d.updBar s f).ports = d.ports := rfl
@[simp] theorem Dev.updBar_engines (d : Dev) (s : Fin 32) (f : Barrier → Barrier) : (d.updBar s f).engines = d.engines := rfl
@[simp] theorem Dev.updBar_ras (d : Dev) (s : Fin 32) (f : Barrier → Barrier) : (d.updBar s f).ras = d.ras := rfl
@[simp] theorem Dev.updBar_ccx (d : Dev) (s : Fin 32) (f : Barrier → Barrier) : (d.updBar s f).ccx = d.ccx := rfl
@[simp] theorem Dev.updBar_pwr (d : Dev) (s : Fin 32) (f : Barrier → Barrier) : (d.updBar s f).pwr = d.pwr := rfl
@[simp] theorem Dev.updBar_mtr (d : Dev) (s : Fin 32) (f : Barrier → Barrier) : (d.updBar s f).mtr = d.mtr := rfl

/-! ### `Dev.updCol` changes `cols` alone -/

@[simp] theorem Dev.updCol_free (d : Dev) (c : Fin 16) (f : Col → Col) : (d.updCol c f).free = d.free := rfl
@[simp] theorem Dev.updCol_images (d : Dev) (c : Fin 16) (f : Col → Col) : (d.updCol c f).images = d.images := rfl
@[simp] theorem Dev.updCol_out (d : Dev) (c : Fin 16) (f : Col → Col) : (d.updCol c f).out = d.out := rfl
@[simp] theorem Dev.updCol_hostMem (d : Dev) (c : Fin 16) (f : Col → Col) : (d.updCol c f).hostMem = d.hostMem := rfl
@[simp] theorem Dev.updCol_hif (d : Dev) (c : Fin 16) (f : Col → Col) : (d.updCol c f).hif = d.hif := rfl
@[simp] theorem Dev.updCol_plainMap (d : Dev) (c : Fin 16) (f : Col → Col) : (d.updCol c f).plainMap = d.plainMap := rfl
@[simp] theorem Dev.updCol_barMap (d : Dev) (c : Fin 16) (f : Col → Col) : (d.updCol c f).barMap = d.barMap := rfl
@[simp] theorem Dev.updCol_daleMap (d : Dev) (c : Fin 16) (f : Col → Col) : (d.updCol c f).daleMap = d.daleMap := rfl
@[simp] theorem Dev.updCol_basinMap (d : Dev) (c : Fin 16) (f : Col → Col) : (d.updCol c f).basinMap = d.basinMap := rfl
@[simp] theorem Dev.updCol_daleLast (d : Dev) (c : Fin 16) (f : Col → Col) : (d.updCol c f).daleLast = d.daleLast := rfl
@[simp] theorem Dev.updCol_basinLast (d : Dev) (c : Fin 16) (f : Col → Col) : (d.updCol c f).basinLast = d.basinLast := rfl
@[simp] theorem Dev.updCol_acctLo (d : Dev) (c : Fin 16) (f : Col → Col) : (d.updCol c f).acctLo = d.acctLo := rfl
@[simp] theorem Dev.updCol_acctHi (d : Dev) (c : Fin 16) (f : Col → Col) : (d.updCol c f).acctHi = d.acctHi := rfl
@[simp] theorem Dev.updCol_acctBusy (d : Dev) (c : Fin 16) (f : Col → Col) : (d.updCol c f).acctBusy = d.acctBusy := rfl
@[simp] theorem Dev.updCol_parts (d : Dev) (c : Fin 16) (f : Col → Col) : (d.updCol c f).parts = d.parts := rfl
@[simp] theorem Dev.updCol_plains (d : Dev) (c : Fin 16) (f : Col → Col) : (d.updCol c f).plains = d.plains := rfl
@[simp] theorem Dev.updCol_waits (d : Dev) (c : Fin 16) (f : Col → Col) : (d.updCol c f).waits = d.waits := rfl
@[simp] theorem Dev.updCol_bars (d : Dev) (c : Fin 16) (f : Col → Col) : (d.updCol c f).bars = d.bars := rfl
@[simp] theorem Dev.updCol_mem (d : Dev) (c : Fin 16) (f : Col → Col) : (d.updCol c f).mem = d.mem := rfl
@[simp] theorem Dev.updCol_ecc (d : Dev) (c : Fin 16) (f : Col → Col) : (d.updCol c f).ecc = d.ecc := rfl
@[simp] theorem Dev.updCol_warnC (d : Dev) (c : Fin 16) (f : Col → Col) : (d.updCol c f).warnC = d.warnC := rfl
@[simp] theorem Dev.updCol_trip (d : Dev) (c : Fin 16) (f : Col → Col) : (d.updCol c f).trip = d.trip := rfl
@[simp] theorem Dev.updCol_daleStacks (d : Dev) (c : Fin 16) (f : Col → Col) : (d.updCol c f).daleStacks = d.daleStacks := rfl
@[simp] theorem Dev.updCol_channels (d : Dev) (c : Fin 16) (f : Col → Col) : (d.updCol c f).channels = d.channels := rfl
@[simp] theorem Dev.updCol_glens (d : Dev) (c : Fin 16) (f : Col → Col) : (d.updCol c f).glens = d.glens := rfl
@[simp] theorem Dev.updCol_axes (d : Dev) (c : Fin 16) (f : Col → Col) : (d.updCol c f).axes = d.axes := rfl
@[simp] theorem Dev.updCol_early (d : Dev) (c : Fin 16) (f : Col → Col) : (d.updCol c f).early = d.early := rfl
@[simp] theorem Dev.updCol_pendFull (d : Dev) (c : Fin 16) (f : Col → Col) : (d.updCol c f).pendFull = d.pendFull := rfl
@[simp] theorem Dev.updCol_groups (d : Dev) (c : Fin 16) (f : Col → Col) : (d.updCol c f).groups = d.groups := rfl
@[simp] theorem Dev.updCol_groupGen (d : Dev) (c : Fin 16) (f : Col → Col) : (d.updCol c f).groupGen = d.groupGen := rfl
@[simp] theorem Dev.updCol_tgtSel (d : Dev) (c : Fin 16) (f : Col → Col) : (d.updCol c f).tgtSel = d.tgtSel := rfl
@[simp] theorem Dev.updCol_targets (d : Dev) (c : Fin 16) (f : Col → Col) : (d.updCol c f).targets = d.targets := rfl
@[simp] theorem Dev.updCol_ports (d : Dev) (c : Fin 16) (f : Col → Col) : (d.updCol c f).ports = d.ports := rfl
@[simp] theorem Dev.updCol_engines (d : Dev) (c : Fin 16) (f : Col → Col) : (d.updCol c f).engines = d.engines := rfl
@[simp] theorem Dev.updCol_ras (d : Dev) (c : Fin 16) (f : Col → Col) : (d.updCol c f).ras = d.ras := rfl
@[simp] theorem Dev.updCol_ccx (d : Dev) (c : Fin 16) (f : Col → Col) : (d.updCol c f).ccx = d.ccx := rfl
@[simp] theorem Dev.updCol_pwr (d : Dev) (c : Fin 16) (f : Col → Col) : (d.updCol c f).pwr = d.pwr := rfl
@[simp] theorem Dev.updCol_mtr (d : Dev) (c : Fin 16) (f : Col → Col) : (d.updCol c f).mtr = d.mtr := rfl

/-! ### `Dev.updTarget` changes `targets` alone -/

@[simp] theorem Dev.updTarget_free (d : Dev) (t : Fin 256) (f : Target → Target) : (d.updTarget t f).free = d.free := rfl
@[simp] theorem Dev.updTarget_images (d : Dev) (t : Fin 256) (f : Target → Target) : (d.updTarget t f).images = d.images := rfl
@[simp] theorem Dev.updTarget_out (d : Dev) (t : Fin 256) (f : Target → Target) : (d.updTarget t f).out = d.out := rfl
@[simp] theorem Dev.updTarget_hostMem (d : Dev) (t : Fin 256) (f : Target → Target) : (d.updTarget t f).hostMem = d.hostMem := rfl
@[simp] theorem Dev.updTarget_hif (d : Dev) (t : Fin 256) (f : Target → Target) : (d.updTarget t f).hif = d.hif := rfl
@[simp] theorem Dev.updTarget_plainMap (d : Dev) (t : Fin 256) (f : Target → Target) : (d.updTarget t f).plainMap = d.plainMap := rfl
@[simp] theorem Dev.updTarget_barMap (d : Dev) (t : Fin 256) (f : Target → Target) : (d.updTarget t f).barMap = d.barMap := rfl
@[simp] theorem Dev.updTarget_daleMap (d : Dev) (t : Fin 256) (f : Target → Target) : (d.updTarget t f).daleMap = d.daleMap := rfl
@[simp] theorem Dev.updTarget_basinMap (d : Dev) (t : Fin 256) (f : Target → Target) : (d.updTarget t f).basinMap = d.basinMap := rfl
@[simp] theorem Dev.updTarget_daleLast (d : Dev) (t : Fin 256) (f : Target → Target) : (d.updTarget t f).daleLast = d.daleLast := rfl
@[simp] theorem Dev.updTarget_basinLast (d : Dev) (t : Fin 256) (f : Target → Target) : (d.updTarget t f).basinLast = d.basinLast := rfl
@[simp] theorem Dev.updTarget_acctLo (d : Dev) (t : Fin 256) (f : Target → Target) : (d.updTarget t f).acctLo = d.acctLo := rfl
@[simp] theorem Dev.updTarget_acctHi (d : Dev) (t : Fin 256) (f : Target → Target) : (d.updTarget t f).acctHi = d.acctHi := rfl
@[simp] theorem Dev.updTarget_acctBusy (d : Dev) (t : Fin 256) (f : Target → Target) : (d.updTarget t f).acctBusy = d.acctBusy := rfl
@[simp] theorem Dev.updTarget_parts (d : Dev) (t : Fin 256) (f : Target → Target) : (d.updTarget t f).parts = d.parts := rfl
@[simp] theorem Dev.updTarget_plains (d : Dev) (t : Fin 256) (f : Target → Target) : (d.updTarget t f).plains = d.plains := rfl
@[simp] theorem Dev.updTarget_waits (d : Dev) (t : Fin 256) (f : Target → Target) : (d.updTarget t f).waits = d.waits := rfl
@[simp] theorem Dev.updTarget_bars (d : Dev) (t : Fin 256) (f : Target → Target) : (d.updTarget t f).bars = d.bars := rfl
@[simp] theorem Dev.updTarget_mem (d : Dev) (t : Fin 256) (f : Target → Target) : (d.updTarget t f).mem = d.mem := rfl
@[simp] theorem Dev.updTarget_ecc (d : Dev) (t : Fin 256) (f : Target → Target) : (d.updTarget t f).ecc = d.ecc := rfl
@[simp] theorem Dev.updTarget_warnC (d : Dev) (t : Fin 256) (f : Target → Target) : (d.updTarget t f).warnC = d.warnC := rfl
@[simp] theorem Dev.updTarget_trip (d : Dev) (t : Fin 256) (f : Target → Target) : (d.updTarget t f).trip = d.trip := rfl
@[simp] theorem Dev.updTarget_daleStacks (d : Dev) (t : Fin 256) (f : Target → Target) : (d.updTarget t f).daleStacks = d.daleStacks := rfl
@[simp] theorem Dev.updTarget_channels (d : Dev) (t : Fin 256) (f : Target → Target) : (d.updTarget t f).channels = d.channels := rfl
@[simp] theorem Dev.updTarget_glens (d : Dev) (t : Fin 256) (f : Target → Target) : (d.updTarget t f).glens = d.glens := rfl
@[simp] theorem Dev.updTarget_cols (d : Dev) (t : Fin 256) (f : Target → Target) : (d.updTarget t f).cols = d.cols := rfl
@[simp] theorem Dev.updTarget_axes (d : Dev) (t : Fin 256) (f : Target → Target) : (d.updTarget t f).axes = d.axes := rfl
@[simp] theorem Dev.updTarget_early (d : Dev) (t : Fin 256) (f : Target → Target) : (d.updTarget t f).early = d.early := rfl
@[simp] theorem Dev.updTarget_pendFull (d : Dev) (t : Fin 256) (f : Target → Target) : (d.updTarget t f).pendFull = d.pendFull := rfl
@[simp] theorem Dev.updTarget_groups (d : Dev) (t : Fin 256) (f : Target → Target) : (d.updTarget t f).groups = d.groups := rfl
@[simp] theorem Dev.updTarget_groupGen (d : Dev) (t : Fin 256) (f : Target → Target) : (d.updTarget t f).groupGen = d.groupGen := rfl
@[simp] theorem Dev.updTarget_tgtSel (d : Dev) (t : Fin 256) (f : Target → Target) : (d.updTarget t f).tgtSel = d.tgtSel := rfl
@[simp] theorem Dev.updTarget_ports (d : Dev) (t : Fin 256) (f : Target → Target) : (d.updTarget t f).ports = d.ports := rfl
@[simp] theorem Dev.updTarget_engines (d : Dev) (t : Fin 256) (f : Target → Target) : (d.updTarget t f).engines = d.engines := rfl
@[simp] theorem Dev.updTarget_ras (d : Dev) (t : Fin 256) (f : Target → Target) : (d.updTarget t f).ras = d.ras := rfl
@[simp] theorem Dev.updTarget_ccx (d : Dev) (t : Fin 256) (f : Target → Target) : (d.updTarget t f).ccx = d.ccx := rfl
@[simp] theorem Dev.updTarget_pwr (d : Dev) (t : Fin 256) (f : Target → Target) : (d.updTarget t f).pwr = d.pwr := rfl
@[simp] theorem Dev.updTarget_mtr (d : Dev) (t : Fin 256) (f : Target → Target) : (d.updTarget t f).mtr = d.mtr := rfl

/-! ### `Dev.updPort` changes `ports` alone -/

@[simp] theorem Dev.updPort_free (d : Dev) (n : Fin 2) (f : Port → Port) : (d.updPort n f).free = d.free := rfl
@[simp] theorem Dev.updPort_images (d : Dev) (n : Fin 2) (f : Port → Port) : (d.updPort n f).images = d.images := rfl
@[simp] theorem Dev.updPort_out (d : Dev) (n : Fin 2) (f : Port → Port) : (d.updPort n f).out = d.out := rfl
@[simp] theorem Dev.updPort_hostMem (d : Dev) (n : Fin 2) (f : Port → Port) : (d.updPort n f).hostMem = d.hostMem := rfl
@[simp] theorem Dev.updPort_hif (d : Dev) (n : Fin 2) (f : Port → Port) : (d.updPort n f).hif = d.hif := rfl
@[simp] theorem Dev.updPort_plainMap (d : Dev) (n : Fin 2) (f : Port → Port) : (d.updPort n f).plainMap = d.plainMap := rfl
@[simp] theorem Dev.updPort_barMap (d : Dev) (n : Fin 2) (f : Port → Port) : (d.updPort n f).barMap = d.barMap := rfl
@[simp] theorem Dev.updPort_daleMap (d : Dev) (n : Fin 2) (f : Port → Port) : (d.updPort n f).daleMap = d.daleMap := rfl
@[simp] theorem Dev.updPort_basinMap (d : Dev) (n : Fin 2) (f : Port → Port) : (d.updPort n f).basinMap = d.basinMap := rfl
@[simp] theorem Dev.updPort_daleLast (d : Dev) (n : Fin 2) (f : Port → Port) : (d.updPort n f).daleLast = d.daleLast := rfl
@[simp] theorem Dev.updPort_basinLast (d : Dev) (n : Fin 2) (f : Port → Port) : (d.updPort n f).basinLast = d.basinLast := rfl
@[simp] theorem Dev.updPort_acctLo (d : Dev) (n : Fin 2) (f : Port → Port) : (d.updPort n f).acctLo = d.acctLo := rfl
@[simp] theorem Dev.updPort_acctHi (d : Dev) (n : Fin 2) (f : Port → Port) : (d.updPort n f).acctHi = d.acctHi := rfl
@[simp] theorem Dev.updPort_acctBusy (d : Dev) (n : Fin 2) (f : Port → Port) : (d.updPort n f).acctBusy = d.acctBusy := rfl
@[simp] theorem Dev.updPort_parts (d : Dev) (n : Fin 2) (f : Port → Port) : (d.updPort n f).parts = d.parts := rfl
@[simp] theorem Dev.updPort_plains (d : Dev) (n : Fin 2) (f : Port → Port) : (d.updPort n f).plains = d.plains := rfl
@[simp] theorem Dev.updPort_waits (d : Dev) (n : Fin 2) (f : Port → Port) : (d.updPort n f).waits = d.waits := rfl
@[simp] theorem Dev.updPort_bars (d : Dev) (n : Fin 2) (f : Port → Port) : (d.updPort n f).bars = d.bars := rfl
@[simp] theorem Dev.updPort_mem (d : Dev) (n : Fin 2) (f : Port → Port) : (d.updPort n f).mem = d.mem := rfl
@[simp] theorem Dev.updPort_ecc (d : Dev) (n : Fin 2) (f : Port → Port) : (d.updPort n f).ecc = d.ecc := rfl
@[simp] theorem Dev.updPort_warnC (d : Dev) (n : Fin 2) (f : Port → Port) : (d.updPort n f).warnC = d.warnC := rfl
@[simp] theorem Dev.updPort_trip (d : Dev) (n : Fin 2) (f : Port → Port) : (d.updPort n f).trip = d.trip := rfl
@[simp] theorem Dev.updPort_daleStacks (d : Dev) (n : Fin 2) (f : Port → Port) : (d.updPort n f).daleStacks = d.daleStacks := rfl
@[simp] theorem Dev.updPort_channels (d : Dev) (n : Fin 2) (f : Port → Port) : (d.updPort n f).channels = d.channels := rfl
@[simp] theorem Dev.updPort_glens (d : Dev) (n : Fin 2) (f : Port → Port) : (d.updPort n f).glens = d.glens := rfl
@[simp] theorem Dev.updPort_cols (d : Dev) (n : Fin 2) (f : Port → Port) : (d.updPort n f).cols = d.cols := rfl
@[simp] theorem Dev.updPort_axes (d : Dev) (n : Fin 2) (f : Port → Port) : (d.updPort n f).axes = d.axes := rfl
@[simp] theorem Dev.updPort_early (d : Dev) (n : Fin 2) (f : Port → Port) : (d.updPort n f).early = d.early := rfl
@[simp] theorem Dev.updPort_pendFull (d : Dev) (n : Fin 2) (f : Port → Port) : (d.updPort n f).pendFull = d.pendFull := rfl
@[simp] theorem Dev.updPort_groups (d : Dev) (n : Fin 2) (f : Port → Port) : (d.updPort n f).groups = d.groups := rfl
@[simp] theorem Dev.updPort_groupGen (d : Dev) (n : Fin 2) (f : Port → Port) : (d.updPort n f).groupGen = d.groupGen := rfl
@[simp] theorem Dev.updPort_tgtSel (d : Dev) (n : Fin 2) (f : Port → Port) : (d.updPort n f).tgtSel = d.tgtSel := rfl
@[simp] theorem Dev.updPort_targets (d : Dev) (n : Fin 2) (f : Port → Port) : (d.updPort n f).targets = d.targets := rfl
@[simp] theorem Dev.updPort_engines (d : Dev) (n : Fin 2) (f : Port → Port) : (d.updPort n f).engines = d.engines := rfl
@[simp] theorem Dev.updPort_ras (d : Dev) (n : Fin 2) (f : Port → Port) : (d.updPort n f).ras = d.ras := rfl
@[simp] theorem Dev.updPort_ccx (d : Dev) (n : Fin 2) (f : Port → Port) : (d.updPort n f).ccx = d.ccx := rfl
@[simp] theorem Dev.updPort_pwr (d : Dev) (n : Fin 2) (f : Port → Port) : (d.updPort n f).pwr = d.pwr := rfl
@[simp] theorem Dev.updPort_mtr (d : Dev) (n : Fin 2) (f : Port → Port) : (d.updPort n f).mtr = d.mtr := rfl

/-! ### `Dev.updRas` changes `ras` alone -/

@[simp] theorem Dev.updRas_free (d : Dev) (f : Ras → Ras) : (d.updRas f).free = d.free := rfl
@[simp] theorem Dev.updRas_images (d : Dev) (f : Ras → Ras) : (d.updRas f).images = d.images := rfl
@[simp] theorem Dev.updRas_out (d : Dev) (f : Ras → Ras) : (d.updRas f).out = d.out := rfl
@[simp] theorem Dev.updRas_hostMem (d : Dev) (f : Ras → Ras) : (d.updRas f).hostMem = d.hostMem := rfl
@[simp] theorem Dev.updRas_hif (d : Dev) (f : Ras → Ras) : (d.updRas f).hif = d.hif := rfl
@[simp] theorem Dev.updRas_plainMap (d : Dev) (f : Ras → Ras) : (d.updRas f).plainMap = d.plainMap := rfl
@[simp] theorem Dev.updRas_barMap (d : Dev) (f : Ras → Ras) : (d.updRas f).barMap = d.barMap := rfl
@[simp] theorem Dev.updRas_daleMap (d : Dev) (f : Ras → Ras) : (d.updRas f).daleMap = d.daleMap := rfl
@[simp] theorem Dev.updRas_basinMap (d : Dev) (f : Ras → Ras) : (d.updRas f).basinMap = d.basinMap := rfl
@[simp] theorem Dev.updRas_daleLast (d : Dev) (f : Ras → Ras) : (d.updRas f).daleLast = d.daleLast := rfl
@[simp] theorem Dev.updRas_basinLast (d : Dev) (f : Ras → Ras) : (d.updRas f).basinLast = d.basinLast := rfl
@[simp] theorem Dev.updRas_acctLo (d : Dev) (f : Ras → Ras) : (d.updRas f).acctLo = d.acctLo := rfl
@[simp] theorem Dev.updRas_acctHi (d : Dev) (f : Ras → Ras) : (d.updRas f).acctHi = d.acctHi := rfl
@[simp] theorem Dev.updRas_acctBusy (d : Dev) (f : Ras → Ras) : (d.updRas f).acctBusy = d.acctBusy := rfl
@[simp] theorem Dev.updRas_parts (d : Dev) (f : Ras → Ras) : (d.updRas f).parts = d.parts := rfl
@[simp] theorem Dev.updRas_plains (d : Dev) (f : Ras → Ras) : (d.updRas f).plains = d.plains := rfl
@[simp] theorem Dev.updRas_waits (d : Dev) (f : Ras → Ras) : (d.updRas f).waits = d.waits := rfl
@[simp] theorem Dev.updRas_bars (d : Dev) (f : Ras → Ras) : (d.updRas f).bars = d.bars := rfl
@[simp] theorem Dev.updRas_mem (d : Dev) (f : Ras → Ras) : (d.updRas f).mem = d.mem := rfl
@[simp] theorem Dev.updRas_ecc (d : Dev) (f : Ras → Ras) : (d.updRas f).ecc = d.ecc := rfl
@[simp] theorem Dev.updRas_warnC (d : Dev) (f : Ras → Ras) : (d.updRas f).warnC = d.warnC := rfl
@[simp] theorem Dev.updRas_trip (d : Dev) (f : Ras → Ras) : (d.updRas f).trip = d.trip := rfl
@[simp] theorem Dev.updRas_daleStacks (d : Dev) (f : Ras → Ras) : (d.updRas f).daleStacks = d.daleStacks := rfl
@[simp] theorem Dev.updRas_channels (d : Dev) (f : Ras → Ras) : (d.updRas f).channels = d.channels := rfl
@[simp] theorem Dev.updRas_glens (d : Dev) (f : Ras → Ras) : (d.updRas f).glens = d.glens := rfl
@[simp] theorem Dev.updRas_cols (d : Dev) (f : Ras → Ras) : (d.updRas f).cols = d.cols := rfl
@[simp] theorem Dev.updRas_axes (d : Dev) (f : Ras → Ras) : (d.updRas f).axes = d.axes := rfl
@[simp] theorem Dev.updRas_early (d : Dev) (f : Ras → Ras) : (d.updRas f).early = d.early := rfl
@[simp] theorem Dev.updRas_pendFull (d : Dev) (f : Ras → Ras) : (d.updRas f).pendFull = d.pendFull := rfl
@[simp] theorem Dev.updRas_groups (d : Dev) (f : Ras → Ras) : (d.updRas f).groups = d.groups := rfl
@[simp] theorem Dev.updRas_groupGen (d : Dev) (f : Ras → Ras) : (d.updRas f).groupGen = d.groupGen := rfl
@[simp] theorem Dev.updRas_tgtSel (d : Dev) (f : Ras → Ras) : (d.updRas f).tgtSel = d.tgtSel := rfl
@[simp] theorem Dev.updRas_targets (d : Dev) (f : Ras → Ras) : (d.updRas f).targets = d.targets := rfl
@[simp] theorem Dev.updRas_ports (d : Dev) (f : Ras → Ras) : (d.updRas f).ports = d.ports := rfl
@[simp] theorem Dev.updRas_engines (d : Dev) (f : Ras → Ras) : (d.updRas f).engines = d.engines := rfl
@[simp] theorem Dev.updRas_ccx (d : Dev) (f : Ras → Ras) : (d.updRas f).ccx = d.ccx := rfl
@[simp] theorem Dev.updRas_pwr (d : Dev) (f : Ras → Ras) : (d.updRas f).pwr = d.pwr := rfl
@[simp] theorem Dev.updRas_mtr (d : Dev) (f : Ras → Ras) : (d.updRas f).mtr = d.mtr := rfl

/-! ### `Dev.updPwr` changes `pwr` alone -/

@[simp] theorem Dev.updPwr_free (d : Dev) (f : Pwr → Pwr) : (d.updPwr f).free = d.free := rfl
@[simp] theorem Dev.updPwr_images (d : Dev) (f : Pwr → Pwr) : (d.updPwr f).images = d.images := rfl
@[simp] theorem Dev.updPwr_out (d : Dev) (f : Pwr → Pwr) : (d.updPwr f).out = d.out := rfl
@[simp] theorem Dev.updPwr_hostMem (d : Dev) (f : Pwr → Pwr) : (d.updPwr f).hostMem = d.hostMem := rfl
@[simp] theorem Dev.updPwr_hif (d : Dev) (f : Pwr → Pwr) : (d.updPwr f).hif = d.hif := rfl
@[simp] theorem Dev.updPwr_plainMap (d : Dev) (f : Pwr → Pwr) : (d.updPwr f).plainMap = d.plainMap := rfl
@[simp] theorem Dev.updPwr_barMap (d : Dev) (f : Pwr → Pwr) : (d.updPwr f).barMap = d.barMap := rfl
@[simp] theorem Dev.updPwr_daleMap (d : Dev) (f : Pwr → Pwr) : (d.updPwr f).daleMap = d.daleMap := rfl
@[simp] theorem Dev.updPwr_basinMap (d : Dev) (f : Pwr → Pwr) : (d.updPwr f).basinMap = d.basinMap := rfl
@[simp] theorem Dev.updPwr_daleLast (d : Dev) (f : Pwr → Pwr) : (d.updPwr f).daleLast = d.daleLast := rfl
@[simp] theorem Dev.updPwr_basinLast (d : Dev) (f : Pwr → Pwr) : (d.updPwr f).basinLast = d.basinLast := rfl
@[simp] theorem Dev.updPwr_acctLo (d : Dev) (f : Pwr → Pwr) : (d.updPwr f).acctLo = d.acctLo := rfl
@[simp] theorem Dev.updPwr_acctHi (d : Dev) (f : Pwr → Pwr) : (d.updPwr f).acctHi = d.acctHi := rfl
@[simp] theorem Dev.updPwr_acctBusy (d : Dev) (f : Pwr → Pwr) : (d.updPwr f).acctBusy = d.acctBusy := rfl
@[simp] theorem Dev.updPwr_parts (d : Dev) (f : Pwr → Pwr) : (d.updPwr f).parts = d.parts := rfl
@[simp] theorem Dev.updPwr_plains (d : Dev) (f : Pwr → Pwr) : (d.updPwr f).plains = d.plains := rfl
@[simp] theorem Dev.updPwr_waits (d : Dev) (f : Pwr → Pwr) : (d.updPwr f).waits = d.waits := rfl
@[simp] theorem Dev.updPwr_bars (d : Dev) (f : Pwr → Pwr) : (d.updPwr f).bars = d.bars := rfl
@[simp] theorem Dev.updPwr_mem (d : Dev) (f : Pwr → Pwr) : (d.updPwr f).mem = d.mem := rfl
@[simp] theorem Dev.updPwr_ecc (d : Dev) (f : Pwr → Pwr) : (d.updPwr f).ecc = d.ecc := rfl
@[simp] theorem Dev.updPwr_warnC (d : Dev) (f : Pwr → Pwr) : (d.updPwr f).warnC = d.warnC := rfl
@[simp] theorem Dev.updPwr_trip (d : Dev) (f : Pwr → Pwr) : (d.updPwr f).trip = d.trip := rfl
@[simp] theorem Dev.updPwr_daleStacks (d : Dev) (f : Pwr → Pwr) : (d.updPwr f).daleStacks = d.daleStacks := rfl
@[simp] theorem Dev.updPwr_channels (d : Dev) (f : Pwr → Pwr) : (d.updPwr f).channels = d.channels := rfl
@[simp] theorem Dev.updPwr_glens (d : Dev) (f : Pwr → Pwr) : (d.updPwr f).glens = d.glens := rfl
@[simp] theorem Dev.updPwr_cols (d : Dev) (f : Pwr → Pwr) : (d.updPwr f).cols = d.cols := rfl
@[simp] theorem Dev.updPwr_axes (d : Dev) (f : Pwr → Pwr) : (d.updPwr f).axes = d.axes := rfl
@[simp] theorem Dev.updPwr_early (d : Dev) (f : Pwr → Pwr) : (d.updPwr f).early = d.early := rfl
@[simp] theorem Dev.updPwr_pendFull (d : Dev) (f : Pwr → Pwr) : (d.updPwr f).pendFull = d.pendFull := rfl
@[simp] theorem Dev.updPwr_groups (d : Dev) (f : Pwr → Pwr) : (d.updPwr f).groups = d.groups := rfl
@[simp] theorem Dev.updPwr_groupGen (d : Dev) (f : Pwr → Pwr) : (d.updPwr f).groupGen = d.groupGen := rfl
@[simp] theorem Dev.updPwr_tgtSel (d : Dev) (f : Pwr → Pwr) : (d.updPwr f).tgtSel = d.tgtSel := rfl
@[simp] theorem Dev.updPwr_targets (d : Dev) (f : Pwr → Pwr) : (d.updPwr f).targets = d.targets := rfl
@[simp] theorem Dev.updPwr_ports (d : Dev) (f : Pwr → Pwr) : (d.updPwr f).ports = d.ports := rfl
@[simp] theorem Dev.updPwr_engines (d : Dev) (f : Pwr → Pwr) : (d.updPwr f).engines = d.engines := rfl
@[simp] theorem Dev.updPwr_ras (d : Dev) (f : Pwr → Pwr) : (d.updPwr f).ras = d.ras := rfl
@[simp] theorem Dev.updPwr_ccx (d : Dev) (f : Pwr → Pwr) : (d.updPwr f).ccx = d.ccx := rfl
@[simp] theorem Dev.updPwr_mtr (d : Dev) (f : Pwr → Pwr) : (d.updPwr f).mtr = d.mtr := rfl

/-! ### `Dev.updHif` changes `hif` alone -/

@[simp] theorem Dev.updHif_free (d : Dev) (f : Hif → Hif) : (d.updHif f).free = d.free := rfl
@[simp] theorem Dev.updHif_images (d : Dev) (f : Hif → Hif) : (d.updHif f).images = d.images := rfl
@[simp] theorem Dev.updHif_out (d : Dev) (f : Hif → Hif) : (d.updHif f).out = d.out := rfl
@[simp] theorem Dev.updHif_hostMem (d : Dev) (f : Hif → Hif) : (d.updHif f).hostMem = d.hostMem := rfl
@[simp] theorem Dev.updHif_plainMap (d : Dev) (f : Hif → Hif) : (d.updHif f).plainMap = d.plainMap := rfl
@[simp] theorem Dev.updHif_barMap (d : Dev) (f : Hif → Hif) : (d.updHif f).barMap = d.barMap := rfl
@[simp] theorem Dev.updHif_daleMap (d : Dev) (f : Hif → Hif) : (d.updHif f).daleMap = d.daleMap := rfl
@[simp] theorem Dev.updHif_basinMap (d : Dev) (f : Hif → Hif) : (d.updHif f).basinMap = d.basinMap := rfl
@[simp] theorem Dev.updHif_daleLast (d : Dev) (f : Hif → Hif) : (d.updHif f).daleLast = d.daleLast := rfl
@[simp] theorem Dev.updHif_basinLast (d : Dev) (f : Hif → Hif) : (d.updHif f).basinLast = d.basinLast := rfl
@[simp] theorem Dev.updHif_acctLo (d : Dev) (f : Hif → Hif) : (d.updHif f).acctLo = d.acctLo := rfl
@[simp] theorem Dev.updHif_acctHi (d : Dev) (f : Hif → Hif) : (d.updHif f).acctHi = d.acctHi := rfl
@[simp] theorem Dev.updHif_acctBusy (d : Dev) (f : Hif → Hif) : (d.updHif f).acctBusy = d.acctBusy := rfl
@[simp] theorem Dev.updHif_parts (d : Dev) (f : Hif → Hif) : (d.updHif f).parts = d.parts := rfl
@[simp] theorem Dev.updHif_plains (d : Dev) (f : Hif → Hif) : (d.updHif f).plains = d.plains := rfl
@[simp] theorem Dev.updHif_waits (d : Dev) (f : Hif → Hif) : (d.updHif f).waits = d.waits := rfl
@[simp] theorem Dev.updHif_bars (d : Dev) (f : Hif → Hif) : (d.updHif f).bars = d.bars := rfl
@[simp] theorem Dev.updHif_mem (d : Dev) (f : Hif → Hif) : (d.updHif f).mem = d.mem := rfl
@[simp] theorem Dev.updHif_ecc (d : Dev) (f : Hif → Hif) : (d.updHif f).ecc = d.ecc := rfl
@[simp] theorem Dev.updHif_warnC (d : Dev) (f : Hif → Hif) : (d.updHif f).warnC = d.warnC := rfl
@[simp] theorem Dev.updHif_trip (d : Dev) (f : Hif → Hif) : (d.updHif f).trip = d.trip := rfl
@[simp] theorem Dev.updHif_daleStacks (d : Dev) (f : Hif → Hif) : (d.updHif f).daleStacks = d.daleStacks := rfl
@[simp] theorem Dev.updHif_channels (d : Dev) (f : Hif → Hif) : (d.updHif f).channels = d.channels := rfl
@[simp] theorem Dev.updHif_glens (d : Dev) (f : Hif → Hif) : (d.updHif f).glens = d.glens := rfl
@[simp] theorem Dev.updHif_cols (d : Dev) (f : Hif → Hif) : (d.updHif f).cols = d.cols := rfl
@[simp] theorem Dev.updHif_axes (d : Dev) (f : Hif → Hif) : (d.updHif f).axes = d.axes := rfl
@[simp] theorem Dev.updHif_early (d : Dev) (f : Hif → Hif) : (d.updHif f).early = d.early := rfl
@[simp] theorem Dev.updHif_pendFull (d : Dev) (f : Hif → Hif) : (d.updHif f).pendFull = d.pendFull := rfl
@[simp] theorem Dev.updHif_groups (d : Dev) (f : Hif → Hif) : (d.updHif f).groups = d.groups := rfl
@[simp] theorem Dev.updHif_groupGen (d : Dev) (f : Hif → Hif) : (d.updHif f).groupGen = d.groupGen := rfl
@[simp] theorem Dev.updHif_tgtSel (d : Dev) (f : Hif → Hif) : (d.updHif f).tgtSel = d.tgtSel := rfl
@[simp] theorem Dev.updHif_targets (d : Dev) (f : Hif → Hif) : (d.updHif f).targets = d.targets := rfl
@[simp] theorem Dev.updHif_ports (d : Dev) (f : Hif → Hif) : (d.updHif f).ports = d.ports := rfl
@[simp] theorem Dev.updHif_engines (d : Dev) (f : Hif → Hif) : (d.updHif f).engines = d.engines := rfl
@[simp] theorem Dev.updHif_ras (d : Dev) (f : Hif → Hif) : (d.updHif f).ras = d.ras := rfl
@[simp] theorem Dev.updHif_ccx (d : Dev) (f : Hif → Hif) : (d.updHif f).ccx = d.ccx := rfl
@[simp] theorem Dev.updHif_pwr (d : Dev) (f : Hif → Hif) : (d.updHif f).pwr = d.pwr := rfl
@[simp] theorem Dev.updHif_mtr (d : Dev) (f : Hif → Hif) : (d.updHif f).mtr = d.mtr := rfl

/-! ### `Dev.updMtr` changes `mtr` alone -/

@[simp] theorem Dev.updMtr_free (d : Dev) (f : Mtr → Mtr) : (d.updMtr f).free = d.free := rfl
@[simp] theorem Dev.updMtr_images (d : Dev) (f : Mtr → Mtr) : (d.updMtr f).images = d.images := rfl
@[simp] theorem Dev.updMtr_out (d : Dev) (f : Mtr → Mtr) : (d.updMtr f).out = d.out := rfl
@[simp] theorem Dev.updMtr_hostMem (d : Dev) (f : Mtr → Mtr) : (d.updMtr f).hostMem = d.hostMem := rfl
@[simp] theorem Dev.updMtr_hif (d : Dev) (f : Mtr → Mtr) : (d.updMtr f).hif = d.hif := rfl
@[simp] theorem Dev.updMtr_plainMap (d : Dev) (f : Mtr → Mtr) : (d.updMtr f).plainMap = d.plainMap := rfl
@[simp] theorem Dev.updMtr_barMap (d : Dev) (f : Mtr → Mtr) : (d.updMtr f).barMap = d.barMap := rfl
@[simp] theorem Dev.updMtr_daleMap (d : Dev) (f : Mtr → Mtr) : (d.updMtr f).daleMap = d.daleMap := rfl
@[simp] theorem Dev.updMtr_basinMap (d : Dev) (f : Mtr → Mtr) : (d.updMtr f).basinMap = d.basinMap := rfl
@[simp] theorem Dev.updMtr_daleLast (d : Dev) (f : Mtr → Mtr) : (d.updMtr f).daleLast = d.daleLast := rfl
@[simp] theorem Dev.updMtr_basinLast (d : Dev) (f : Mtr → Mtr) : (d.updMtr f).basinLast = d.basinLast := rfl
@[simp] theorem Dev.updMtr_acctLo (d : Dev) (f : Mtr → Mtr) : (d.updMtr f).acctLo = d.acctLo := rfl
@[simp] theorem Dev.updMtr_acctHi (d : Dev) (f : Mtr → Mtr) : (d.updMtr f).acctHi = d.acctHi := rfl
@[simp] theorem Dev.updMtr_acctBusy (d : Dev) (f : Mtr → Mtr) : (d.updMtr f).acctBusy = d.acctBusy := rfl
@[simp] theorem Dev.updMtr_parts (d : Dev) (f : Mtr → Mtr) : (d.updMtr f).parts = d.parts := rfl
@[simp] theorem Dev.updMtr_plains (d : Dev) (f : Mtr → Mtr) : (d.updMtr f).plains = d.plains := rfl
@[simp] theorem Dev.updMtr_waits (d : Dev) (f : Mtr → Mtr) : (d.updMtr f).waits = d.waits := rfl
@[simp] theorem Dev.updMtr_bars (d : Dev) (f : Mtr → Mtr) : (d.updMtr f).bars = d.bars := rfl
@[simp] theorem Dev.updMtr_mem (d : Dev) (f : Mtr → Mtr) : (d.updMtr f).mem = d.mem := rfl
@[simp] theorem Dev.updMtr_ecc (d : Dev) (f : Mtr → Mtr) : (d.updMtr f).ecc = d.ecc := rfl
@[simp] theorem Dev.updMtr_warnC (d : Dev) (f : Mtr → Mtr) : (d.updMtr f).warnC = d.warnC := rfl
@[simp] theorem Dev.updMtr_trip (d : Dev) (f : Mtr → Mtr) : (d.updMtr f).trip = d.trip := rfl
@[simp] theorem Dev.updMtr_daleStacks (d : Dev) (f : Mtr → Mtr) : (d.updMtr f).daleStacks = d.daleStacks := rfl
@[simp] theorem Dev.updMtr_channels (d : Dev) (f : Mtr → Mtr) : (d.updMtr f).channels = d.channels := rfl
@[simp] theorem Dev.updMtr_glens (d : Dev) (f : Mtr → Mtr) : (d.updMtr f).glens = d.glens := rfl
@[simp] theorem Dev.updMtr_cols (d : Dev) (f : Mtr → Mtr) : (d.updMtr f).cols = d.cols := rfl
@[simp] theorem Dev.updMtr_axes (d : Dev) (f : Mtr → Mtr) : (d.updMtr f).axes = d.axes := rfl
@[simp] theorem Dev.updMtr_early (d : Dev) (f : Mtr → Mtr) : (d.updMtr f).early = d.early := rfl
@[simp] theorem Dev.updMtr_pendFull (d : Dev) (f : Mtr → Mtr) : (d.updMtr f).pendFull = d.pendFull := rfl
@[simp] theorem Dev.updMtr_groups (d : Dev) (f : Mtr → Mtr) : (d.updMtr f).groups = d.groups := rfl
@[simp] theorem Dev.updMtr_groupGen (d : Dev) (f : Mtr → Mtr) : (d.updMtr f).groupGen = d.groupGen := rfl
@[simp] theorem Dev.updMtr_tgtSel (d : Dev) (f : Mtr → Mtr) : (d.updMtr f).tgtSel = d.tgtSel := rfl
@[simp] theorem Dev.updMtr_targets (d : Dev) (f : Mtr → Mtr) : (d.updMtr f).targets = d.targets := rfl
@[simp] theorem Dev.updMtr_ports (d : Dev) (f : Mtr → Mtr) : (d.updMtr f).ports = d.ports := rfl
@[simp] theorem Dev.updMtr_engines (d : Dev) (f : Mtr → Mtr) : (d.updMtr f).engines = d.engines := rfl
@[simp] theorem Dev.updMtr_ras (d : Dev) (f : Mtr → Mtr) : (d.updMtr f).ras = d.ras := rfl
@[simp] theorem Dev.updMtr_ccx (d : Dev) (f : Mtr → Mtr) : (d.updMtr f).ccx = d.ccx := rfl
@[simp] theorem Dev.updMtr_pwr (d : Dev) (f : Mtr → Mtr) : (d.updMtr f).pwr = d.pwr := rfl

/-! ### `Dev.updCcx` changes `ccx` alone -/

@[simp] theorem Dev.updCcx_free (d : Dev) (f : Ccx → Ccx) : (d.updCcx f).free = d.free := rfl
@[simp] theorem Dev.updCcx_images (d : Dev) (f : Ccx → Ccx) : (d.updCcx f).images = d.images := rfl
@[simp] theorem Dev.updCcx_out (d : Dev) (f : Ccx → Ccx) : (d.updCcx f).out = d.out := rfl
@[simp] theorem Dev.updCcx_hostMem (d : Dev) (f : Ccx → Ccx) : (d.updCcx f).hostMem = d.hostMem := rfl
@[simp] theorem Dev.updCcx_hif (d : Dev) (f : Ccx → Ccx) : (d.updCcx f).hif = d.hif := rfl
@[simp] theorem Dev.updCcx_plainMap (d : Dev) (f : Ccx → Ccx) : (d.updCcx f).plainMap = d.plainMap := rfl
@[simp] theorem Dev.updCcx_barMap (d : Dev) (f : Ccx → Ccx) : (d.updCcx f).barMap = d.barMap := rfl
@[simp] theorem Dev.updCcx_daleMap (d : Dev) (f : Ccx → Ccx) : (d.updCcx f).daleMap = d.daleMap := rfl
@[simp] theorem Dev.updCcx_basinMap (d : Dev) (f : Ccx → Ccx) : (d.updCcx f).basinMap = d.basinMap := rfl
@[simp] theorem Dev.updCcx_daleLast (d : Dev) (f : Ccx → Ccx) : (d.updCcx f).daleLast = d.daleLast := rfl
@[simp] theorem Dev.updCcx_basinLast (d : Dev) (f : Ccx → Ccx) : (d.updCcx f).basinLast = d.basinLast := rfl
@[simp] theorem Dev.updCcx_acctLo (d : Dev) (f : Ccx → Ccx) : (d.updCcx f).acctLo = d.acctLo := rfl
@[simp] theorem Dev.updCcx_acctHi (d : Dev) (f : Ccx → Ccx) : (d.updCcx f).acctHi = d.acctHi := rfl
@[simp] theorem Dev.updCcx_acctBusy (d : Dev) (f : Ccx → Ccx) : (d.updCcx f).acctBusy = d.acctBusy := rfl
@[simp] theorem Dev.updCcx_parts (d : Dev) (f : Ccx → Ccx) : (d.updCcx f).parts = d.parts := rfl
@[simp] theorem Dev.updCcx_plains (d : Dev) (f : Ccx → Ccx) : (d.updCcx f).plains = d.plains := rfl
@[simp] theorem Dev.updCcx_waits (d : Dev) (f : Ccx → Ccx) : (d.updCcx f).waits = d.waits := rfl
@[simp] theorem Dev.updCcx_bars (d : Dev) (f : Ccx → Ccx) : (d.updCcx f).bars = d.bars := rfl
@[simp] theorem Dev.updCcx_mem (d : Dev) (f : Ccx → Ccx) : (d.updCcx f).mem = d.mem := rfl
@[simp] theorem Dev.updCcx_ecc (d : Dev) (f : Ccx → Ccx) : (d.updCcx f).ecc = d.ecc := rfl
@[simp] theorem Dev.updCcx_warnC (d : Dev) (f : Ccx → Ccx) : (d.updCcx f).warnC = d.warnC := rfl
@[simp] theorem Dev.updCcx_trip (d : Dev) (f : Ccx → Ccx) : (d.updCcx f).trip = d.trip := rfl
@[simp] theorem Dev.updCcx_daleStacks (d : Dev) (f : Ccx → Ccx) : (d.updCcx f).daleStacks = d.daleStacks := rfl
@[simp] theorem Dev.updCcx_channels (d : Dev) (f : Ccx → Ccx) : (d.updCcx f).channels = d.channels := rfl
@[simp] theorem Dev.updCcx_glens (d : Dev) (f : Ccx → Ccx) : (d.updCcx f).glens = d.glens := rfl
@[simp] theorem Dev.updCcx_cols (d : Dev) (f : Ccx → Ccx) : (d.updCcx f).cols = d.cols := rfl
@[simp] theorem Dev.updCcx_axes (d : Dev) (f : Ccx → Ccx) : (d.updCcx f).axes = d.axes := rfl
@[simp] theorem Dev.updCcx_early (d : Dev) (f : Ccx → Ccx) : (d.updCcx f).early = d.early := rfl
@[simp] theorem Dev.updCcx_pendFull (d : Dev) (f : Ccx → Ccx) : (d.updCcx f).pendFull = d.pendFull := rfl
@[simp] theorem Dev.updCcx_groups (d : Dev) (f : Ccx → Ccx) : (d.updCcx f).groups = d.groups := rfl
@[simp] theorem Dev.updCcx_groupGen (d : Dev) (f : Ccx → Ccx) : (d.updCcx f).groupGen = d.groupGen := rfl
@[simp] theorem Dev.updCcx_tgtSel (d : Dev) (f : Ccx → Ccx) : (d.updCcx f).tgtSel = d.tgtSel := rfl
@[simp] theorem Dev.updCcx_targets (d : Dev) (f : Ccx → Ccx) : (d.updCcx f).targets = d.targets := rfl
@[simp] theorem Dev.updCcx_ports (d : Dev) (f : Ccx → Ccx) : (d.updCcx f).ports = d.ports := rfl
@[simp] theorem Dev.updCcx_engines (d : Dev) (f : Ccx → Ccx) : (d.updCcx f).engines = d.engines := rfl
@[simp] theorem Dev.updCcx_ras (d : Dev) (f : Ccx → Ccx) : (d.updCcx f).ras = d.ras := rfl
@[simp] theorem Dev.updCcx_pwr (d : Dev) (f : Ccx → Ccx) : (d.updCcx f).pwr = d.pwr := rfl
@[simp] theorem Dev.updCcx_mtr (d : Dev) (f : Ccx → Ccx) : (d.updCcx f).mtr = d.mtr := rfl

/-! ### `Dev.reply` changes `out` alone -/

@[simp] theorem Dev.reply_free (d : Dev) (r : Reply) : (d.reply r).free = d.free := rfl
@[simp] theorem Dev.reply_images (d : Dev) (r : Reply) : (d.reply r).images = d.images := rfl
@[simp] theorem Dev.reply_hostMem (d : Dev) (r : Reply) : (d.reply r).hostMem = d.hostMem := rfl
@[simp] theorem Dev.reply_hif (d : Dev) (r : Reply) : (d.reply r).hif = d.hif := rfl
@[simp] theorem Dev.reply_plainMap (d : Dev) (r : Reply) : (d.reply r).plainMap = d.plainMap := rfl
@[simp] theorem Dev.reply_barMap (d : Dev) (r : Reply) : (d.reply r).barMap = d.barMap := rfl
@[simp] theorem Dev.reply_daleMap (d : Dev) (r : Reply) : (d.reply r).daleMap = d.daleMap := rfl
@[simp] theorem Dev.reply_basinMap (d : Dev) (r : Reply) : (d.reply r).basinMap = d.basinMap := rfl
@[simp] theorem Dev.reply_daleLast (d : Dev) (r : Reply) : (d.reply r).daleLast = d.daleLast := rfl
@[simp] theorem Dev.reply_basinLast (d : Dev) (r : Reply) : (d.reply r).basinLast = d.basinLast := rfl
@[simp] theorem Dev.reply_acctLo (d : Dev) (r : Reply) : (d.reply r).acctLo = d.acctLo := rfl
@[simp] theorem Dev.reply_acctHi (d : Dev) (r : Reply) : (d.reply r).acctHi = d.acctHi := rfl
@[simp] theorem Dev.reply_acctBusy (d : Dev) (r : Reply) : (d.reply r).acctBusy = d.acctBusy := rfl
@[simp] theorem Dev.reply_parts (d : Dev) (r : Reply) : (d.reply r).parts = d.parts := rfl
@[simp] theorem Dev.reply_plains (d : Dev) (r : Reply) : (d.reply r).plains = d.plains := rfl
@[simp] theorem Dev.reply_waits (d : Dev) (r : Reply) : (d.reply r).waits = d.waits := rfl
@[simp] theorem Dev.reply_bars (d : Dev) (r : Reply) : (d.reply r).bars = d.bars := rfl
@[simp] theorem Dev.reply_mem (d : Dev) (r : Reply) : (d.reply r).mem = d.mem := rfl
@[simp] theorem Dev.reply_ecc (d : Dev) (r : Reply) : (d.reply r).ecc = d.ecc := rfl
@[simp] theorem Dev.reply_warnC (d : Dev) (r : Reply) : (d.reply r).warnC = d.warnC := rfl
@[simp] theorem Dev.reply_trip (d : Dev) (r : Reply) : (d.reply r).trip = d.trip := rfl
@[simp] theorem Dev.reply_daleStacks (d : Dev) (r : Reply) : (d.reply r).daleStacks = d.daleStacks := rfl
@[simp] theorem Dev.reply_channels (d : Dev) (r : Reply) : (d.reply r).channels = d.channels := rfl
@[simp] theorem Dev.reply_glens (d : Dev) (r : Reply) : (d.reply r).glens = d.glens := rfl
@[simp] theorem Dev.reply_cols (d : Dev) (r : Reply) : (d.reply r).cols = d.cols := rfl
@[simp] theorem Dev.reply_axes (d : Dev) (r : Reply) : (d.reply r).axes = d.axes := rfl
@[simp] theorem Dev.reply_early (d : Dev) (r : Reply) : (d.reply r).early = d.early := rfl
@[simp] theorem Dev.reply_pendFull (d : Dev) (r : Reply) : (d.reply r).pendFull = d.pendFull := rfl
@[simp] theorem Dev.reply_groups (d : Dev) (r : Reply) : (d.reply r).groups = d.groups := rfl
@[simp] theorem Dev.reply_groupGen (d : Dev) (r : Reply) : (d.reply r).groupGen = d.groupGen := rfl
@[simp] theorem Dev.reply_tgtSel (d : Dev) (r : Reply) : (d.reply r).tgtSel = d.tgtSel := rfl
@[simp] theorem Dev.reply_targets (d : Dev) (r : Reply) : (d.reply r).targets = d.targets := rfl
@[simp] theorem Dev.reply_ports (d : Dev) (r : Reply) : (d.reply r).ports = d.ports := rfl
@[simp] theorem Dev.reply_engines (d : Dev) (r : Reply) : (d.reply r).engines = d.engines := rfl
@[simp] theorem Dev.reply_ras (d : Dev) (r : Reply) : (d.reply r).ras = d.ras := rfl
@[simp] theorem Dev.reply_ccx (d : Dev) (r : Reply) : (d.reply r).ccx = d.ccx := rfl
@[simp] theorem Dev.reply_pwr (d : Dev) (r : Reply) : (d.reply r).pwr = d.pwr := rfl
@[simp] theorem Dev.reply_mtr (d : Dev) (r : Reply) : (d.reply r).mtr = d.mtr := rfl

/-! ### `Dev.sendNet` changes `out` alone -/

@[simp] theorem Dev.sendNet_free (d : Dev) (x : NetTx) : (d.sendNet x).free = d.free := rfl
@[simp] theorem Dev.sendNet_images (d : Dev) (x : NetTx) : (d.sendNet x).images = d.images := rfl
@[simp] theorem Dev.sendNet_hostMem (d : Dev) (x : NetTx) : (d.sendNet x).hostMem = d.hostMem := rfl
@[simp] theorem Dev.sendNet_hif (d : Dev) (x : NetTx) : (d.sendNet x).hif = d.hif := rfl
@[simp] theorem Dev.sendNet_plainMap (d : Dev) (x : NetTx) : (d.sendNet x).plainMap = d.plainMap := rfl
@[simp] theorem Dev.sendNet_barMap (d : Dev) (x : NetTx) : (d.sendNet x).barMap = d.barMap := rfl
@[simp] theorem Dev.sendNet_daleMap (d : Dev) (x : NetTx) : (d.sendNet x).daleMap = d.daleMap := rfl
@[simp] theorem Dev.sendNet_basinMap (d : Dev) (x : NetTx) : (d.sendNet x).basinMap = d.basinMap := rfl
@[simp] theorem Dev.sendNet_daleLast (d : Dev) (x : NetTx) : (d.sendNet x).daleLast = d.daleLast := rfl
@[simp] theorem Dev.sendNet_basinLast (d : Dev) (x : NetTx) : (d.sendNet x).basinLast = d.basinLast := rfl
@[simp] theorem Dev.sendNet_acctLo (d : Dev) (x : NetTx) : (d.sendNet x).acctLo = d.acctLo := rfl
@[simp] theorem Dev.sendNet_acctHi (d : Dev) (x : NetTx) : (d.sendNet x).acctHi = d.acctHi := rfl
@[simp] theorem Dev.sendNet_acctBusy (d : Dev) (x : NetTx) : (d.sendNet x).acctBusy = d.acctBusy := rfl
@[simp] theorem Dev.sendNet_parts (d : Dev) (x : NetTx) : (d.sendNet x).parts = d.parts := rfl
@[simp] theorem Dev.sendNet_plains (d : Dev) (x : NetTx) : (d.sendNet x).plains = d.plains := rfl
@[simp] theorem Dev.sendNet_waits (d : Dev) (x : NetTx) : (d.sendNet x).waits = d.waits := rfl
@[simp] theorem Dev.sendNet_bars (d : Dev) (x : NetTx) : (d.sendNet x).bars = d.bars := rfl
@[simp] theorem Dev.sendNet_mem (d : Dev) (x : NetTx) : (d.sendNet x).mem = d.mem := rfl
@[simp] theorem Dev.sendNet_ecc (d : Dev) (x : NetTx) : (d.sendNet x).ecc = d.ecc := rfl
@[simp] theorem Dev.sendNet_warnC (d : Dev) (x : NetTx) : (d.sendNet x).warnC = d.warnC := rfl
@[simp] theorem Dev.sendNet_trip (d : Dev) (x : NetTx) : (d.sendNet x).trip = d.trip := rfl
@[simp] theorem Dev.sendNet_daleStacks (d : Dev) (x : NetTx) : (d.sendNet x).daleStacks = d.daleStacks := rfl
@[simp] theorem Dev.sendNet_channels (d : Dev) (x : NetTx) : (d.sendNet x).channels = d.channels := rfl
@[simp] theorem Dev.sendNet_glens (d : Dev) (x : NetTx) : (d.sendNet x).glens = d.glens := rfl
@[simp] theorem Dev.sendNet_cols (d : Dev) (x : NetTx) : (d.sendNet x).cols = d.cols := rfl
@[simp] theorem Dev.sendNet_axes (d : Dev) (x : NetTx) : (d.sendNet x).axes = d.axes := rfl
@[simp] theorem Dev.sendNet_early (d : Dev) (x : NetTx) : (d.sendNet x).early = d.early := rfl
@[simp] theorem Dev.sendNet_pendFull (d : Dev) (x : NetTx) : (d.sendNet x).pendFull = d.pendFull := rfl
@[simp] theorem Dev.sendNet_groups (d : Dev) (x : NetTx) : (d.sendNet x).groups = d.groups := rfl
@[simp] theorem Dev.sendNet_groupGen (d : Dev) (x : NetTx) : (d.sendNet x).groupGen = d.groupGen := rfl
@[simp] theorem Dev.sendNet_tgtSel (d : Dev) (x : NetTx) : (d.sendNet x).tgtSel = d.tgtSel := rfl
@[simp] theorem Dev.sendNet_targets (d : Dev) (x : NetTx) : (d.sendNet x).targets = d.targets := rfl
@[simp] theorem Dev.sendNet_ports (d : Dev) (x : NetTx) : (d.sendNet x).ports = d.ports := rfl
@[simp] theorem Dev.sendNet_engines (d : Dev) (x : NetTx) : (d.sendNet x).engines = d.engines := rfl
@[simp] theorem Dev.sendNet_ras (d : Dev) (x : NetTx) : (d.sendNet x).ras = d.ras := rfl
@[simp] theorem Dev.sendNet_ccx (d : Dev) (x : NetTx) : (d.sendNet x).ccx = d.ccx := rfl
@[simp] theorem Dev.sendNet_pwr (d : Dev) (x : NetTx) : (d.sendNet x).pwr = d.pwr := rfl
@[simp] theorem Dev.sendNet_mtr (d : Dev) (x : NetTx) : (d.sendNet x).mtr = d.mtr := rfl

/-! ### `Dev.irq` changes `out` alone -/

@[simp] theorem Dev.irq_free (d : Dev) (g : Fn) (v : BitVec 5) : (d.irq g v).free = d.free := rfl
@[simp] theorem Dev.irq_images (d : Dev) (g : Fn) (v : BitVec 5) : (d.irq g v).images = d.images := rfl
@[simp] theorem Dev.irq_hostMem (d : Dev) (g : Fn) (v : BitVec 5) : (d.irq g v).hostMem = d.hostMem := rfl
@[simp] theorem Dev.irq_hif (d : Dev) (g : Fn) (v : BitVec 5) : (d.irq g v).hif = d.hif := rfl
@[simp] theorem Dev.irq_plainMap (d : Dev) (g : Fn) (v : BitVec 5) : (d.irq g v).plainMap = d.plainMap := rfl
@[simp] theorem Dev.irq_barMap (d : Dev) (g : Fn) (v : BitVec 5) : (d.irq g v).barMap = d.barMap := rfl
@[simp] theorem Dev.irq_daleMap (d : Dev) (g : Fn) (v : BitVec 5) : (d.irq g v).daleMap = d.daleMap := rfl
@[simp] theorem Dev.irq_basinMap (d : Dev) (g : Fn) (v : BitVec 5) : (d.irq g v).basinMap = d.basinMap := rfl
@[simp] theorem Dev.irq_daleLast (d : Dev) (g : Fn) (v : BitVec 5) : (d.irq g v).daleLast = d.daleLast := rfl
@[simp] theorem Dev.irq_basinLast (d : Dev) (g : Fn) (v : BitVec 5) : (d.irq g v).basinLast = d.basinLast := rfl
@[simp] theorem Dev.irq_acctLo (d : Dev) (g : Fn) (v : BitVec 5) : (d.irq g v).acctLo = d.acctLo := rfl
@[simp] theorem Dev.irq_acctHi (d : Dev) (g : Fn) (v : BitVec 5) : (d.irq g v).acctHi = d.acctHi := rfl
@[simp] theorem Dev.irq_acctBusy (d : Dev) (g : Fn) (v : BitVec 5) : (d.irq g v).acctBusy = d.acctBusy := rfl
@[simp] theorem Dev.irq_parts (d : Dev) (g : Fn) (v : BitVec 5) : (d.irq g v).parts = d.parts := rfl
@[simp] theorem Dev.irq_plains (d : Dev) (g : Fn) (v : BitVec 5) : (d.irq g v).plains = d.plains := rfl
@[simp] theorem Dev.irq_waits (d : Dev) (g : Fn) (v : BitVec 5) : (d.irq g v).waits = d.waits := rfl
@[simp] theorem Dev.irq_bars (d : Dev) (g : Fn) (v : BitVec 5) : (d.irq g v).bars = d.bars := rfl
@[simp] theorem Dev.irq_mem (d : Dev) (g : Fn) (v : BitVec 5) : (d.irq g v).mem = d.mem := rfl
@[simp] theorem Dev.irq_ecc (d : Dev) (g : Fn) (v : BitVec 5) : (d.irq g v).ecc = d.ecc := rfl
@[simp] theorem Dev.irq_warnC (d : Dev) (g : Fn) (v : BitVec 5) : (d.irq g v).warnC = d.warnC := rfl
@[simp] theorem Dev.irq_trip (d : Dev) (g : Fn) (v : BitVec 5) : (d.irq g v).trip = d.trip := rfl
@[simp] theorem Dev.irq_daleStacks (d : Dev) (g : Fn) (v : BitVec 5) : (d.irq g v).daleStacks = d.daleStacks := rfl
@[simp] theorem Dev.irq_channels (d : Dev) (g : Fn) (v : BitVec 5) : (d.irq g v).channels = d.channels := rfl
@[simp] theorem Dev.irq_glens (d : Dev) (g : Fn) (v : BitVec 5) : (d.irq g v).glens = d.glens := rfl
@[simp] theorem Dev.irq_cols (d : Dev) (g : Fn) (v : BitVec 5) : (d.irq g v).cols = d.cols := rfl
@[simp] theorem Dev.irq_axes (d : Dev) (g : Fn) (v : BitVec 5) : (d.irq g v).axes = d.axes := rfl
@[simp] theorem Dev.irq_early (d : Dev) (g : Fn) (v : BitVec 5) : (d.irq g v).early = d.early := rfl
@[simp] theorem Dev.irq_pendFull (d : Dev) (g : Fn) (v : BitVec 5) : (d.irq g v).pendFull = d.pendFull := rfl
@[simp] theorem Dev.irq_groups (d : Dev) (g : Fn) (v : BitVec 5) : (d.irq g v).groups = d.groups := rfl
@[simp] theorem Dev.irq_groupGen (d : Dev) (g : Fn) (v : BitVec 5) : (d.irq g v).groupGen = d.groupGen := rfl
@[simp] theorem Dev.irq_tgtSel (d : Dev) (g : Fn) (v : BitVec 5) : (d.irq g v).tgtSel = d.tgtSel := rfl
@[simp] theorem Dev.irq_targets (d : Dev) (g : Fn) (v : BitVec 5) : (d.irq g v).targets = d.targets := rfl
@[simp] theorem Dev.irq_ports (d : Dev) (g : Fn) (v : BitVec 5) : (d.irq g v).ports = d.ports := rfl
@[simp] theorem Dev.irq_engines (d : Dev) (g : Fn) (v : BitVec 5) : (d.irq g v).engines = d.engines := rfl
@[simp] theorem Dev.irq_ras (d : Dev) (g : Fn) (v : BitVec 5) : (d.irq g v).ras = d.ras := rfl
@[simp] theorem Dev.irq_ccx (d : Dev) (g : Fn) (v : BitVec 5) : (d.irq g v).ccx = d.ccx := rfl
@[simp] theorem Dev.irq_pwr (d : Dev) (g : Fn) (v : BitVec 5) : (d.irq g v).pwr = d.pwr := rfl
@[simp] theorem Dev.irq_mtr (d : Dev) (g : Fn) (v : BitVec 5) : (d.irq g v).mtr = d.mtr := rfl

/-! ### `Dev.setEcc` changes `ecc` alone -/

@[simp] theorem Dev.setEcc_free (d : Dev) (a : Nat) (e : BitVec 72) : (d.setEcc a e).free = d.free := rfl
@[simp] theorem Dev.setEcc_images (d : Dev) (a : Nat) (e : BitVec 72) : (d.setEcc a e).images = d.images := rfl
@[simp] theorem Dev.setEcc_out (d : Dev) (a : Nat) (e : BitVec 72) : (d.setEcc a e).out = d.out := rfl
@[simp] theorem Dev.setEcc_hostMem (d : Dev) (a : Nat) (e : BitVec 72) : (d.setEcc a e).hostMem = d.hostMem := rfl
@[simp] theorem Dev.setEcc_hif (d : Dev) (a : Nat) (e : BitVec 72) : (d.setEcc a e).hif = d.hif := rfl
@[simp] theorem Dev.setEcc_plainMap (d : Dev) (a : Nat) (e : BitVec 72) : (d.setEcc a e).plainMap = d.plainMap := rfl
@[simp] theorem Dev.setEcc_barMap (d : Dev) (a : Nat) (e : BitVec 72) : (d.setEcc a e).barMap = d.barMap := rfl
@[simp] theorem Dev.setEcc_daleMap (d : Dev) (a : Nat) (e : BitVec 72) : (d.setEcc a e).daleMap = d.daleMap := rfl
@[simp] theorem Dev.setEcc_basinMap (d : Dev) (a : Nat) (e : BitVec 72) : (d.setEcc a e).basinMap = d.basinMap := rfl
@[simp] theorem Dev.setEcc_daleLast (d : Dev) (a : Nat) (e : BitVec 72) : (d.setEcc a e).daleLast = d.daleLast := rfl
@[simp] theorem Dev.setEcc_basinLast (d : Dev) (a : Nat) (e : BitVec 72) : (d.setEcc a e).basinLast = d.basinLast := rfl
@[simp] theorem Dev.setEcc_acctLo (d : Dev) (a : Nat) (e : BitVec 72) : (d.setEcc a e).acctLo = d.acctLo := rfl
@[simp] theorem Dev.setEcc_acctHi (d : Dev) (a : Nat) (e : BitVec 72) : (d.setEcc a e).acctHi = d.acctHi := rfl
@[simp] theorem Dev.setEcc_acctBusy (d : Dev) (a : Nat) (e : BitVec 72) : (d.setEcc a e).acctBusy = d.acctBusy := rfl
@[simp] theorem Dev.setEcc_parts (d : Dev) (a : Nat) (e : BitVec 72) : (d.setEcc a e).parts = d.parts := rfl
@[simp] theorem Dev.setEcc_plains (d : Dev) (a : Nat) (e : BitVec 72) : (d.setEcc a e).plains = d.plains := rfl
@[simp] theorem Dev.setEcc_waits (d : Dev) (a : Nat) (e : BitVec 72) : (d.setEcc a e).waits = d.waits := rfl
@[simp] theorem Dev.setEcc_bars (d : Dev) (a : Nat) (e : BitVec 72) : (d.setEcc a e).bars = d.bars := rfl
@[simp] theorem Dev.setEcc_mem (d : Dev) (a : Nat) (e : BitVec 72) : (d.setEcc a e).mem = d.mem := rfl
@[simp] theorem Dev.setEcc_warnC (d : Dev) (a : Nat) (e : BitVec 72) : (d.setEcc a e).warnC = d.warnC := rfl
@[simp] theorem Dev.setEcc_trip (d : Dev) (a : Nat) (e : BitVec 72) : (d.setEcc a e).trip = d.trip := rfl
@[simp] theorem Dev.setEcc_daleStacks (d : Dev) (a : Nat) (e : BitVec 72) : (d.setEcc a e).daleStacks = d.daleStacks := rfl
@[simp] theorem Dev.setEcc_channels (d : Dev) (a : Nat) (e : BitVec 72) : (d.setEcc a e).channels = d.channels := rfl
@[simp] theorem Dev.setEcc_glens (d : Dev) (a : Nat) (e : BitVec 72) : (d.setEcc a e).glens = d.glens := rfl
@[simp] theorem Dev.setEcc_cols (d : Dev) (a : Nat) (e : BitVec 72) : (d.setEcc a e).cols = d.cols := rfl
@[simp] theorem Dev.setEcc_axes (d : Dev) (a : Nat) (e : BitVec 72) : (d.setEcc a e).axes = d.axes := rfl
@[simp] theorem Dev.setEcc_early (d : Dev) (a : Nat) (e : BitVec 72) : (d.setEcc a e).early = d.early := rfl
@[simp] theorem Dev.setEcc_pendFull (d : Dev) (a : Nat) (e : BitVec 72) : (d.setEcc a e).pendFull = d.pendFull := rfl
@[simp] theorem Dev.setEcc_groups (d : Dev) (a : Nat) (e : BitVec 72) : (d.setEcc a e).groups = d.groups := rfl
@[simp] theorem Dev.setEcc_groupGen (d : Dev) (a : Nat) (e : BitVec 72) : (d.setEcc a e).groupGen = d.groupGen := rfl
@[simp] theorem Dev.setEcc_tgtSel (d : Dev) (a : Nat) (e : BitVec 72) : (d.setEcc a e).tgtSel = d.tgtSel := rfl
@[simp] theorem Dev.setEcc_targets (d : Dev) (a : Nat) (e : BitVec 72) : (d.setEcc a e).targets = d.targets := rfl
@[simp] theorem Dev.setEcc_ports (d : Dev) (a : Nat) (e : BitVec 72) : (d.setEcc a e).ports = d.ports := rfl
@[simp] theorem Dev.setEcc_engines (d : Dev) (a : Nat) (e : BitVec 72) : (d.setEcc a e).engines = d.engines := rfl
@[simp] theorem Dev.setEcc_ras (d : Dev) (a : Nat) (e : BitVec 72) : (d.setEcc a e).ras = d.ras := rfl
@[simp] theorem Dev.setEcc_ccx (d : Dev) (a : Nat) (e : BitVec 72) : (d.setEcc a e).ccx = d.ccx := rfl
@[simp] theorem Dev.setEcc_pwr (d : Dev) (a : Nat) (e : BitVec 72) : (d.setEcc a e).pwr = d.pwr := rfl
@[simp] theorem Dev.setEcc_mtr (d : Dev) (a : Nat) (e : BitVec 72) : (d.setEcc a e).mtr = d.mtr := rfl

/-! ### `Dev.acct` changes `parts` alone -/

@[simp] theorem Dev.acct_free (d : Dev) (p : Fin 64) (f : Acct → Acct) : (d.acct p f).free = d.free := rfl
@[simp] theorem Dev.acct_images (d : Dev) (p : Fin 64) (f : Acct → Acct) : (d.acct p f).images = d.images := rfl
@[simp] theorem Dev.acct_out (d : Dev) (p : Fin 64) (f : Acct → Acct) : (d.acct p f).out = d.out := rfl
@[simp] theorem Dev.acct_hostMem (d : Dev) (p : Fin 64) (f : Acct → Acct) : (d.acct p f).hostMem = d.hostMem := rfl
@[simp] theorem Dev.acct_hif (d : Dev) (p : Fin 64) (f : Acct → Acct) : (d.acct p f).hif = d.hif := rfl
@[simp] theorem Dev.acct_plainMap (d : Dev) (p : Fin 64) (f : Acct → Acct) : (d.acct p f).plainMap = d.plainMap := rfl
@[simp] theorem Dev.acct_barMap (d : Dev) (p : Fin 64) (f : Acct → Acct) : (d.acct p f).barMap = d.barMap := rfl
@[simp] theorem Dev.acct_daleMap (d : Dev) (p : Fin 64) (f : Acct → Acct) : (d.acct p f).daleMap = d.daleMap := rfl
@[simp] theorem Dev.acct_basinMap (d : Dev) (p : Fin 64) (f : Acct → Acct) : (d.acct p f).basinMap = d.basinMap := rfl
@[simp] theorem Dev.acct_daleLast (d : Dev) (p : Fin 64) (f : Acct → Acct) : (d.acct p f).daleLast = d.daleLast := rfl
@[simp] theorem Dev.acct_basinLast (d : Dev) (p : Fin 64) (f : Acct → Acct) : (d.acct p f).basinLast = d.basinLast := rfl
@[simp] theorem Dev.acct_acctLo (d : Dev) (p : Fin 64) (f : Acct → Acct) : (d.acct p f).acctLo = d.acctLo := rfl
@[simp] theorem Dev.acct_acctHi (d : Dev) (p : Fin 64) (f : Acct → Acct) : (d.acct p f).acctHi = d.acctHi := rfl
@[simp] theorem Dev.acct_acctBusy (d : Dev) (p : Fin 64) (f : Acct → Acct) : (d.acct p f).acctBusy = d.acctBusy := rfl
@[simp] theorem Dev.acct_plains (d : Dev) (p : Fin 64) (f : Acct → Acct) : (d.acct p f).plains = d.plains := rfl
@[simp] theorem Dev.acct_waits (d : Dev) (p : Fin 64) (f : Acct → Acct) : (d.acct p f).waits = d.waits := rfl
@[simp] theorem Dev.acct_bars (d : Dev) (p : Fin 64) (f : Acct → Acct) : (d.acct p f).bars = d.bars := rfl
@[simp] theorem Dev.acct_mem (d : Dev) (p : Fin 64) (f : Acct → Acct) : (d.acct p f).mem = d.mem := rfl
@[simp] theorem Dev.acct_ecc (d : Dev) (p : Fin 64) (f : Acct → Acct) : (d.acct p f).ecc = d.ecc := rfl
@[simp] theorem Dev.acct_warnC (d : Dev) (p : Fin 64) (f : Acct → Acct) : (d.acct p f).warnC = d.warnC := rfl
@[simp] theorem Dev.acct_trip (d : Dev) (p : Fin 64) (f : Acct → Acct) : (d.acct p f).trip = d.trip := rfl
@[simp] theorem Dev.acct_daleStacks (d : Dev) (p : Fin 64) (f : Acct → Acct) : (d.acct p f).daleStacks = d.daleStacks := rfl
@[simp] theorem Dev.acct_channels (d : Dev) (p : Fin 64) (f : Acct → Acct) : (d.acct p f).channels = d.channels := rfl
@[simp] theorem Dev.acct_glens (d : Dev) (p : Fin 64) (f : Acct → Acct) : (d.acct p f).glens = d.glens := rfl
@[simp] theorem Dev.acct_cols (d : Dev) (p : Fin 64) (f : Acct → Acct) : (d.acct p f).cols = d.cols := rfl
@[simp] theorem Dev.acct_axes (d : Dev) (p : Fin 64) (f : Acct → Acct) : (d.acct p f).axes = d.axes := rfl
@[simp] theorem Dev.acct_early (d : Dev) (p : Fin 64) (f : Acct → Acct) : (d.acct p f).early = d.early := rfl
@[simp] theorem Dev.acct_pendFull (d : Dev) (p : Fin 64) (f : Acct → Acct) : (d.acct p f).pendFull = d.pendFull := rfl
@[simp] theorem Dev.acct_groups (d : Dev) (p : Fin 64) (f : Acct → Acct) : (d.acct p f).groups = d.groups := rfl
@[simp] theorem Dev.acct_groupGen (d : Dev) (p : Fin 64) (f : Acct → Acct) : (d.acct p f).groupGen = d.groupGen := rfl
@[simp] theorem Dev.acct_tgtSel (d : Dev) (p : Fin 64) (f : Acct → Acct) : (d.acct p f).tgtSel = d.tgtSel := rfl
@[simp] theorem Dev.acct_targets (d : Dev) (p : Fin 64) (f : Acct → Acct) : (d.acct p f).targets = d.targets := rfl
@[simp] theorem Dev.acct_ports (d : Dev) (p : Fin 64) (f : Acct → Acct) : (d.acct p f).ports = d.ports := rfl
@[simp] theorem Dev.acct_engines (d : Dev) (p : Fin 64) (f : Acct → Acct) : (d.acct p f).engines = d.engines := rfl
@[simp] theorem Dev.acct_ras (d : Dev) (p : Fin 64) (f : Acct → Acct) : (d.acct p f).ras = d.ras := rfl
@[simp] theorem Dev.acct_ccx (d : Dev) (p : Fin 64) (f : Acct → Acct) : (d.acct p f).ccx = d.ccx := rfl
@[simp] theorem Dev.acct_pwr (d : Dev) (p : Fin 64) (f : Acct → Acct) : (d.acct p f).pwr = d.pwr := rfl
@[simp] theorem Dev.acct_mtr (d : Dev) (p : Fin 64) (f : Acct → Acct) : (d.acct p f).mtr = d.mtr := rfl

/-! ### `Dev.endWait` changes `waits` alone -/

@[simp] theorem Dev.endWait_free (d : Dev) (w : Waiter) : (d.endWait w).free = d.free := rfl
@[simp] theorem Dev.endWait_images (d : Dev) (w : Waiter) : (d.endWait w).images = d.images := rfl
@[simp] theorem Dev.endWait_out (d : Dev) (w : Waiter) : (d.endWait w).out = d.out := rfl
@[simp] theorem Dev.endWait_hostMem (d : Dev) (w : Waiter) : (d.endWait w).hostMem = d.hostMem := rfl
@[simp] theorem Dev.endWait_hif (d : Dev) (w : Waiter) : (d.endWait w).hif = d.hif := rfl
@[simp] theorem Dev.endWait_plainMap (d : Dev) (w : Waiter) : (d.endWait w).plainMap = d.plainMap := rfl
@[simp] theorem Dev.endWait_barMap (d : Dev) (w : Waiter) : (d.endWait w).barMap = d.barMap := rfl
@[simp] theorem Dev.endWait_daleMap (d : Dev) (w : Waiter) : (d.endWait w).daleMap = d.daleMap := rfl
@[simp] theorem Dev.endWait_basinMap (d : Dev) (w : Waiter) : (d.endWait w).basinMap = d.basinMap := rfl
@[simp] theorem Dev.endWait_daleLast (d : Dev) (w : Waiter) : (d.endWait w).daleLast = d.daleLast := rfl
@[simp] theorem Dev.endWait_basinLast (d : Dev) (w : Waiter) : (d.endWait w).basinLast = d.basinLast := rfl
@[simp] theorem Dev.endWait_acctLo (d : Dev) (w : Waiter) : (d.endWait w).acctLo = d.acctLo := rfl
@[simp] theorem Dev.endWait_acctHi (d : Dev) (w : Waiter) : (d.endWait w).acctHi = d.acctHi := rfl
@[simp] theorem Dev.endWait_acctBusy (d : Dev) (w : Waiter) : (d.endWait w).acctBusy = d.acctBusy := rfl
@[simp] theorem Dev.endWait_parts (d : Dev) (w : Waiter) : (d.endWait w).parts = d.parts := rfl
@[simp] theorem Dev.endWait_plains (d : Dev) (w : Waiter) : (d.endWait w).plains = d.plains := rfl
@[simp] theorem Dev.endWait_bars (d : Dev) (w : Waiter) : (d.endWait w).bars = d.bars := rfl
@[simp] theorem Dev.endWait_mem (d : Dev) (w : Waiter) : (d.endWait w).mem = d.mem := rfl
@[simp] theorem Dev.endWait_ecc (d : Dev) (w : Waiter) : (d.endWait w).ecc = d.ecc := rfl
@[simp] theorem Dev.endWait_warnC (d : Dev) (w : Waiter) : (d.endWait w).warnC = d.warnC := rfl
@[simp] theorem Dev.endWait_trip (d : Dev) (w : Waiter) : (d.endWait w).trip = d.trip := rfl
@[simp] theorem Dev.endWait_daleStacks (d : Dev) (w : Waiter) : (d.endWait w).daleStacks = d.daleStacks := rfl
@[simp] theorem Dev.endWait_channels (d : Dev) (w : Waiter) : (d.endWait w).channels = d.channels := rfl
@[simp] theorem Dev.endWait_glens (d : Dev) (w : Waiter) : (d.endWait w).glens = d.glens := rfl
@[simp] theorem Dev.endWait_cols (d : Dev) (w : Waiter) : (d.endWait w).cols = d.cols := rfl
@[simp] theorem Dev.endWait_axes (d : Dev) (w : Waiter) : (d.endWait w).axes = d.axes := rfl
@[simp] theorem Dev.endWait_early (d : Dev) (w : Waiter) : (d.endWait w).early = d.early := rfl
@[simp] theorem Dev.endWait_pendFull (d : Dev) (w : Waiter) : (d.endWait w).pendFull = d.pendFull := rfl
@[simp] theorem Dev.endWait_groups (d : Dev) (w : Waiter) : (d.endWait w).groups = d.groups := rfl
@[simp] theorem Dev.endWait_groupGen (d : Dev) (w : Waiter) : (d.endWait w).groupGen = d.groupGen := rfl
@[simp] theorem Dev.endWait_tgtSel (d : Dev) (w : Waiter) : (d.endWait w).tgtSel = d.tgtSel := rfl
@[simp] theorem Dev.endWait_targets (d : Dev) (w : Waiter) : (d.endWait w).targets = d.targets := rfl
@[simp] theorem Dev.endWait_ports (d : Dev) (w : Waiter) : (d.endWait w).ports = d.ports := rfl
@[simp] theorem Dev.endWait_engines (d : Dev) (w : Waiter) : (d.endWait w).engines = d.engines := rfl
@[simp] theorem Dev.endWait_ras (d : Dev) (w : Waiter) : (d.endWait w).ras = d.ras := rfl
@[simp] theorem Dev.endWait_ccx (d : Dev) (w : Waiter) : (d.endWait w).ccx = d.ccx := rfl
@[simp] theorem Dev.endWait_pwr (d : Dev) (w : Waiter) : (d.endWait w).pwr = d.pwr := rfl
@[simp] theorem Dev.endWait_mtr (d : Dev) (w : Waiter) : (d.endWait w).mtr = d.mtr := rfl

/-! ### What an update makes of its own field -/

@[simp] theorem Dev.updRas_ras (d : Dev) (f : Ras → Ras) : (d.updRas f).ras = f d.ras := rfl
@[simp] theorem Dev.updPwr_pwr (d : Dev) (f : Pwr → Pwr) : (d.updPwr f).pwr = f d.pwr := rfl
@[simp] theorem Dev.updHif_hif (d : Dev) (f : Hif → Hif) : (d.updHif f).hif = f d.hif := rfl
@[simp] theorem Dev.updMtr_mtr (d : Dev) (f : Mtr → Mtr) : (d.updMtr f).mtr = f d.mtr := rfl
@[simp] theorem Dev.updCcx_ccx (d : Dev) (f : Ccx → Ccx) : (d.updCcx f).ccx = f d.ccx := rfl
@[simp] theorem Dev.reply_out (d : Dev) (r : Reply) : (d.reply r).out = { d.out with replies := r :: d.out.replies } := rfl

@[simp] theorem Dev.updPart_part (d : Dev) (p : Fin 64) (f : Part → Part) : (d.updPart p f).part p = f (d.part p) := by
  simp [Dev.updPart, Dev.part, Tab.at_upd_same]
theorem Dev.updPart_part_other (d : Dev) (p j : Fin 64) (f : Part → Part) (h : p ≠ j) : (d.updPart p f).part j = d.part j := by
  simp [Dev.updPart, Dev.part, Tab.at_upd_other, h]
@[simp] theorem Dev.updPlain_plain (d : Dev) (i : Fin 64) (f : Plain → Plain) : (d.updPlain i f).plain i = f (d.plain i) := by
  simp [Dev.updPlain, Dev.plain, Tab.at_upd_same]
theorem Dev.updPlain_plain_other (d : Dev) (i j : Fin 64) (f : Plain → Plain) (h : i ≠ j) : (d.updPlain i f).plain j = d.plain j := by
  simp [Dev.updPlain, Dev.plain, Tab.at_upd_other, h]
@[simp] theorem Dev.updBar_at (d : Dev) (s : Fin 32) (f : Barrier → Barrier) : Tab.at (d.updBar s f).bars s = f (Tab.at d.bars s) := by
  simp [Dev.updBar, Tab.at_upd_same]
theorem Dev.updBar_at_other (d : Dev) (s k : Fin 32) (f : Barrier → Barrier) (h : s ≠ k) : Tab.at (d.updBar s f).bars k = Tab.at d.bars k := by
  simp [Dev.updBar, Tab.at_upd_other, h]
@[simp] theorem Dev.updCol_at (d : Dev) (c : Fin 16) (f : Col → Col) : Tab.at (d.updCol c f).cols c = f (Tab.at d.cols c) := by
  simp [Dev.updCol, Tab.at_upd_same]
theorem Dev.updCol_at_other (d : Dev) (c k : Fin 16) (f : Col → Col) (h : c ≠ k) : Tab.at (d.updCol c f).cols k = Tab.at d.cols k := by
  simp [Dev.updCol, Tab.at_upd_other, h]
@[simp] theorem Dev.updTarget_at (d : Dev) (t : Fin 256) (f : Target → Target) : Tab.at (d.updTarget t f).targets t = f (Tab.at d.targets t) := by
  simp [Dev.updTarget, Tab.at_upd_same]
theorem Dev.updTarget_at_other (d : Dev) (t k : Fin 256) (f : Target → Target) (h : t ≠ k) : Tab.at (d.updTarget t f).targets k = Tab.at d.targets k := by
  simp [Dev.updTarget, Tab.at_upd_other, h]
@[simp] theorem Dev.updPort_at (d : Dev) (n : Fin 2) (f : Port → Port) : Tab.at (d.updPort n f).ports n = f (Tab.at d.ports n) := by
  simp [Dev.updPort, Tab.at_upd_same]
theorem Dev.updPort_at_other (d : Dev) (n k : Fin 2) (f : Port → Port) (h : n ≠ k) : Tab.at (d.updPort n f).ports k = Tab.at d.ports k := by
  simp [Dev.updPort, Tab.at_upd_other, h]
@[simp] theorem Dev.updPart_plain (d : Dev) (p : Fin 64) (f : Part → Part) (k : Fin 64) : (d.updPart p f).plain k = d.plain k := rfl
@[simp] theorem Dev.updPlain_part (d : Dev) (i : Fin 64) (f : Plain → Plain) (k : Fin 64) : (d.updPlain i f).part k = d.part k := rfl
@[simp] theorem Dev.updThread_part (d : Dev) (i t : Fin 64) (f : Thread → Thread) (k : Fin 64) : (d.updThread i t f).part k = d.part k := rfl
@[simp] theorem Dev.updBar_part (d : Dev) (s : Fin 32) (f : Barrier → Barrier) (k : Fin 64) : (d.updBar s f).part k = d.part k := rfl
@[simp] theorem Dev.updBar_plain (d : Dev) (s : Fin 32) (f : Barrier → Barrier) (k : Fin 64) : (d.updBar s f).plain k = d.plain k := rfl
@[simp] theorem Dev.updCol_part (d : Dev) (c : Fin 16) (f : Col → Col) (k : Fin 64) : (d.updCol c f).part k = d.part k := rfl
@[simp] theorem Dev.updCol_plain (d : Dev) (c : Fin 16) (f : Col → Col) (k : Fin 64) : (d.updCol c f).plain k = d.plain k := rfl
@[simp] theorem Dev.updTarget_part (d : Dev) (t : Fin 256) (f : Target → Target) (k : Fin 64) : (d.updTarget t f).part k = d.part k := rfl
@[simp] theorem Dev.updTarget_plain (d : Dev) (t : Fin 256) (f : Target → Target) (k : Fin 64) : (d.updTarget t f).plain k = d.plain k := rfl
@[simp] theorem Dev.updPort_part (d : Dev) (n : Fin 2) (f : Port → Port) (k : Fin 64) : (d.updPort n f).part k = d.part k := rfl
@[simp] theorem Dev.updPort_plain (d : Dev) (n : Fin 2) (f : Port → Port) (k : Fin 64) : (d.updPort n f).plain k = d.plain k := rfl
@[simp] theorem Dev.updRas_part (d : Dev) (f : Ras → Ras) (k : Fin 64) : (d.updRas f).part k = d.part k := rfl
@[simp] theorem Dev.updRas_plain (d : Dev) (f : Ras → Ras) (k : Fin 64) : (d.updRas f).plain k = d.plain k := rfl
@[simp] theorem Dev.updPwr_part (d : Dev) (f : Pwr → Pwr) (k : Fin 64) : (d.updPwr f).part k = d.part k := rfl
@[simp] theorem Dev.updPwr_plain (d : Dev) (f : Pwr → Pwr) (k : Fin 64) : (d.updPwr f).plain k = d.plain k := rfl
@[simp] theorem Dev.updHif_part (d : Dev) (f : Hif → Hif) (k : Fin 64) : (d.updHif f).part k = d.part k := rfl
@[simp] theorem Dev.updHif_plain (d : Dev) (f : Hif → Hif) (k : Fin 64) : (d.updHif f).plain k = d.plain k := rfl
@[simp] theorem Dev.updMtr_part (d : Dev) (f : Mtr → Mtr) (k : Fin 64) : (d.updMtr f).part k = d.part k := rfl
@[simp] theorem Dev.updMtr_plain (d : Dev) (f : Mtr → Mtr) (k : Fin 64) : (d.updMtr f).plain k = d.plain k := rfl
@[simp] theorem Dev.updCcx_part (d : Dev) (f : Ccx → Ccx) (k : Fin 64) : (d.updCcx f).part k = d.part k := rfl
@[simp] theorem Dev.updCcx_plain (d : Dev) (f : Ccx → Ccx) (k : Fin 64) : (d.updCcx f).plain k = d.plain k := rfl
@[simp] theorem Dev.reply_part (d : Dev) (r : Reply) (k : Fin 64) : (d.reply r).part k = d.part k := rfl
@[simp] theorem Dev.reply_plain (d : Dev) (r : Reply) (k : Fin 64) : (d.reply r).plain k = d.plain k := rfl
@[simp] theorem Dev.sendNet_part (d : Dev) (x : NetTx) (k : Fin 64) : (d.sendNet x).part k = d.part k := rfl
@[simp] theorem Dev.sendNet_plain (d : Dev) (x : NetTx) (k : Fin 64) : (d.sendNet x).plain k = d.plain k := rfl
@[simp] theorem Dev.irq_part (d : Dev) (g : Fn) (v : BitVec 5) (k : Fin 64) : (d.irq g v).part k = d.part k := rfl
@[simp] theorem Dev.irq_plain (d : Dev) (g : Fn) (v : BitVec 5) (k : Fin 64) : (d.irq g v).plain k = d.plain k := rfl
@[simp] theorem Dev.setEcc_part (d : Dev) (a : Nat) (e : BitVec 72) (k : Fin 64) : (d.setEcc a e).part k = d.part k := rfl
@[simp] theorem Dev.setEcc_plain (d : Dev) (a : Nat) (e : BitVec 72) (k : Fin 64) : (d.setEcc a e).plain k = d.plain k := rfl
@[simp] theorem Dev.acct_plain (d : Dev) (p : Fin 64) (f : Acct → Acct) (k : Fin 64) : (d.acct p f).plain k = d.plain k := rfl
@[simp] theorem Dev.endWait_part (d : Dev) (w : Waiter) (k : Fin 64) : (d.endWait w).part k = d.part k := rfl
@[simp] theorem Dev.endWait_plain (d : Dev) (w : Waiter) (k : Fin 64) : (d.endWait w).plain k = d.plain k := rfl

/-! ### `Dev.updDom` changes `pwr.doms` alone, and `Dev.wantClock` with it -/

@[simp] theorem Dev.updDom_free (d : Dev) (k : Fin 100) (f : Dom → Dom) : (d.updDom k f).free = d.free := rfl
@[simp] theorem Dev.updDom_images (d : Dev) (k : Fin 100) (f : Dom → Dom) : (d.updDom k f).images = d.images := rfl
@[simp] theorem Dev.updDom_out (d : Dev) (k : Fin 100) (f : Dom → Dom) : (d.updDom k f).out = d.out := rfl
@[simp] theorem Dev.updDom_hostMem (d : Dev) (k : Fin 100) (f : Dom → Dom) : (d.updDom k f).hostMem = d.hostMem := rfl
@[simp] theorem Dev.updDom_hif (d : Dev) (k : Fin 100) (f : Dom → Dom) : (d.updDom k f).hif = d.hif := rfl
@[simp] theorem Dev.updDom_plainMap (d : Dev) (k : Fin 100) (f : Dom → Dom) : (d.updDom k f).plainMap = d.plainMap := rfl
@[simp] theorem Dev.updDom_barMap (d : Dev) (k : Fin 100) (f : Dom → Dom) : (d.updDom k f).barMap = d.barMap := rfl
@[simp] theorem Dev.updDom_daleMap (d : Dev) (k : Fin 100) (f : Dom → Dom) : (d.updDom k f).daleMap = d.daleMap := rfl
@[simp] theorem Dev.updDom_basinMap (d : Dev) (k : Fin 100) (f : Dom → Dom) : (d.updDom k f).basinMap = d.basinMap := rfl
@[simp] theorem Dev.updDom_daleLast (d : Dev) (k : Fin 100) (f : Dom → Dom) : (d.updDom k f).daleLast = d.daleLast := rfl
@[simp] theorem Dev.updDom_basinLast (d : Dev) (k : Fin 100) (f : Dom → Dom) : (d.updDom k f).basinLast = d.basinLast := rfl
@[simp] theorem Dev.updDom_acctLo (d : Dev) (k : Fin 100) (f : Dom → Dom) : (d.updDom k f).acctLo = d.acctLo := rfl
@[simp] theorem Dev.updDom_acctHi (d : Dev) (k : Fin 100) (f : Dom → Dom) : (d.updDom k f).acctHi = d.acctHi := rfl
@[simp] theorem Dev.updDom_acctBusy (d : Dev) (k : Fin 100) (f : Dom → Dom) : (d.updDom k f).acctBusy = d.acctBusy := rfl
@[simp] theorem Dev.updDom_parts (d : Dev) (k : Fin 100) (f : Dom → Dom) : (d.updDom k f).parts = d.parts := rfl
@[simp] theorem Dev.updDom_plains (d : Dev) (k : Fin 100) (f : Dom → Dom) : (d.updDom k f).plains = d.plains := rfl
@[simp] theorem Dev.updDom_waits (d : Dev) (k : Fin 100) (f : Dom → Dom) : (d.updDom k f).waits = d.waits := rfl
@[simp] theorem Dev.updDom_bars (d : Dev) (k : Fin 100) (f : Dom → Dom) : (d.updDom k f).bars = d.bars := rfl
@[simp] theorem Dev.updDom_mem (d : Dev) (k : Fin 100) (f : Dom → Dom) : (d.updDom k f).mem = d.mem := rfl
@[simp] theorem Dev.updDom_ecc (d : Dev) (k : Fin 100) (f : Dom → Dom) : (d.updDom k f).ecc = d.ecc := rfl
@[simp] theorem Dev.updDom_warnC (d : Dev) (k : Fin 100) (f : Dom → Dom) : (d.updDom k f).warnC = d.warnC := rfl
@[simp] theorem Dev.updDom_trip (d : Dev) (k : Fin 100) (f : Dom → Dom) : (d.updDom k f).trip = d.trip := rfl
@[simp] theorem Dev.updDom_daleStacks (d : Dev) (k : Fin 100) (f : Dom → Dom) : (d.updDom k f).daleStacks = d.daleStacks := rfl
@[simp] theorem Dev.updDom_channels (d : Dev) (k : Fin 100) (f : Dom → Dom) : (d.updDom k f).channels = d.channels := rfl
@[simp] theorem Dev.updDom_glens (d : Dev) (k : Fin 100) (f : Dom → Dom) : (d.updDom k f).glens = d.glens := rfl
@[simp] theorem Dev.updDom_cols (d : Dev) (k : Fin 100) (f : Dom → Dom) : (d.updDom k f).cols = d.cols := rfl
@[simp] theorem Dev.updDom_axes (d : Dev) (k : Fin 100) (f : Dom → Dom) : (d.updDom k f).axes = d.axes := rfl
@[simp] theorem Dev.updDom_early (d : Dev) (k : Fin 100) (f : Dom → Dom) : (d.updDom k f).early = d.early := rfl
@[simp] theorem Dev.updDom_pendFull (d : Dev) (k : Fin 100) (f : Dom → Dom) : (d.updDom k f).pendFull = d.pendFull := rfl
@[simp] theorem Dev.updDom_groups (d : Dev) (k : Fin 100) (f : Dom → Dom) : (d.updDom k f).groups = d.groups := rfl
@[simp] theorem Dev.updDom_groupGen (d : Dev) (k : Fin 100) (f : Dom → Dom) : (d.updDom k f).groupGen = d.groupGen := rfl
@[simp] theorem Dev.updDom_tgtSel (d : Dev) (k : Fin 100) (f : Dom → Dom) : (d.updDom k f).tgtSel = d.tgtSel := rfl
@[simp] theorem Dev.updDom_targets (d : Dev) (k : Fin 100) (f : Dom → Dom) : (d.updDom k f).targets = d.targets := rfl
@[simp] theorem Dev.updDom_ports (d : Dev) (k : Fin 100) (f : Dom → Dom) : (d.updDom k f).ports = d.ports := rfl
@[simp] theorem Dev.updDom_engines (d : Dev) (k : Fin 100) (f : Dom → Dom) : (d.updDom k f).engines = d.engines := rfl
@[simp] theorem Dev.updDom_ras (d : Dev) (k : Fin 100) (f : Dom → Dom) : (d.updDom k f).ras = d.ras := rfl
@[simp] theorem Dev.updDom_ccx (d : Dev) (k : Fin 100) (f : Dom → Dom) : (d.updDom k f).ccx = d.ccx := rfl
@[simp] theorem Dev.updDom_mtr (d : Dev) (k : Fin 100) (f : Dom → Dom) : (d.updDom k f).mtr = d.mtr := rfl
@[simp] theorem Dev.updDom_pwr_aon (d : Dev) (k : Fin 100) (f : Dom → Dom) : (d.updDom k f).pwr.aon = d.pwr.aon := rfl
@[simp] theorem Dev.updDom_pwr_pps (d : Dev) (k : Fin 100) (f : Dom → Dom) : (d.updDom k f).pwr.pps = d.pwr.pps := rfl
@[simp] theorem Dev.updDom_pwr_standby (d : Dev) (k : Fin 100) (f : Dom → Dom) : (d.updDom k f).pwr.standby = d.pwr.standby := rfl
@[simp] theorem Dev.updDom_pwr_main (d : Dev) (k : Fin 100) (f : Dom → Dom) : (d.updDom k f).pwr.main = d.pwr.main := rfl
@[simp] theorem Dev.updDom_pwr_perst (d : Dev) (k : Fin 100) (f : Dom → Dom) : (d.updDom k f).pwr.perst = d.pwr.perst := rfl
@[simp] theorem Dev.updDom_pwr_link (d : Dev) (k : Fin 100) (f : Dom → Dom) : (d.updDom k f).pwr.link = d.pwr.link := rfl
@[simp] theorem Dev.updDom_pwr_vin (d : Dev) (k : Fin 100) (f : Dom → Dom) : (d.updDom k f).pwr.vin = d.pwr.vin := rfl
@[simp] theorem Dev.updDom_pwr_v12 (d : Dev) (k : Fin 100) (f : Dom → Dom) : (d.updDom k f).pwr.v12 = d.pwr.v12 := rfl
@[simp] theorem Dev.updDom_pwr_watts (d : Dev) (k : Fin 100) (f : Dom → Dom) : (d.updDom k f).pwr.watts = d.pwr.watts := rfl
@[simp] theorem Dev.updDom_pwr_nvw (d : Dev) (k : Fin 100) (f : Dom → Dom) : (d.updDom k f).pwr.nvw = d.pwr.nvw := rfl
@[simp] theorem Dev.updDom_pwr_capSag (d : Dev) (k : Fin 100) (f : Dom → Dom) : (d.updDom k f).pwr.capSag = d.pwr.capSag := rfl
@[simp] theorem Dev.updDom_pwr_shut (d : Dev) (k : Fin 100) (f : Dom → Dom) : (d.updDom k f).pwr.shut = d.pwr.shut := rfl
@[simp] theorem Dev.updDom_pwr_capped (d : Dev) (k : Fin 100) (f : Dom → Dom) : (d.updDom k f).pwr.capped = d.pwr.capped := rfl
@[simp] theorem Dev.updDom_pwr_throttle (d : Dev) (k : Fin 100) (f : Dom → Dom) : (d.updDom k f).pwr.throttle = d.pwr.throttle := rfl
@[simp] theorem Dev.updDom_pwr_leak (d : Dev) (k : Fin 100) (f : Dom → Dom) : (d.updDom k f).pwr.leak = d.pwr.leak := rfl
@[simp] theorem Dev.updDom_pwr_boot (d : Dev) (k : Fin 100) (f : Dom → Dom) : (d.updDom k f).pwr.boot = d.pwr.boot := rfl
@[simp] theorem Dev.updDom_pwr_rstPend (d : Dev) (k : Fin 100) (f : Dom → Dom) : (d.updDom k f).pwr.rstPend = d.pwr.rstPend := rfl
@[simp] theorem Dev.updDom_pwr_strap (d : Dev) (k : Fin 100) (f : Dom → Dom) : (d.updDom k f).pwr.strap = d.pwr.strap := rfl
@[simp] theorem Dev.updDom_pwr_heatMhz (d : Dev) (k : Fin 100) (f : Dom → Dom) : (d.updDom k f).pwr.heatMhz = d.pwr.heatMhz := rfl
@[simp] theorem Dev.updDom_pwr_powerMhz (d : Dev) (k : Fin 100) (f : Dom → Dom) : (d.updDom k f).pwr.powerMhz = d.pwr.powerMhz := rfl
@[simp] theorem Dev.updDom_pwr_powerDown (d : Dev) (k : Fin 100) (f : Dom → Dom) : (d.updDom k f).pwr.powerDown = d.pwr.powerDown := rfl
@[simp] theorem Dev.updDom_pwr_dieTemp (d : Dev) (k : Fin 100) (f : Dom → Dom) : (d.updDom k f).pwr.dieTemp = d.pwr.dieTemp := rfl
@[simp] theorem Dev.updDom_pwr_pinmux (d : Dev) (k : Fin 100) (f : Dom → Dom) : (d.updDom k f).pwr.pinmux = d.pwr.pinmux := rfl
@[simp] theorem Dev.updDom_pwr_gpioOut (d : Dev) (k : Fin 100) (f : Dom → Dom) : (d.updDom k f).pwr.gpioOut = d.pwr.gpioOut := rfl
@[simp] theorem Dev.updDom_pwr_gpioIn (d : Dev) (k : Fin 100) (f : Dom → Dom) : (d.updDom k f).pwr.gpioIn = d.pwr.gpioIn := rfl
@[simp] theorem Dev.updDom_pwr_winOld (d : Dev) (k : Fin 100) (f : Dom → Dom) : (d.updDom k f).pwr.winOld = d.pwr.winOld := rfl
@[simp] theorem Dev.updDom_pwr_winBusy (d : Dev) (k : Fin 100) (f : Dom → Dom) : (d.updDom k f).pwr.winBusy = d.pwr.winBusy := rfl
@[simp] theorem Dev.updDom_pwr_pulses (d : Dev) (k : Fin 100) (f : Dom → Dom) : (d.updDom k f).pwr.pulses = d.pwr.pulses := rfl
@[simp] theorem Dev.updDom_pwr_flow (d : Dev) (k : Fin 100) (f : Dom → Dom) : (d.updDom k f).pwr.flow = d.pwr.flow := rfl
@[simp] theorem Dev.updDom_pwr_alertN (d : Dev) (k : Fin 100) (f : Dom → Dom) : (d.updDom k f).pwr.alertN = d.pwr.alertN := rfl
@[simp] theorem Dev.updDom_pwr_jtag (d : Dev) (k : Fin 100) (f : Dom → Dom) : (d.updDom k f).pwr.jtag = d.pwr.jtag := rfl
@[simp] theorem Dev.updDom_part (d : Dev) (k : Fin 100) (f : Dom → Dom) (j : Fin 64) : (d.updDom k f).part j = d.part j := rfl
@[simp] theorem Dev.updDom_plain (d : Dev) (k : Fin 100) (f : Dom → Dom) (j : Fin 64) : (d.updDom k f).plain j = d.plain j := rfl
@[simp] theorem Dev.updDom_dom (d : Dev) (k : Fin 100) (f : Dom → Dom) : (d.updDom k f).dom k = f (d.dom k) := by
  simp [Dev.updDom, Dev.dom, Tab.at_upd_same]
theorem Dev.updDom_dom_other (d : Dev) (k j : Fin 100) (f : Dom → Dom) (h : k ≠ j) : (d.updDom k f).dom j = d.dom j := by
  simp [Dev.updDom, Dev.dom, Tab.at_upd_other, h]

/-- A wanted clock changes the domain's start, and nothing else (R406). -/
theorem Dev.wantClock_frame (d : Dev) (k : Nat) : ∃ t, d.wantClock k = { d with pwr := { d.pwr with doms := t } } := by
  unfold Dev.wantClock
  split
  · split <;> exact ⟨_, rfl⟩
  · exact ⟨_, rfl⟩

@[simp] theorem Dev.wantClock_free (d : Dev) (k : Nat) : (d.wantClock k).free = d.free := by
  obtain ⟨t, e⟩ := d.wantClock_frame k; rw [e]
@[simp] theorem Dev.wantClock_images (d : Dev) (k : Nat) : (d.wantClock k).images = d.images := by
  obtain ⟨t, e⟩ := d.wantClock_frame k; rw [e]
@[simp] theorem Dev.wantClock_out (d : Dev) (k : Nat) : (d.wantClock k).out = d.out := by
  obtain ⟨t, e⟩ := d.wantClock_frame k; rw [e]
@[simp] theorem Dev.wantClock_hostMem (d : Dev) (k : Nat) : (d.wantClock k).hostMem = d.hostMem := by
  obtain ⟨t, e⟩ := d.wantClock_frame k; rw [e]
@[simp] theorem Dev.wantClock_hif (d : Dev) (k : Nat) : (d.wantClock k).hif = d.hif := by
  obtain ⟨t, e⟩ := d.wantClock_frame k; rw [e]
@[simp] theorem Dev.wantClock_plainMap (d : Dev) (k : Nat) : (d.wantClock k).plainMap = d.plainMap := by
  obtain ⟨t, e⟩ := d.wantClock_frame k; rw [e]
@[simp] theorem Dev.wantClock_barMap (d : Dev) (k : Nat) : (d.wantClock k).barMap = d.barMap := by
  obtain ⟨t, e⟩ := d.wantClock_frame k; rw [e]
@[simp] theorem Dev.wantClock_daleMap (d : Dev) (k : Nat) : (d.wantClock k).daleMap = d.daleMap := by
  obtain ⟨t, e⟩ := d.wantClock_frame k; rw [e]
@[simp] theorem Dev.wantClock_basinMap (d : Dev) (k : Nat) : (d.wantClock k).basinMap = d.basinMap := by
  obtain ⟨t, e⟩ := d.wantClock_frame k; rw [e]
@[simp] theorem Dev.wantClock_daleLast (d : Dev) (k : Nat) : (d.wantClock k).daleLast = d.daleLast := by
  obtain ⟨t, e⟩ := d.wantClock_frame k; rw [e]
@[simp] theorem Dev.wantClock_basinLast (d : Dev) (k : Nat) : (d.wantClock k).basinLast = d.basinLast := by
  obtain ⟨t, e⟩ := d.wantClock_frame k; rw [e]
@[simp] theorem Dev.wantClock_acctLo (d : Dev) (k : Nat) : (d.wantClock k).acctLo = d.acctLo := by
  obtain ⟨t, e⟩ := d.wantClock_frame k; rw [e]
@[simp] theorem Dev.wantClock_acctHi (d : Dev) (k : Nat) : (d.wantClock k).acctHi = d.acctHi := by
  obtain ⟨t, e⟩ := d.wantClock_frame k; rw [e]
@[simp] theorem Dev.wantClock_acctBusy (d : Dev) (k : Nat) : (d.wantClock k).acctBusy = d.acctBusy := by
  obtain ⟨t, e⟩ := d.wantClock_frame k; rw [e]
@[simp] theorem Dev.wantClock_parts (d : Dev) (k : Nat) : (d.wantClock k).parts = d.parts := by
  obtain ⟨t, e⟩ := d.wantClock_frame k; rw [e]
@[simp] theorem Dev.wantClock_plains (d : Dev) (k : Nat) : (d.wantClock k).plains = d.plains := by
  obtain ⟨t, e⟩ := d.wantClock_frame k; rw [e]
@[simp] theorem Dev.wantClock_waits (d : Dev) (k : Nat) : (d.wantClock k).waits = d.waits := by
  obtain ⟨t, e⟩ := d.wantClock_frame k; rw [e]
@[simp] theorem Dev.wantClock_bars (d : Dev) (k : Nat) : (d.wantClock k).bars = d.bars := by
  obtain ⟨t, e⟩ := d.wantClock_frame k; rw [e]
@[simp] theorem Dev.wantClock_mem (d : Dev) (k : Nat) : (d.wantClock k).mem = d.mem := by
  obtain ⟨t, e⟩ := d.wantClock_frame k; rw [e]
@[simp] theorem Dev.wantClock_ecc (d : Dev) (k : Nat) : (d.wantClock k).ecc = d.ecc := by
  obtain ⟨t, e⟩ := d.wantClock_frame k; rw [e]
@[simp] theorem Dev.wantClock_warnC (d : Dev) (k : Nat) : (d.wantClock k).warnC = d.warnC := by
  obtain ⟨t, e⟩ := d.wantClock_frame k; rw [e]
@[simp] theorem Dev.wantClock_trip (d : Dev) (k : Nat) : (d.wantClock k).trip = d.trip := by
  obtain ⟨t, e⟩ := d.wantClock_frame k; rw [e]
@[simp] theorem Dev.wantClock_daleStacks (d : Dev) (k : Nat) : (d.wantClock k).daleStacks = d.daleStacks := by
  obtain ⟨t, e⟩ := d.wantClock_frame k; rw [e]
@[simp] theorem Dev.wantClock_channels (d : Dev) (k : Nat) : (d.wantClock k).channels = d.channels := by
  obtain ⟨t, e⟩ := d.wantClock_frame k; rw [e]
@[simp] theorem Dev.wantClock_glens (d : Dev) (k : Nat) : (d.wantClock k).glens = d.glens := by
  obtain ⟨t, e⟩ := d.wantClock_frame k; rw [e]
@[simp] theorem Dev.wantClock_cols (d : Dev) (k : Nat) : (d.wantClock k).cols = d.cols := by
  obtain ⟨t, e⟩ := d.wantClock_frame k; rw [e]
@[simp] theorem Dev.wantClock_axes (d : Dev) (k : Nat) : (d.wantClock k).axes = d.axes := by
  obtain ⟨t, e⟩ := d.wantClock_frame k; rw [e]
@[simp] theorem Dev.wantClock_early (d : Dev) (k : Nat) : (d.wantClock k).early = d.early := by
  obtain ⟨t, e⟩ := d.wantClock_frame k; rw [e]
@[simp] theorem Dev.wantClock_pendFull (d : Dev) (k : Nat) : (d.wantClock k).pendFull = d.pendFull := by
  obtain ⟨t, e⟩ := d.wantClock_frame k; rw [e]
@[simp] theorem Dev.wantClock_groups (d : Dev) (k : Nat) : (d.wantClock k).groups = d.groups := by
  obtain ⟨t, e⟩ := d.wantClock_frame k; rw [e]
@[simp] theorem Dev.wantClock_groupGen (d : Dev) (k : Nat) : (d.wantClock k).groupGen = d.groupGen := by
  obtain ⟨t, e⟩ := d.wantClock_frame k; rw [e]
@[simp] theorem Dev.wantClock_tgtSel (d : Dev) (k : Nat) : (d.wantClock k).tgtSel = d.tgtSel := by
  obtain ⟨t, e⟩ := d.wantClock_frame k; rw [e]
@[simp] theorem Dev.wantClock_targets (d : Dev) (k : Nat) : (d.wantClock k).targets = d.targets := by
  obtain ⟨t, e⟩ := d.wantClock_frame k; rw [e]
@[simp] theorem Dev.wantClock_ports (d : Dev) (k : Nat) : (d.wantClock k).ports = d.ports := by
  obtain ⟨t, e⟩ := d.wantClock_frame k; rw [e]
@[simp] theorem Dev.wantClock_engines (d : Dev) (k : Nat) : (d.wantClock k).engines = d.engines := by
  obtain ⟨t, e⟩ := d.wantClock_frame k; rw [e]
@[simp] theorem Dev.wantClock_ras (d : Dev) (k : Nat) : (d.wantClock k).ras = d.ras := by
  obtain ⟨t, e⟩ := d.wantClock_frame k; rw [e]
@[simp] theorem Dev.wantClock_ccx (d : Dev) (k : Nat) : (d.wantClock k).ccx = d.ccx := by
  obtain ⟨t, e⟩ := d.wantClock_frame k; rw [e]
@[simp] theorem Dev.wantClock_mtr (d : Dev) (k : Nat) : (d.wantClock k).mtr = d.mtr := by
  obtain ⟨t, e⟩ := d.wantClock_frame k; rw [e]
@[simp] theorem Dev.wantClock_pwr_aon (d : Dev) (k : Nat) : (d.wantClock k).pwr.aon = d.pwr.aon := by
  obtain ⟨t, e⟩ := d.wantClock_frame k; rw [e]
@[simp] theorem Dev.wantClock_pwr_pps (d : Dev) (k : Nat) : (d.wantClock k).pwr.pps = d.pwr.pps := by
  obtain ⟨t, e⟩ := d.wantClock_frame k; rw [e]
@[simp] theorem Dev.wantClock_pwr_standby (d : Dev) (k : Nat) : (d.wantClock k).pwr.standby = d.pwr.standby := by
  obtain ⟨t, e⟩ := d.wantClock_frame k; rw [e]
@[simp] theorem Dev.wantClock_pwr_main (d : Dev) (k : Nat) : (d.wantClock k).pwr.main = d.pwr.main := by
  obtain ⟨t, e⟩ := d.wantClock_frame k; rw [e]
@[simp] theorem Dev.wantClock_pwr_perst (d : Dev) (k : Nat) : (d.wantClock k).pwr.perst = d.pwr.perst := by
  obtain ⟨t, e⟩ := d.wantClock_frame k; rw [e]
@[simp] theorem Dev.wantClock_pwr_link (d : Dev) (k : Nat) : (d.wantClock k).pwr.link = d.pwr.link := by
  obtain ⟨t, e⟩ := d.wantClock_frame k; rw [e]
@[simp] theorem Dev.wantClock_pwr_vin (d : Dev) (k : Nat) : (d.wantClock k).pwr.vin = d.pwr.vin := by
  obtain ⟨t, e⟩ := d.wantClock_frame k; rw [e]
@[simp] theorem Dev.wantClock_pwr_v12 (d : Dev) (k : Nat) : (d.wantClock k).pwr.v12 = d.pwr.v12 := by
  obtain ⟨t, e⟩ := d.wantClock_frame k; rw [e]
@[simp] theorem Dev.wantClock_pwr_watts (d : Dev) (k : Nat) : (d.wantClock k).pwr.watts = d.pwr.watts := by
  obtain ⟨t, e⟩ := d.wantClock_frame k; rw [e]
@[simp] theorem Dev.wantClock_pwr_nvw (d : Dev) (k : Nat) : (d.wantClock k).pwr.nvw = d.pwr.nvw := by
  obtain ⟨t, e⟩ := d.wantClock_frame k; rw [e]
@[simp] theorem Dev.wantClock_pwr_capSag (d : Dev) (k : Nat) : (d.wantClock k).pwr.capSag = d.pwr.capSag := by
  obtain ⟨t, e⟩ := d.wantClock_frame k; rw [e]
@[simp] theorem Dev.wantClock_pwr_shut (d : Dev) (k : Nat) : (d.wantClock k).pwr.shut = d.pwr.shut := by
  obtain ⟨t, e⟩ := d.wantClock_frame k; rw [e]
@[simp] theorem Dev.wantClock_pwr_capped (d : Dev) (k : Nat) : (d.wantClock k).pwr.capped = d.pwr.capped := by
  obtain ⟨t, e⟩ := d.wantClock_frame k; rw [e]
@[simp] theorem Dev.wantClock_pwr_throttle (d : Dev) (k : Nat) : (d.wantClock k).pwr.throttle = d.pwr.throttle := by
  obtain ⟨t, e⟩ := d.wantClock_frame k; rw [e]
@[simp] theorem Dev.wantClock_pwr_leak (d : Dev) (k : Nat) : (d.wantClock k).pwr.leak = d.pwr.leak := by
  obtain ⟨t, e⟩ := d.wantClock_frame k; rw [e]
@[simp] theorem Dev.wantClock_pwr_boot (d : Dev) (k : Nat) : (d.wantClock k).pwr.boot = d.pwr.boot := by
  obtain ⟨t, e⟩ := d.wantClock_frame k; rw [e]
@[simp] theorem Dev.wantClock_pwr_rstPend (d : Dev) (k : Nat) : (d.wantClock k).pwr.rstPend = d.pwr.rstPend := by
  obtain ⟨t, e⟩ := d.wantClock_frame k; rw [e]
@[simp] theorem Dev.wantClock_pwr_strap (d : Dev) (k : Nat) : (d.wantClock k).pwr.strap = d.pwr.strap := by
  obtain ⟨t, e⟩ := d.wantClock_frame k; rw [e]
@[simp] theorem Dev.wantClock_pwr_heatMhz (d : Dev) (k : Nat) : (d.wantClock k).pwr.heatMhz = d.pwr.heatMhz := by
  obtain ⟨t, e⟩ := d.wantClock_frame k; rw [e]
@[simp] theorem Dev.wantClock_pwr_powerMhz (d : Dev) (k : Nat) : (d.wantClock k).pwr.powerMhz = d.pwr.powerMhz := by
  obtain ⟨t, e⟩ := d.wantClock_frame k; rw [e]
@[simp] theorem Dev.wantClock_pwr_powerDown (d : Dev) (k : Nat) : (d.wantClock k).pwr.powerDown = d.pwr.powerDown := by
  obtain ⟨t, e⟩ := d.wantClock_frame k; rw [e]
@[simp] theorem Dev.wantClock_pwr_dieTemp (d : Dev) (k : Nat) : (d.wantClock k).pwr.dieTemp = d.pwr.dieTemp := by
  obtain ⟨t, e⟩ := d.wantClock_frame k; rw [e]
@[simp] theorem Dev.wantClock_pwr_pinmux (d : Dev) (k : Nat) : (d.wantClock k).pwr.pinmux = d.pwr.pinmux := by
  obtain ⟨t, e⟩ := d.wantClock_frame k; rw [e]
@[simp] theorem Dev.wantClock_pwr_gpioOut (d : Dev) (k : Nat) : (d.wantClock k).pwr.gpioOut = d.pwr.gpioOut := by
  obtain ⟨t, e⟩ := d.wantClock_frame k; rw [e]
@[simp] theorem Dev.wantClock_pwr_gpioIn (d : Dev) (k : Nat) : (d.wantClock k).pwr.gpioIn = d.pwr.gpioIn := by
  obtain ⟨t, e⟩ := d.wantClock_frame k; rw [e]
@[simp] theorem Dev.wantClock_pwr_winOld (d : Dev) (k : Nat) : (d.wantClock k).pwr.winOld = d.pwr.winOld := by
  obtain ⟨t, e⟩ := d.wantClock_frame k; rw [e]
@[simp] theorem Dev.wantClock_pwr_winBusy (d : Dev) (k : Nat) : (d.wantClock k).pwr.winBusy = d.pwr.winBusy := by
  obtain ⟨t, e⟩ := d.wantClock_frame k; rw [e]
@[simp] theorem Dev.wantClock_pwr_pulses (d : Dev) (k : Nat) : (d.wantClock k).pwr.pulses = d.pwr.pulses := by
  obtain ⟨t, e⟩ := d.wantClock_frame k; rw [e]
@[simp] theorem Dev.wantClock_pwr_flow (d : Dev) (k : Nat) : (d.wantClock k).pwr.flow = d.pwr.flow := by
  obtain ⟨t, e⟩ := d.wantClock_frame k; rw [e]
@[simp] theorem Dev.wantClock_pwr_alertN (d : Dev) (k : Nat) : (d.wantClock k).pwr.alertN = d.pwr.alertN := by
  obtain ⟨t, e⟩ := d.wantClock_frame k; rw [e]
@[simp] theorem Dev.wantClock_pwr_jtag (d : Dev) (k : Nat) : (d.wantClock k).pwr.jtag = d.pwr.jtag := by
  obtain ⟨t, e⟩ := d.wantClock_frame k; rw [e]
@[simp] theorem Dev.wantClock_part (d : Dev) (k : Nat) (j : Fin 64) : (d.wantClock k).part j = d.part j := by simp [Dev.part]
@[simp] theorem Dev.wantClock_plain (d : Dev) (k : Nat) (j : Fin 64) : (d.wantClock k).plain j = d.plain j := by simp [Dev.plain]

end Sys2Proof.Machine
end

