-- ==== Sys2Proof/Laws/Ops.lean ====
section
/-! SUPPORT. The laws of the shared operations of Machine/Ops.lean: sparse storage (a read after a write, and that each
operation keeps the canonical form), and what the event log and the change journal can change. -/

namespace Sys2Proof.Machine

open Sys2Proof

/-! ### Sparse storage -/

theorem Sparse.get_set_same {α : Type} [DecidableEq α] (d : α) (m : Sparse α) (lo a : Nat) (v : α)
    (h : Sparse.wfFrom d lo m = true) : Sparse.get d (Sparse.set d m a v) a = v := by
  induction m generalizing lo with
  | nil => by_cases e : v = d <;> simp [Sparse.set, Sparse.get, e]
  | cons c r ih =>
    obtain ⟨b, w⟩ := c
    simp only [Sparse.wfFrom, Bool.and_eq_true, decide_eq_true_eq] at h
    by_cases h1 : a = b
    · subst h1
      by_cases e : v = d
      · simp only [Sparse.set, e, if_true]
        cases r with
        | nil => rfl
        | cons c' r' =>
          obtain ⟨b', w'⟩ := c'
          have h3 := h.2
          simp only [Sparse.wfFrom, Bool.and_eq_true, decide_eq_true_eq] at h3
          have h4 : a ≠ b' := by omega
          have h5 : a < b' := by omega
          simp [Sparse.get, h4, h5]
      · simp [Sparse.set, Sparse.get, e]
    · by_cases h2 : a < b
      · by_cases e : v = d <;> simp [Sparse.set, Sparse.get, h1, h2, e]
      · simp only [Sparse.set, h1, h2, if_false, Sparse.get]
        exact ih (b + 1) h.2

theorem Sparse.get_set_other {α : Type} [DecidableEq α] (d : α) (m : Sparse α) (lo a k : Nat) (v : α)
    (h : Sparse.wfFrom d lo m = true) (hk : k ≠ a) : Sparse.get d (Sparse.set d m a v) k = Sparse.get d m k := by
  induction m generalizing lo with
  | nil => by_cases e : v = d <;> simp [Sparse.set, Sparse.get, e, hk]
  | cons c r ih =>
    obtain ⟨b, w⟩ := c
    simp only [Sparse.wfFrom, Bool.and_eq_true, decide_eq_true_eq] at h
    by_cases h1 : a = b
    · subst h1
      by_cases e : v = d
      · simp only [Sparse.set, e, if_true, Sparse.get, hk, if_false]
        by_cases h3 : k < a
        · cases r with
          | nil => simp [Sparse.get]
          | cons c' r' =>
            obtain ⟨b', w'⟩ := c'
            have h4 := h.2
            simp only [Sparse.wfFrom, Bool.and_eq_true, decide_eq_true_eq] at h4
            have h5 : k ≠ b' := by omega
            have h6 : k < b' := by omega
            simp [Sparse.get, h3, h5, h6]
        · simp [h3]
      · simp [Sparse.set, Sparse.get, e, hk]
    · by_cases h2 : a < b
      · by_cases e : v = d
        · simp [Sparse.set, h1, h2, e]
        · simp only [Sparse.set, h1, h2, e, if_true, if_false, Sparse.get, hk]
          by_cases h3 : k < a
          · have h4 : k ≠ b := by omega
            have h5 : k < b := by omega
            simp [h3, h4, h5]
          · simp [h3]
      · simp only [Sparse.set, h1, h2, if_false, Sparse.get]
        by_cases h3 : k = b
        · simp [h3]
        · by_cases h4 : k < b
          · simp [h3, h4]
          · simp only [h3, h4, if_false]
            exact ih (b + 1) h.2

theorem Sparse.wfFrom_weaken {α : Type} [DecidableEq α] (d : α) (m : Sparse α) (lo lo' : Nat) (hl : lo' ≤ lo)
    (h : Sparse.wfFrom d lo m = true) : Sparse.wfFrom d lo' m = true := by
  cases m with
  | nil => rfl
  | cons c r =>
    simp only [Sparse.wfFrom, Bool.and_eq_true, decide_eq_true_eq] at h ⊢
    exact ⟨⟨by omega, h.1.2⟩, h.2⟩

theorem Sparse.set_wfFrom {α : Type} [DecidableEq α] (d : α) (m : Sparse α) (lo a : Nat) (v : α) (hl : lo ≤ a)
    (h : Sparse.wfFrom d lo m = true) : Sparse.wfFrom d lo (Sparse.set d m a v) = true := by
  induction m generalizing lo with
  | nil => by_cases e : v = d <;> simp [Sparse.set, Sparse.wfFrom, e, hl]
  | cons c r ih =>
    obtain ⟨b, w⟩ := c
    have h0 := h
    simp only [Sparse.wfFrom, Bool.and_eq_true, decide_eq_true_eq] at h
    by_cases h1 : a = b
    · subst h1
      by_cases e : v = d
      · simp only [Sparse.set, e, if_true]
        exact Sparse.wfFrom_weaken d r (a + 1) lo (by omega) h.2
      · simp [Sparse.set, Sparse.wfFrom, e, hl, h.2]
    · by_cases h2 : a < b
      · by_cases e : v = d
        · simpa [Sparse.set, h1, h2, e] using h0
        · have h3 : a + 1 ≤ b := by omega
          simp only [Sparse.set, h1, h2, e, if_true, if_false, Sparse.wfFrom, Bool.and_eq_true, decide_eq_true_eq]
          exact ⟨⟨hl, e⟩, ⟨h3, h.1.2⟩, h.2⟩
      · simp only [Sparse.set, h1, h2, if_false, Sparse.wfFrom, Bool.and_eq_true, decide_eq_true_eq]
        exact ⟨h.1, ih (b + 1) (by omega) h.2⟩

/-- A store keeps the canonical form. -/
theorem Sparse.set_wf {α : Type} [DecidableEq α] (d : α) (m : Sparse α) (a : Nat) (v : α) (h : Sparse.wf d m = true) :
    Sparse.wf d (Sparse.set d m a v) = true := Sparse.set_wfFrom d m 0 a v (Nat.zero_le a) h

theorem Sparse.filter_wfFrom {α : Type} [DecidableEq α] (d : α) (p : Nat × α → Bool) (m : Sparse α) (lo : Nat)
    (h : Sparse.wfFrom d lo m = true) : Sparse.wfFrom d lo (m.filter p) = true := by
  induction m generalizing lo with
  | nil => rfl
  | cons c r ih =>
    simp only [Sparse.wfFrom, Bool.and_eq_true, decide_eq_true_eq] at h
    have h3 := ih (c.1 + 1) h.2
    by_cases e : p c = true
    · simp only [List.filter_cons, e, if_true, Sparse.wfFrom, Bool.and_eq_true, decide_eq_true_eq]
      exact ⟨h.1, h3⟩
    · simp only [List.filter_cons, e]
      exact Sparse.wfFrom_weaken d _ (c.1 + 1) lo (by omega) h3

/-- Clearing a range keeps the canonical form. -/
theorem Sparse.clear_wf {α : Type} [DecidableEq α] (d : α) (m : Sparse α) (lo hi : Nat) (h : Sparse.wf d m = true) :
    Sparse.wf d (Sparse.clear m lo hi) = true := Sparse.filter_wfFrom d _ m 0 h

theorem Sparse.get_below {α : Type} [DecidableEq α] (d : α) (m : Sparse α) (lo a : Nat)
    (h : Sparse.wfFrom d lo m = true) (ha : a < lo) : Sparse.get d m a = d := by
  cases m with
  | nil => rfl
  | cons c r =>
    obtain ⟨b, w⟩ := c
    simp only [Sparse.wfFrom, Bool.and_eq_true, decide_eq_true_eq] at h
    have h4 : a ≠ b := by omega
    have h5 : a < b := by omega
    simp [Sparse.get, h4, h5]

theorem Sparse.get_filter_in {α : Type} [DecidableEq α] (d : α) (p : Nat → Bool) (m : Sparse α) (lo a : Nat)
    (h : Sparse.wfFrom d lo m = true) (ha : p a = false) : Sparse.get d (m.filter (fun c => p c.1)) a = d := by
  induction m generalizing lo with
  | nil => rfl
  | cons c r ih =>
    obtain ⟨b, w⟩ := c
    simp only [Sparse.wfFrom, Bool.and_eq_true, decide_eq_true_eq] at h
    have h3 := ih (b + 1) h.2
    by_cases e : p b = true
    · have h4 : a ≠ b := fun x => by rw [x, e] at ha; exact absurd ha (by decide)
      by_cases h5 : a < b
      · simp [e, Sparse.get, h4, h5]
      · simp [e, Sparse.get, h4, h5, h3]
    · simp [e, h3]

theorem Sparse.get_filter_out {α : Type} [DecidableEq α] (d : α) (p : Nat → Bool) (m : Sparse α) (lo a : Nat)
    (h : Sparse.wfFrom d lo m = true) (ha : p a = true) :
    Sparse.get d (m.filter (fun c => p c.1)) a = Sparse.get d m a := by
  induction m generalizing lo with
  | nil => rfl
  | cons c r ih =>
    obtain ⟨b, w⟩ := c
    simp only [Sparse.wfFrom, Bool.and_eq_true, decide_eq_true_eq] at h
    have h3 := ih (b + 1) h.2
    by_cases h4 : a = b
    · subst h4
      simp [ha, Sparse.get]
    · by_cases h5 : a < b
      · have h6 := Sparse.get_below d r (b + 1) a h.2 (by omega)
        by_cases e : p b = true
        · simp [e, Sparse.get, h4, h5]
        · simp [e, Sparse.get, h4, h5, h3, h6]
      · by_cases e : p b = true
        · simp [e, Sparse.get, h4, h5, h3]
        · simp [e, Sparse.get, h4, h5, h3]

/-- What a cleared range reads as. -/
theorem Sparse.get_clear_in {α : Type} [DecidableEq α] (d : α) (m : Sparse α) (lo hi a : Nat) (h : Sparse.wf d m = true)
    (h1 : lo ≤ a) (h2 : a < hi) : Sparse.get d (Sparse.clear m lo hi) a = d :=
  Sparse.get_filter_in d (fun k => decide (k < lo) || decide (hi ≤ k)) m 0 a h
    (by simp [show ¬ a < lo by omega, show ¬ hi ≤ a by omega])

/-- What an address outside a cleared range reads as. -/
theorem Sparse.get_clear_out {α : Type} [DecidableEq α] (d : α) (m : Sparse α) (lo hi a : Nat) (h : Sparse.wf d m = true)
    (h1 : a < lo ∨ hi ≤ a) : Sparse.get d (Sparse.clear m lo hi) a = Sparse.get d m a :=
  Sparse.get_filter_out d (fun k => decide (k < lo) || decide (hi ≤ k)) m 0 a h (by simpa using h1)

/-! ### Byte memory -/

theorem writeByte_wf (m : Memory) (a : Nat) (b : Byte) (h : m.wf = true) : (writeByte m a b).wf = true :=
  Sparse.set_wf 0 m a b h

/-- A store of bytes keeps the canonical form. -/
theorem writeBytes_wf (l : List Byte) : ∀ (m : Memory) (a : Nat), m.wf = true → (writeBytes m a l).wf = true := by
  induction l with
  | nil => intro m a h; exact h
  | cons b r ih => intro m a h; exact ih _ _ (writeByte_wf m a b h)

theorem writeWord_wf (m : Memory) (a : Nat) (w : Word) (h : m.wf = true) : (writeWord m a w).wf = true :=
  writeBytes_wf _ m a h

theorem writeWords_wf (m : Memory) (a : Nat) (ws : List Word) (h : m.wf = true) : (writeWords m a ws).wf = true :=
  writeBytes_wf _ m a h

/-- Every byte outside a store reads as before it. -/
theorem readByte_writeBytes_other (l : List Byte) : ∀ (m : Memory) (a k : Nat), m.wf = true →
    (k < a ∨ a + l.length ≤ k) → readByte (writeBytes m a l) k = readByte m k := by
  induction l with
  | nil => intro m a k _ _; rfl
  | cons b r ih =>
    intro m a k h hk
    have h1 : k ≠ a := by simp only [List.length_cons] at hk; omega
    simp only [writeBytes]
    rw [ih _ (a + 1) k (writeByte_wf m a b h) (by simp only [List.length_cons] at hk; omega)]
    exact Sparse.get_set_other 0 m 0 a k b h h1

/-- Every byte of a store reads as it was stored. -/
theorem readByte_writeBytes_in (l : List Byte) : ∀ (m : Memory) (a k : Nat), m.wf = true → (hk : k < l.length) →
    readByte (writeBytes m a l) (a + k) = l[k] := by
  induction l with
  | nil => intro m a k _ hk; exact absurd hk (by simp)
  | cons b r ih =>
    intro m a k h hk
    cases k with
    | zero =>
      simp only [writeBytes, Nat.add_zero, List.getElem_cons_zero]
      rw [readByte_writeBytes_other r _ (a + 1) a (writeByte_wf m a b h) (by omega)]
      exact Sparse.get_set_same 0 m 0 a b h
    | succ k =>
      simp only [writeBytes, List.getElem_cons_succ]
      have e := ih (writeByte m a b) (a + 1) k (writeByte_wf m a b h) (by simpa using hk)
      rw [show a + (k + 1) = a + 1 + k by omega]
      exact e

/-- A read of what was just stored gives it back. -/
theorem readBytes_writeBytes (m : Memory) (a : Nat) (l : List Byte) (h : m.wf = true) :
    readBytes (writeBytes m a l) a l.length = l := by
  apply List.ext_getElem
  · simp [readBytes]
  · intro k h1 h2
    simp only [readBytes, List.getElem_map, List.getElem_range]
    exact readByte_writeBytes_in l m a k h h2

/-! ### The event log -/

/-- An event changes RAS, and the level of SMB_ALERT_N, and nothing else (R379, R416). -/
theorem Dev.log_frame (d : Dev) (src : Nat) (part : Byte) (unit : Nat) (a0 a1 a2 : Word) (test : Bool) :
    ∃ (r : Ras) (n : Bool), d.log src part unit a0 a1 a2 test = { d with ras := r, pwr := { d.pwr with alertN := n } } := by
  simp only [Dev.log, Dev.updRas, Dev.updPwr]
  by_cases h2 : alerts src a0 = true <;> simp only [h2, if_true] <;> exact ⟨_, _, rfl⟩


@[simp] theorem Dev.log_free (d : Dev) (src : Nat) (part : Byte) (unit : Nat) (a0 a1 a2 : Word) (test : Bool) : (d.log src part unit a0 a1 a2 test).free = d.free := by
  obtain ⟨r, n, e⟩ := d.log_frame src part unit a0 a1 a2 test
  rw [e]
@[simp] theorem Dev.log_images (d : Dev) (src : Nat) (part : Byte) (unit : Nat) (a0 a1 a2 : Word) (test : Bool) : (d.log src part unit a0 a1 a2 test).images = d.images := by
  obtain ⟨r, n, e⟩ := d.log_frame src part unit a0 a1 a2 test
  rw [e]
@[simp] theorem Dev.log_out (d : Dev) (src : Nat) (part : Byte) (unit : Nat) (a0 a1 a2 : Word) (test : Bool) : (d.log src part unit a0 a1 a2 test).out = d.out := by
  obtain ⟨r, n, e⟩ := d.log_frame src part unit a0 a1 a2 test
  rw [e]
@[simp] theorem Dev.log_hostMem (d : Dev) (src : Nat) (part : Byte) (unit : Nat) (a0 a1 a2 : Word) (test : Bool) : (d.log src part unit a0 a1 a2 test).hostMem = d.hostMem := by
  obtain ⟨r, n, e⟩ := d.log_frame src part unit a0 a1 a2 test
  rw [e]
@[simp] theorem Dev.log_hif (d : Dev) (src : Nat) (part : Byte) (unit : Nat) (a0 a1 a2 : Word) (test : Bool) : (d.log src part unit a0 a1 a2 test).hif = d.hif := by
  obtain ⟨r, n, e⟩ := d.log_frame src part unit a0 a1 a2 test
  rw [e]
@[simp] theorem Dev.log_plainMap (d : Dev) (src : Nat) (part : Byte) (unit : Nat) (a0 a1 a2 : Word) (test : Bool) : (d.log src part unit a0 a1 a2 test).plainMap = d.plainMap := by
  obtain ⟨r, n, e⟩ := d.log_frame src part unit a0 a1 a2 test
  rw [e]
@[simp] theorem Dev.log_barMap (d : Dev) (src : Nat) (part : Byte) (unit : Nat) (a0 a1 a2 : Word) (test : Bool) : (d.log src part unit a0 a1 a2 test).barMap = d.barMap := by
  obtain ⟨r, n, e⟩ := d.log_frame src part unit a0 a1 a2 test
  rw [e]
@[simp] theorem Dev.log_daleMap (d : Dev) (src : Nat) (part : Byte) (unit : Nat) (a0 a1 a2 : Word) (test : Bool) : (d.log src part unit a0 a1 a2 test).daleMap = d.daleMap := by
  obtain ⟨r, n, e⟩ := d.log_frame src part unit a0 a1 a2 test
  rw [e]
@[simp] theorem Dev.log_basinMap (d : Dev) (src : Nat) (part : Byte) (unit : Nat) (a0 a1 a2 : Word) (test : Bool) : (d.log src part unit a0 a1 a2 test).basinMap = d.basinMap := by
  obtain ⟨r, n, e⟩ := d.log_frame src part unit a0 a1 a2 test
  rw [e]
@[simp] theorem Dev.log_daleLast (d : Dev) (src : Nat) (part : Byte) (unit : Nat) (a0 a1 a2 : Word) (test : Bool) : (d.log src part unit a0 a1 a2 test).daleLast = d.daleLast := by
  obtain ⟨r, n, e⟩ := d.log_frame src part unit a0 a1 a2 test
  rw [e]
@[simp] theorem Dev.log_basinLast (d : Dev) (src : Nat) (part : Byte) (unit : Nat) (a0 a1 a2 : Word) (test : Bool) : (d.log src part unit a0 a1 a2 test).basinLast = d.basinLast := by
  obtain ⟨r, n, e⟩ := d.log_frame src part unit a0 a1 a2 test
  rw [e]
@[simp] theorem Dev.log_acctLo (d : Dev) (src : Nat) (part : Byte) (unit : Nat) (a0 a1 a2 : Word) (test : Bool) : (d.log src part unit a0 a1 a2 test).acctLo = d.acctLo := by
  obtain ⟨r, n, e⟩ := d.log_frame src part unit a0 a1 a2 test
  rw [e]
@[simp] theorem Dev.log_acctHi (d : Dev) (src : Nat) (part : Byte) (unit : Nat) (a0 a1 a2 : Word) (test : Bool) : (d.log src part unit a0 a1 a2 test).acctHi = d.acctHi := by
  obtain ⟨r, n, e⟩ := d.log_frame src part unit a0 a1 a2 test
  rw [e]
@[simp] theorem Dev.log_acctBusy (d : Dev) (src : Nat) (part : Byte) (unit : Nat) (a0 a1 a2 : Word) (test : Bool) : (d.log src part unit a0 a1 a2 test).acctBusy = d.acctBusy := by
  obtain ⟨r, n, e⟩ := d.log_frame src part unit a0 a1 a2 test
  rw [e]
@[simp] theorem Dev.log_parts (d : Dev) (src : Nat) (part : Byte) (unit : Nat) (a0 a1 a2 : Word) (test : Bool) : (d.log src part unit a0 a1 a2 test).parts = d.parts := by
  obtain ⟨r, n, e⟩ := d.log_frame src part unit a0 a1 a2 test
  rw [e]
@[simp] theorem Dev.log_plains (d : Dev) (src : Nat) (part : Byte) (unit : Nat) (a0 a1 a2 : Word) (test : Bool) : (d.log src part unit a0 a1 a2 test).plains = d.plains := by
  obtain ⟨r, n, e⟩ := d.log_frame src part unit a0 a1 a2 test
  rw [e]
@[simp] theorem Dev.log_waits (d : Dev) (src : Nat) (part : Byte) (unit : Nat) (a0 a1 a2 : Word) (test : Bool) : (d.log src part unit a0 a1 a2 test).waits = d.waits := by
  obtain ⟨r, n, e⟩ := d.log_frame src part unit a0 a1 a2 test
  rw [e]
@[simp] theorem Dev.log_bars (d : Dev) (src : Nat) (part : Byte) (unit : Nat) (a0 a1 a2 : Word) (test : Bool) : (d.log src part unit a0 a1 a2 test).bars = d.bars := by
  obtain ⟨r, n, e⟩ := d.log_frame src part unit a0 a1 a2 test
  rw [e]
@[simp] theorem Dev.log_mem (d : Dev) (src : Nat) (part : Byte) (unit : Nat) (a0 a1 a2 : Word) (test : Bool) : (d.log src part unit a0 a1 a2 test).mem = d.mem := by
  obtain ⟨r, n, e⟩ := d.log_frame src part unit a0 a1 a2 test
  rw [e]
@[simp] theorem Dev.log_ecc (d : Dev) (src : Nat) (part : Byte) (unit : Nat) (a0 a1 a2 : Word) (test : Bool) : (d.log src part unit a0 a1 a2 test).ecc = d.ecc := by
  obtain ⟨r, n, e⟩ := d.log_frame src part unit a0 a1 a2 test
  rw [e]
@[simp] theorem Dev.log_warnC (d : Dev) (src : Nat) (part : Byte) (unit : Nat) (a0 a1 a2 : Word) (test : Bool) : (d.log src part unit a0 a1 a2 test).warnC = d.warnC := by
  obtain ⟨r, n, e⟩ := d.log_frame src part unit a0 a1 a2 test
  rw [e]
@[simp] theorem Dev.log_trip (d : Dev) (src : Nat) (part : Byte) (unit : Nat) (a0 a1 a2 : Word) (test : Bool) : (d.log src part unit a0 a1 a2 test).trip = d.trip := by
  obtain ⟨r, n, e⟩ := d.log_frame src part unit a0 a1 a2 test
  rw [e]
@[simp] theorem Dev.log_daleStacks (d : Dev) (src : Nat) (part : Byte) (unit : Nat) (a0 a1 a2 : Word) (test : Bool) : (d.log src part unit a0 a1 a2 test).daleStacks = d.daleStacks := by
  obtain ⟨r, n, e⟩ := d.log_frame src part unit a0 a1 a2 test
  rw [e]
@[simp] theorem Dev.log_channels (d : Dev) (src : Nat) (part : Byte) (unit : Nat) (a0 a1 a2 : Word) (test : Bool) : (d.log src part unit a0 a1 a2 test).channels = d.channels := by
  obtain ⟨r, n, e⟩ := d.log_frame src part unit a0 a1 a2 test
  rw [e]
@[simp] theorem Dev.log_glens (d : Dev) (src : Nat) (part : Byte) (unit : Nat) (a0 a1 a2 : Word) (test : Bool) : (d.log src part unit a0 a1 a2 test).glens = d.glens := by
  obtain ⟨r, n, e⟩ := d.log_frame src part unit a0 a1 a2 test
  rw [e]
@[simp] theorem Dev.log_cols (d : Dev) (src : Nat) (part : Byte) (unit : Nat) (a0 a1 a2 : Word) (test : Bool) : (d.log src part unit a0 a1 a2 test).cols = d.cols := by
  obtain ⟨r, n, e⟩ := d.log_frame src part unit a0 a1 a2 test
  rw [e]
@[simp] theorem Dev.log_axes (d : Dev) (src : Nat) (part : Byte) (unit : Nat) (a0 a1 a2 : Word) (test : Bool) : (d.log src part unit a0 a1 a2 test).axes = d.axes := by
  obtain ⟨r, n, e⟩ := d.log_frame src part unit a0 a1 a2 test
  rw [e]
@[simp] theorem Dev.log_early (d : Dev) (src : Nat) (part : Byte) (unit : Nat) (a0 a1 a2 : Word) (test : Bool) : (d.log src part unit a0 a1 a2 test).early = d.early := by
  obtain ⟨r, n, e⟩ := d.log_frame src part unit a0 a1 a2 test
  rw [e]
@[simp] theorem Dev.log_pendFull (d : Dev) (src : Nat) (part : Byte) (unit : Nat) (a0 a1 a2 : Word) (test : Bool) : (d.log src part unit a0 a1 a2 test).pendFull = d.pendFull := by
  obtain ⟨r, n, e⟩ := d.log_frame src part unit a0 a1 a2 test
  rw [e]
@[simp] theorem Dev.log_groups (d : Dev) (src : Nat) (part : Byte) (unit : Nat) (a0 a1 a2 : Word) (test : Bool) : (d.log src part unit a0 a1 a2 test).groups = d.groups := by
  obtain ⟨r, n, e⟩ := d.log_frame src part unit a0 a1 a2 test
  rw [e]
@[simp] theorem Dev.log_groupGen (d : Dev) (src : Nat) (part : Byte) (unit : Nat) (a0 a1 a2 : Word) (test : Bool) : (d.log src part unit a0 a1 a2 test).groupGen = d.groupGen := by
  obtain ⟨r, n, e⟩ := d.log_frame src part unit a0 a1 a2 test
  rw [e]
@[simp] theorem Dev.log_tgtSel (d : Dev) (src : Nat) (part : Byte) (unit : Nat) (a0 a1 a2 : Word) (test : Bool) : (d.log src part unit a0 a1 a2 test).tgtSel = d.tgtSel := by
  obtain ⟨r, n, e⟩ := d.log_frame src part unit a0 a1 a2 test
  rw [e]
@[simp] theorem Dev.log_targets (d : Dev) (src : Nat) (part : Byte) (unit : Nat) (a0 a1 a2 : Word) (test : Bool) : (d.log src part unit a0 a1 a2 test).targets = d.targets := by
  obtain ⟨r, n, e⟩ := d.log_frame src part unit a0 a1 a2 test
  rw [e]
@[simp] theorem Dev.log_ports (d : Dev) (src : Nat) (part : Byte) (unit : Nat) (a0 a1 a2 : Word) (test : Bool) : (d.log src part unit a0 a1 a2 test).ports = d.ports := by
  obtain ⟨r, n, e⟩ := d.log_frame src part unit a0 a1 a2 test
  rw [e]
@[simp] theorem Dev.log_engines (d : Dev) (src : Nat) (part : Byte) (unit : Nat) (a0 a1 a2 : Word) (test : Bool) : (d.log src part unit a0 a1 a2 test).engines = d.engines := by
  obtain ⟨r, n, e⟩ := d.log_frame src part unit a0 a1 a2 test
  rw [e]
@[simp] theorem Dev.log_ccx (d : Dev) (src : Nat) (part : Byte) (unit : Nat) (a0 a1 a2 : Word) (test : Bool) : (d.log src part unit a0 a1 a2 test).ccx = d.ccx := by
  obtain ⟨r, n, e⟩ := d.log_frame src part unit a0 a1 a2 test
  rw [e]
@[simp] theorem Dev.log_mtr (d : Dev) (src : Nat) (part : Byte) (unit : Nat) (a0 a1 a2 : Word) (test : Bool) : (d.log src part unit a0 a1 a2 test).mtr = d.mtr := by
  obtain ⟨r, n, e⟩ := d.log_frame src part unit a0 a1 a2 test
  rw [e]
@[simp] theorem Dev.log_part (d : Dev) (src : Nat) (part : Byte) (unit : Nat) (a0 a1 a2 : Word) (test : Bool) (k : Fin 64) : (d.log src part unit a0 a1 a2 test).part k = d.part k := by simp [Dev.part]
@[simp] theorem Dev.log_plain (d : Dev) (src : Nat) (part : Byte) (unit : Nat) (a0 a1 a2 : Word) (test : Bool) (k : Fin 64) : (d.log src part unit a0 a1 a2 test).plain k = d.plain k := by simp [Dev.plain]
@[simp] theorem Dev.log_pwr_aon (d : Dev) (src : Nat) (part : Byte) (unit : Nat) (a0 a1 a2 : Word) (test : Bool) : (d.log src part unit a0 a1 a2 test).pwr.aon = d.pwr.aon := by
  obtain ⟨r, n, e⟩ := d.log_frame src part unit a0 a1 a2 test
  rw [e]
@[simp] theorem Dev.log_pwr_pps (d : Dev) (src : Nat) (part : Byte) (unit : Nat) (a0 a1 a2 : Word) (test : Bool) : (d.log src part unit a0 a1 a2 test).pwr.pps = d.pwr.pps := by
  obtain ⟨r, n, e⟩ := d.log_frame src part unit a0 a1 a2 test
  rw [e]
@[simp] theorem Dev.log_pwr_standby (d : Dev) (src : Nat) (part : Byte) (unit : Nat) (a0 a1 a2 : Word) (test : Bool) : (d.log src part unit a0 a1 a2 test).pwr.standby = d.pwr.standby := by
  obtain ⟨r, n, e⟩ := d.log_frame src part unit a0 a1 a2 test
  rw [e]
@[simp] theorem Dev.log_pwr_main (d : Dev) (src : Nat) (part : Byte) (unit : Nat) (a0 a1 a2 : Word) (test : Bool) : (d.log src part unit a0 a1 a2 test).pwr.main = d.pwr.main := by
  obtain ⟨r, n, e⟩ := d.log_frame src part unit a0 a1 a2 test
  rw [e]
@[simp] theorem Dev.log_pwr_perst (d : Dev) (src : Nat) (part : Byte) (unit : Nat) (a0 a1 a2 : Word) (test : Bool) : (d.log src part unit a0 a1 a2 test).pwr.perst = d.pwr.perst := by
  obtain ⟨r, n, e⟩ := d.log_frame src part unit a0 a1 a2 test
  rw [e]
@[simp] theorem Dev.log_pwr_link (d : Dev) (src : Nat) (part : Byte) (unit : Nat) (a0 a1 a2 : Word) (test : Bool) : (d.log src part unit a0 a1 a2 test).pwr.link = d.pwr.link := by
  obtain ⟨r, n, e⟩ := d.log_frame src part unit a0 a1 a2 test
  rw [e]
@[simp] theorem Dev.log_pwr_vin (d : Dev) (src : Nat) (part : Byte) (unit : Nat) (a0 a1 a2 : Word) (test : Bool) : (d.log src part unit a0 a1 a2 test).pwr.vin = d.pwr.vin := by
  obtain ⟨r, n, e⟩ := d.log_frame src part unit a0 a1 a2 test
  rw [e]
@[simp] theorem Dev.log_pwr_v12 (d : Dev) (src : Nat) (part : Byte) (unit : Nat) (a0 a1 a2 : Word) (test : Bool) : (d.log src part unit a0 a1 a2 test).pwr.v12 = d.pwr.v12 := by
  obtain ⟨r, n, e⟩ := d.log_frame src part unit a0 a1 a2 test
  rw [e]
@[simp] theorem Dev.log_pwr_watts (d : Dev) (src : Nat) (part : Byte) (unit : Nat) (a0 a1 a2 : Word) (test : Bool) : (d.log src part unit a0 a1 a2 test).pwr.watts = d.pwr.watts := by
  obtain ⟨r, n, e⟩ := d.log_frame src part unit a0 a1 a2 test
  rw [e]
@[simp] theorem Dev.log_pwr_nvw (d : Dev) (src : Nat) (part : Byte) (unit : Nat) (a0 a1 a2 : Word) (test : Bool) : (d.log src part unit a0 a1 a2 test).pwr.nvw = d.pwr.nvw := by
  obtain ⟨r, n, e⟩ := d.log_frame src part unit a0 a1 a2 test
  rw [e]
@[simp] theorem Dev.log_pwr_capSag (d : Dev) (src : Nat) (part : Byte) (unit : Nat) (a0 a1 a2 : Word) (test : Bool) : (d.log src part unit a0 a1 a2 test).pwr.capSag = d.pwr.capSag := by
  obtain ⟨r, n, e⟩ := d.log_frame src part unit a0 a1 a2 test
  rw [e]
@[simp] theorem Dev.log_pwr_shut (d : Dev) (src : Nat) (part : Byte) (unit : Nat) (a0 a1 a2 : Word) (test : Bool) : (d.log src part unit a0 a1 a2 test).pwr.shut = d.pwr.shut := by
  obtain ⟨r, n, e⟩ := d.log_frame src part unit a0 a1 a2 test
  rw [e]
@[simp] theorem Dev.log_pwr_capped (d : Dev) (src : Nat) (part : Byte) (unit : Nat) (a0 a1 a2 : Word) (test : Bool) : (d.log src part unit a0 a1 a2 test).pwr.capped = d.pwr.capped := by
  obtain ⟨r, n, e⟩ := d.log_frame src part unit a0 a1 a2 test
  rw [e]
@[simp] theorem Dev.log_pwr_throttle (d : Dev) (src : Nat) (part : Byte) (unit : Nat) (a0 a1 a2 : Word) (test : Bool) : (d.log src part unit a0 a1 a2 test).pwr.throttle = d.pwr.throttle := by
  obtain ⟨r, n, e⟩ := d.log_frame src part unit a0 a1 a2 test
  rw [e]
@[simp] theorem Dev.log_pwr_leak (d : Dev) (src : Nat) (part : Byte) (unit : Nat) (a0 a1 a2 : Word) (test : Bool) : (d.log src part unit a0 a1 a2 test).pwr.leak = d.pwr.leak := by
  obtain ⟨r, n, e⟩ := d.log_frame src part unit a0 a1 a2 test
  rw [e]
@[simp] theorem Dev.log_pwr_boot (d : Dev) (src : Nat) (part : Byte) (unit : Nat) (a0 a1 a2 : Word) (test : Bool) : (d.log src part unit a0 a1 a2 test).pwr.boot = d.pwr.boot := by
  obtain ⟨r, n, e⟩ := d.log_frame src part unit a0 a1 a2 test
  rw [e]
@[simp] theorem Dev.log_pwr_rstPend (d : Dev) (src : Nat) (part : Byte) (unit : Nat) (a0 a1 a2 : Word) (test : Bool) : (d.log src part unit a0 a1 a2 test).pwr.rstPend = d.pwr.rstPend := by
  obtain ⟨r, n, e⟩ := d.log_frame src part unit a0 a1 a2 test
  rw [e]
@[simp] theorem Dev.log_pwr_strap (d : Dev) (src : Nat) (part : Byte) (unit : Nat) (a0 a1 a2 : Word) (test : Bool) : (d.log src part unit a0 a1 a2 test).pwr.strap = d.pwr.strap := by
  obtain ⟨r, n, e⟩ := d.log_frame src part unit a0 a1 a2 test
  rw [e]
@[simp] theorem Dev.log_pwr_doms (d : Dev) (src : Nat) (part : Byte) (unit : Nat) (a0 a1 a2 : Word) (test : Bool) : (d.log src part unit a0 a1 a2 test).pwr.doms = d.pwr.doms := by
  obtain ⟨r, n, e⟩ := d.log_frame src part unit a0 a1 a2 test
  rw [e]
@[simp] theorem Dev.log_pwr_heatMhz (d : Dev) (src : Nat) (part : Byte) (unit : Nat) (a0 a1 a2 : Word) (test : Bool) : (d.log src part unit a0 a1 a2 test).pwr.heatMhz = d.pwr.heatMhz := by
  obtain ⟨r, n, e⟩ := d.log_frame src part unit a0 a1 a2 test
  rw [e]
@[simp] theorem Dev.log_pwr_powerMhz (d : Dev) (src : Nat) (part : Byte) (unit : Nat) (a0 a1 a2 : Word) (test : Bool) : (d.log src part unit a0 a1 a2 test).pwr.powerMhz = d.pwr.powerMhz := by
  obtain ⟨r, n, e⟩ := d.log_frame src part unit a0 a1 a2 test
  rw [e]
@[simp] theorem Dev.log_pwr_powerDown (d : Dev) (src : Nat) (part : Byte) (unit : Nat) (a0 a1 a2 : Word) (test : Bool) : (d.log src part unit a0 a1 a2 test).pwr.powerDown = d.pwr.powerDown := by
  obtain ⟨r, n, e⟩ := d.log_frame src part unit a0 a1 a2 test
  rw [e]
@[simp] theorem Dev.log_pwr_dieTemp (d : Dev) (src : Nat) (part : Byte) (unit : Nat) (a0 a1 a2 : Word) (test : Bool) : (d.log src part unit a0 a1 a2 test).pwr.dieTemp = d.pwr.dieTemp := by
  obtain ⟨r, n, e⟩ := d.log_frame src part unit a0 a1 a2 test
  rw [e]
@[simp] theorem Dev.log_pwr_pinmux (d : Dev) (src : Nat) (part : Byte) (unit : Nat) (a0 a1 a2 : Word) (test : Bool) : (d.log src part unit a0 a1 a2 test).pwr.pinmux = d.pwr.pinmux := by
  obtain ⟨r, n, e⟩ := d.log_frame src part unit a0 a1 a2 test
  rw [e]
@[simp] theorem Dev.log_pwr_gpioOut (d : Dev) (src : Nat) (part : Byte) (unit : Nat) (a0 a1 a2 : Word) (test : Bool) : (d.log src part unit a0 a1 a2 test).pwr.gpioOut = d.pwr.gpioOut := by
  obtain ⟨r, n, e⟩ := d.log_frame src part unit a0 a1 a2 test
  rw [e]
@[simp] theorem Dev.log_pwr_gpioIn (d : Dev) (src : Nat) (part : Byte) (unit : Nat) (a0 a1 a2 : Word) (test : Bool) : (d.log src part unit a0 a1 a2 test).pwr.gpioIn = d.pwr.gpioIn := by
  obtain ⟨r, n, e⟩ := d.log_frame src part unit a0 a1 a2 test
  rw [e]
@[simp] theorem Dev.log_pwr_winOld (d : Dev) (src : Nat) (part : Byte) (unit : Nat) (a0 a1 a2 : Word) (test : Bool) : (d.log src part unit a0 a1 a2 test).pwr.winOld = d.pwr.winOld := by
  obtain ⟨r, n, e⟩ := d.log_frame src part unit a0 a1 a2 test
  rw [e]
@[simp] theorem Dev.log_pwr_winBusy (d : Dev) (src : Nat) (part : Byte) (unit : Nat) (a0 a1 a2 : Word) (test : Bool) : (d.log src part unit a0 a1 a2 test).pwr.winBusy = d.pwr.winBusy := by
  obtain ⟨r, n, e⟩ := d.log_frame src part unit a0 a1 a2 test
  rw [e]
@[simp] theorem Dev.log_pwr_pulses (d : Dev) (src : Nat) (part : Byte) (unit : Nat) (a0 a1 a2 : Word) (test : Bool) : (d.log src part unit a0 a1 a2 test).pwr.pulses = d.pwr.pulses := by
  obtain ⟨r, n, e⟩ := d.log_frame src part unit a0 a1 a2 test
  rw [e]
@[simp] theorem Dev.log_pwr_flow (d : Dev) (src : Nat) (part : Byte) (unit : Nat) (a0 a1 a2 : Word) (test : Bool) : (d.log src part unit a0 a1 a2 test).pwr.flow = d.pwr.flow := by
  obtain ⟨r, n, e⟩ := d.log_frame src part unit a0 a1 a2 test
  rw [e]
@[simp] theorem Dev.log_pwr_jtag (d : Dev) (src : Nat) (part : Byte) (unit : Nat) (a0 a1 a2 : Word) (test : Bool) : (d.log src part unit a0 a1 a2 test).pwr.jtag = d.pwr.jtag := by
  obtain ⟨r, n, e⟩ := d.log_frame src part unit a0 a1 a2 test
  rw [e]

/-! ### The change journal -/

theorem Dev.jrnPut_frame (d : Dev) (e : JEntry) : ∃ (m : Memory) (h : Hif), d.jrnPut e = { d with hostMem := m, hif := h } := by
  unfold Dev.jrnPut
  dsimp only
  split <;> exact ⟨_, _, rfl⟩

/-- Journalling changes the journal and the host's memory, and nothing else (R52 to R55). -/
theorem Dev.journal_frame (d : Dev) (w : Writer) (off : Nat) (x y : Word) (be : BitVec 4) (c i p : Bool) :
    ∃ (m : Memory) (h : Hif), d.journal w off x y be c i p = { d with hostMem := m, hif := h } := by
  unfold Dev.journal
  dsimp only
  split
  · obtain ⟨m, h, e⟩ := Dev.jrnPut_frame (d.updHif (fun h => { h with jSeq := h.jSeq + 1 })) _
    exact ⟨m, h, e⟩
  · exact ⟨_, _, rfl⟩

@[simp] theorem Dev.journal_free (d : Dev) (w : Writer) (off : Nat) (x y : Word) (be : BitVec 4) (c i p : Bool) : (d.journal w off x y be c i p).free = d.free := by
  obtain ⟨m, h, e⟩ := d.journal_frame w off x y be c i p
  rw [e]
@[simp] theorem Dev.journal_images (d : Dev) (w : Writer) (off : Nat) (x y : Word) (be : BitVec 4) (c i p : Bool) : (d.journal w off x y be c i p).images = d.images := by
  obtain ⟨m, h, e⟩ := d.journal_frame w off x y be c i p
  rw [e]
@[simp] theorem Dev.journal_out (d : Dev) (w : Writer) (off : Nat) (x y : Word) (be : BitVec 4) (c i p : Bool) : (d.journal w off x y be c i p).out = d.out := by
  obtain ⟨m, h, e⟩ := d.journal_frame w off x y be c i p
  rw [e]
@[simp] theorem Dev.journal_plainMap (d : Dev) (w : Writer) (off : Nat) (x y : Word) (be : BitVec 4) (c i p : Bool) : (d.journal w off x y be c i p).plainMap = d.plainMap := by
  obtain ⟨m, h, e⟩ := d.journal_frame w off x y be c i p
  rw [e]
@[simp] theorem Dev.journal_barMap (d : Dev) (w : Writer) (off : Nat) (x y : Word) (be : BitVec 4) (c i p : Bool) : (d.journal w off x y be c i p).barMap = d.barMap := by
  obtain ⟨m, h, e⟩ := d.journal_frame w off x y be c i p
  rw [e]
@[simp] theorem Dev.journal_daleMap (d : Dev) (w : Writer) (off : Nat) (x y : Word) (be : BitVec 4) (c i p : Bool) : (d.journal w off x y be c i p).daleMap = d.daleMap := by
  obtain ⟨m, h, e⟩ := d.journal_frame w off x y be c i p
  rw [e]
@[simp] theorem Dev.journal_basinMap (d : Dev) (w : Writer) (off : Nat) (x y : Word) (be : BitVec 4) (c i p : Bool) : (d.journal w off x y be c i p).basinMap = d.basinMap := by
  obtain ⟨m, h, e⟩ := d.journal_frame w off x y be c i p
  rw [e]
@[simp] theorem Dev.journal_daleLast (d : Dev) (w : Writer) (off : Nat) (x y : Word) (be : BitVec 4) (c i p : Bool) : (d.journal w off x y be c i p).daleLast = d.daleLast := by
  obtain ⟨m, h, e⟩ := d.journal_frame w off x y be c i p
  rw [e]
@[simp] theorem Dev.journal_basinLast (d : Dev) (w : Writer) (off : Nat) (x y : Word) (be : BitVec 4) (c i p : Bool) : (d.journal w off x y be c i p).basinLast = d.basinLast := by
  obtain ⟨m, h, e⟩ := d.journal_frame w off x y be c i p
  rw [e]
@[simp] theorem Dev.journal_acctLo (d : Dev) (w : Writer) (off : Nat) (x y : Word) (be : BitVec 4) (c i p : Bool) : (d.journal w off x y be c i p).acctLo = d.acctLo := by
  obtain ⟨m, h, e⟩ := d.journal_frame w off x y be c i p
  rw [e]
@[simp] theorem Dev.journal_acctHi (d : Dev) (w : Writer) (off : Nat) (x y : Word) (be : BitVec 4) (c i p : Bool) : (d.journal w off x y be c i p).acctHi = d.acctHi := by
  obtain ⟨m, h, e⟩ := d.journal_frame w off x y be c i p
  rw [e]
@[simp] theorem Dev.journal_acctBusy (d : Dev) (w : Writer) (off : Nat) (x y : Word) (be : BitVec 4) (c i p : Bool) : (d.journal w off x y be c i p).acctBusy = d.acctBusy := by
  obtain ⟨m, h, e⟩ := d.journal_frame w off x y be c i p
  rw [e]
@[simp] theorem Dev.journal_parts (d : Dev) (w : Writer) (off : Nat) (x y : Word) (be : BitVec 4) (c i p : Bool) : (d.journal w off x y be c i p).parts = d.parts := by
  obtain ⟨m, h, e⟩ := d.journal_frame w off x y be c i p
  rw [e]
@[simp] theorem Dev.journal_plains (d : Dev) (w : Writer) (off : Nat) (x y : Word) (be : BitVec 4) (c i p : Bool) : (d.journal w off x y be c i p).plains = d.plains := by
  obtain ⟨m, h, e⟩ := d.journal_frame w off x y be c i p
  rw [e]
@[simp] theorem Dev.journal_waits (d : Dev) (w : Writer) (off : Nat) (x y : Word) (be : BitVec 4) (c i p : Bool) : (d.journal w off x y be c i p).waits = d.waits := by
  obtain ⟨m, h, e⟩ := d.journal_frame w off x y be c i p
  rw [e]
@[simp] theorem Dev.journal_bars (d : Dev) (w : Writer) (off : Nat) (x y : Word) (be : BitVec 4) (c i p : Bool) : (d.journal w off x y be c i p).bars = d.bars := by
  obtain ⟨m, h, e⟩ := d.journal_frame w off x y be c i p
  rw [e]
@[simp] theorem Dev.journal_mem (d : Dev) (w : Writer) (off : Nat) (x y : Word) (be : BitVec 4) (c i p : Bool) : (d.journal w off x y be c i p).mem = d.mem := by
  obtain ⟨m, h, e⟩ := d.journal_frame w off x y be c i p
  rw [e]
@[simp] theorem Dev.journal_ecc (d : Dev) (w : Writer) (off : Nat) (x y : Word) (be : BitVec 4) (c i p : Bool) : (d.journal w off x y be c i p).ecc = d.ecc := by
  obtain ⟨m, h, e⟩ := d.journal_frame w off x y be c i p
  rw [e]
@[simp] theorem Dev.journal_warnC (d : Dev) (w : Writer) (off : Nat) (x y : Word) (be : BitVec 4) (c i p : Bool) : (d.journal w off x y be c i p).warnC = d.warnC := by
  obtain ⟨m, h, e⟩ := d.journal_frame w off x y be c i p
  rw [e]
@[simp] theorem Dev.journal_trip (d : Dev) (w : Writer) (off : Nat) (x y : Word) (be : BitVec 4) (c i p : Bool) : (d.journal w off x y be c i p).trip = d.trip := by
  obtain ⟨m, h, e⟩ := d.journal_frame w off x y be c i p
  rw [e]
@[simp] theorem Dev.journal_daleStacks (d : Dev) (w : Writer) (off : Nat) (x y : Word) (be : BitVec 4) (c i p : Bool) : (d.journal w off x y be c i p).daleStacks = d.daleStacks := by
  obtain ⟨m, h, e⟩ := d.journal_frame w off x y be c i p
  rw [e]
@[simp] theorem Dev.journal_channels (d : Dev) (w : Writer) (off : Nat) (x y : Word) (be : BitVec 4) (c i p : Bool) : (d.journal w off x y be c i p).channels = d.channels := by
  obtain ⟨m, h, e⟩ := d.journal_frame w off x y be c i p
  rw [e]
@[simp] theorem Dev.journal_glens (d : Dev) (w : Writer) (off : Nat) (x y : Word) (be : BitVec 4) (c i p : Bool) : (d.journal w off x y be c i p).glens = d.glens := by
  obtain ⟨m, h, e⟩ := d.journal_frame w off x y be c i p
  rw [e]
@[simp] theorem Dev.journal_cols (d : Dev) (w : Writer) (off : Nat) (x y : Word) (be : BitVec 4) (c i p : Bool) : (d.journal w off x y be c i p).cols = d.cols := by
  obtain ⟨m, h, e⟩ := d.journal_frame w off x y be c i p
  rw [e]
@[simp] theorem Dev.journal_axes (d : Dev) (w : Writer) (off : Nat) (x y : Word) (be : BitVec 4) (c i p : Bool) : (d.journal w off x y be c i p).axes = d.axes := by
  obtain ⟨m, h, e⟩ := d.journal_frame w off x y be c i p
  rw [e]
@[simp] theorem Dev.journal_early (d : Dev) (w : Writer) (off : Nat) (x y : Word) (be : BitVec 4) (c i p : Bool) : (d.journal w off x y be c i p).early = d.early := by
  obtain ⟨m, h, e⟩ := d.journal_frame w off x y be c i p
  rw [e]
@[simp] theorem Dev.journal_pendFull (d : Dev) (w : Writer) (off : Nat) (x y : Word) (be : BitVec 4) (c i p : Bool) : (d.journal w off x y be c i p).pendFull = d.pendFull := by
  obtain ⟨m, h, e⟩ := d.journal_frame w off x y be c i p
  rw [e]
@[simp] theorem Dev.journal_groups (d : Dev) (w : Writer) (off : Nat) (x y : Word) (be : BitVec 4) (c i p : Bool) : (d.journal w off x y be c i p).groups = d.groups := by
  obtain ⟨m, h, e⟩ := d.journal_frame w off x y be c i p
  rw [e]
@[simp] theorem Dev.journal_groupGen (d : Dev) (w : Writer) (off : Nat) (x y : Word) (be : BitVec 4) (c i p : Bool) : (d.journal w off x y be c i p).groupGen = d.groupGen := by
  obtain ⟨m, h, e⟩ := d.journal_frame w off x y be c i p
  rw [e]
@[simp] theorem Dev.journal_tgtSel (d : Dev) (w : Writer) (off : Nat) (x y : Word) (be : BitVec 4) (c i p : Bool) : (d.journal w off x y be c i p).tgtSel = d.tgtSel := by
  obtain ⟨m, h, e⟩ := d.journal_frame w off x y be c i p
  rw [e]
@[simp] theorem Dev.journal_targets (d : Dev) (w : Writer) (off : Nat) (x y : Word) (be : BitVec 4) (c i p : Bool) : (d.journal w off x y be c i p).targets = d.targets := by
  obtain ⟨m, h, e⟩ := d.journal_frame w off x y be c i p
  rw [e]
@[simp] theorem Dev.journal_ports (d : Dev) (w : Writer) (off : Nat) (x y : Word) (be : BitVec 4) (c i p : Bool) : (d.journal w off x y be c i p).ports = d.ports := by
  obtain ⟨m, h, e⟩ := d.journal_frame w off x y be c i p
  rw [e]
@[simp] theorem Dev.journal_engines (d : Dev) (w : Writer) (off : Nat) (x y : Word) (be : BitVec 4) (c i p : Bool) : (d.journal w off x y be c i p).engines = d.engines := by
  obtain ⟨m, h, e⟩ := d.journal_frame w off x y be c i p
  rw [e]
@[simp] theorem Dev.journal_ras (d : Dev) (w : Writer) (off : Nat) (x y : Word) (be : BitVec 4) (c i p : Bool) : (d.journal w off x y be c i p).ras = d.ras := by
  obtain ⟨m, h, e⟩ := d.journal_frame w off x y be c i p
  rw [e]
@[simp] theorem Dev.journal_ccx (d : Dev) (w : Writer) (off : Nat) (x y : Word) (be : BitVec 4) (c i p : Bool) : (d.journal w off x y be c i p).ccx = d.ccx := by
  obtain ⟨m, h, e⟩ := d.journal_frame w off x y be c i p
  rw [e]
@[simp] theorem Dev.journal_pwr (d : Dev) (w : Writer) (off : Nat) (x y : Word) (be : BitVec 4) (c i p : Bool) : (d.journal w off x y be c i p).pwr = d.pwr := by
  obtain ⟨m, h, e⟩ := d.journal_frame w off x y be c i p
  rw [e]
@[simp] theorem Dev.journal_mtr (d : Dev) (w : Writer) (off : Nat) (x y : Word) (be : BitVec 4) (c i p : Bool) : (d.journal w off x y be c i p).mtr = d.mtr := by
  obtain ⟨m, h, e⟩ := d.journal_frame w off x y be c i p
  rw [e]
@[simp] theorem Dev.journal_part (d : Dev) (w : Writer) (off : Nat) (x y : Word) (be : BitVec 4) (c i p : Bool) (k : Fin 64) : (d.journal w off x y be c i p).part k = d.part k := by simp [Dev.part]
@[simp] theorem Dev.journal_plain (d : Dev) (w : Writer) (off : Nat) (x y : Word) (be : BitVec 4) (c i p : Bool) (k : Fin 64) : (d.journal w off x y be c i p).plain k = d.plain k := by simp [Dev.plain]

theorem Dev.jrnPut_hif (d : Dev) (e : JEntry) :
    (d.jrnPut e).hif.rings = d.hif.rings ∧ (d.jrnPut e).hif.jCfg = d.hif.jCfg ∧ (d.jrnPut e).hif.staged = d.hif.staged ∧
    (d.jrnPut e).hif.shadow = d.hif.shadow ∧ (d.jrnPut e).hif.jSeq = d.hif.jSeq ∧
    (d.jrnPut e).hif.bar4Lo = d.hif.bar4Lo ∧ (d.jrnPut e).hif.bar4Hi = d.hif.bar4Hi := by
  unfold Dev.jrnPut
  dsimp only
  split <;> exact ⟨rfl, rfl, rfl, rfl, rfl, rfl, rfl⟩

theorem Hif.jStage_keeps (h : Hif) (e : JEntry) :
    (h.jStage e).rings = h.rings ∧ (h.jStage e).jCfg = h.jCfg ∧ (h.jStage e).staged = h.staged ∧
    (h.jStage e).shadow = h.shadow ∧ (h.jStage e).jSeq = h.jSeq ∧
    (h.jStage e).bar4Lo = h.bar4Lo ∧ (h.jStage e).bar4Hi = h.bar4Hi := by
  unfold Hif.jStage
  split <;> exact ⟨rfl, rfl, rfl, rfl, rfl, rfl, rfl⟩

/-- Journalling keeps the rings, the BAR4 window, the staged words and EN, and takes one sequence number. -/
theorem Dev.journal_hif (d : Dev) (w : Writer) (off : Nat) (x y : Word) (be : BitVec 4) (c i p : Bool) :
    (d.journal w off x y be c i p).hif.rings = d.hif.rings ∧ (d.journal w off x y be c i p).hif.jCfg = d.hif.jCfg ∧
    (d.journal w off x y be c i p).hif.staged = d.hif.staged ∧ (d.journal w off x y be c i p).hif.shadow = d.hif.shadow ∧
    (d.journal w off x y be c i p).hif.jSeq = d.hif.jSeq + 1 ∧
    (d.journal w off x y be c i p).hif.bar4Lo = d.hif.bar4Lo ∧ (d.journal w off x y be c i p).hif.bar4Hi = d.hif.bar4Hi := by
  unfold Dev.journal
  dsimp only
  split
  · exact Dev.jrnPut_hif _ _
  · exact Hif.jStage_keeps _ _

@[simp] theorem Dev.journal_rings (d : Dev) (w : Writer) (off : Nat) (x y : Word) (be : BitVec 4) (c i p : Bool) :
    (d.journal w off x y be c i p).hif.rings = d.hif.rings := (d.journal_hif w off x y be c i p).1
@[simp] theorem Dev.journal_jCfg (d : Dev) (w : Writer) (off : Nat) (x y : Word) (be : BitVec 4) (c i p : Bool) :
    (d.journal w off x y be c i p).hif.jCfg = d.hif.jCfg := (d.journal_hif w off x y be c i p).2.1
@[simp] theorem Dev.journal_staged (d : Dev) (w : Writer) (off : Nat) (x y : Word) (be : BitVec 4) (c i p : Bool) :
    (d.journal w off x y be c i p).hif.staged = d.hif.staged := (d.journal_hif w off x y be c i p).2.2.1
@[simp] theorem Dev.journal_jSeq (d : Dev) (w : Writer) (off : Nat) (x y : Word) (be : BitVec 4) (c i p : Bool) :
    (d.journal w off x y be c i p).hif.jSeq = d.hif.jSeq + 1 := (d.journal_hif w off x y be c i p).2.2.2.2.1

theorem Dev.jrnPut_hostMem_wf (d : Dev) (e : JEntry) (h : d.hostMem.wf = true) : (d.jrnPut e).hostMem.wf = true := by
  unfold Dev.jrnPut
  dsimp only
  split
  · simpa using h
  · simp [writeWords_wf, h]

/-- Journalling keeps the host's memory canonical. -/
theorem Dev.journal_hostMem_wf (d : Dev) (w : Writer) (off : Nat) (x y : Word) (be : BitVec 4) (c i p : Bool)
    (h : d.hostMem.wf = true) : (d.journal w off x y be c i p).hostMem.wf = true := by
  unfold Dev.journal
  dsimp only
  split
  · exact Dev.jrnPut_hostMem_wf _ _ h
  · exact h

/-! ### Folds -/

/-- A property that every step of a fold keeps holds at its end. -/
theorem foldl_keeps {α β : Type} (P : α → Prop) (f : α → β → α) (l : List β) (hf : ∀ a b, P a → P (f a b)) :
    ∀ a, P a → P (l.foldl f a) := by
  induction l with
  | nil => intro a h; exact h
  | cons b r ih => intro a h; exact ih _ (hf a b h)

/-- The same for `Dev.each`. -/
theorem Dev.each_keeps {β : Type} (P : Dev → Prop) (f : Dev → β → Dev) (l : List β) (hf : ∀ d b, P d → P (f d b))
    (d : Dev) (h : P d) : P (d.each l f) := foldl_keeps P f l hf d h

end Sys2Proof.Machine
end

