-- ==== Sys2Proof/Laws/Registers.lean ====
section
/-! SUPPORT. What a register access does: a write of one aligned word, a write of a register by a command of its own, and a
read of an RC register. -/

namespace Sys2Proof.Machine

open Sys2Proof

/-- One access has nothing to meet in its cycle (R49, R50). -/
theorem Dev.cycle_one (d : Dev) (a : Access) : d.cycle [a] = d.access a.writer a.off a.val a.be := by
  obtain ⟨d', x, e⟩ : ∃ d' x, d.arrive a = (d', x) := ⟨_, _, rfl⟩
  have h0 : ∀ (l : Landing) (o : Nat), overridden [l] o = [] := by
    intro l o
    simp only [overridden, hitsAt, List.flatMap_cons, List.flatMap_nil, List.append_nil]
    split
    · rename_i t ht
      simp only [List.map_eq_nil_iff, List.filter_eq_nil_iff, List.mem_map]
      rintro h ⟨k, -, rfl⟩
      obtain ⟨k', -, rfl⟩ := List.mem_map.mp (List.mem_of_getLast? ht)
      simp
    · rfl
  cases x with
  | none => simp [Dev.cycle, Dev.access, e, insertByOrder, hitOffs]
  | some l =>
    simp only [Dev.cycle, Dev.access, List.foldr_cons, List.foldr_nil, insertByOrder, List.foldl_cons, List.foldl_nil, e,
      Option.toList_some, List.nil_append, h0, List.isEmpty_nil, Bool.not_true]
    exact List.foldlRecOn (motive := fun x => x = d'.land l false false) _ _ rfl (fun x hx _ _ => hx)

/-- One aligned 32-bit write is one access, without a conflict (R42, R49). -/
theorem Dev.busWrites_one (d : Dev) (w : Writer) (off : Nat) (v : Word) (h : off % 4 = 0) :
    d.busWrites [word32 w off v] = d.access w off v allBytes := by
  have h4 : BusWriteUnaligned (word32 w off v) = false := by
    simp [BusWriteUnaligned, word32, h, enablesOk, contiguous, allBytes]
  have h5 : busAccesses (word32 w off v) = [{ writer := w, off := off, val := v, be := allBytes }] := rfl
  simp [Dev.busWrites, h4, h5, Dev.cycle_one]

/-- An access that reaches no register is dropped and logged (R40). -/
theorem Dev.access_hole (d : Dev) (w : Writer) (off : Nat) (v : Word) (be : BitVec 4) (h : d.regFor w off = none) :
    d.access w off v be = d.logAccess Ev.accessHole w off be := by
  simp [Dev.access, Dev.arrive, h]

/-- A full write of a register that is not read-only and no word of a pair lands (R42). -/
theorem Dev.arriveAt_store (d : Dev) (w : Writer) (o : Nat) (r : Reg) (v : Word) (h0 : r.isTable = false)
    (h1 : r.readOnly = false) (h2 : r.pairHi = none) (h3 : r.pairLo = none) :
    d.arriveAt w o r v allBytes = (d.demand r, some { writer := w, off := o, reg := r, val := v, be := allBytes, low := none }) := by
  simp [Dev.arriveAt, h0, h1, h2, h3]

/-- It stores and is journalled (R52). -/
theorem Dev.access_store (d : Dev) (w : Writer) (off o : Nat) (r : Reg) (v : Word) (h : d.regFor w off = some (o, r))
    (h0 : r.isTable = false) (h1 : r.readOnly = false) (h2 : r.pairHi = none) (h3 : r.pairLo = none) :
    d.access w off v allBytes = (d.demand r).storeReg w o r v allBytes false false := by
  simp [Dev.access, Dev.arrive, h, Dev.arriveAt_store, h0, h1, h2, h3, Dev.land]

/-- A full write of the low word of a pair is staged (R45). -/
theorem Dev.access_stage (d : Dev) (w : Writer) (off o : Nat) (r : Reg) (v : Word) (h : d.regFor w off = some (o, r))
    (h0 : r.isTable = false) (h1 : r.readOnly = false) (h2 : r.pairHi.isSome = true) :
    d.access w off v allBytes = (d.demand r).updHif (fun h => h.stage w o v) := by
  simp [Dev.access, Dev.arrive, h, Dev.arriveAt, h0, h1, h2]

/-- A full write of the high word of a pair whose low word waits applies both (R45). -/
theorem Dev.access_pair (d : Dev) (w : Writer) (off o : Nat) (r lo : Reg) (lv v : Word) (h : d.regFor w off = some (o, r))
    (h0 : r.isTable = false) (h1 : r.readOnly = false) (h2 : r.pairHi = none) (h3 : r.pairLo = some lo)
    (h4 : (d.demand r).hif.stagedLow w (o - 4) = some lv) :
    d.access w off v allBytes =
      let d1 := (d.demand r).updHif (fun h => h.unstage w (o - 4))
      let a := d1.writeReg w (o - 4) lo lv allBytes
      let b := a.1.writeReg w o r v allBytes
      (b.1.journal w (o - 4) lv (b.1.readReg lo) allBytes false a.2 true).journal w o v (b.1.readReg r) allBytes false b.2 true := by
  simp [Dev.access, Dev.arrive, h, Dev.arriveAt, h0, h1, h2, h3, h4, Dev.land]

/-- A register command of an agent that reaches and owns the register is the register's write, journalled. -/
theorem Dev.regCmd_write (d : Dev) (w : Writer) (r : Reg) (v : Word) (be : BitVec 4) (h1 : d.reachable w = true)
    (h2 : d.owns w r = true) : d.regCmd w r v be = (d.demand r).storeReg w r.off r v be false false := by
  simp [Dev.regCmd, h1, h2, Dev.direct]

/-- An aligned read of one RC register by an agent that reaches and owns it. -/
theorem Dev.rcCmd_read (d : Dev) (r : Reg) (a : ReadAcc) (h1 : d.reachable a.reader = true) (h2 : d.owns a.reader r = true)
    (h3 : readUnaligned (r.off + a.lane.val) a.size = false) (h4 : ∀ n, a.size ≠ .wide n) : d.rcCmd r a = d.readRc r a := by
  unfold Dev.rcCmd Dev.readFrom
  simp only [h1, h2, h3, Bool.not_true, Bool.false_eq_true, if_false, if_true]

/-- An unaligned read is answered with an Unsupported Request and logged (R48). -/
theorem Dev.rcCmd_unaligned (d : Dev) (r : Reg) (a : ReadAcc) (h1 : d.reachable a.reader = true)
    (h3 : readUnaligned (r.off + a.lane.val) a.size = true) :
    d.rcCmd r a = (d.logAccess Ev.accessAlign a.reader (r.off + a.lane.val) allBytes).reply .unsupported := by
  simp [Dev.rcCmd, h1, h3]

/-- Wherever the part puts the blocks of a window, they keep R39's bounds. -/
theorem vfBases_ok (p : Fin 64) (g : Word) (spans : List Nat) (h : basesOk ((packed 0x10000 spans).zip spans) = true)
    (n : (packed 0x10000 spans).length = spans.length) :
    (vfBases p g spans).length = spans.length ∧ basesOk ((vfBases p g spans).zip spans) = true := by
  unfold vfBases
  dsimp only
  split
  · rename_i c
    simp only [Bool.and_eq_true, decide_eq_true_eq] at c
    exact c
  · exact ⟨n, h⟩

end Sys2Proof.Machine
end

