-- ==== Sys2Proof/Laws/Rings.lean ====
section
/-! SUPPORT. What an update of one command ring leaves alone, so that proofs about rings unfold neither `Dev.updRing` nor the
accounts. -/

namespace Sys2Proof.Machine

open Sys2Proof

@[simp] theorem Dev.updRing_ring (d : Dev) (r : RingId) (f : Ring → Ring) : (d.updRing r f).ring r = f (d.ring r) := by
  obtain ⟨fn, q⟩ := r
  cases fn <;> simp [Dev.updRing, Dev.ring, Tab.at_upd_same]
@[simp] theorem Dev.updRing_mem (d : Dev) (r : RingId) (f : Ring → Ring) : (d.updRing r f).mem = d.mem := by
  obtain ⟨fn, q⟩ := r; cases fn <;> simp [Dev.updRing]
@[simp] theorem Dev.updRing_ecc (d : Dev) (r : RingId) (f : Ring → Ring) : (d.updRing r f).ecc = d.ecc := by
  obtain ⟨fn, q⟩ := r; cases fn <;> simp [Dev.updRing]
@[simp] theorem Dev.updRing_hostMem (d : Dev) (r : RingId) (f : Ring → Ring) : (d.updRing r f).hostMem = d.hostMem := by
  obtain ⟨fn, q⟩ := r; cases fn <;> simp [Dev.updRing]
@[simp] theorem Dev.updRing_plains (d : Dev) (r : RingId) (f : Ring → Ring) : (d.updRing r f).plains = d.plains := by
  obtain ⟨fn, q⟩ := r; cases fn <;> simp [Dev.updRing]
@[simp] theorem Dev.updRing_ccx (d : Dev) (r : RingId) (f : Ring → Ring) : (d.updRing r f).ccx = d.ccx := by
  obtain ⟨fn, q⟩ := r; cases fn <;> simp [Dev.updRing]
@[simp] theorem Dev.updRing_pwr (d : Dev) (r : RingId) (f : Ring → Ring) : (d.updRing r f).pwr = d.pwr := by
  obtain ⟨fn, q⟩ := r; cases fn <;> simp [Dev.updRing]
@[simp] theorem Dev.updRing_free (d : Dev) (r : RingId) (f : Ring → Ring) : (d.updRing r f).free = d.free := by
  obtain ⟨fn, q⟩ := r; cases fn <;> simp [Dev.updRing]
@[simp] theorem Dev.updRing_images (d : Dev) (r : RingId) (f : Ring → Ring) : (d.updRing r f).images = d.images := by
  obtain ⟨fn, q⟩ := r; cases fn <;> simp [Dev.updRing]
@[simp] theorem Dev.updRing_out (d : Dev) (r : RingId) (f : Ring → Ring) : (d.updRing r f).out = d.out := by
  obtain ⟨fn, q⟩ := r; cases fn <;> simp [Dev.updRing]
@[simp] theorem Dev.updRing_plainMap (d : Dev) (r : RingId) (f : Ring → Ring) : (d.updRing r f).plainMap = d.plainMap := by
  obtain ⟨fn, q⟩ := r; cases fn <;> simp [Dev.updRing]
@[simp] theorem Dev.updRing_barMap (d : Dev) (r : RingId) (f : Ring → Ring) : (d.updRing r f).barMap = d.barMap := by
  obtain ⟨fn, q⟩ := r; cases fn <;> simp [Dev.updRing]
@[simp] theorem Dev.updRing_daleMap (d : Dev) (r : RingId) (f : Ring → Ring) : (d.updRing r f).daleMap = d.daleMap := by
  obtain ⟨fn, q⟩ := r; cases fn <;> simp [Dev.updRing]
@[simp] theorem Dev.updRing_basinMap (d : Dev) (r : RingId) (f : Ring → Ring) : (d.updRing r f).basinMap = d.basinMap := by
  obtain ⟨fn, q⟩ := r; cases fn <;> simp [Dev.updRing]
@[simp] theorem Dev.updRing_daleLast (d : Dev) (r : RingId) (f : Ring → Ring) : (d.updRing r f).daleLast = d.daleLast := by
  obtain ⟨fn, q⟩ := r; cases fn <;> simp [Dev.updRing]
@[simp] theorem Dev.updRing_basinLast (d : Dev) (r : RingId) (f : Ring → Ring) : (d.updRing r f).basinLast = d.basinLast := by
  obtain ⟨fn, q⟩ := r; cases fn <;> simp [Dev.updRing]
@[simp] theorem Dev.updRing_acctLo (d : Dev) (r : RingId) (f : Ring → Ring) : (d.updRing r f).acctLo = d.acctLo := by
  obtain ⟨fn, q⟩ := r; cases fn <;> simp [Dev.updRing]
@[simp] theorem Dev.updRing_acctHi (d : Dev) (r : RingId) (f : Ring → Ring) : (d.updRing r f).acctHi = d.acctHi := by
  obtain ⟨fn, q⟩ := r; cases fn <;> simp [Dev.updRing]
@[simp] theorem Dev.updRing_acctBusy (d : Dev) (r : RingId) (f : Ring → Ring) : (d.updRing r f).acctBusy = d.acctBusy := by
  obtain ⟨fn, q⟩ := r; cases fn <;> simp [Dev.updRing]
@[simp] theorem Dev.updRing_waits (d : Dev) (r : RingId) (f : Ring → Ring) : (d.updRing r f).waits = d.waits := by
  obtain ⟨fn, q⟩ := r; cases fn <;> simp [Dev.updRing]
@[simp] theorem Dev.updRing_bars (d : Dev) (r : RingId) (f : Ring → Ring) : (d.updRing r f).bars = d.bars := by
  obtain ⟨fn, q⟩ := r; cases fn <;> simp [Dev.updRing]
@[simp] theorem Dev.updRing_warnC (d : Dev) (r : RingId) (f : Ring → Ring) : (d.updRing r f).warnC = d.warnC := by
  obtain ⟨fn, q⟩ := r; cases fn <;> simp [Dev.updRing]
@[simp] theorem Dev.updRing_trip (d : Dev) (r : RingId) (f : Ring → Ring) : (d.updRing r f).trip = d.trip := by
  obtain ⟨fn, q⟩ := r; cases fn <;> simp [Dev.updRing]
@[simp] theorem Dev.updRing_daleStacks (d : Dev) (r : RingId) (f : Ring → Ring) : (d.updRing r f).daleStacks = d.daleStacks := by
  obtain ⟨fn, q⟩ := r; cases fn <;> simp [Dev.updRing]
@[simp] theorem Dev.updRing_channels (d : Dev) (r : RingId) (f : Ring → Ring) : (d.updRing r f).channels = d.channels := by
  obtain ⟨fn, q⟩ := r; cases fn <;> simp [Dev.updRing]
@[simp] theorem Dev.updRing_glens (d : Dev) (r : RingId) (f : Ring → Ring) : (d.updRing r f).glens = d.glens := by
  obtain ⟨fn, q⟩ := r; cases fn <;> simp [Dev.updRing]
@[simp] theorem Dev.updRing_cols (d : Dev) (r : RingId) (f : Ring → Ring) : (d.updRing r f).cols = d.cols := by
  obtain ⟨fn, q⟩ := r; cases fn <;> simp [Dev.updRing]
@[simp] theorem Dev.updRing_axes (d : Dev) (r : RingId) (f : Ring → Ring) : (d.updRing r f).axes = d.axes := by
  obtain ⟨fn, q⟩ := r; cases fn <;> simp [Dev.updRing]
@[simp] theorem Dev.updRing_early (d : Dev) (r : RingId) (f : Ring → Ring) : (d.updRing r f).early = d.early := by
  obtain ⟨fn, q⟩ := r; cases fn <;> simp [Dev.updRing]
@[simp] theorem Dev.updRing_pendFull (d : Dev) (r : RingId) (f : Ring → Ring) : (d.updRing r f).pendFull = d.pendFull := by
  obtain ⟨fn, q⟩ := r; cases fn <;> simp [Dev.updRing]
@[simp] theorem Dev.updRing_groups (d : Dev) (r : RingId) (f : Ring → Ring) : (d.updRing r f).groups = d.groups := by
  obtain ⟨fn, q⟩ := r; cases fn <;> simp [Dev.updRing]
@[simp] theorem Dev.updRing_groupGen (d : Dev) (r : RingId) (f : Ring → Ring) : (d.updRing r f).groupGen = d.groupGen := by
  obtain ⟨fn, q⟩ := r; cases fn <;> simp [Dev.updRing]
@[simp] theorem Dev.updRing_tgtSel (d : Dev) (r : RingId) (f : Ring → Ring) : (d.updRing r f).tgtSel = d.tgtSel := by
  obtain ⟨fn, q⟩ := r; cases fn <;> simp [Dev.updRing]
@[simp] theorem Dev.updRing_targets (d : Dev) (r : RingId) (f : Ring → Ring) : (d.updRing r f).targets = d.targets := by
  obtain ⟨fn, q⟩ := r; cases fn <;> simp [Dev.updRing]
@[simp] theorem Dev.updRing_ports (d : Dev) (r : RingId) (f : Ring → Ring) : (d.updRing r f).ports = d.ports := by
  obtain ⟨fn, q⟩ := r; cases fn <;> simp [Dev.updRing]
@[simp] theorem Dev.updRing_engines (d : Dev) (r : RingId) (f : Ring → Ring) : (d.updRing r f).engines = d.engines := by
  obtain ⟨fn, q⟩ := r; cases fn <;> simp [Dev.updRing]
@[simp] theorem Dev.updRing_ras (d : Dev) (r : RingId) (f : Ring → Ring) : (d.updRing r f).ras = d.ras := by
  obtain ⟨fn, q⟩ := r; cases fn <;> simp [Dev.updRing]
@[simp] theorem Dev.updRing_mtr (d : Dev) (r : RingId) (f : Ring → Ring) : (d.updRing r f).mtr = d.mtr := by
  obtain ⟨fn, q⟩ := r; cases fn <;> simp [Dev.updRing]
@[simp] theorem Dev.acct_ring (d : Dev) (r : RingId) (p : Fin 64) (f : Acct → Acct) : (d.acct p f).ring r = d.ring r := by
  obtain ⟨fn, q⟩ := r
  cases fn with
  | pf => simp [Dev.acct, Dev.ring]
  | vf k =>
    by_cases h : p = k
    · subst h; simp [Dev.acct, Dev.ring]
    · simp [Dev.acct, Dev.ring, Dev.updPart_part_other, h]

end Sys2Proof.Machine
end

