-- ==== Sys2Proof/Tests/Slice0.lean ====
section
/-! SUPPORT. Tests: an ill-formed term for each check of WellFormed, a witness for the premises of every statement, and worked examples of the spec. -/

open Sys2Proof Sys2Proof.Machine

namespace Sys2Proof.Tests

set_option Elab.async false

/-! ### WellFormed: one ill-formed term for each check, and one that passes it -/

def pf : Writer := .host .pf
def rd (lane : Fin 4) (size : AccSize) : ReadAcc := { reader := pf, lane := lane, size := size }
def wr (off : Nat) (size : AccSize) (data : List Word) : BusWrite := { writer := pf, off := off, size := size, be := 0xF, data := data, lastBe := 0xF, space := .registers }

theorem test_wf_map_register : Instr.wf (.mapWrite pf .plain 16 0 0xF) = false ∧ Instr.wf (.mapWrite pf .barrier 8 0 0xF) = false ∧
    Instr.wf (.mapWrite pf .basin 96 0 0xF) = false ∧ Instr.wf (.mapWrite pf .dale 143 0 0xF) = true := by decide
theorem test_wf_register_write : Instr.wf (.registerWrite []) = false ∧ Instr.wf (.registerWrite [wr 0 .b4 []]) = false ∧
    Instr.wf (.registerWrite [wr 0 (.wide 1) [0]]) = false ∧ Instr.wf (.registerWrite [wr 0 (.wide 3) [0, 0]]) = false ∧
    Instr.wf (.registerWrite [wr 0 (.wide 2) [1, 2]]) = true := by decide
theorem test_wf_read_access : Instr.wf (.hifJrnLostRead (rd 0 (.wide 1))) = false ∧ Instr.wf (.prtPDropRead 0 (rd 0 (.wide 1025))) = false ∧
    Instr.wf (.tilParCntRead 0 (rd 0 (.wide 1))) = false ∧ Instr.wf (.dleSTmaxRead 0 (rd 0 (.wide 1))) = false ∧
    Instr.wf (.dlePWaitRead 0 (rd 0 (.wide 1))) = false ∧ Instr.wf (.bsnPWaitRead 0 (rd 0 (.wide 1))) = false ∧
    Instr.wf (.glnPRepairRead 0 (rd 0 (.wide 1))) = false ∧ Instr.wf (.colCReplayRead 0 (rd 0 (.wide 1))) = false ∧
    Instr.wf (.colCDropRead 0 (rd 0 (.wide 1))) = false ∧ Instr.wf (.netPortFecCorrRead 0 (rd 0 (.wide 1))) = false ∧
    Instr.wf (.netPortFecUncorrRead 0 (rd 0 (.wide 1))) = false ∧ Instr.wf (.netPortStrangerRead 0 (rd 0 (.wide 1))) = false ∧
    Instr.wf (.smpPCorruptRead 0 (rd 0 (.wide 1))) = false ∧ Instr.wf (.rasEvDropRead 0 (rd 0 (.wide 1))) = false ∧
    Instr.wf (.rasEccCntRead (rd 0 (.wide 1))) = false ∧ Instr.wf (.rasEccCntRead (rd 3 (.wide 1024))) = true ∧
    Instr.wf (.tilParCntRead 0 (rd 1 .b4)) = true := by decide
theorem test_wf_bar4 : Instr.wf (.bar4Read .pf 0 0) = false ∧ Instr.wf (.bar4Read .pf 0 4097) = false ∧
    Instr.wf (.bar4Write .pf 0 [] false) = false ∧ Instr.wf (.bar4Read .pf 0 4096) = true := by decide
theorem test_wf_narrow_write : Instr.wf (.readModifyWrite 0 []) = false ∧ Instr.wf (.readModifyWrite 63 [1, 2]) = false ∧
    Instr.wf (.readModifyWrite 63 [1]) = true := by decide
theorem test_wf_meter_read : Instr.wf (.meterRead 0 0) = false ∧ Instr.wf (.meterRead 0 65) = false ∧
    Instr.wf (.meterRead 0 64) = true := by decide
/-! ### A small state: partition 0 holds plain 0, slot 0 and the first granules, LOADED; the module is up -/

def up : Dev :=
  { Dev.reset with
    pwr := { Pwr.reset with main := true, perst := false, link := true, vin := 4800, boot := { Boot.reset with step := 5, fwOk := true, filled := true } }
    ccx := { Ccx.reset with harts := true }
    hif := { Hif.reset with vfs := 64 }
    plainMap := Tab.upd Dev.reset.plainMap 0 (fun _ => 0)
    barMap := Tab.upd Dev.reset.barMap 0 (fun _ => 0)
    daleMap := Tab.upd Dev.reset.daleMap 0 (fun _ => 0)
    basinMap := Tab.upd Dev.reset.basinMap 0 (fun _ => 0)
    engines := Tab.all 4 { state := .ready, streams := 0 }
    parts := Tab.upd Dev.reset.parts 0 (fun x => { x with state := .loaded, use := [0], bars := [0] }) }
def st (f : Dev → Dev) : State := { dev := f up, pending := [] }

/-- A KT9 whose partitions owe no fill owes none to any unit. -/
theorem no_fill (d : Dev) (h : d.parts.toList.all (fun x => x.fills.isEmpty) = true) (u : FillUnit) : d.owed u = false := by
  unfold Dev.owed
  apply List.any_eq_false.mpr
  intro x hx
  simp [List.isEmpty_iff.mp (List.all_eq_true.mp h x hx)]

/-! ### The premises of each statement are met -/

theorem test_meets_StepRunsTheFrontCommand : ({ State.reset with pending := [.ppsEdge, .flowPulse] } : State).pending =
    .ppsEdge :: [.flowPulse] := rfl
theorem test_meets_IdleStepTicks : State.reset.pending = [] := rfl
theorem test_meets_EveryRunGoesOn : QueueWf { State.reset with pending := [.ppsEdge, .meterRead 0 64] } := by
  intro c h; revert c; decide
theorem test_meets_StepKeepsStorage : (st id).dev.storageWf ∧ step (st id) = .next { st id with dev := (st id).dev.tick } :=
  ⟨by simp only [Dev.storageWf, Plain.storageWf]; decide, rfl⟩

theorem test_meets_ReadClear : (rd 3 .b1).wf = true ∧ (st id).dev.reachable pf = true ∧ (st id).dev.owns pf .jrnLost = true ∧
    (st id).dev.owns pf (.pDrop 63) = true ∧ (st id).dev.owns pf (.til 63 .parCnt) = true ∧ (st id).dev.owns pf (.sTmax 11) = true ∧
    (st id).dev.owns pf (.dle 63 .wait) = true ∧ (st id).dev.owns pf (.bsn 63 .wait) = true ∧
    (st id).dev.owns pf (.gln 63 .repair) = true ∧ (st id).dev.owns pf (.cReplay 15) = true ∧
    (st id).dev.owns pf (.cDrop 15) = true ∧ (st id).dev.owns pf (.fecCorr 1) = true ∧ (st id).dev.owns pf (.fecUncorr 1) = true ∧
    (st id).dev.owns pf (.stranger 1) = true ∧ (st id).dev.owns pf (.corrupt 63) = true ∧ (st id).dev.owns pf (.evDrop 127) = true ∧
    (st id).dev.owns pf .eccCnt = true ∧ (st id).dev.owns (.host (.vf 0)) (.pDrop 0) = true := by decide
theorem test_meets_Holes : (st id).dev.reachable pf = true ∧ (st id).dev.regFor pf 0x3FFFFFC = none ∧ 0x3FFFFFC % 4 = 0 := by decide
theorem test_meets_RegisterWrites : (st id).dev.reachable pf = true ∧ (st id).dev.regFor pf (Reg.quota 63).off = some ((Reg.quota 63).off, .quota 63) ∧
    (Reg.quota 63).off % 4 = 0 := by decide
def staged : State := st (fun d => d.updHif (fun h => h.stage pf (Reg.pShortLo 0).off 0x12345678))
theorem test_meets_AtomicPairs : staged.dev.reachable pf = true ∧
    staged.dev.regFor pf (Reg.pShortLo 0).off = some ((Reg.pShortLo 0).off, .pShortLo 0) ∧ (Reg.pShortLo 0).off % 4 = 0 ∧
    staged.dev.regFor pf (Reg.pShortHi 0).off = some ((Reg.pShortHi 0).off, .pShortHi 0) ∧ (Reg.pShortHi 0).off % 4 = 0 ∧
    staged.dev.hif.stagedLow pf ((Reg.pShortHi 0).off - 4) = some 0x12345678 := by decide
theorem test_meets_UnalignedAccesses : BusWriteUnaligned (wr 2 .b4 [0]) = true ∧ (wr 2 .b4 [0]).space = .registers ∧ readUnaligned 1 .b2 = true ∧
    readUnaligned 0x3FFFFFE .b4 = true ∧ readUnaligned 2 (.wide 2) = true := by decide
/-- The clauses on the reads of an RC register: out of reach, unaligned, in another's window, longer than the register. -/
theorem test_meets_ReadClearOtherwise : rcRead (.hifJrnLostRead (rd 1 .b4)) = some (.jrnLost, rd 1 .b4) ∧
    State.reset.dev.reachable pf = false ∧ readUnaligned (Reg.jrnLost.off + (rd 1 .b4).lane.val) .b4 = true ∧
    (st id).dev.owns (.host (.vf 0)) .jrnLost = false ∧ (st id).dev.reachable (.host (.vf 0)) = true ∧
    readUnaligned (Reg.jrnLost.off + (rd 0 (.wide 2)).lane.val) (.wide 2) = false ∧ (rd 0 (.wide 2)).size = .wide (1 + 1) ∧
    (st id).dev.hif.shadow.find? (fun x => x.1 == pf && x.2.1 == Reg.jrnLost.off) = none ∧ (st id).dev.owns pf .jrnLost = true := by decide
theorem test_meets_RegisterAccesses : oneRegister (.partitionReset pf 0) = true ∧
    exec (.partitionReset pf 0) (st id) = .next { st id with dev := (st id).dev.regCmd pf (.pCtrl 0) 1 } ∧
    (∀ o, (st id).dev.regFor pf 0x3FFFFFC ≠ some (o, .flipCtrl)) :=
  ⟨rfl, rfl, by intro o; rw [show (st id).dev.regFor pf 0x3FFFFFC = none by decide]; exact nofun⟩

theorem test_meets_RingEnable : (st id).dev.reachable pf = true ∧ (st id).dev.owns pf (.ring { fn := .vf 63, q := 3 } 4) = true ∧
    (st id).dev.ccx.sup ≠ .failed ∧ bit 0x601 0 = true ∧ ((st id).dev.ring { fn := .vf 63, q := 3 }).en = false := by decide
def ringOn : State := st (fun d => d.updRing { fn := .pf, q := 3 } (fun x => { x with cfg := 0x601 }))
theorem test_meets_RingDisable : ringOn.dev.reachable pf = true ∧ ringOn.dev.owns pf (.ring { fn := .pf, q := 3 } 4) = true ∧
    ringOn.dev.ccx.sup ≠ .failed ∧ bit 0x600 0 = false ∧ (ringOn.dev.ring { fn := .pf, q := 3 }).en = true := by decide
theorem test_meets_LogRingsOn : (st id).dev.owns pf .jrnCfg = true ∧ bit 0x61 0 = true ∧ (st id).dev.hif.jEn = false ∧
    (st id).dev.owns pf .evCfg = true ∧ (st id).dev.ras.en = false := by decide
def logsOn : State := st (fun d => (d.updHif (fun h => { h with jCfg := 0x61 })).updRas (fun r => { r with evCfg := 0x61 }))
theorem test_meets_LogRingsOff : logsOn.dev.owns pf .jrnCfg = true ∧ bit 0x60 0 = false ∧ logsOn.dev.hif.jEn = true ∧
    logsOn.dev.ras.en = true := by decide
theorem test_meets_MapAssign : (st id).dev.reachable pf = true ∧ (st id).dev.owns pf (.plainMap 15) = true ∧
    (∀ q, ownerOf ((st id).dev.plainMap.toList.getD (4 * 15 + 3) 0xFF) = some q →
      ((st id).dev.part q).state = .empty ∨ ((st id).dev.part q).state = .idle) := by decide
theorem test_meets_MapHeld : (st id).dev.owns pf (.plainMap 0) = true ∧
    ownerOf ((st id).dev.plainMap.toList.getD (4 * 0 + 0) 0xFF) = some 0 ∧ ((st id).dev.part 0).state = .loaded := by decide

def idle0 : State := st (fun d => d.updPart 0 (fun x => { x with state := .idle }))
theorem test_meets_PlainRegisters : idle0.dev.reachable pf = true ∧ idle0.dev.owns pf (.til 0 (.dtWin 63)) = true ∧
    (∀ o, idle0.dev.plainOwner 0 = some o → idle0.dev.locked o = false) ∧ Sparse.wf 0 (idle0.dev.plain 0).table = true ∧
    idle0.dev.owns pf (.til 0 .seedLo) = true ∧ (idle0.dev.plain 0).state ≠ .busy := by decide
def ctr0 : Counter := { num := 5, home := 0, value := 100, satHi := false, satLo := false, cls := .bubble, adds := [] }
def counted : State := st (fun d => d.updPart 0 (fun x => { x with counters := [ctr0], ctrSel := 5, ctrQ := 16, quota := 16 }))
theorem test_meets_SynCtrAdd : counted.dev.reachable (.host (.vf 0)) = true ∧ counted.dev.owns (.host (.vf 0)) (.syn 0 .ctrAdd) = true ∧
    (counted.dev.part 0).counter (counted.dev.part 0).ctrSel = some ctr0 ∧ (counted.dev.part 0).state ≠ .resetting ∧
    (counted.dev.plain ctr0.home).state ≠ .fenced := by decide
def barFailed : State := st (fun d => d.updBar 0 (fun b => { b with state := .failed, gen := 7 }))
def noCounter : State := st (fun d => d.updPart 0 (fun x => { x with counters := [] }))
theorem test_meets_SynCtrAddDropped : noCounter.dev.owns (.host (.vf 0)) (.syn 0 .ctrAdd) = true ∧
    (noCounter.dev.part 0).counter (noCounter.dev.part 0).ctrSel = none ∧
    ((st (fun d => d.updPart 0 (fun x => { x with counters := [ctr0], ctrSel := 5, state := .resetting }))).dev.part 0).state = .resetting ∧
    ((st (fun d => (d.updPart 0 (fun x => { x with counters := [ctr0], ctrSel := 5 })).updPlain 0 (fun p => { p with
      state := .fenced }))).dev.plain ctr0.home).state = .fenced := by decide
theorem test_meets_SynClear : barFailed.dev.owns pf (.bar 0 .ctrl) = true ∧ (Tab.at barFailed.dev.bars 0).state = .failed := by decide
theorem test_meets_ColRetrain : (st id).dev.owns pf (.cCtrl 15) = true ∧ ((st id).dev.col 15).disable = false ∧
    (st id).dev.owns pf (.axCtrl 3) = true ∧ (st id).dev.owns pf (.pGclr 63) = true := by decide
def colReady : State := st (fun d => d.updCol 15 (fun c => { c with state := .ready }))
theorem test_meets_ColDisable : colReady.dev.owns pf (.cCtrl 15) = true ∧ (colReady.dev.col 15).disable = false ∧
    colReady.dev.named 15 = false ∧ (colReady.dev.col 15).state ≠ .down := by decide
theorem test_meets_TargetWordZero : (st (fun d => { d with tgtSel := 255 })).dev.reachable pf = true ∧
    (st (fun d => { d with tgtSel := 255 })).dev.owns pf (.tgtWin 0) = true ∧
    (st (fun d => { d with tgtSel := 255 })).dev.tgtSel.toNat = (255 : Fin 256).val := by decide
theorem test_meets_MediaFail : (st id).dev.owns pf (.eCtrl 3) = true ∧ (Tab.at (st id).dev.engines 3).works = true := by decide
def engines (x : EngineState) : State := st (fun d => { d with engines := Tab.all 4 { state := x, streams := 0 } })
theorem test_meets_MediaReturn : (engines .failed).dev.reachable pf = true ∧ (Tab.at (engines .failed).dev.engines 3).state = .failed ∧
    (Tab.at (engines .bist).dev.engines 3).state = .bist := by decide
theorem test_meets_MediaShares : idle0.dev.owns pf (.keyReq 0) = true ∧ idle0.dev.owns pf (.share 0) = true ∧ idle0.dev.locked 0 = false ∧
    (∀ q, q ≠ 0 → (idle0.dev.part q).share = 0) ∧ bits (0x0BB82EE0 : Word) 0 14 ≤ 12000 ∧ bits (0x0BB82EE0 : Word) 16 12 ≤ 3000 := by
  decide
theorem test_meets_BusyBits : (st id).dev.owns pf .flipCtrl = true ∧ (st id).dev.ras.flipBusy = false ∧
    (st id).dev.owns pf .acctCtrl = true ∧ (st id).dev.acctBusy = false := by decide
def plainIs (x : PlainState) : State := st (fun d => d.updPlain 63 (fun p => { p with state := x }))
theorem test_meets_PlainFence : (st id).dev.owns pf .plainCtrl = true ∧ ((st id).dev.plain 0).state ≠ .fenced ∧
    ((plainIs .fenced).dev.plain 63).state = .fenced ∧ (plainIs .fenced).dev.plainOwner 63 = none ∧
    ((plainIs .bist).dev.plain 63).state = .bist := by decide
theorem test_meets_PartitionReset : ((st id).dev.part 0).state ≠ .resetting ∧ (st id).dev.reachable (.host (.vf 0)) = true ∧
    (st id).dev.owns (.host (.vf 0)) (.pCtrl 0) = true := by decide
def resetting : State := st (fun d => d.updPart 0 (fun x => { x with state := .resetting }))
theorem test_meets_PartitionResetEnd : (resetting.dev.part 0).state = .resetting ∧ resetting.dev.reachable pf = true ∧
    resetting.dev.owns pf (.pCtrl 0) = true := by decide
def undrained : State := st (fun d => d.updPart 0 (fun x => { x with
  state := .resetting
  dale := { x.dale with cfg := 0x00040001, queue := [{ owner := .host, addr := 0, bytes := 64, write := true }] } }))
theorem test_meets_PartitionResetWaits : (undrained.dev.part 0).state = .resetting ∧
    ((undrained.dev.part 0).dale.drained && (undrained.dev.part 0).basin.drained) = false ∧
    (resetting.dev.part 0).dale.drained = true ∧ (resetting.dev.part 0).basin.drained = true := by decide
def owing : State := st (fun d => d.updPart 0 (fun x => { x with state := .idle, fills := [.dale 0, .plain 0] }))
theorem test_meets_GrantFill : owing.dev.storageWf ∧ owing.dev.owed (.dale 0) = true ∧ owing.dev.owed (.plain 0) = true :=
  ⟨by simp only [Dev.storageWf, Plain.storageWf]; decide, by decide, by decide⟩

def pwr (f : Pwr → Pwr) : State := st (fun d => d.updPwr f)
theorem test_meets_StartUp : (pwr (fun p => { p with main := false })).dev.pwr.standby = true ∧
    (pwr (fun p => { p with main := false, vin := 4500 })).dev.pwr.main = false ∧
    (pwr (fun p => { p with main := false, vin := 4500 })).dev.pwr.leak = false ∧
    4500 ≤ (pwr (fun p => { p with main := false, vin := 4500 })).dev.pwr.vin.toNat := by decide
def booting (k : BitVec 3) : State := pwr (fun p => { p with boot := { Boot.reset with step := k }, link := false })
theorem test_meets_StartUpSteps : (booting 2).dev.pwr.main = true ∧ (booting 2).dev.pwr.boot.step.toNat ≤ 2 ∧
    (booting 2).dev.pwr.boot.fwOk = false ∧ (booting 2).dev.pwr.boot.fail = false ∧ (booting 2).dev.pwr.boot.step ≠ 0 ∧
    (booting 2).dev.pwr.boot.filled = false ∧ (booting 3).dev.pwr.boot.step = 3 ∧ (booting 3).dev.pwr.boot.fail = false ∧
    (booting 4).dev.pwr.boot.step = 4 ∧ (booting 5).dev.pwr.perst = false ∧ (booting 5).dev.pwr.boot.step = 5 := by decide
def bootFailed : State := pwr (fun p => { p with perst := false, link := false, boot := { Boot.reset with step := 2, fail := true } })
theorem test_meets_StartUpFailed : bootFailed.dev.pwr.boot.fail = true ∧ bootFailed.dev.pwr.main = true ∧
    bootFailed.dev.pwr.boot.step.toNat ≤ 2 ∧ bootFailed.dev.pwr.boot.fwOk = false ∧ bootFailed.dev.pwr.perst = false := by decide
theorem test_meets_Standby : (pwr (fun p => { p with standby := false, main := false })).dev.pwr.standby = false ∧
    (st id).dev.pwr.standby = true := by decide
theorem test_meets_ModuleReset : (pwr (fun p => { p with rstPend := true })).dev.pwr.standby = true ∧
    (pwr (fun p => { p with rstPend := true })).dev.pwr.perst = false ∧ (pwr (fun p => { p with rstPend := true })).dev.pwr.rstPend = true ∧
    (pwr (fun p => { p with rstPend := true })).dev.pwr.link = true := by decide
theorem test_meets_ResetRequests : (st id).dev.reachable pf = true ∧ (st id).dev.owns pf .rstCtrl = true ∧
    (st id).dev.pwr.link = true := by decide
theorem test_meets_SupplySample : (st id).dev.pwr.standby = true ∧ 3600 ≤ (3600 : BitVec 16).toNat ∧
    (st id).dev.pwr.shut.inForce = false := by decide
theorem test_meets_Leak : (st id).dev.pwr.standby = true ∧ (st id).dev.pwr.leak = false ∧
    (pwr (fun p => { p with leak := true })).dev.pwr.leak = true := by decide
theorem test_meets_DesignPower : (st id).dev.pwr.capped = false ∧ 2600 < (2601 : BitVec 16).toNat ∧ (2449 : BitVec 16).toNat < 2450 ∧
    (pwr (fun p => { p with capped := true })).dev.pwr.capped = true ∧ 1300 < (1301 : BitVec 16).toNat ∧ (1149 : BitVec 16).toNat < 1150 := by
  decide
def domIs (k : Fin 100) (x : DomState) : State := pwr (fun p => { p with doms := Tab.upd p.doms k (fun _ => { state := x, mhz := 100, starting := false }) })
theorem test_meets_ClockDomains : 64 ≤ (93 : Fin 100).val ∧ (93 : Fin 100).val < 94 ∧ ((domIs 93 .running).dev.dom 93).state = .running ∧
    ((domIs 93 .gated).dev.dom 93).state = .gated ∧ (domIs 63 .gated).dev.inUse 63 = false ∧ (domIs 93 .gated).dev.pwr.main = true ∧
    ((domIs 63 .gated).dev.dom 63).state = .gated ∧ ((domIs 0 .pllOff).dev.dom 0).state = .pllOff := by decide
def starting : State := pwr (fun p => { p with doms := Tab.upd p.doms 93 (fun _ => { state := .pllOff, mhz := 0, starting := true }) })
theorem test_meets_ClockStarts : starting.dev.pwr.main = true ∧ starting.dev.clockDue 93 = true ∧ (starting.dev.dom 93).state = .pllOff ∧
    (plainIs .waking).dev.clockDue 63 = true ∧ ((plainIs .waking).dev.dom 63).state = .pllOff ∧ (st id).dev.clockDue 99 = false := by decide
theorem test_meets_Pins : (st id).dev.owns pf .pinmux = true ∧ (st id).dev.pwr.winBusy = 0 ∧
    (pwr (fun p => { p with pinmux := 0x300 })).dev.pwr.pinIs 2 3 = true ∧
    (pwr (fun p => { p with pinmux := 0x4000 })).dev.pwr.pinIs 3 4 = true := by decide
theorem test_meets_Smbus : (pwr (fun p => { p with alertN := false })).dev.pwr.standby = true ∧
    (pwr (fun p => { p with alertN := false })).dev.pwr.alertN = false := by decide
theorem test_meets_Jtag : (pwr (fun p => { p with strap := 4 })).dev.pwr.strap.toNat / 4 % 2 = 1 ∧ sramBytes - 1 < sramBytes ∧
    regAt (Reg.off (.cStat 15)) = some (.cStat 15) := by decide

theorem up_storageWf : up.storageWf := by simp only [Dev.storageWf, Plain.storageWf]; decide
theorem test_meets_Bar4 : (st id).dev.reachable (.host .pf) = true ∧ (st id).dev.storageWf ∧ (st id).dev.ecc = [] ∧
    (st id).dev.bar4Addr .pf 64 = some 64 ∧ (st id).dev.trippedAt 64 = false ∧ (∀ u, (st id).dev.owed u = false) ∧
    ([7] : List Byte) ≠ [] ∧ 64 % 64 + ([7] : List Byte).length ≤ 64 ∧ 64 % 64 = 64 % 64 ∧ 1 ≤ 64 ∧ 64 % 64 + 64 ≤ 64 :=
  ⟨by decide, up_storageWf, by decide, by decide, by decide, no_fill _ (by decide), by decide, by decide, by decide, by decide, by decide⟩
theorem test_meets_Bar4Fill : owing.dev.bar4Addr .pf 64 = some 64 ∧ owing.dev.trippedAt 64 = false ∧ place 64 = .dale 0 ∧
    owing.dev.owed (.dale 0) = true ∧ State.reset.dev.reachable (.host .pf) = false ∧
    (st (fun d => { d with hif := { d.hif with vfs := 63 } })).dev.reachable (.host (.vf 63)) = false := by decide
theorem no_dale : State.reset.dev.daleOf 63 = [] := by
  unfold Dev.daleOf
  apply List.filter_eq_nil_iff.mpr
  intro g _
  rw [show Tab.at State.reset.dev.daleMap g = 0xFF from Tab.at_all _ _]
  exact show ¬ (ownerOf 0xFF == some 63) = true by decide
theorem no_basin : State.reset.dev.basinOf 63 = [] := by
  unfold Dev.basinOf
  apply List.filter_eq_nil_iff.mpr
  intro g _
  rw [show Tab.at State.reset.dev.basinMap g = 0xFF from Tab.at_all _ _]
  exact show ¬ (ownerOf 0xFF == some 63) = true by decide
theorem nothing {α : Type} (l : List α) (n : Nat) (h : l = []) : l[n]? = none := by subst h; rfl
theorem bar4_none (d : Dev) (p : Fin 64) (o : Nat) (h1 : d.daleOf p = []) (h2 : d.basinOf p = []) : d.bar4Addr (.vf p) o = none := by
  unfold Dev.bar4Addr
  dsimp only
  rw [nothing _ _ h1]
  dsimp only
  rw [nothing _ _ h2]
def linkedUp : State := { dev := { Dev.reset with pwr := { Pwr.reset with main := true, perst := false, link := true },
                                                  hif := { Hif.reset with vfs := 64 } }, pending := [] }
theorem test_meets_Bar4Beyond : linkedUp.dev.reachable (.host (.vf 63)) = true ∧ linkedUp.dev.bar4Addr (.vf 63) 0 = none ∧ 1 ≤ 64 ∧
    0 % 64 + 64 ≤ 64 ∧ 64 ≤ 4096 ∧ (List.replicate 64 (0 : Byte)).length = 64 :=
  ⟨by decide, bar4_none _ _ _ no_dale no_basin, by decide, by decide, by decide, List.length_replicate⟩
theorem test_meets_DemandRead : place (0x8FFFFFFFFF : BitVec 44).toNat ≠ .hole ∧ (st id).dev.trippedAt (0x8FFFFFFFFF : BitVec 44).toNat = false ∧
    ([7] : List Byte) ≠ [] ∧ (0x8FFFFFFFFF : BitVec 44).toNat % 64 + ([7] : List Byte).length ≤ 64 := by decide
def tripped : State := st (fun d => { d with daleStacks := Tab.all 12 { Stack.reset with state := .tripped }, trip := 1 })
theorem test_meets_DemandReadTripped : tripped.dev.trippedAt (0x8FFFFFFFFF : BitVec 44).toNat = true ∧ tripped.dev.isTripped = true ∧
    (∀ u, (st id).dev.owed u = false) := ⟨by decide, by decide, no_fill _ (by decide)⟩
def marked : State := st (fun d => d.putMark 0x1000)
def twoBad : State := st (fun d => d.setEcc 0x1008 3)
theorem test_meets_DemandReadOfPoison : place (0x1008 : BitVec 44).toNat ≠ .hole ∧ marked.dev.trippedAt (0x1008 : BitVec 44).toNat = false ∧
    marked.dev.isMark (lineOf (0x1008 : BitVec 44).toNat) = true ∧ Sparse.wf 0 twoBad.dev.ecc = true ∧
    twoBad.dev.isMark (lineOf (0x1008 : BitVec 44).toNat) = false ∧ twoBad.dev.lineUncorr (lineOf (0x1008 : BitVec 44).toNat) = true := by decide
theorem test_meets_DemandReadNoFill : (∀ u, marked.dev.owed u = false) ∧ (∀ u, twoBad.dev.owed u = false) :=
  ⟨no_fill _ (by decide), no_fill _ (by decide)⟩
def oneBad : Dev := up.setEcc 0x1008 1
theorem test_meets_OneWrongBit : Sparse.wf 0 oneBad.ecc = true ∧ eccClass (oneBad.eccAt 0x1008) = .corrected ∧ tierCode 0x1008 = 1 ∧
    tierCode 0x10000000000 = 2 := by decide
theorem test_meets_Scrubbers : bit (Tab.at (st id).dev.ras.scrubCfg 0) 0 = true ∧
    ((st (fun d => d.updPlain 63 (fun p => { p with state := .idle, scrubLine := sramBytes / 64 - 1 }))).dev.plain 63).state = .idle ∧
    bit (Tab.at (st id).dev.ras.scrubCfg 1) 0 = true ∧ (Tab.at (st id).dev.daleStacks 11).state ≠ .tripped ∧ (st id).dev.ecc = [] ∧
    bit (Tab.at (st id).dev.ras.scrubCfg 2) 0 = true ∧ (Tab.at (st id).dev.channels 23).tripped = false := by decide
def scrubOff : State := st (fun d => d.updRas (fun r => { r with scrubCfg := Tab.all 3 0 }))
theorem test_meets_ScrubbersOff : bit (Tab.at scrubOff.dev.ras.scrubCfg 0) 0 = false ∧ ((plainIs .bist).dev.plain 63).state ≠ .idle ∧
    ((plainIs .bist).dev.plain 63).state ≠ .busy ∧ (Tab.at tripped.dev.daleStacks 11).state = .tripped ∧
    bit (Tab.at scrubOff.dev.ras.scrubCfg 2) 0 = false := by decide
def parityBad : State := st (fun d => d.updPlain 63 (fun p => { p with state := .busy, parity := [(0, 1)] }))
theorem test_meets_ScrubParity : Sparse.wf 0 (parityBad.dev.plain 63).parity = true ∧
    (parityBad.dev.plain 63).parAt (64 * (parityBad.dev.plain 63).scrubLine) ≠ 0 := by decide
def req0 : MemReq := { owner := .host, addr := 0x10000000000, bytes := 4096, write := true }
def slow (rate : Word) (tokens : Nat) : State := st (fun d => d.updPart 0 (fun x => { x with
  basin := { x.basin with cfg := 0x00040000 + rate, queue := [req0], tokens := tokens } }))
theorem test_meets_Regulator : ((st id).dev.part 63).dale.queue = [] ∧ ((slow 1 32768).dev.part 0).basin.queue = [req0] ∧
    ((slow 1 32768).dev.part 0).basin.rate ≠ 0 ∧ 8 * chargeOf req0.addr req0.bytes ≤ ((slow 1 32768).dev.part 0).basin.tokens ∧
    ((slow 1 32768).dev.part 0).basin.tokens ≤ ((slow 1 32768).dev.part 0).basin.depth ∧ ((slow 0 32768).dev.part 0).basin.rate = 0 ∧
    ((slow 1 0).dev.part 0).basin.tokens + 5 * ((slow 1 0).dev.part 0).basin.rate * 6 < 8 * chargeOf req0.addr req0.bytes := by decide
theorem test_meets_Temperature : (Tab.at (st id).dev.daleStacks 11).state ≠ .tripped ∧ (104 : Byte).toNat < 105 ∧
    (Tab.at (st id).dev.channels 23).tripped = false ∧ 105 ≤ (105 : Byte).toNat ∧ (st id).dev.isTripped = false ∧
    (st (fun d => { d with trip := 3 })).dev.isTripped = true := by decide
def ev0 : Event := { source := 1, test := false, part := 0xFF, rep := 0, epoch := 0, unit := 0, time := 0, arg0 := 0, arg1 := 0, arg2 := 0, seq := 1 }
def writing : State := st (fun d => d.updRas (fun r => { r with evCfg := 0x61, writing := some ev0, prod := 63 }))
theorem test_meets_EventRecord : writing.dev.ras.writing = some ev0 ∧ writing.dev.hostMem.wf = true := by decide
theorem test_meets_Supervisor : (st id).dev.ccx.harts = true ∧ (st id).dev.ccx.sup = .ready ∧
    153600 ≤ ((pwr (fun p => { p with aon := 153600 })).dev.pwr.aon - Tab.at (pwr (fun p => { p with aon := 153600 })).dev.ccx.beats 3).toNat ∧
    (st id).dev.owns pf .supCtrl = true := by decide
def fenced (w : Bool) : State := st (fun d => { d with
  ccx := { d.ccx with sup := .fencing, fence := some { cause := 1, hart := 0, tick := 0, halted := 0, waited := w } },
  pwr := { d.pwr with aon := 192000 } })
theorem test_meets_ModuleFence : (fenced false).dev.ccx.fence = some { cause := 1, hart := 0, tick := 0, halted := 0, waited := false } ∧
    (fenced false).dev.ccx.fenceWait.toNat ≤ ((fenced false).dev.pwr.aon - 0).toNat ∧
    (fenced true).dev.ccx.fence = some { cause := 1, hart := 0, tick := 0, halted := 0, waited := true } ∧
    (fenced true).dev.ccx.epoch ≠ 0xFFFF := by decide
theorem test_meets_FenceReload : (fenced true).dev.writesIssued = false ∧
    (∀ p, ((fenced true).dev.part p).state = .resetting →
      ((fenced true).dev.part p).dale.drained = true ∧ ((fenced true).dev.part p).basin.drained = true) := by decide
def lostPlain : State := st (fun d => d.updPart 0 (fun x => { x with lost := true }))
theorem test_meets_PlainFenceRecords : (lostPlain.dev.part 0).lost = true ∧ lostPlain.dev.startedOf 0 = [] := by decide

def r0 : RingId := { fn := .vf 0, q := 0 }
def rp : RingId := { fn := .pf, q := 3 }
def words (l : List (Fin 16 × Word)) : Tab Word 16 := l.foldl (fun t x => Tab.upd t x.1 (fun _ => x.2)) (Tab.all 16 0)
def cmdOf (l : List (Fin 16 × Word)) : Cmd := fetchedCmd 0 (words l)
theorem not_collective {w : Work} (h : w = .none) : ∀ x y, w ≠ .collective x y := by
  subst h; intro _ _ h; cases h
/-- The state with ring `r` enabled, holding these commands. -/
def holding (r : RingId) (l : List Cmd) (f : Dev → Dev) : State :=
  st (fun d => f (d.updRing r (fun x => { x with cfg := 0x601, cmds := l, sqTail := 1, sqHead := 1 })))
def lastSlot : State := st (fun d => d.updRing r0 (fun x => { x with cfg := 0x601, sqHead := 63, sqTail := 63 }))
theorem test_meets_Doorbells : lastSlot.dev.reachable (.host r0.fn) = true ∧ lastSlot.dev.ccx.sup = .ready ∧
    lastSlot.dev.bellOk r0 63 false = true ∧ lastSlot.dev.bellOk r0 0 false = true ∧ (lastSlot.dev.ring r0).cmds = [] ∧
    (0 : Word).toNat = ((lastSlot.dev.ring r0).sqHead.toNat + 1) % (lastSlot.dev.ring r0).size ∧ 1 < (lastSlot.dev.ring r0).size ∧
    (lastSlot.dev.ring r0).size ≤ 65536 ∧ (lastSlot.dev.ring r0).sqHead.toNat < (lastSlot.dev.ring r0).size ∧
    lastSlot.dev.bellOk r0 64 false = false := by decide
theorem test_meets_DoorbellOffsets : bellAt .pf 0x8 = none ∧ bellAt (.vf 0) 0x1000 = none ∧ bellAt .pf 0x30 = some ({ fn := .pf, q := 3 }, false) ∧
    bellAt .pf 0x40034 = some ({ fn := .vf 63, q := 3 }, true) ∧ (st id).dev.pwr.link = true := by decide
theorem test_meets_FunctionConfiguration : (st id).dev.pwr.link = true ∧ (64 : Word).toNat ≤ 64 ∧ ¬ (65 : Word).toNat ≤ 64 ∧
    (30 ≤ (30 : Word).toNat ∧ (42 : Word).toNat ≤ 42) ∧ ¬ (43 : Word).toNat ≤ 42 := by decide
def nopOk : Cmd := cmdOf [(0, 0x60)]
def nopBad : Cmd := cmdOf [(0, 0x61)]
def nopShort : Cmd := cmdOf [(0, 0x60), (5, 1)]
def admits (c : Cmd) : State := holding r0 [c] id
theorem test_meets_Admission (c : Cmd) (h : c ∈ [nopOk, nopBad, nopShort]) : (admits c).dev.ccx.sup = .ready ∧ (admits c).dev.ccx.harts = true ∧
    (admits c).dev.resets r0 = false ∧ ((admits c).dev.part 0).lost = false ∧ (admits c).dev.isTripped = false ∧
    ((admits c).dev.ring r0).cmds = [c] ∧ c.stage = .fetched := by revert c; decide
theorem test_meets_AdmissionEnds : (holding r0 [nopOk] (fun d => { d with trip := 1 })).dev.isTripped = true ∧
    (holding r0 [nopOk] (fun d => { d with trip := 1 })).dev.resets r0 = false ∧
    ((holding r0 [nopOk] (fun d => d.updPart 0 (fun x => { x with lost := true }))).dev.part 0).lost = true := by decide
theorem test_meets_AdmissionVerdicts : (admits nopOk).dev.judgeCmd r0 nopOk = .ok 4 [] .none [] ∧
    (admits nopBad).dev.judgeCmd r0 nopBad = .format ∧ (admits nopShort).dev.judgeCmd r0 nopShort = .promise := by decide
def at' (s : Stage) (c : Cmd) : Cmd := { c with stage := s }
theorem test_meets_CommandStartPf : (holding rp [at' .admitted nopOk] id).dev.isTripped = false ∧
    ((holding rp [at' .admitted nopOk] id).dev.ring rp).cmds = [at' .admitted nopOk] ∧
    ((holding rp [at' .admitted nopOk] id).dev.ring rp).nextStart = some (at' .admitted nopOk) ∧ (at' .admitted nopOk).plains = [] ∧
    (∀ x y, (at' .admitted nopOk).work ≠ .collective x y) := ⟨by decide, by decide +kernel, by decide +kernel, by decide, not_collective rfl⟩
def runCmd (w : Work) : Cmd := { cmdOf [(0, 0x10)] with plains := [0], work := w, promise := 100 }
theorem test_meets_CommandStartVf (c : Cmd) (hc : c = at' .admitted (runCmd .none)) : (holding r0 [c] id).dev.isTripped = false ∧
    ((holding r0 [c] id).dev.part 0).state ≠ .resetting ∧ ((holding r0 [c] id).dev.part 0).lost = false ∧
    ((holding r0 [c] id).dev.ring r0).cmds = [c] ∧ ((holding r0 [c] id).dev.ring r0).nextStart = some c ∧
    (holding r0 [c] id).dev.turnOf 0 r0 c = true ∧ (holding r0 [c] id).dev.snapshotFree 0 r0 c = true ∧ enOf c.startWait = false ∧
    (∀ x y, c.work ≠ .collective x y) := by
  subst hc; exact ⟨by decide, by decide, by decide, by decide +kernel, by decide +kernel, by decide +kernel, by decide, by decide, not_collective rfl⟩
/-- An ENCODE that waits for counter 5 to reach 101. -/
def waitCmd : Cmd := at' .admitted (cmdOf [(0, 0x31), (11, 0x00651005)])
theorem test_meets_CommandWaits : ((holding r0 [waitCmd] id).dev.ring r0).nextStart = some waitCmd ∧
    (holding r0 [waitCmd] id).dev.turnOf 0 r0 waitCmd = true ∧ (holding r0 [waitCmd] id).dev.snapshotFree 0 r0 waitCmd = true ∧
    enOf waitCmd.startWait = true ∧
    (holding r0 [waitCmd] id).dev.waitMet 0 (ctrOf waitCmd.startWait) (valOf waitCmd.startWait) = false ∧ waitCmd.waited = false := by
  decide +kernel
theorem test_meets_CompletionRecord : ((holding r0 [at' .done nopOk] id).dev.ring r0).cmds = at' .done nopOk :: [] ∧
    (at' .done nopOk).stage = .done ∧ ((holding r0 [at' .done nopOk] id).dev.ring r0).written -
      ((holding r0 [at' .done nopOk] id).dev.ring r0).consumed + 1 < ((holding r0 [at' .done nopOk] id).dev.ring r0).size ∧
    (holding r0 [at' .done nopOk] id).dev.hostMem.wf = true := by decide
def nopOn : State := holding rp [{ at' .started nopOk with promise := 5 }] (fun d => d.updPwr (fun p => { p with aon := 19 }))
theorem test_meets_Nop : nopOn.dev.isTripped = false ∧ (nopOn.dev.ring rp).cmds = [{ at' .started nopOk with promise := 5 }] ∧
    (at' .started nopOk).opcode = 0x60 ∧ elapsedUs 0 nopOn.dev.pwr.aon ≤ (5 : BitVec 24).toNat := by decide

def image0 : Image :=
  { extent := 0, clean := true, sram := [], dynFirst := 256, entries := [], statics := [], seeds := [], counters := [], plains := [0],
    needs := [], dale := 0, basin := 0, barSlots := 0, layers := [] }
def loadCmd : Cmd := at' .started (cmdOf [(0, 0x01), (2, 0x1000)])
def loads : State := holding r0 [loadCmd] (fun d => { d.updPart 0 (fun x => { x with state := .idle }) with images := [{ host := loadCmd.ptrHost, addr := loadCmd.ptr, image := image0 }] })
theorem test_meets_LoadImage : loads.dev.ccx.sup = .ready ∧ loads.dev.isTripped = false ∧ (loads.dev.ring r0).cmds = [loadCmd] ∧
    loadCmd.stage = .started ∧ loadCmd.opcode = 0x01 ∧ (loads.dev.part 0).fills = [] ∧ (loads.dev.part 0).state ≠ .loaded ∧
    loads.dev.imageAt loadCmd.ptrHost loadCmd.ptr = some image0 := by decide
def unloadCmd : Cmd := at' .started (cmdOf [(0, 0x02)])
theorem test_meets_UnloadImage : (holding r0 [unloadCmd] id).dev.isTripped = false ∧
    ((holding r0 [unloadCmd] id).dev.ring r0).cmds = [unloadCmd] ∧ unloadCmd.stage = .started ∧ unloadCmd.opcode = 0x02 ∧
    (holding r0 [unloadCmd] id).dev.granted 0 = true := by decide
theorem test_meets_ImageOtherwise : ((holding r0 [loadCmd] (fun d => d.updPart 0 (fun x => { x with fills := [.dale 0] }))).dev.part 0).fills ≠ [] ∧
    ((holding r0 [loadCmd] id).dev.part 0).state = .loaded ∧ ((holding r0 [loadCmd] id).dev.part 0).fills = [] ∧ loadCmd.plains = [] ∧
    elapsedUs loadCmd.startTick (holding r0 [loadCmd] id).dev.pwr.aon ≤ loadCmd.promise.toNat ∧
    ((holding r0 [unloadCmd] (fun d => d.updPart 0 (fun x => { x with state := .idle }))).dev.part 0).state ≠ .loaded ∧
    unloadCmd.plains = [] ∧ elapsedUs unloadCmd.startTick (holding r0 [unloadCmd] id).dev.pwr.aon ≤ unloadCmd.promise.toNat := by decide
def entry0 : EntryPoint :=
  { num := 1, params := [], phases := [], plains := [0], threads := [], ranges := [{ plain := 0, first := 0, last := 1 }], tiling := [],
    collective := none, stepStart := false, stepParam := none, maskParam := none, headGroup := none, gatherAxes := [] }
def runWork : RunWork := { entry := entry0, shape := Tab.all 8 0, stop := none, begun := false, done := [] }
def running (op : Word) : State := holding r0 [{ at' .started (runCmd (.run runWork)) with words := words [(0, op)] }]
  (fun d => d.updPlain 0 (fun x => { x with state := .idle }))
theorem test_meets_Run (op : Word) (h : op = 0x10 ∨ op = 0x12) : ∃ c : Cmd, (running op).dev.ccx.sup = .ready ∧
    (running op).dev.isTripped = false ∧ ((running op).dev.ring r0).cmds = [c] ∧ c.stage = .started ∧ c.opcode = op.toNat ∧
    c.work = .run runWork ∧ runWork.begun = false ∧ c.plains = [0] ∧ ((running op).dev.plain 0).state = .idle ∧
    ((running op).dev.plain 0).threaded = false ∧
    runWork.entry.list 0 ((running op).dev.plain 0).dynFirst.toNat 0 ≠ [] ∧ (running op).dev.ccx.staging = [] := by
  rcases h with rfl | rfl <;>
    exact ⟨_, by decide, by decide, rfl, rfl, by decide, rfl, rfl, rfl, by decide, by decide, by decide, by decide⟩
/-- A RUN of a tiled MATMUL of 128 by 512 by 128 on plain 0: it stages one dynamic entry, with 0 or 256 commands staged before it. -/
def tmpl0 : Tab Word 16 := words [(0, 0x10100), (1, 0x111210), (3, 0x100000), (4, 0x100000), (5, 0x100000), (6, 0x100000), (7, 0x200000),
  (8, 0x200000), (9, 0x100000), (10, 0x50005)]
def phase0 : Phase := { cycles := [], dale := [], spreadS := [], basin := [], spreadC := [], col := [], hostRd := [], hostWr := [] }
def entryT : EntryPoint := { entry0 with
  num := 0, phases := [phase0], ranges := [], tiling := [{ template := tmpl0, plains := [0] }]
  params := [{ param := 0, lo := 128, hi := 128 }, { param := 1, lo := 512, hi := 512 }, { param := 2, lo := 128, hi := 128 }] }
def runTiled : Cmd := cmdOf [(0, 0x10), (8, 128), (9, 512), (10, 128)]
def tiledAt (dynFirst n : Nat) : State := holding r0 [runTiled] (fun d => { d.updPart 0 (fun x => { x with
    image := some { image0 with entries := [entryT], dynFirst := dynFirst }, ctrQ := 16, quota := 16 }) with
  ccx := { d.ccx with staging := List.replicate n { ring := rp, index := 0, entries := [] } } })
def Verdict.stages : Verdict → Nat
  | .ok _ _ _ l => l.length
  | _ => 0
theorem test_meets_AdmissionTiled : Verdict.stages ((tiledAt 0 0).dev.judgeCmd r0 runTiled) = 1 ∧ (tiledAt 0 0).dev.stagedCmds < 256 ∧
    Verdict.stages ((tiledAt 0 256).dev.judgeCmd r0 runTiled) = 1 ∧ 256 ≤ (tiledAt 0 256).dev.stagedCmds := by decide +kernel
theorem test_meets_AdmissionShort : (tiledAt 256 0).dev.judgeCmd r0 runTiled = .short 0xFF [{ res := 7, scope := 0, need := 1, grant := 0 }] ∧
    ((tiledAt 256 0).dev.ring r0).slotFree runTiled = true ∧ (tiledAt 256 0).dev.hostMem.wf = true ∧
    ({ (tiledAt 256 0).dev.ring r0 with shortUsed := [(0, 0)] } : Ring).slotFree runTiled = false := by decide +kernel
def copyCmd : Cmd := { at' .started (cmdOf [(0, 0x50)]) with work := .copy .issued false }
def copyAt (g : ReqStage) : Cmd := { copyCmd with work := .copy g false }
theorem test_meets_Copy (g : ReqStage) : (holding rp [copyAt g] id).dev.ccx.sup = .ready ∧ (holding rp [copyAt g] id).dev.isTripped = false ∧
    (holding rp [copyAt g] id).dev.storageWf ∧ (holding rp [copyAt g] id).dev.ecc = [] ∧ (∀ u, (holding rp [copyAt g] id).dev.owed u = false) ∧
    ((holding rp [copyAt g] id).dev.ring rp).cmds = [copyAt g] ∧ (copyAt g).stage = .started ∧ (copyAt g).opcode = 0x50 ∧
    (copyAt g).plains = [] ∧ (copyAt g).work = .copy g false ∧ (holding rp [copyAt g] id).dev.holdsAny rp = false ∧
    elapsedUs (copyAt g).startTick (holding rp [copyAt g] id).dev.pwr.aon ≤ (copyAt g).promise.toNat := by
  cases g <;> exact
  ⟨by decide, by decide, by simp only [Dev.storageWf, Plain.storageWf]; decide, rfl, no_fill _ (by decide), by decide +kernel, by decide, by decide,
   by decide, rfl, by decide +kernel, by decide +kernel⟩
/-- A COPY of 64 bytes of granule 0 to host address 0, whose read the regulator of partition 0 holds. -/
def copyDev (g : ReqStage) : Cmd := { at' .started (cmdOf [(0, 0x50), (11, 0x80000000), (12, 64)]) with work := .copy g false }
def copyHeld (g : ReqStage) : State := holding rp [copyDev g] (fun d => d.updPart 0 (fun x => { x with
  dale := { x.dale with tokens := 0, queue := [{ owner := .command rp, addr := 0, bytes := 64, write := false }] } }))
theorem test_meets_CopyHeld : CopyCmd.src (copyDev .issued) = (false, 0) ∧ CopyCmd.dst (copyDev .issued) = (true, 0) ∧
    CopyCmd.len (copyDev .issued) = 64 ∧
    ((copyHeld .issued).dev.chargeReads ((copyHeld .issued).dev.copyBytes rp (copyDev .issued)).1).holdsAny rp = true ∧
    (copyHeld .started).dev.holdsAny rp = true ∧ ReqStage.started ≠ .issued ∧
    (holding rp [copyDev .started] id).dev.holdsAny rp = false ∧
    (∀ a : Fin 64, (holding rp [copyDev .started] id).dev.trippedAt a.val = false) := by decide +kernel

/-- Plain 0 BUSY, thread 0 live at pc 0 with `ins` there and x5 = `x5`; thread 1 not. -/
def thread0 (ins : Word) (x5 : DWord) (f : Thread → Thread) : State := st (fun d => d.updPlain 0 (fun p => { p with
  state := .busy
  icache := writeWord [] 0 ins
  threads := Tab.upd p.threads 0 (fun t => f { t with live := true, x := Tab.upd t.x 5 (fun _ => x5) }) }))
theorem test_meets_Addi : ((thread0 (encI 0x13 0 31 5 2047) 7 id).dev.plain 0).coreBad = false ∧ 2047 < 2048 ∧
    (thread0 (encI 0x13 0 31 5 2047) 7 id).dev.pick 0 false = some 0 ∧
    ((thread0 (encI 0x13 0 31 5 2047) 7 id).dev.plain 0).fetch ((thread0 (encI 0x13 0 31 5 2047) 7 id).dev.thread 0 0).pc =
      .ins (some (encI 0x13 0 31 5 2047)) 4 := by decide +kernel
theorem test_meets_Store : (thread0 (encS 0x23 2 5 6 4) 0x13FFFF8 id).dev.pick 0 false = some 0 ∧
    ((thread0 (encS 0x23 2 5 6 4) 0x13FFFF8 id).dev.plain 0).fetch ((thread0 (encS 0x23 2 5 6 4) 0x13FFFF8 id).dev.thread 0 0).pc =
      .ins (some (encS 0x23 2 5 6 4)) 4 ∧
    (((thread0 (encS 0x23 2 5 6 4) 0x13FFFF8 id).dev.thread 0 0).xr 5 + BitVec.ofNat 64 4).toNat % 4 = 0 ∧
    (((thread0 (encS 0x23 2 5 6 4) 0x13FFFF8 id).dev.thread 0 0).xr 5 + BitVec.ofNat 64 4).toNat < sramBytes ∧
    ((thread0 (encS 0x23 2 5 6 4) 0x13FFFF8 id).dev.plain 0).marked
      (lineOf (((thread0 (encS 0x23 2 5 6 4) 0x13FFFF8 id).dev.thread 0 0).xr 5 + BitVec.ofNat 64 4).toNat) = false := by decide +kernel
theorem test_meets_StoreStorage : (thread0 (encS 0x23 2 5 6 4) 0x13FFFF8 id).dev.storageWf := by
  simp only [Dev.storageWf, Plain.storageWf]; decide +kernel
theorem test_meets_Load : (thread0 (encI 0x03 2 1 5 0) 8 id).dev.pick 0 false = some 0 ∧
    ((thread0 (encI 0x03 2 1 5 0) 8 id).dev.plain 0).fetch ((thread0 (encI 0x03 2 1 5 0) 8 id).dev.thread 0 0).pc =
      .ins (some (encI 0x03 2 1 5 0)) 4 ∧
    (((thread0 (encI 0x03 2 1 5 0) 8 id).dev.thread 0 0).xr 5 + BitVec.ofNat 64 0).toNat % 4 = 0 ∧
    (((thread0 (encI 0x03 2 1 5 0) 8 id).dev.thread 0 0).xr 5 + BitVec.ofNat 64 0).toNat < sramBytes := by decide +kernel
theorem test_meets_Vsetvli : (thread0 (encI 0x57 7 1 5 0xD0) 33 id).dev.pick 0 true = some 0 ∧ (5 : Fin 32) ≠ 0 ∧ (1 : Fin 32) ≠ 0 ∧
    ((thread0 (encI 0x57 7 1 5 0xD0) 33 id).dev.plain 0).fetch ((thread0 (encI 0x57 7 1 5 0xD0) 33 id).dev.thread 0 0).pc =
      .ins (some (encI 0x57 7 1 5 0xD0)) 4 := by decide +kernel
theorem test_meets_Ecall : (thread0 0x00000073 0 id).dev.pick 0 false = some 0 ∧ ((thread0 0x00000073 0 id).dev.plain 0).coreBad = false ∧
    ((thread0 0x00000073 0 id).dev.plain 0).fetch ((thread0 0x00000073 0 id).dev.thread 0 0).pc = .ins (some 0x00000073) 4 := by
  decide +kernel
def loading : State := thread0 0 0 (fun t => { t with stall := .load false 0 (sramBytes - 4) 4 true })
theorem test_meets_LoadReturn : (loading.dev.thread 0 0).stall = .load false 0 (sramBytes - 4) 4 true ∧ (loading.dev.thread 0 0).live = true ∧
    (loading.dev.plain 0).state = .busy ∧ (loading.dev.plain 0).parity = [] := by decide +kernel
/-- vle32.v v1, (x5) under vl = 2, and a place in SRAM in x5. -/
def vloading : State := thread0 0x0202E087 8 (fun t => { t with vl := 2, vtype := 0xD0 })
theorem test_meets_VectorLoad : (vloading.dev.plain 0).coreBad = false ∧ vloading.dev.pick 0 true = some 0 ∧
    (vloading.dev.plain 0).fetch (vloading.dev.thread 0 0).pc = .ins (some 0x0202E087) 4 ∧ isVector 0x0202E087 = true ∧
    bits (0x0202E087 : Word) 0 7 = 0x07 ∧ ((vloading.dev.thread 0 0).vmem 0x0202E087).isSome = true ∧
    (∀ m, (vloading.dev.thread 0 0).vmem 0x0202E087 = some m → (vloading.dev.thread 0 0).loadsSram m = true) := by
  refine ⟨by decide +kernel, by decide +kernel, by decide +kernel, by decide, by decide, by decide +kernel, ?_⟩
  intro m h
  have : ((vloading.dev.thread 0 0).vmem 0x0202E087).map (fun m => (vloading.dev.thread 0 0).loadsSram m) = some true := by decide +kernel
  rw [h] at this
  exact Option.some.inj this

/-- Thread 0 of plain 0 is ready; counter 5 exists; axis A is a ring of two modules whose cols are bound to partition 0; slot 0
has plain 0 as its member. -/
def port0 (f : Dev → Dev) : State :=
  { dev := f ((((thread0 0 0 id).dev.updPart 0 (fun x => { x with counters := [ctr0], ctrQ := 16, quota := 16 })).updAxis 0
      (fun a => { a with banks := Tab.all 2 { mode := 0x400FD, len := 2, pos := 0 } })).updBar 0 (fun b => { b with maskLo := 1 })), pending := [] }
theorem test_meets_SynPort : (port0 id).dev.plainOwner 0 = some 0 ∧ (port0 id).dev.ready 0 0 = true := by decide +kernel
theorem test_meets_SynAdd : bits (0xFFFF8005 : Word) 12 3 = 0 ∧ (ctrOf 0xFFFF8005).toNat < (port0 id).dev.quotaQ 0 ∧
    ((port0 id).dev.part 0).counter (ctrOf 0xFFFF8005) = some ctr0 ∧ ((port0 id).dev.part 0).state ≠ .resetting ∧
    ((port0 id).dev.plain ctr0.home).state ≠ .fenced := by decide +kernel
theorem test_meets_SynWaits : bits (0xFFFF000F : Word) 12 4 = 0 ∧ (ctrOf 0xFFFF000F).toNat < (port0 id).dev.quotaQ 0 ∧ valOf 0xFFFF000F ≠ 0 ∧
    ((port0 id).dev.part 0).counter (ctrOf 0xFFFF000F) = none ∧ bits (0xF : Word) 12 4 = 0 ∧ valOf 0xF = 0 ∧
    bits (0xF : Word) 12 20 = 0 ∧ (ctrOf 0xF).toNat < (port0 id).dev.quotaQ 0 := by decide +kernel
def selected : State := port0 (fun d => { d.updPlain 0 (fun p => { p with
  threads := Tab.upd p.threads 0 (fun t => { t with readSel := 5, remoteCol := 3 }) }) with
  cols := Tab.all 16 { Col.reset with state := .active } })
theorem test_meets_SynRead : selected.dev.ready 0 0 = true ∧ ctr0.adds = [] ∧
    (selected.dev.part 0).counter (selected.dev.thread 0 0).readSel = some ctr0 := by decide +kernel
def add0 (n : Int) : CtrAdd := { plain := some 0, thread := some 0, amt := n }
def addedTo : State := { selected with dev := selected.dev.updPart 0 (fun x => { x with counters := [{ ctr0 with adds := [add0 65435] }] }) }
theorem test_meets_SynReadAdded : addedTo.dev.ready 0 0 = true ∧
    (addedTo.dev.part 0).counter (addedTo.dev.thread 0 0).readSel = some { ctr0 with adds := [add0 65435] } ∧
    0 ≤ (ctr0.value.toNat : Int) + 65435 ∧ (ctr0.value.toNat : Int) + 65435 ≤ 65535 ∧ (addedTo.dev.part 0).state ≠ .resetting ∧
    (addedTo.dev.plain ctr0.home).state ≠ .fenced := by decide +kernel
theorem test_meets_RemoteCol : bits (3 : Word) 0 4 = (3 : Fin 16).val ∧ bits (3 : Word) 4 28 = 0 ∧ (port0 id).dev.colPart 3 = some 0 := by
  decide +kernel
theorem test_meets_RemoteAdd : (selected.dev.thread 0 0).remoteCol.toNat = (3 : Fin 16).val ∧ bits (0x10005 : Word) 12 3 = 0 ∧
    (ctrOf 0x10005).toNat < selected.dev.quotaQ 0 ∧ selected.dev.colPart 3 = some 0 ∧ (selected.dev.bank (axisOf 3)).line = true ∧
    selected.dev.portCols (axisOf 3) (plusCol 3) = 2 :: [3] ∧ (selected.dev.col 2).txWait = [] ∧ (selected.dev.col 2).state = .active ∧
    (selected.dev.col 2).unacked.length < 1024 := by decide +kernel
def retraining : State := { selected with dev := { selected.dev with cols := Tab.all 16 { Col.reset with state := .training, fast := true } } }
def onTree : State := { selected with dev := selected.dev.updAxis 0 (fun a => { a with
  banks := Tab.all 2 { mode := 0x5007F, len := 2, pos := 0 } }) }
theorem test_meets_RemoteAddWaits : retraining.dev.portCols (axisOf 3) (plusCol 3) = 2 :: [3] ∧ (retraining.dev.col 2).state ≠ .active ∧
    (retraining.dev.col 2).txWait = [] ∧ retraining.dev.ready 0 0 = true ∧ onTree.dev.colPart 3 = some 0 ∧
    (onTree.dev.bank (axisOf 3)).line = false ∧ onTree.dev.ready 0 0 = true := by decide +kernel
def slotted : State := port0 (fun d => d.updPart 0 (fun x => { x with bars := [0] }))
theorem test_meets_BarArrive : bits (0 : Word) 0 5 = (0 : Fin 32).val ∧ bits (0 : Word) 5 27 = 0 ∧ slotted.dev.barOwner 0 = some 0 ∧
    (slotted.dev.part 0).bars.contains 0 = true ∧ (Tab.at slotted.dev.bars 0).member 0 = true ∧
    (Tab.at slotted.dev.bars 0).state ≠ .failed ∧
    ((Tab.at slotted.dev.bars 0).groupEn = true → 2 ≤ (Tab.at slotted.dev.bars 0).members.toNat) := by decide +kernel

def hub (n : Int) : CtrAdd := { plain := none, thread := none, amt := n }
def adding (l : List CtrAdd) (f : Dev → Dev) : State := st (fun d => f (d.updPart 0 (fun x => { x with counters := [{ ctr0 with adds := l }] })))
theorem test_meets_CounterApply : ((adding [hub 65436] id).dev.part 0).counter 5 = some { ctr0 with adds := [hub 65436] } ∧
    (65536 : Int) = (ctr0.value.toNat : Int) + [hub 65436].foldl (fun a b => a + b.amt) 0 ∧
    (-1 : Int) = (ctr0.value.toNat : Int) + [hub (-101)].foldl (fun a b => a + b.amt) 0 ∧ [hub 65436] ≠ [] ∧
    ((adding [hub 65436] id).dev.part 0).state ≠ .resetting ∧ ((adding [hub 65436] id).dev.plain ctr0.home).state ≠ .fenced := by decide +kernel
theorem test_meets_CounterDrops :
    ((adding [hub 1] (fun d => d.updPart 0 (fun x => { x with state := .resetting }))).dev.part 0).state = .resetting ∧
    ((adding [hub 1] (fun d => d.updPart 0 (fun x => { x with state := .resetting }))).dev.part 0).counter 5 =
      some { ctr0 with adds := [hub 1] } ∧
    ((adding [hub 1] (fun d => d.updPlain 0 (fun p => { p with state := .fenced }))).dev.plain ctr0.home).state = .fenced := by decide +kernel
def wait0 (v : BitVec 16) (w : Waiter) (met : Bool) : Wait := { part := 0, who := w, ctr := 5, val := v, since := 0, met := met }
def waits (v : BitVec 16) (w : Waiter) (met : Bool) : State := st (fun d => { d.updPart 0 (fun x => { x with counters := [ctr0] }) with
  waits := [wait0 v w met], pwr := { d.pwr with aon := 38400000 } })
theorem test_meets_WaitRelease : (waits 100 (.thread 0 63) true).dev.waitOf (.thread 0 63) = some (wait0 100 (.thread 0 63) true) ∧
    (wait0 100 (.thread 0 63) true).met = true ∧ (wait0 101 (.thread 0 63) false).met = false ∧
    (waits 100 (.descriptor 0) true).dev.waitOf (.descriptor 0) = some (wait0 100 (.descriptor 0) true) := by decide +kernel
theorem test_meets_Watchdog : (waits 101 (.thread 0 63) false).dev.waitOf (.thread 0 63) = some (wait0 101 (.thread 0 63) false) ∧
    ((waits 101 (.thread 0 63) false).dev.part 0).ctrWdog.toNat ≤ ((waits 101 (.thread 0 63) false).dev.pwr.aon - 0).toNat := by decide +kernel

def slot (f : Barrier → Barrier) : State := st (fun d => { d.updBar 31 (fun b => f { b with maskLo := 1 }) with
  pwr := { d.pwr with aon := 38400000 } })
def arr0 (sync : Bool) : Arrival := { plain := 0, thread := 0, sync := sync, pc := 0, job := some (r0, 0) }
def flies (f : Barrier → Barrier) : State := slot (fun b => f { b with flying := [arr0 true] })
theorem test_meets_BarrierArrival : (Tab.at (flies id).dev.bars 31).flying = [arr0 true] ∧
    (∀ k, k ≠ 31 → (Tab.at (flies id).dev.bars k).flying = []) ∧
    (Tab.at (flies id).dev.bars 31).state ≠ .failed ∧ (Tab.at (flies id).dev.bars 31).member 0 = true ∧
    (Tab.at (flies id).dev.bars 31).arrived 0 = false ∧ (Tab.at (flies id).dev.bars 31).groupEn = false ∧
    (∀ c, ((flies id).dev.col c).rxWait = []) := by decide +kernel
theorem test_meets_BarrierHeld :
    (Tab.at (flies (fun b => { b with state := .active, counts := Tab.upd b.counts 0 (fun _ => 1) })).dev.bars 31).arrived 0 = true ∧
    (arr0 true).job ≠ none ∧ ((flies (fun b => { b with counts := Tab.upd b.counts 0 (fun _ => 1) })).dev.thread 0 0).stall = .none := by
  decide +kernel
def slotDone : State := slot (fun b => { b with state := .active, counts := Tab.upd b.counts 0 (fun _ => 1),
                                                stalled := [arr0 true] })
theorem test_meets_BarrierComplete : (Tab.at slotDone.dev.bars 31).state = .active ∧ (Tab.at slotDone.dev.bars 31).complete = true ∧
    (Tab.at slotDone.dev.bars 31).groupEn = false ∧ (Tab.at slotDone.dev.bars 31).held = [] ∧ (∀ c, (slotDone.dev.col c).rxWait = []) := by
  decide +kernel
def slotLate : State := slot (fun b => { b with state := .active })
theorem test_meets_BarrierWatchdog : (Tab.at slotLate.dev.bars 31).state = .active ∧ slotLate.dev.barDue 31 = none ∧
    (Tab.at slotLate.dev.bars 31).groupEn = false ∧
    (Tab.at slotLate.dev.bars 31).wdog.toNat ≤ (slotLate.dev.pwr.aon - (Tab.at slotLate.dev.bars 31).first).toNat := by decide +kernel

/-! DMA requests: a stream block at SRAM 0, a staging header at 0x1000, a shard of 32 parameters, plain 0 in use. -/

def shard0 : Shard := Vector.ofFn (fun k => if k.val = 0 then 1 else if k.val = 6 then 32 else 0)
def dma0 : State := st (fun d => (d.updPart 0 (fun x => { x with use := [0], shards := [shard0] })).updPlain 0 (fun p => { p with
  state := .busy
  sram := writeWords [] 0 [0x10, 65536, 0, 0, 0x200000, 0, 1, 1] |> fun m => writeWord m 0x1004 1
  threads := Tab.upd p.threads 0 (fun t => { t with live := true }) }))
def copyReq : Tab Word 16 := words [(0, 0x01), (1, 1), (2, 64), (8, 0x3FFFFFC0), (11, 0x40000000)]
def kvReq : Tab Word 16 := words [(0, 0x04), (3, 0x1000), (4, 1), (5, 256), (8, 0x40000), (9, 0x50000)]
def pageReq : Tab Word 16 := words [(0, 0x05), (3, 0x1000), (5, 1), (8, 128), (9, 0x60000), (11, 0x70000), (12, 256)]
def haloReq : Tab Word 16 := words [(0, 0x808), (1, 0x10001)]
def expandReq : Tab Word 16 := words [(0, 0x09), (1, 1)]
def gatherReq : Tab Word 16 := words [(0, 0x0A), (3, 32), (9, 0x40000000)]
/-- The thread that stores a request of each kind: one that passes its check, one of another kind, one of reserved words. -/
theorem test_meets_DmaIssue : dma0.dev.plainOwner 0 = some 0 ∧ dma0.dev.ready 0 0 = true ∧ (dma0.dev.plain 0).outstanding 0 < 16 ∧
    (reqKind copyReq = 0x01 ∧ dma0.dev.issueOk 0 0 0 copyReq = true) ∧ (reqKind kvReq = 0x04 ∧ dma0.dev.issueOk 0 0 0 kvReq = true) ∧
    (reqKind pageReq = 0x05 ∧ dma0.dev.issueOk 0 0 0 pageReq = true) ∧ (reqKind haloReq = 0x08 ∧ dma0.dev.issueOk 0 0 0 haloReq = true) ∧
    (reqKind expandReq = 0x09 ∧ dma0.dev.issueOk 0 0 0 expandReq = true) ∧ (reqKind gatherReq = 0x0A ∧ dma0.dev.issueOk 0 0 0 gatherReq = true) ∧
    reqKind (words [(0, 0x02)]) ≠ 0x01 ∧ dma0.dev.issueOk 0 0 0 (words [(0, 0x02)]) = false := by decide +kernel
def req (w : Tab Word 16) (s : ReqStage) (l : List (Nat × Word)) : DmaReq :=
  { id := 7, thread := 0, job := none, pc := 0, words := w, block := Tab.all 16 0, dir := Tab.all 4 0, list := [], head := Tab.all 16 0
    headBad := false, draw := 0, stage := s, commits := l, toCome := 0, since := 0 }
def dmaFull : State := { dma0 with dev := dma0.dev.updPlain 0 (fun p => { p with reqs := List.replicate 16 (req copyReq .issued []) }) }
theorem test_meets_DmaFull : 16 ≤ (dmaFull.dev.plain 0).outstanding 0 ∧ dmaFull.dev.issueOk 0 0 0 copyReq = true ∧
    dmaFull.dev.ready 0 0 = true := by decide +kernel
def dmaOn (q : DmaReq) : State := st (fun d => d.updPlain 0 (fun p => { p with state := .busy, reqs := [q] }))
theorem test_meets_DmaStart (q : DmaReq) (h : q = req copyReq .issued []) : (dmaOn q).dev.plainOwner 0 = some 0 ∧ (dmaOn q).dev.req 0 7 = some q ∧
    (dmaOn q).dev.ccx.sup = .ready ∧ ((dmaOn q).dev.part 0).state ≠ .resetting ∧
    (dmaOn q).dev.canStart 0 q = true ∧ ((dmaOn q).dev.plain 0).state = .busy ∧ 0 < CopyReq.rowBytes q.words ∧
    reqKind q.words = 0x01 ∧ CopyReq.rows q.words = 1 ∧ CopyReq.conv q.words = false ∧ (locAt q.words 8).loc 0 = .dev ∧
    (locAt q.words 10).loc 0 = .sram 0 ∧ (dmaOn q).dev.ownerAt (locAt q.words 8).addr = some 0 := by subst h; decide +kernel
theorem test_meets_DmaStorage (q : DmaReq) (h : q = req copyReq .started [] ∨ q = req kvReq .moved [(0x200008, 128)]) :
    (dmaOn q).dev.storageWf ∧ (∀ u, (dmaOn q).dev.owed u = false) := by
  simp only [Dev.storageWf, Plain.storageWf]; rcases h with rfl | rfl <;> exact ⟨by decide +kernel, no_fill _ (by decide +kernel)⟩
theorem test_meets_DmaMove (q : DmaReq) (h : q = req copyReq .started []) : (dmaOn q).dev.req 0 7 = some q ∧ q.stage = .started ∧
    (dmaOn q).dev.holds 0 (.request 0 7) = false ∧ q.commits = [] ∧ q.toCome = 0 ∧ (dmaOn q).dev.ecc = [] ∧
    ((dmaOn q).dev.plain 0).parity = [] ∧ (dmaOn q).dev.trippedAt (locAt q.words 8).addr = false := by subst h; decide +kernel
theorem test_meets_KvCommit (q : DmaReq) (h : q = req kvReq .moved [(0x200008, 128)]) : (dmaOn q).dev.req 0 7 = some q ∧
    q.commits = (0x200008, 128) :: [] ∧ (dmaOn q).dev.rival 0 0 q = false ∧ (dmaOn q).dev.holds 0 (.request 0 7) = false ∧
    (dmaOn q).dev.ecc = [] := by subst h; decide +kernel
theorem test_meets_DmaDone (q : DmaReq) (h : q = req copyReq .moved []) : (dmaOn q).dev.req 0 7 = some q ∧ q.stage = .moved ∧
    q.commits = [] ∧ q.toCome = 0 ∧ (dmaOn q).dev.holds 0 (.request 0 7) = false ∧
    (∀ j ∈ reqPlains 0 q.words, ((dmaOn q).dev.plain j).state ≠ .fenced) := by subst h; decide +kernel
theorem test_meets_DmaDoneStall (w : Tab Word 16) (pc : DWord) : ((dmaOn (req copyReq .moved [])).dev.thread 0 0).stall ≠ .dmaFull w pc := by
  rw [show ((dmaOn (req copyReq .moved [])).dev.thread 0 0).stall = .none from rfl]; nofun
def dmaHeld : State := { dmaOn (req copyReq .moved []) with dev := (dmaOn (req copyReq .moved [])).dev.updPart 0 (fun x => { x with
  dale := { x.dale with queue := [{ owner := .request 0 7, addr := 0, bytes := 64, write := true }] } }) }
theorem test_meets_DmaHeld : dmaHeld.dev.req 0 7 = some (req copyReq .moved []) ∧ dmaHeld.dev.holds 0 (.request 0 7) = true := by decide +kernel

/-- Plain 0 runs a command; its descriptor table is empty, so every entry is a MATMUL of one step. -/
def seqOf (f : Plain → Plain) : State := st (fun d => d.updPlain 0 (fun p => f { p with state := .busy, job := some (r0, 0) }))
def seqStart : State := seqOf (fun p => { p with seq := { p.seq with list := [0, 511] } })
theorem test_meets_DescriptorStart : seqStart.dev.plainOwner 0 = some 0 ∧ (seqStart.dev.plain 0).seq.cur = none ∧
    (seqStart.dev.plain 0).seq.list = 0 :: [511] ∧ (seqStart.dev.plain 0).seq.halt = false ∧ (seqStart.dev.plain 0).job ≠ none ∧
    (seqStart.dev.plain 0).state = .busy := by decide +kernel
def stepping : State := seqOf (fun p => { p with seq := { p.seq with cur := some 0 } })
theorem test_meets_SequencerStep : (stepping.dev.plain 0).state = .busy ∧ (stepping.dev.plain 0).coreBad = false ∧
    (stepping.dev.plain 0).parity = [] ∧ (stepping.dev.plain 0).seq.cur = some 0 ∧ (stepping.dev.plain 0).seq.waiting = false ∧
    ((stepping.dev.plain 0).desc 0).isPair = false ∧ (stepping.dev.plain 0).seq.step.toNat < ((stepping.dev.plain 0).desc 0).steps ∧
    (((stepping.dev.plain 0).desc 0).starts (stepping.dev.plain 0).seq.step.toNat = true → ((stepping.dev.plain 0).desc 0).c.accIn = false ∧
      ((stepping.dev.plain 0).half (other ((stepping.dev.plain 0).seq.half.getD 1))).state = .free) := by decide +kernel
/-- Entry 0 is a MATMUL of two tiles, and its second tile's half still drains. -/
def tileWaits : State := seqOf (fun p => { p with
  table := [(0, 9), (40, 2), (43, 0x100)]
  seq := { p.seq with cur := some 0, step := 1, half := some 0 }
  acc := Tab.all 2 { AccHalf.reset with state := .draining } })
theorem test_meets_StepWaits : ((tileWaits.dev.plain 0).desc 0).isPair = false ∧ (tileWaits.dev.plain 0).seq.step.toNat = 1 ∧
    1 < ((tileWaits.dev.plain 0).desc 0).steps ∧ ((tileWaits.dev.plain 0).desc 0).starts 1 = true ∧
    ((tileWaits.dev.plain 0).half (other ((tileWaits.dev.plain 0).seq.half.getD 1))).state ≠ .free ∧
    (tileWaits.dev.plain 0).coreBad = false ∧ (tileWaits.dev.plain 0).seq.waiting = false := by decide +kernel
/-- Both halves drain; half 1 ended first and has four bytes to write. -/
def draining : State := seqOf (fun p => { p with
  acc := Tab.upd (Tab.all 2 { AccHalf.reset with state := .draining }) 1 (fun h => { h with out := [(0x100, [1, 2]), (0x102, [3, 4])] })
  seq := { p.seq with drained := (20, 10) } })
theorem test_meets_TileDrain : ((draining.dev.plain 0).half 1).state = .draining ∧ ((draining.dev.plain 0).half 0).state = .draining ∧
    (draining.dev.plain 0).state = .busy ∧ (draining.dev.plain 0).drainsFirst 1 = true ∧ (draining.dev.plain 0).drainsFirst 0 = false ∧
    (draining.dev.plain 0).parity = [] ∧
    ((draining.dev.plain 0).half 1).out.Pairwise (fun u v => u.1 + u.2.length ≤ v.1 ∨ v.1 + v.2.length ≤ u.1) := by decide +kernel
theorem test_meets_TileDrainStorage : (draining.dev.plain 0).storageWf := by simp only [Plain.storageWf]; decide +kernel
def finishing : State := seqOf (fun p => { p with seq := { p.seq with finishing := [511] } })
theorem test_meets_DescriptorComplete : finishing.dev.plainOwner 0 = some 0 ∧ (finishing.dev.plain 0).completable = some 511 ∧
    (finishing.dev.plain 0).state = .busy ∧ (finishing.dev.plain 0).seq.poisonAt.contains 511 = false := by decide +kernel
def idling : State := st (fun d => d.updPlain 63 (fun p => { p with state := .idle }))
theorem test_meets_PlainClocks : (idling.dev.plain 63).state = .idle ∧ idling.dev.inactive 63 = true ∧
    bit (idling.dev.plain 63).ctrl 0 = true ∧ bits (idling.dev.plain 63).ctrl 4 16 ≤ (4096 : DWord).toNat ∧
    ((plainIs .waking).dev.plain 63).state = .waking ∧ (seqStart.dev.plain 0).state = .busy ∧ seqStart.dev.inactive 0 = false := by decide +kernel

/-! Training state: shard 0 is local, in the basin's channel 0, of 8,193 parameters (two chunks), with one pending gradient. -/

def sh (l : List (Fin 64 × Word)) : Shard := l.foldl (fun t x => Tab.upd t x.1 (fun _ => x.2)) (Tab.all 64 0)
def shard1 (phase : Word) (target : Word) : Shard :=
  sh [(0, 1 + 4096 * phase + 0x80000), (5, 1), (6, 8193), (9, 8), (13, target)]
def tbl (x : Shard) (d : Dev) : Dev := d.updPart 0 (fun p => { p with shards := [x], tblCount := 1 })
def updWork (s : UpdStage) : UpdateWork :=
  { stage := s, repairs := [], todo := [0], changed := [], poison := false, skipped := false, left := [], dir := none }
def updCmd (s : UpdStage) : Cmd := { at' .started (cmdOf [(0, 0x40), (8, 5), (10, 1)]) with work := .update (updWork s), promise := 1000 }
def updates (s : UpdStage) (x : Shard) : State := holding r0 [updCmd s] (tbl x)
theorem test_meets_Update : (updates .begin (shard1 0 0)).dev.ccx.sup = .ready ∧
    (updates .begin (shard1 0 0)).dev.isTripped = false ∧ (updates .begin (shard1 0 0)).dev.ecc = [] ∧
    ((updates .begin (shard1 0 0)).dev.ring r0).cmds = [updCmd .begin] ∧
    (∀ j, j ≠ (0 : Fin 4) → ((updates .begin (shard1 0 0)).dev.ring { fn := .vf 0, q := j }).cmds = []) ∧
    (updCmd .begin).stage = .started ∧ (updCmd .begin).work = .update (updWork .begin) ∧ (updWork .begin).stage = .begin ∧
    (updWork .begin).poison = false ∧ Upd.refresh (updCmd .begin) = false ∧
    (updates .begin (shard1 0 0)).dev.namedLocal 0 (Upd.first (updCmd .begin)) (Upd.count (updCmd .begin)) = [0] ∧
    (updates .begin (shard1 0 0)).dev.shard 0 0 = some (shard1 0 0) ∧ (shard1 0 0).lost = false ∧ (shard1 0 0).phase = 0 ∧
    (shard1 0 0).weightsStep < Upd.step (updCmd .begin) ∧
    elapsedUs (updCmd .begin).startTick (updates .begin (shard1 0 0)).dev.pwr.aon ≤ (updCmd .begin).promise.toNat ∧
    (shard1 0 0).noGradient = false :=
  ⟨by decide, by decide, by decide, by decide +kernel, by decide +kernel, by decide, by decide +kernel, by decide, by decide, by decide +kernel,
   by decide +kernel, by decide +kernel, by decide +kernel, by decide +kernel, by decide +kernel, by decide +kernel, by decide +kernel⟩
theorem test_meets_UpdateNoFill (s : UpdStage) (x : Shard) (u : FillUnit) : (updates s x).dev.owed u = false := no_fill _ rfl u

def applying (x : Shard) : State := updates .apply x
theorem test_meets_GlenChunk : (updWork .apply).stage = .apply ∧
    (applying (shard1 1 6)).dev.glenPick 0 = some (0, r0, updCmd .apply, updWork .apply, 0, shard1 1 6) ∧
    (applying (shard1 1 6)).dev.holds 0 (.glen 0) = false ∧
    (applying (shard1 1 6)).dev.snapHolds 0 0 (shard1 1 6) 0 ((shard1 1 6).cursor 0) = false :=
  ⟨rfl, rfl, by decide +kernel, by decide +kernel⟩
def phaseOver (k : Word) : Shard := Tab.upd (shard1 k 6) 32 (fun _ => 2)
theorem test_meets_PhaseAdvance (k : Word) (h : k = 1 ∨ k = 3) : (applying (phaseOver k)).dev.updateOn 0 0 = some (r0, updCmd .apply, updWork .apply) ∧
    (applying (phaseOver k)).dev.shard 0 0 = some (phaseOver k) ∧
    (applying (phaseOver k)).dev.phaseDone r0 (updCmd .apply) (updWork .apply) (phaseOver k) = true ∧
    (∀ g ∈ (phaseOver k).channels, (applying (phaseOver k)).dev.holds 0 (.glen g) = false) ∧ (phaseOver k).phase = k.toNat ∧
    (phaseOver k).avgEn = true := by rcases h with rfl | rfl <;> decide +kernel
theorem test_meets_PhaseDirection : (applying (shard1 2 6)).dev.updateOn 0 0 = some (r0, updCmd .apply, updWork .apply) ∧
    (applying (shard1 2 6)).dev.shard 0 0 = some (shard1 2 6) ∧
    (applying (shard1 2 6)).dev.phaseDone r0 (updCmd .apply) (updWork .apply) (shard1 2 6) = true ∧
    (∀ g ∈ (shard1 2 6).channels, (applying (shard1 2 6)).dev.holds 0 (.glen g) = false) ∧ (shard1 2 6).phase = 2 := by decide +kernel
def glenHeld : State := { applying (shard1 1 6) with dev := (applying (shard1 1 6)).dev.updPart 0 (fun x => { x with
  basin := { x.basin with queue := [{ owner := .glen 0, addr := 0x10000000000, bytes := 64, write := true }] } }) }
theorem test_meets_GlenHeld : glenHeld.dev.holds 0 (.glen 0) = true ∧
    glenHeld.dev.glenPick 0 = some (0, r0, updCmd .apply, updWork .apply, 0, shard1 1 6) := ⟨by decide +kernel, rfl⟩
theorem test_meets_UpdateStorage (s : UpdStage) (x : Shard) : (updates s x).dev.storageWf := by
  refine ⟨show Memory.wf [] = true from rfl, show Sparse.wf 0 [] = true from rfl, show Memory.wf [] = true from rfl, ?_⟩
  exact fun i => up_storageWf.2.2.2 i

def snapCmd (l : List (Fin 16 × Word)) (w : SnapWork) : Cmd :=
  { at' .started (cmdOf ([(0, 0x41), (9, 1)] ++ l)) with work := .snapshot w, promise := 100 }
def snapWork (begun : Bool) (recs : List SnapRec) : SnapWork :=
  { begun := begun, todo := [0], chunk := 0, recs := recs, poison := false, header := false, failed := false }
def snaps (c : Cmd) : State := holding r0 [c] (fun d => { tbl (shard1 0 0) d with pwr := { d.pwr with aon := 1920 } })
theorem snaps_storageWf (c : Cmd) : (snaps c).dev.storageWf :=
  ⟨show Memory.wf [] = true from rfl, show Sparse.wf 0 [] = true from rfl, show Memory.wf [] = true from rfl, fun i => up_storageWf.2.2.2 i⟩
def rec0 : SnapRec := { shard := 0, remote := false, lost := false, poison := false, skipped := false, incomplete := false, step := 0,
                        params := 8193, offset := 96, bytes := 32772 }
/-- A SNAPSHOT at its START, one about to begin, and one of remote shards only. -/
def snapAdm : Cmd := at' .admitted (snapCmd [] (snapWork false []))
theorem test_meets_SnapshotStart : (snaps snapAdm).dev.ccx.sup = .ready ∧ (snaps snapAdm).dev.isTripped = false ∧
    (snaps snapAdm).dev.ecc = [] ∧ ((snaps snapAdm).dev.ring r0).cmds = [snapAdm] ∧ snapAdm.work = .snapshot (snapWork false []) ∧
    ((snaps snapAdm).dev.part 0).state ≠ .resetting ∧ ((snaps snapAdm).dev.part 0).lost = false ∧
    ((snaps snapAdm).dev.ring r0).nextStart = some snapAdm ∧ (snaps snapAdm).dev.turnOf 0 r0 snapAdm = true ∧
    (snaps snapAdm).dev.snapshotFree 0 r0 snapAdm = true ∧ enOf snapAdm.startWait = false ∧
    (snapRecs ((snaps snapAdm).dev.part 0) snapAdm).any (fun x => !x.remote) = true ∧
    (∀ u, (snaps snapAdm).dev.owed u = false) :=
  ⟨by decide, by decide, by decide, by decide +kernel, rfl, by decide, by decide, by decide +kernel, by decide +kernel, by decide +kernel,
   by decide, by decide +kernel, no_fill _ (by decide +kernel)⟩
def snapNew : Cmd := snapCmd [] (snapWork false [rec0])
def snapNone : Cmd := snapCmd [] { snapWork false [rec0] with todo := [] }
theorem test_meets_SnapshotBegin : ((snaps snapNew).dev.ring r0).cmds = [snapNew] ∧ snapNew.stage = .started ∧
    (snapWork false [rec0]).begun = false ∧ (snapWork false [rec0]).todo ≠ [] ∧ ((snaps snapNone).dev.ring r0).cmds = [snapNone] ∧
    Snap.dest snapNone = 0 ∧ elapsedUs snapNone.startTick (snaps snapNone).dev.pwr.aon ≤ snapNone.promise.toNat := by decide +kernel
def snapOn : Cmd := snapCmd [] (snapWork true [rec0])
theorem test_meets_SnapshotChunk : ((snaps snapOn).dev.ring r0).cmds = [snapOn] ∧ (snapWork true [rec0]).begun = true ∧
    (snapWork true [rec0]).todo = 0 :: [] ∧ (snaps snapOn).dev.shard 0 0 = some (shard1 0 0) ∧
    (snapWork true [rec0]).recs.find? (fun y => y.shard == 0) = some rec0 ∧
    (shard1 0 0).allChunks[(snapWork true [rec0]).chunk]? = some (0, 0) ∧
    (snapWork true [rec0]).chunk + 1 ≠ (shard1 0 0).allChunks.length ∧ Snap.dest snapOn = 0 ∧ Snap.bf16 snapOn = false ∧
    snapOn.stage = .started ∧ (snaps snapOn).dev.trippedAt ((shard1 0 0).chunkAt 0 0 + 0x18000) = false := by decide +kernel
def snapNet : Cmd := snapCmd [(10, 8), (12, 255)] (snapWork true [rec0])
theorem test_meets_SnapshotTimeout : ((snaps snapNet).dev.ring r0).cmds = [snapNet] ∧ snapTarget snapNet = some 255 ∧
    192 * snapNet.promise.toNat ≤ 10 * ((snaps snapNet).dev.pwr.aon - snapNet.startTick).toNat := by decide +kernel
/-- Axes A and B are the tree of partition 0, and this module is its root. -/
def bankMode (a : Nat) : Word := if a = 0 then 0x5007F else if a = 1 then 0x4007F else 0xFF00
def root : State := st (fun d => { d with axes := Vector.ofFn (fun a =>
  { active := 0, arm := false, hurt := false, slot := 0, banks := Tab.all 2 { mode := bankMode a.val, len := 2, pos := 0 } }) })
theorem test_meets_SnapshotTree : root.dev.treeOf 0 = some (0, 1) ∧ root.dev.colPart 3 = some 0 ∧ axisOf 3 = 0 ∧ plusCol 3 = true ∧
    (root.dev.bank 0).childEn 0 = true ∧ (root.dev.bank 0).root = true ∧ root.dev.inGrant 0 0x3FFFFFF0 16 = true := by decide +kernel
theorem test_meets_SnapshotTreeStorage : root.dev.storageWf ∧ root.dev.ecc = [] :=
  ⟨⟨show Memory.wf [] = true from rfl, show Sparse.wf 0 [] = true from rfl, show Memory.wf [] = true from rfl, fun i => up_storageWf.2.2.2 i⟩, rfl⟩
/-- This module is a node of the tree below the root; its cols are ACTIVE. -/
def node : State := st (fun d => { d with
  cols := Tab.all 16 { Col.reset with state := .active }
  axes := Vector.ofFn (fun a => { active := 0, arm := false, hurt := false, slot := 0, banks := Tab.all 2 {
    mode := if a.val = 0 then 0x500BF else if a.val = 1 then 0x400BF else 0xFF00, len := 2, pos := 0 } }) })
theorem test_meets_SnapshotNode : node.dev.treeOf 0 = some (0, 1) ∧ node.dev.colPart 3 = some 0 ∧ (node.dev.bank 0).childEn 0 = true ∧
    (node.dev.bank 0).root = false ∧ node.dev.portCols 0 false = 0 :: [1] ∧ (node.dev.col 0).txWait = [] ∧
    (node.dev.col 0).state = .active ∧ (node.dev.col 0).unacked.length < 1024 ∧ 1 ≤ flitPayload ∧ (∀ u, node.dev.owed u = false) :=
  ⟨by decide +kernel, by decide +kernel, by decide +kernel, by decide +kernel, by decide +kernel, by decide +kernel, by decide +kernel,
   by decide +kernel, by decide, no_fill _ (by decide +kernel)⟩

/-- Axis A is a ring of two modules bound to partition 0 (counter 5, plain 0); its cols are ACTIVE, but for `f`. -/
def linked (f : Col → Col) : State := st (fun d => { (d.updPart 0 (fun x => { x with counters := [ctr0], ctrQ := 16, use := [0] })).updAxis 0
    (fun a => { a with banks := Tab.all 2 { mode := 0x400FD, len := 2, pos := 0 } }) with
  cols := Tab.all 16 (f { Col.reset with state := .active }), ccx := d.ccx, pwr := { d.pwr with aon := 5000 } })
def addFlit (ok : Bool) (n : Nat) : Flit := { seq := n, ack := 0, crcOk := ok, bank := false, part := 0, body := .remoteAdd 0x10005 }
theorem test_meets_ColReceive : ((linked id).dev.col 3).trained = true ∧ (addFlit true 0).crcOk = true ∧
    (addFlit true 0).seq = ((linked id).dev.col 3).rxSeq ∧ ((linked id).dev.col 3).rxWait = [] ∧
    flitBank (addFlit true 0) = ((linked id).dev.axis (axisOf 3)).active ∧ (linked id).dev.colPart 3 = some (addFlit true 0).part ∧
    ((linked id).dev.part 0).state ≠ .resetting ∧ (linked id).dev.ccx.sup = .ready ∧ (addFlit true 0).body = .remoteAdd 0x10005 ∧
    ((linked id).dev.part 0).counter (ctrOf 0x10005) = some ctr0 ∧ ((linked id).dev.plain ctr0.home).state ≠ .fenced ∧
    (addFlit false 0).crcOk = false ∧ ((linked id).dev.col 3).asked = false ∧ ((linked id).dev.col 3).txWait = [] ∧
    (addFlit true 0).body ≠ .ackOnly ∧ ((linked id).dev.col 3).rxSeq < (addFlit true 1).seq ∧
    (addFlit true 0).seq < ((linked (fun c => { c with rxSeq := 1 })).dev.col 3).rxSeq := by decide +kernel
theorem test_meets_ColTraining :
    32 < ((linked (fun c => { c with recent := List.replicate 33 4999 })).dev.col 3).replaysIn (linked id).dev.pwr.aon ∧
    ((linked (fun c => { c with recent := List.replicate 33 4999 })).dev.col 3).trained = true ∧
    ((linked (fun c => { c with state := .training, fast := true })).dev.col 3).state = .training ∧
    ((linked (fun c => { c with state := .training, fast := true })).dev.col 3).fast = true ∧
    ((linked (fun c => { c with state := .training, fast := true })).dev.col 3).txWait = [] ∧ (0x7F : Byte) ≠ 0xFF ∧
    ((linked id).dev.col 3).state ≠ .down ∧ ((linked (fun c => { c with state := .down })).dev.col 3).disable = false ∧
    ((linked (fun c => { c with state := .down })).dev.col 3).state = .down := by decide +kernel
def msg0 : GroupMsg := { part := 0, group := 9, gen := 0, axis := 0, plus := true, hops := 1, isOr := false, value := 1 }
theorem test_meets_ColDeliver : (linked id).dev.colPart 3 = some 0 ∧ ((linked id).dev.bank (axisOf 3)).regEn = true ∧ msg0.part = 0 ∧
    (linked id).dev.abortedBy 0 msg0.group = none ∧ (linked id).dev.early.length < 256 ∧ (∀ r ∈ (linked id).dev.groups, r.takes msg0 = false) ∧
    256 ≤ ({ (linked id).dev with early := List.replicate 256 msg0 } : Dev).early.length := by decide +kernel
/-- The blocks of partition 0's window when it has barrier slot 0 and plain 0. -/
def spans0 : List Nat := (vfUnplaced 0 [0] [0]).map TableBlock.span
theorem window_has_ctrSel (g : Word) : ∃ off, ∀ d : Dev, (d.part 0).use = [0] → (d.part 0).bars = [0] → (d.part 0).vfGen = g →
    off % 4 = 0 ∧ d.vfReg 0 off = some ((Reg.syn 0 .ctrSel).off, .syn 0 .ctrSel) ∧ d.vfReg 0 0x400000 = none := by
  have k := vfBases_ok 0 g spans0 (by decide) (by decide)
  generalize hl : vfBases 0 g spans0 = l at k
  obtain ⟨hn, hb⟩ := k
  have hs : spans0 = [0x200, 0x40, 0x100, 0x4000, 0x40, 0x40, 0x40, 0x20, 0x40, 0x20, 0x20] := by decide
  rw [hs] at hn hb
  match l, hn with
  | [a0, a1, a2, a3, a4, a5, a6, a7, a8, a9, a10], _ =>
    simp only [List.zip_cons_cons, List.zip_nil_right, basesOk, List.all_cons, List.all_nil, Bool.and_true, Bool.and_eq_true, Bool.or_eq_true,
      decide_eq_true_eq] at hb
    obtain ⟨⟨⟨⟨-, u0⟩, -⟩, -, e0, -⟩, ⟨⟨⟨-, u1⟩, -⟩, e1, -⟩, ⟨⟨⟨l2, u2⟩, m2⟩, -⟩, ⟨⟨⟨-, u3⟩, -⟩, -⟩, ⟨⟨⟨-, u4⟩, -⟩, -⟩, ⟨⟨⟨-, u5⟩, -⟩, -⟩, ⟨⟨⟨-, u6⟩, -⟩, -⟩,
      ⟨⟨⟨-, u7⟩, -⟩, -⟩, ⟨⟨⟨-, u8⟩, -⟩, -⟩, ⟨⟨⟨-, u9⟩, -⟩, -⟩, ⟨-, u10⟩, -⟩ := hb
    refine ⟨a2, fun d hu hbars hg => ?_⟩
    have hv : d.vfBlocks 0 = (vfUnplaced 0 [0] [0]).zipWith (fun b a => { b with offset := a }) [a0, a1, a2, a3, a4, a5, a6, a7, a8, a9, a10] := by
      unfold Dev.vfBlocks
      simp only [hu, hbars, hg]
      rw [show (vfUnplaced 0 [0] [0]).map TableBlock.span = spans0 from rfl, hl]
    have out (a n o : Nat) (h : o < a ∨ a + n ≤ o) : (decide (a ≤ o) && decide (o < a + n)) = false := by
      simp only [Bool.and_eq_false_iff, decide_eq_false_iff_not]; omega
    unfold Dev.vfReg
    rw [hv]
    simp only [vfUnplaced, List.map_cons, List.map_nil, List.isEmpty_cons, Bool.not_false, List.filter_cons_of_pos, List.filter_nil,
      List.zipWith_cons_cons, List.zipWith_nil_right, List.findSome?_cons, List.findSome?_nil, TableBlock.pfOff, TableBlock.span,
      List.length_singleton, Nat.mul_one]
    refine ⟨by omega, ?_, ?_⟩
    · rw [out a0 512 a2 (by omega), out a1 64 a2 (by omega)]
      simp [hu, hbars, show ¬ a2 < 65536 by omega, show a2 % 4 = 0 by omega]
      decide
    · rw [out a0 512 _ (by omega), out a1 64 _ (by omega), out a2 256 _ (by omega), out a3 16384 _ (by omega), out a4 64 _ (by omega),
        out a5 64 _ (by omega), out a6 64 _ (by omega), out a7 32 _ (by omega), out a8 64 _ (by omega), out a9 32 _ (by omega), out a10 32 _ (by omega)]
      simp
theorem test_meets_RemoteWrites : (0x81002 : Nat) % 4 ≠ 0 ∧ enablesOk 5 = false ∧ enablesOk 0xF = true ∧
    ∃ off, off % 4 = 0 ∧ (linked id).dev.regFor (.col 3) 0x400000 = none ∧
      (linked id).dev.regFor (.col 3) off = some ((Reg.syn 0 .ctrSel).off, .syn 0 .ctrSel) := by
  obtain ⟨off, h⟩ := window_has_ctrSel ((linked id).dev.part 0).vfGen
  obtain ⟨h4, hr, hn⟩ := h (linked id).dev (by decide +kernel) (by decide +kernel) rfl
  have e (o : Nat) : (linked id).dev.regFor (.col 3) o = (linked id).dev.vfReg 0 o := by
    unfold Dev.regFor
    dsimp only
    rw [show (linked id).dev.colPart 3 = some 0 by decide +kernel]
    dsimp only
    rw [if_pos (show ((linked id).dev.bank (axisOf 3)).regEn = true by decide +kernel)]
  exact ⟨by decide, by decide, by decide, off, h4, (e _).trans hn, (e _).trans hr⟩

def coll0 : CollectiveDef := { header := Vector.ofFn (fun k => if k.val = 0 then 9 else if k.val = 1 then 2 else 0), ops := [words [(0, 1)], words [(0, 1)]] }
def collRun : RunWork := { entry := { entry0 with collective := some coll0 }, shape := Tab.upd (Tab.all 8 0) 0 (fun _ => 4), stop := none, begun := true, done := [] }
def collWork : CollWork :=
  { waitBegun := false, sent := false, reached := false, op := 0, opRunning := false, since := 0, input := [], reduced := [],
    partials := [], handled := 0, landed := [], nf := false, poison := false }
def collCmd (w : CollWork) : Cmd := { at' .started (cmdOf [(0, 0x10)]) with work := .collective collRun w, promise := 100 }
def colls (w : CollWork) (g : List GroupRun) : State :=
  { dev := { (linked id).dev.updRing r0 (fun x => { x with cfg := 0x601, cmds := [collCmd w] }) with groups := g }, pending := [] }
theorem test_meets_Collective (w : CollWork) : ((colls w []).dev.ring r0).cmds = [collCmd w] ∧ (collCmd w).stage = .started ∧
    (collCmd w).work = .collective collRun w ∧ collRun.entry.collective = some coll0 ∧ (colls w []).dev.ccx.sup = .ready ∧
    (colls w []).dev.isTripped = false ∧ (∀ k, ((colls w []).dev.col k).rxWait = []) :=
  ⟨rfl, rfl, rfl, rfl, rfl, show (linked id).dev.isTripped = false by decide +kernel,
   show ∀ k, ((linked id).dev.col k).rxWait = [] by decide +kernel⟩
theorem test_meets_CollectiveArrival : collWork.sent = false ∧
    (colls collWork []).dev.collReady 0 { ring := r0, cmd := collCmd collWork, def' := coll0, work := collWork } = true ∧
    (colls collWork []).dev.runOf (.command r0 (collCmd collWork).index) = none := by decide +kernel
def arrival0 : GroupRun :=
  { part := 0, group := 9, gen := 0, join := .command r0 0, members := 2, axes := [0], isOr := false, value := 2, gotPlus := [], gotMinus := [], ahead := [],
    result := some 2 }
def sent0 : CollWork := { collWork with sent := true }
theorem test_meets_CollectiveStart : sent0.sent = true ∧ sent0.reached = false ∧ sent0.opRunning = false ∧
    (colls sent0 [arrival0]).dev.runOf (.command r0 (collCmd sent0).index) = some arrival0 ∧ arrival0.result = some coll0.arrMembers ∧
    ({ arrival0 with result := some 1 } : GroupRun).result = some 1 ∧ 1 ≠ coll0.arrMembers := by decide +kernel
def reached0 : CollWork := { sent0 with reached := true }
def op0 : OpRun := { part := 0, ring := r0, idx := 0, num := 0, op := words [(0, 1)], step := 4, n := 4, len := 2, pos := 0, isRing := true }
theorem test_meets_CollectiveOpStart : reached0.reached = true ∧ reached0.opRunning = false ∧
    (colls reached0 []).dev.opRun 0 r0 (collCmd reached0) reached0.op = some op0 := by decide +kernel
def opOn (n : Nat) : CollWork := { reached0 with opRunning := true, handled := n }
def data0 : DataMsg := { op := 0, gather := true, plus := true, first := 2, bf16 := false, vals := [0x3F800000, 0x40000000], marked := [], nf := false }
theorem test_meets_CollectiveData : (opOn 0).opRunning = true ∧ (opOn 0).op = data0.op ∧
    (colls (opOn 0) []).dev.opFor 0 0 (axisOf 3) data0.op = some op0 ∧ (colls (opOn 0) []).dev.colPart 3 = some 0 ∧
    ((colls (opOn 0) []).dev.part 0).state ≠ .resetting ∧ data0.gather = true ∧ data0.marked = [] ∧ data0.vals ≠ [] ∧
    data0.first + data0.vals.length ≤ op0.n ∧ op0.kind = 1 ∧ Coll.dstShard op0.op = false ∧ (Coll.dst op0.op).loc 0 = .dev ∧
    (colls (opOn 0) []).dev.ecc = [] := by decide +kernel
theorem test_meets_CollectiveStorage : (colls (opOn 0) []).dev.storageWf :=
  ⟨show Memory.wf [] = true from rfl, show Sparse.wf 0 [] = true from rfl, show Memory.wf [] = true from rfl, fun i => up_storageWf.2.2.2 i⟩
theorem test_meets_CollectiveNoFill (u : FillUnit) : (colls (opOn 0) []).dev.owed u = false := no_fill _ rfl u
theorem test_meets_CollectiveOpDone : (opOn 4).reached = true ∧ (opOn 4).opRunning = true ∧ (colls (opOn 4) []).dev.opRun 0 r0 (collCmd (opOn 4)) 0 = some op0 ∧
    (colls (opOn 4) []).dev.opOver op0 (opOn 4) = true ∧ op0.kind ≠ 4 ∧ Coll.statsEn op0.op = false ∧ Coll.nfEn op0.op = false := by
  decide +kernel

def ask0 (dst src : BitVec 24) : GatherMsg :=
  { part := 0, src := src, dst := dst, plain := 0, req := 7, shard := 0, first := 0, count := 32, offset := 0, data := none, marked := [] }
theorem test_meets_GatherForward : ((linked id).dev.part 0).state ≠ .resetting ∧ (linked id).dev.ccx.sup = .ready ∧
    (linked id).dev.colPart 3 = some (ask0 1 0).part ∧ (ask0 1 0).data = none ∧ (linked id).dev.routeTo 0 (1 : BitVec 24).toNat = some (0, true) ∧
    ((linked id).dev.portCols 0 true)[0 / gatherPiece % ((linked id).dev.portCols 0 true).length]? = some 2 ∧
    ((linked id).dev.col 2).txWait = [] ∧ ((linked id).dev.col 2).state = .active ∧ ((linked id).dev.col 2).unacked.length < 1024 := by
  decide +kernel
def serving : State := { dev := (linked id).dev.updPart 0 (fun x => { x with shards := [shard0], tblCount := 1 }), pending := [] }
theorem test_meets_GatherServe : serving.dev.colPart 3 = some (ask0 0 1).part ∧ serving.dev.ecc = [] ∧ serving.dev.shard 0 0 = some shard0 ∧
    serving.dev.routeTo 0 (0 : BitVec 24).toNat = none ∧ (serving.dev.part 0).isLocal shard0 = true ∧ shard0.tier = 1 ∧
    0 < (ask0 0 1).count ∧ (ask0 0 1).count ≤ gatherPiece ∧ serving.dev.routeBack 0 (1 : BitVec 24).toNat = some (0, false) ∧
    serving.dev.portCols 0 false = 0 :: [1] ∧ serving.dev.trippedAt (shard0.daleAddr + 2 * 0) = false ∧
    (∀ u, serving.dev.owed u = false) :=
  ⟨by decide +kernel, by decide +kernel, by decide +kernel, by decide +kernel, by decide +kernel, by decide +kernel, by decide, by decide,
   by decide +kernel, by decide +kernel, by decide +kernel, no_fill _ (by decide +kernel)⟩
def answer0 : GatherMsg := { ask0 0 1 with data := some [0x3F80, 0x4000] }
def gathering : DmaReq := { req gatherReq .moved [] with toCome := 32 }
theorem test_meets_GatherData : (dmaOn gathering).dev.req 0 7 = some gathering ∧ answer0.data = some [0x3F80, 0x4000] ∧ answer0.marked = [] ∧
    (dmaOn gathering).dev.plainOwner 0 = some 0 ∧ reqKind gathering.words = 0x0A ∧ gathering.stage = .moved ∧
    ([0x3F80, 0x4000] : List (BitVec 16)).length ≤ gathering.toCome ∧ (GatherReq.dst gathering.words).loc 0 = .sram 0 ∧
    ((dmaOn gathering).dev.plain 0).state = .busy ∧ ((dmaOn gathering).dev.plain 0).parity = [] := by decide +kernel
theorem test_meets_GatherStorage : ((dmaOn gathering).dev.plain 0).storageWf := by simp only [Plain.storageWf]; decide +kernel

/-! ### Ethernet, samples, encoding, metering -/

/-- Target 3 stands on port 1 at address 0 with an open queue pair, which holds `q`. -/
def netOn (f : Target → Target) : State := st (fun d => { d with
  targets := Tab.upd d.targets 3 (fun t => f { t with words := Tab.upd t.words 0 (fun _ => 3), qp := .rts }) })
def frame0 (k : FrameKind) (qpn : BitVec 24) : Frame := { kind := k, toPort := true, src := 0, qpn := qpn, prio := 2, bytes := 1500, fcsOk := true, corrected := 3 }
theorem test_meets_Ports : (frame0 (.roce 0x10) 0x103).kind = .roce 0x10 ∧ (frame0 (.roce 0x10) 0x103).bytes ≤ 9216 ∧
    ((netOn id).dev.frameCause 1 (frame0 (.roce 0x10) 0x103)).2 = none ∧ ((netOn id).dev.port 1).lossless 2 = false ∧
    ((netOn id).dev.port 1).heldAll + 1500 ≤ rxBuffer ∧ (frame0 (.roce 0x10) 0xFF).qpn.toNat < 0x100 ∧
    (frame0 .arp 0).kind = .arp ∧ (frame0 .arp 0).toPort = true := by decide +kernel
theorem test_meets_PortsDrop : ({ frame0 .arp 0 with fcsOk := false } : Frame).fcsOk = false ∧
    9216 < ({ frame0 .arp 0 with bytes := 9217 } : Frame).bytes ∧ (frame0 .arp 0).fcsOk = true := by decide
theorem test_meets_Pause : ((st (fun d => { d with
    ports := Tab.upd d.ports 0 (fun p => { p with words := Tab.upd p.words 2 (fun _ => 0x80) }) })).dev.port 0).lossless 7 = true ∧
    Tab.at (Tab.all 8 (1 : BitVec 16)) 7 ≠ 0 := by decide +kernel

def sample0 (st' : SampleState) (e : Option (Fin 4)) (l : List (Fin 16 × Word)) : Sample :=
  { words := words l, at' := 0, arrived := 2, state := st', engine := e, since := 0, last := 0, moved := false, short := false, output := [] }
def layoutPcm : Tab Word 64 := Tab.upd (Tab.upd (Tab.upd (Tab.all 64 0) 0 (fun _ => 5)) 10 (fun _ => 1)) 21 (fun _ => 0x80000000)
def sampleWork (begun : Bool) (l : List Sample) : SampleWork := { begun := begun, layout := layoutPcm, samples := l, heads := [], poison := false }
def sampleCmd (w : SampleWork) : Cmd := { at' .started (cmdOf [(0, 0x30), (9, 1)]) with work := .sample w, promise := 100 }
/-- Ring 0 of partition 0 holds one SAMPLE_JOB, 1 ms after the start of time. -/
def media (c : Cmd) (f : Target → Target) : State :=
  { dev := { (netOn f).dev.updRing r0 (fun x => { x with cfg := 0x601, cmds := [c] }) with pwr := { up.pwr with aon := 1920 } }, pending := [] }
theorem media_storageWf (c : Cmd) (f : Target → Target) : (media c f).dev.storageWf :=
  ⟨show Memory.wf [] = true from rfl, show Sparse.wf 0 [] = true from rfl, show Memory.wf [] = true from rfl, fun i => up_storageWf.2.2.2 i⟩

def read0 : NetReq :=
  { psn := 0xFFFFFF, packets := 2, ring := r0, sample := some 0, offset := 0, remote := 0, bytes := 2, got := 1, write := false, data := []
    issued := true, since := 0 }
def write0 : NetReq := { read0 with write := true, sample := none, data := [1, 2] }
def jobReading : SampleWork := sampleWork true [sample0 .reading none [(2, 8)]]
theorem test_meets_ReadResponse : ((media (sampleCmd jobReading) (fun t => { t with reqs := [read0] })).dev.target 3).qp = .rts ∧
    ((media (sampleCmd jobReading) (fun t => { t with reqs := [read0] })).dev.target 3).reqs = [read0] ∧
    (media (sampleCmd jobReading) (fun t => { t with reqs := [read0] })).dev.sampleAt read0.ring 0 = some 0 ∧
    ((0 : BitVec 24) - read0.psn).toNat < read0.packets ∧ 1 + ([7] : List Byte).length ≤ read0.bytes ∧
    read0.bytes ≤ read0.got + ([7] : List Byte).length := by decide +kernel
theorem test_meets_MediaNoFill (c : Cmd) (f : Target → Target) (u : FillUnit) : (media c f).dev.owed u = false := no_fill _ rfl u
theorem test_meets_Acks : ((netOn (fun t => { t with reqs := [write0] })).dev.target 3).reqs = [write0] ∧
    ((0 : BitVec 24) - (write0.psn + BitVec.ofNat 24 (write0.packets - 1))).toNat < 2 ^ 23 ∧
    (∀ p, (netOn (fun t => { t with reqs := [write0] })).dev.startedOf p = []) ∧
    ((netOn (fun t => { t with retries := 6 })).dev.target 3).retries < 7 ∧
    7 ≤ ((netOn (fun t => { t with retries := 7 })).dev.target 3).retries ∧
    ((0xFFFFFF : BitVec 24) - write0.psn).toNat < write0.packets := by decide +kernel
theorem test_meets_NotRts : (st id).dev.target 3 = Target.reset ∧ ((st id).dev.target 3).qp ≠ .rts ∧
    Instr.cnpReceive 3 ∈ [Instr.roceReadResponse 3 0 0 [] false, .roceAckReceive 3 0, .roceNakReceive 3 0, .cnpReceive 3] := by decide +kernel
theorem test_meets_Rates : due50 ((netOn id).dev.target 3).lastCnpRx (netOn id).dev.pwr.aon = true ∧
    due50 (some 0) (960 : DWord) = true ∧ due50 (some 0) (959 : DWord) = false ∧ 1056 ≤ ((1056 : DWord) - 0).toNat := by decide +kernel

theorem test_meets_SampleJob : (media (sampleCmd (sampleWork false [])) id).dev.ccx.sup = .ready ∧
    (media (sampleCmd (sampleWork false [])) id).dev.isTripped = false ∧ (media (sampleCmd (sampleWork false [])) id).dev.ecc = [] ∧
    ((media (sampleCmd (sampleWork false [])) id).dev.ring r0).cmds = [sampleCmd (sampleWork false [])] ∧
    (sampleCmd (sampleWork false [])).stage = .started ∧ (sampleCmd (sampleWork false [])).work = .sample (sampleWork false []) :=
  ⟨by decide, by decide, by decide, rfl, by decide, rfl⟩
def jobAdm : Cmd := at' .admitted (sampleCmd (sampleWork false []))
theorem test_meets_SampleStart : ((media jobAdm id).dev.ring r0).cmds = [jobAdm] ∧ jobAdm.work = .sample (sampleWork false []) ∧
    ((media jobAdm id).dev.part 0).state ≠ .resetting ∧ ((media jobAdm id).dev.part 0).lost = false ∧
    ((media jobAdm id).dev.ring r0).nextStart = some jobAdm ∧ (media jobAdm id).dev.turnOf 0 r0 jobAdm = true ∧
    (media jobAdm id).dev.snapshotFree 0 r0 jobAdm = true ∧ enOf jobAdm.startWait = false := by decide +kernel
theorem test_meets_SampleRead : jobReading.begun = true ∧ jobReading.samples[0]? = some (sample0 .reading none [(2, 8)]) ∧
    (sample0 .reading none [(2, 8)]).state = .reading ∧ (media (sampleCmd jobReading) id).dev.bestEngine = some 0 ∧
    Ent.src (sample0 .reading none [(2, 0x208)]).words = 1 ∧ Ent.src (sample0 .reading none [(2, 8)]).words = 0 ∧
    Ent.srcBytes (sample0 .reading none [(2, 8), (6, 2)]).words ≤ (sample0 .reading none [(2, 8), (6, 2)]).arrived ∧
    192 * Job.budget (sampleCmd jobReading) ≤ 10 * ((media (sampleCmd jobReading) id).dev.pwr.aon - (sampleCmd jobReading).startTick).toNat := by
  decide +kernel
theorem test_meets_SampleReadOtherwise : Ent.src (sample0 .reading none [(2, 0x408)]).words ≠ 0 ∧ Ent.src (sample0 .reading none [(2, 0x408)]).words ≠ 1 ∧
    (media (sampleCmd jobReading) id).dev.trippedAt (Ent.srcAddr (sample0 .reading none [(2, 0x408)]).words) = false ∧
    (sample0 .reading none [(2, 8), (6, 3)]).arrived < Ent.srcBytes (sample0 .reading none [(2, 8), (6, 3)]).words := by decide +kernel
def jobDecoding : SampleWork := sampleWork true [sample0 .read (some 2) [(2, 8)]]
theorem test_meets_SampleDecode : jobDecoding.samples[0]? = some (sample0 .read (some 2) [(2, 8)]) ∧ Lay.stem jobDecoding.layout = false ∧
    Ent.reserve (sample0 .read (some 2) [(2, 8)]).words = false ∧ (Lay.dest jobDecoding.layout).loc 0 = .dev ∧
    (media (sampleCmd jobDecoding) id).dev.stemAt jobDecoding.layout = Tab.all 16 0 ∧
    (media (sampleCmd jobDecoding) id).dev.trippedAt (Lay.bsBuf jobDecoding.layout + 0) = false := by decide +kernel
theorem leBytes_length (n v : Nat) : (leBytes n v).length = n := by
  induction n generalizing v with
  | zero => rfl
  | succ n ih => simp [leBytes, ih]
theorem four_bytes_each (l : List Nat) : (l.flatMap (leBytes 4)).length = 4 * l.length := by
  induction l with
  | nil => rfl
  | cons a l ih => simp [ih, leBytes_length]; omega
/-- The slot of a raw PCM sample is one granule of FP32 elements, whatever the resampler gives. -/
theorem test_meets_SampleOutput (w : StemW) (b : Nat) (free : Word) (data : List Byte) : ∃ out short,
    sampleOut jobDecoding.layout (Tab.all 16 0) w b (sample0 .read (some 2) [(2, 8)]).words free data = .ok (out, short) ∧
    out.length = pieceBytes jobDecoding.layout (Tab.all 16 0) ∧ out.length = 2048 := by
  have hk : Lay.kind layoutPcm = 5 := by decide
  have hn : Lay.outSamples layoutPcm = 1 := by decide
  have hp : pieceBytes layoutPcm (Tab.all 16 0) = 2048 := by decide
  have hf : elemBits (Lay.outFmt layoutPcm) = 32 := by decide
  have h : ∀ x : List Word, (slotBytesOf layoutPcm 0 (padTo 512 (padTo 1 (x.take 1)))).length = 2048 := by
    intro x
    simp only [slotBytesOf, pack, hf, four_bytes_each, List.length_map, List.length_zip, List.length_range, padTo, List.length_append,
      List.length_replicate, List.length_take, Nat.min_self]
    omega
  let x := (Config.resample 0 0 (monoOf layoutPcm (pcmSound layoutPcm data) free)).drop 0
  exact ⟨_, decide (x.length < 1), by rfl, (h x).trans hp.symm, h x⟩
def jobWritten : SampleWork := sampleWork true [sample0 .written none [(2, 8)]]
theorem test_meets_SampleClose : (∀ x ∈ jobWritten.samples, x.state = .written) ∧ jobWritten.heads = [] ∧ jobWritten.poison = false ∧
    hostBit (Lay.manifest jobWritten.layout) = (true, 0) ∧
    elapsedUs 1000 (media (sampleCmd jobWritten) id).dev.pwr.aon ≤ (sampleCmd jobWritten).promise.toNat := by decide +kernel

def record0 : Tab Word 32 := Tab.upd (Tab.upd (Tab.all 32 0) 11 (fun _ => 0x80000000)) 15 (fun _ => 0x80000000)
def encodeWork (begun : Bool) : EncodeWork :=
  { begun := begun, record := record0, engine := 1, frame := 1, pos := 77, fill := 0, bitsPrev := 0, lastKey := none, lastInter := none,
    keys := 0, capMiss := 0, keyAt := [], recon := 0, since := 0, poison := false }
def encodeCmd (b : Bool) : Cmd := { at' .started (cmdOf [(0, 0x31), (10, 3)]) with work := .encode (encodeWork b), promise := 100 }
theorem test_meets_Encode (b : Bool) : (media (encodeCmd b) id).dev.ccx.sup = .ready ∧ (media (encodeCmd b) id).dev.isTripped = false ∧
    (media (encodeCmd b) id).dev.ecc = [] ∧ ((media (encodeCmd b) id).dev.ring r0).cmds = [encodeCmd b] ∧ (encodeCmd b).stage = .started ∧
    (encodeCmd b).work = .encode (encodeWork b) ∧ (encodeWork b).begun = b ∧ (media (encodeCmd b) id).dev.bestEngine = some 0 ∧
    (Tab.at (media (encodeCmd b) id).dev.engines (encodeWork b).engine).works = true ∧
    (encodeWork b).frame + 1 < Enc.frames (encodeCmd b) ∧ hostBit (Enc.dst (encodeWork b).record) = (true, 0) ∧
    hostBit (Enc.idx (encodeWork b).record) = (true, 0) ∧ (Enc.src (encodeWork b).record).loc 0 = .dev := by
  cases b <;> decide +kernel

def meter (f : Mtr → Mtr) : State := st (fun d => { d with mtr := f { d.mtr with on := true } })
def mrec0 : MRec := (Mtr.reset).record 2
theorem test_meets_Meter : (meter id).dev.mtr.on = true ∧ (meter id).dev.mtr.awaiting = false ∧ (meter id).dev.mtr.pending.length < 255 ∧
    (meter (fun m => { m with awaiting := true })).dev.mtr.awaiting = true ∧
    (meter (fun m => { m with awaiting := true })).dev.mtr.pending = [] ∧
    (meter (fun m => { m with writing := true, pending := [mrec0] })).dev.mtr.writing = true ∧
    (meter (fun m => { m with writing := true, pending := [mrec0] })).dev.mtr.pending = [mrec0] := by decide +kernel
theorem test_meets_Calibration : paramOk 0 0x40000000 = true ∧ paramOk 25 (-1000) = true ∧ paramOk 32 500 = true ∧
    (meter (fun m => { m with calEn := true })).dev.mtr.calEn = true ∧ (meter (fun m => { m with calEn := true })).dev.mtr.auditFull = false ∧
    (meter (fun m => { m with calEn := true, auditFull := true })).dev.mtr.auditFull = true ∧
    (meter (fun m => { m with awaiting := true, next := [(0, 0x40000000)] })).dev.mtr.next = [(0, 0x40000000)] := by decide +kernel
theorem test_meets_CalibrationRefused : (meter id).dev.mtr.on = true ∧ (meter id).dev.mtr.calEn = false ∧ paramOk 40 0 = false ∧
    (meter (fun m => { m with calEn := true })).dev.mtr.pending.length < 254 := by decide

/-! ### Worked examples of the spec -/

/-- 02_pelvilen_table_and_registers.md, the example of R40: the register at 0x0100 of plain 53 lies at 0x01D_4100. -/
theorem test_instance_offset : (Reg.til 53 .id).off + 0x100 = 0x1D4100 := by decide
/-- 04_plains_and_matrix_engine.md, the example of stochastic rounding: x = 1 + 2^-15 with the draws 0xFF2A and 0x4000. -/
theorem test_stochastic_rounding : (Fmt.bf16.convert (.stochastic 0xFF2A000000000000) false (f32 0x3F800100)).1 = 0x3F81 ∧
    (Fmt.bf16.convert (.stochastic 0x4000000000000000) false (f32 0x3F800100)).1 = 0x3F80 := by decide +kernel
/-- 04, R101 to R103: ties go to the even code; E4M3 saturates to 0x7E and overflows to its NaN. -/
theorem test_conversions : (Fmt.bf16.convert .nearest false (f32 0x3F808000)).1 = 0x3F80 ∧
    (Fmt.bf16.convert .nearest false (f32 0x3F818000)).1 = 0x3F82 ∧ (Fmt.e4m3.convert .nearest true (f32 0x44000000)).1 = 0x7E ∧
    (Fmt.bf16.convert .nearest true (f32 0x7F800000)).1 = 0x7F7F ∧ (Fmt.bf16.convert .nearest false (f32 0xFF800001)).1 = 0x7FC0 := by
  decide +kernel
/-- 03_rings_admission_partitions.md, the example of R74: 6 × 10^9 bytes at 2,706 GB/s and W + E = 7 make 2,225 µs. -/
theorem test_promise : promiseUs ((7 : Nat) + (6000000000 : Rat) / (100 * (min (10 * 4000) (floor10 .dale * 4) : Nat))) 0 = some 2225 := by
  decide +kernel
/-- FIPS 180-4, the message "abc" (log entry 20). -/
theorem test_sha256 : sha256 [0x61, 0x62, 0x63] =
    [0xba, 0x78, 0x16, 0xbf, 0x8f, 0x01, 0xcf, 0xea, 0x41, 0x41, 0x40, 0xde, 0x5d, 0xae, 0x22, 0x23,
     0xb0, 0x03, 0x61, 0xa3, 0x96, 0x17, 0x7a, 0x9c, 0xb4, 0x10, 0xff, 0x61, 0xf2, 0x00, 0x15, 0xad] := by decide +kernel

end Sys2Proof.Tests
end

/-! # Proofs: the reads that clear, and the holes

SUPPORT and PROOFS. Statements O7 and O8 of the registers' chapter. Every read of an RC register is one operation on one named
register (`exec_rcRead`), and all that an access adds to it is the clock it wants and a fill owed to a plain (`demand_of_not_til`,
`demand_til`). -/

section
namespace Sys2Proof.Machine

open Sys2Proof

/-! ### A table with one unit changed, in the forms that the clauses below use -/

/-- A field of the changed unit is what the change makes it. -/
theorem Tab.field_at_upd {α β : Type} {n : Nat} {t : Tab α n} {i : Fin n} {f : α → α} (field : α → β) :
    field (Tab.at (Tab.upd t i f) i) = field (f (Tab.at t i)) := congrArg field (Tab.at_upd_same t i f)

/-- A table's other units stand. -/
theorem Tab.at_upd_of_ne {α : Type} {n : Nat} {t : Tab α n} {i : Fin n} {f : α → α} :
    ∀ j, j ≠ i → Tab.at (Tab.upd t i f) j = Tab.at t j := fun j h => Tab.at_upd_other t i j f h.symm

/-! ### Aligned offsets (R48) -/

/-- Every register that holds an RC field lies at a word's offset. -/
theorem Reg.off_aligned_of_readSide (r : Reg) (h : r.readSide = true) : r.off % 4 = 0 := by
  unfold Reg.readSide at h
  split at h
  case h_16 => exact absurd h Bool.false_ne_true
  all_goals simp only [Reg.off, TilReg.off, RegReg.off, GlnReg.off] <;> omega

/-- Whether an access of at most one word is aligned depends on its lane alone. -/
theorem readUnaligned_add_of_aligned (o k : Nat) (size : AccSize) (ho : o % 4 = 0) (hs : ∀ n, size ≠ .wide n) :
    readUnaligned (o + k) size = readUnaligned k size := by
  cases size with
  | b1 => rfl
  | b2 =>
    have h : (o + k) % 2 = k % 2 := by omega
    simp only [readUnaligned, h]
  | b4 =>
    have h : (o + k) % 4 = k % 4 := by omega
    simp only [readUnaligned, h]
  | wide n => exact absurd rfl (hs n)

/-! ### What an access adds: the clock it wants and the fill it waits for (R41, R61) -/

/-- The KT9 with other clock domains, partitions and plains. -/
def Dev.woken (d : Dev) (t : Tab Dom 100) (ps : Tab Part 64) (xs : Tab Plain 64) : Dev :=
  { d with pwr := { d.pwr with doms := t }, parts := ps, plains := xs }

/-- What every read of an RC register leaves alone. -/
def Dev.readKeeps (d e : Dev) : Prop :=
  d.sameMemory e ∧ e.plainMap = d.plainMap ∧ e.bars = d.bars ∧ e.waits = d.waits ∧ e.targets = d.targets ∧ e.axes = d.axes ∧
    e.ccx = d.ccx ∧ e.pwr = { d.pwr with doms := e.pwr.doms } ∧ e.mtr = d.mtr ∧ e.hif.rings = d.hif.rings ∧
    e.hif.jSeq = d.hif.jSeq ∧ e.ras.staging = d.ras.staging

/-- A stopped clock is asked for, and nothing else changes, by an access of a register that no plain has. -/
theorem Dev.demand_of_not_til (d : Dev) (r : Reg) (h : ∀ i x, r ≠ .til i x) :
    ∃ t, d.demand r = d.woken t d.parts d.plains := by
  have hd : d.demand r = (match r.domain with | some k => d.wantClock k | none => d) := by
    unfold Dev.demand
    cases r
    case til i x => exact absurd rfl (h i x)
    all_goals rfl
  rw [hd]
  split
  · exact d.wantClock_frame _
  · exact ⟨d.pwr.doms, rfl⟩

/-- A fill that a plain owes changes that plain, and the lists of fills. -/
theorem Dev.fillDone_plain_frame (d : Dev) (i : Fin 64) :
    ∃ ps, d.fillDone (.plain i) = { d.updPlain i Plain.fillNew with parts := ps } :=
  Dev.each_keeps (fun e => ∃ ps, e = { d.updPlain i Plain.fillNew with parts := ps }) _ _
    (fun _ p ⟨ps, he⟩ => ⟨Tab.upd ps p (fun x => { x with fills := x.fills.filter (fun f => f != .plain i) }),
      by rw [he]; rfl⟩)
    _ ⟨_, rfl⟩

/-- Reaching a plain changes that plain, and the lists of fills where it owes one. -/
theorem Dev.reachPlain_frame (d : Dev) (i : Fin 64) :
    ∃ ps xs, d.reachPlain i = { d with parts := ps, plains := xs } ∧ (∀ j, j ≠ i → Tab.at xs j = d.plain j) ∧
      (d.owed (.plain i) = false → ps = d.parts) := by
  unfold Dev.reachPlain
  split
  case isTrue ho =>
    obtain ⟨ps, e⟩ := d.fillDone_plain_frame i
    exact ⟨ps, _, e, Tab.at_upd_of_ne, fun h => absurd (ho.symm.trans h) (by decide)⟩
  case isFalse => exact ⟨d.parts, d.plains, rfl, fun _ _ => rfl, fun _ => rfl⟩

/-- An access of a plain's register reaches that plain alone, and the lists of fills only where a fill is owed to it. -/
theorem Dev.demand_til (d : Dev) (i : Fin 64) (x : TilReg) :
    ∃ t ps xs, d.demand (.til i x) = d.woken t ps xs ∧ (∀ j, j ≠ i → Tab.at xs j = d.plain j) ∧
      (d.owed (.plain i) = false → ps = d.parts) := by
  obtain ⟨t, ht⟩ := d.wantClock_frame i.val
  obtain ⟨ps, xs, he, hj, ho⟩ := (d.wantClock i.val).reachPlain_frame i
  have hd : d.demand (.til i x) = ((d.wantClock i.val).reachPlain i).updPlain i
      (fun x => if x.state = .stopped then { x with state := .waking } else x) := rfl
  rw [ht] at he hj ho
  rw [hd, ht, he]
  exact ⟨t, ps, _, rfl, fun j h => (Tab.at_upd_of_ne j h).trans (hj j h), ho⟩

/-! ### The read itself (R9, R46) -/

/-- A clear changes counts only. -/
theorem Dev.readKeeps_woken_clearRc (d : Dev) (t : Tab Dom 100) (ps : Tab Part 64) (xs : Tab Plain 64) (v : Reply) (r : Reg) :
    d.readKeeps (((d.woken t ps xs).reply v).clearRc r) := by
  unfold Dev.clearRc
  split <;> exact ⟨⟨rfl, rfl, rfl⟩, rfl, rfl, rfl, rfl, rfl, rfl, rfl, rfl, rfl, rfl, rfl⟩

/-- Each of the commands that read an RC register is that register's read. -/
theorem exec_rcRead {c : Instr} {r : Reg} {a : ReadAcc} (s : State) (h : rcRead c = some (r, a)) :
    exec c s = .next { s with dev := s.dev.rcCmd r a } := by
  unfold rcRead at h
  split at h <;> cases h <;> rfl

/-- What such a command reads does hold an RC field. -/
theorem readSide_of_rcRead {c : Instr} {r : Reg} {a : ReadAcc} (h : rcRead c = some (r, a)) : r.readSide = true := by
  unfold rcRead at h
  split at h <;> cases h <;> rfl

section

variable {c : Instr} {r : Reg} {a : ReadAcc} {s : State} {post : Dev → Prop} (hs : ∀ n, a.size ≠ .wide n)
  (hu : readUnaligned a.lane.val a.size = false) (hr : s.dev.reachable a.reader = true) (ho : s.dev.owns a.reader r = true)

include hs hu hr ho

/-- An aligned read of at most one word, by a reader that reaches and owns the register, completes as `Dev.readRc`. -/
theorem completes_rcRead (hc : rcRead c = some (r, a)) (hp : post (s.dev.readRc r a)) : Completes c s post := by
  have ha : readUnaligned (r.off + a.lane.val) a.size = false :=
    (readUnaligned_add_of_aligned _ _ _ (r.off_aligned_of_readSide (readSide_of_rcRead hc)) hs).trans hu
  refine ⟨_, exec_rcRead s hc, rfl, ?_⟩
  rwa [Dev.rcCmd_read _ _ _ hr ho ha hs]

/-- The same for a register that no plain has: only the clock domains depend on the state of the clocks. -/
theorem completes_rcRead_of_not_til (hc : rcRead c = some (r, a)) (hn : ∀ i x, r ≠ .til i x)
    (hp : ∀ t, post (((s.dev.woken t s.dev.parts s.dev.plains).reply (.words [readLanes (s.dev.readReg r) a])).clearRc r)) :
    Completes c s post := by
  obtain ⟨t, e⟩ := s.dev.demand_of_not_til r hn
  refine completes_rcRead hs hu hr ho hc ?_
  rw [Dev.readRc, e]
  exact hp t

end

/-- Settles O7: each read is the access's own part (`woken`), the reply and the clear of one count; the other units of the count's
table stand by `Tab.at_upd_of_ne`, and the rest is `readKeeps`. -/
theorem readClearRegistersReturnTheirCountAndClear : Obligations.ReadClearRegistersReturnTheirCountAndClear := by
  intro s a hs hu hr keep
  have hk : ∀ t ps xs v r, keep (((s.dev.woken t ps xs).reply v).clearRc r) := s.dev.readKeeps_woken_clearRc
  have read {c : Instr} {r : Reg} {post : Dev → Prop} := @completes_rcRead_of_not_til c r a s post hs hu hr
  refine ⟨?jrnLost, ?pDrop, ?parCnt, ?sTmax, ?daleWait, ?basinWait, ?repair, ?cReplay, ?cDrop, ?fecCorr, ?fecUncorr, ?stranger,
    ?corrupt, ?evDrop, ?eccCnt⟩
  case jrnLost => exact fun ho => read ho rfl nofun fun t => ⟨rfl, rfl, rfl, rfl, hk ..⟩
  case pDrop =>
    exact fun p ho => read ho rfl nofun fun t => ⟨rfl, Tab.field_at_upd Part.drop, Tab.at_upd_of_ne, rfl, hk ..⟩
  case parCnt =>
    intro i ho
    refine completes_rcRead hs hu hr ho rfl ?_
    obtain ⟨t, ps, xs, e, hj, hf⟩ := s.dev.demand_til i .parCnt
    rw [Dev.readRc, e]
    have hv : s.dev.readReg (.til i .parCnt) = (s.dev.plain i).parCnt.setWidth 32 := BitVec.ofNat_toNat ..
    rw [hv]
    exact ⟨rfl, Tab.field_at_upd Plain.parCnt, fun j h => (Tab.at_upd_of_ne j h).trans (hj j h), hf, hk ..⟩
  case sTmax => exact fun k ho => read ho rfl nofun fun t => ⟨rfl, Tab.field_at_upd Stack.tmax, Tab.at_upd_of_ne, hk ..⟩
  case daleWait =>
    exact fun p ho => read ho rfl nofun fun t =>
      ⟨rfl, Tab.field_at_upd fun x : Part => x.dale.wait, Tab.field_at_upd fun x : Part => x.dale.tokens, Tab.at_upd_of_ne, hk ..⟩
  case basinWait =>
    exact fun p ho => read ho rfl nofun fun t =>
      ⟨rfl, Tab.field_at_upd fun x : Part => x.basin.wait, Tab.field_at_upd fun x : Part => x.basin.tokens, Tab.at_upd_of_ne, hk ..⟩
  case repair => exact fun p ho => read ho rfl nofun fun t => ⟨rfl, Tab.field_at_upd Part.repair, Tab.at_upd_of_ne, hk ..⟩
  case cReplay => exact fun c ho => read ho rfl nofun fun t => ⟨rfl, Tab.field_at_upd Col.replays, Tab.at_upd_of_ne, hk ..⟩
  case cDrop => exact fun c ho => read ho rfl nofun fun t => ⟨rfl, Tab.field_at_upd Col.drops, Tab.at_upd_of_ne, hk ..⟩
  case fecCorr => exact fun n ho => read ho rfl nofun fun t => ⟨rfl, Tab.field_at_upd Port.fecCorr, Tab.at_upd_of_ne, hk ..⟩
  case fecUncorr =>
    exact fun n ho => read ho rfl nofun fun t => ⟨rfl, Tab.field_at_upd Port.fecUncorr, Tab.at_upd_of_ne, hk ..⟩
  case stranger => exact fun n ho => read ho rfl nofun fun t => ⟨rfl, Tab.field_at_upd Port.stranger, Tab.at_upd_of_ne, hk ..⟩
  case corrupt => exact fun p ho => read ho rfl nofun fun t => ⟨rfl, Tab.field_at_upd Part.corrupt, Tab.at_upd_of_ne, hk ..⟩
  case evDrop => exact fun k ho => read ho rfl nofun fun t => ⟨rfl, Tab.at_upd_same .., Tab.at_upd_of_ne, hk ..⟩
  case eccCnt => exact fun ho => read ho rfl nofun fun t => ⟨rfl, rfl, rfl, rfl, hk ..⟩

/-! ### Holes (R40) -/

/-- One aligned 32-bit write of a writer that reaches the registers is one access, and neither a doorbell nor configuration. -/
theorem Dev.registerWrite_word32 (d : Dev) (w : Writer) (off : Nat) (v : Word) (hr : d.reachable w = true) (h4 : off % 4 = 0) :
    d.registerWrite [word32 w off v] = d.access w off v allBytes := by
  have hw : (word32 w off v).writer = w := rfl
  have hsp : (word32 w off v).space = .registers := rfl
  have hc (e : Dev) : e.configWrite (word32 w off v) = e := by
    unfold Dev.configWrite
    split
    case h_1 h _ => exact absurd (hsp.symm.trans h) (by decide)
    case h_2 h _ => exact absurd (hsp.symm.trans h) (by decide)
    case h_3 => rfl
  simp [Dev.registerWrite, hw, hsp, hr, hc, Dev.busWrites_one _ _ _ _ h4]

/-- An aligned 32-bit read of a hole returns 0. -/
theorem Dev.readRequest_hole (d : Dev) (w : Writer) (off : Nat) (h : d.regFor w off = none) (h4 : off % 4 = 0) :
    d.readRequest w off .b4 = d.reply (.words [0]) := by
  have ho : off / 4 * 4 + 4 * 0 = off := by omega
  have hl : (List.range (accWords .b4)).map (fun k => d.regFor w (off / 4 * 4 + 4 * k)) = [none] := by
    rw [show List.range (accWords .b4) = [0] from rfl, List.map_singleton, ho, h]
  have hu : readUnaligned off .b4 = false := by simp [readUnaligned, h4]
  simp only [Dev.readRequest, hu, hl, Bool.false_eq_true, if_false]
  rfl

/-- An event about an access leaves the host interface, the partitions, the plains and all memory alone. -/
theorem Dev.logAccess_frame (d : Dev) (src : Nat) (w : Writer) (off : Nat) (be : BitVec 4) :
    (d.logAccess src w off be).hif = d.hif ∧ (d.logAccess src w off be).parts = d.parts ∧
      (d.logAccess src w off be).plains = d.plains ∧ d.sameMemory (d.logAccess src w off be) :=
  ⟨Dev.log_hif .., Dev.log_parts .., Dev.log_plains .., Dev.log_mem .., Dev.log_ecc .., Dev.log_hostMem ..⟩

/-- Settles O8: the write is one access that finds no register, and the read one word that finds none. -/
theorem holesReadZeroAndWritesOfThemAreLogged : Obligations.HolesReadZeroAndWritesOfThemAreLogged := by
  intro s w off hr hh h4
  constructor
  · intro v
    have he : s.dev.registerWrite [word32 w off v] = s.dev.logAccess Ev.accessHole w off 0xF := by
      rw [Dev.registerWrite_word32 _ _ _ _ hr h4, Dev.access_hole _ _ _ _ _ hh]
      rfl
    refine ⟨{ s with dev := s.dev.registerWrite [word32 w off v] }, rfl, rfl, he, ?_⟩
    rw [he]
    exact s.dev.logAccess_frame ..
  · have he : (if s.dev.reachable w then s.dev.readRequest w off .b4 else s.dev) = s.dev.reply (.words [0x00000000]) := by
      rw [if_pos hr, Dev.readRequest_hole _ _ _ hh h4]
    exact ⟨_, rfl, rfl, he⟩

end Sys2Proof.Machine
end

/-! # Proofs: a partition reset starts

SUPPORT and PROOFS. Statement O20 of the partitions' chapter. Each way to ask for a reset is `Dev.startReset`, to which a write of
PRT_P_CTRL adds only the clock it wants and its journal entry (`regCmd_pCtrl_reset`). -/

section
namespace Sys2Proof.Machine

open Sys2Proof

/-! ### Rings under the updates that a reset makes -/

/-- Changing one ring leaves the others. -/
theorem Dev.updRing_ring_other (d : Dev) {r k : RingId} (f : Ring → Ring) (h : r ≠ k) : (d.updRing r f).ring k = d.ring k := by
  obtain ⟨fr, q⟩ := r
  obtain ⟨fk, j⟩ := k
  cases fr with
  | pf =>
    cases fk with
    | pf => exact Tab.at_upd_other _ q j f (by rintro rfl; exact h rfl)
    | vf _ => rfl
  | vf a =>
    cases fk with
    | pf => rfl
    | vf b =>
      by_cases hab : a = b
      · subst hab
        have hq : q ≠ j := by rintro rfl; exact h rfl
        simp [Dev.updRing, Dev.ring, Tab.at_upd_other, hq]
      · simp [Dev.updRing, Dev.ring, Dev.updPart_part_other, hab]

/-- Time charged to a partition's account leaves every ring. -/
theorem Dev.chargeTime_ring (d : Dev) (p : Option (Fin 64)) (c : EngClass) (since : DWord) (r : RingId) :
    (d.chargeTime p c since).ring r = d.ring r := by
  cases p with
  | none => rfl
  | some p => exact Dev.acct_ring ..

/-- Requests that leave a queue pair leave every ring. -/
theorem Dev.dropNetReqs_ring (d : Dev) (t : Fin 256) (gone : NetReq → Bool) (r : RingId) :
    (d.dropNetReqs t gone).ring r = d.ring r :=
  Dev.each_keeps (fun e => e.ring r = d.ring r) _ _ (fun e _ he => (e.chargeTime_ring _ _ _ r).trans he) d rfl

/-- What one step of a fold brings about, and every step keeps, holds at its end. -/
theorem Dev.each_establishes {β : Type} (P : Dev → Prop) (f : Dev → β → Dev) {l : List β} {b : β} (hb : b ∈ l)
    (hf : ∀ d, P (f d b)) (hk : ∀ d c, P d → P (f d c)) (d : Dev) : P (d.each l f) := by
  obtain ⟨before, after, rfl⟩ := List.append_of_mem hb
  rw [Dev.each, List.foldl_append]
  exact Dev.each_keeps P f after hk _ (hf _)

/-- Emptied in turn, no ring of the list holds a command. -/
theorem Dev.each_emptied_ring (d : Dev) {l : List RingId} {r : RingId} (hr : r ∈ l) :
    ((d.each l (fun d r => d.updRing r (fun x => { x with cmds := [] }))).ring r).cmds = [] := by
  refine Dev.each_establishes (fun e => (e.ring r).cmds = []) _ hr (fun e => ?_) (fun e k he => ?_) d
  · rw [Dev.updRing_ring]
  · by_cases h : k = r
    · subst h; rw [Dev.updRing_ring]
    · rwa [Dev.updRing_ring_other _ _ h]

theorem mem_partRings (p : Fin 64) (q : Fin 4) : { fn := .vf p, q := q } ∈ partRings p :=
  List.mem_map.mpr ⟨q, List.mem_finRange q, rfl⟩

/-! ### What a reset leaves, and how it is asked for (R80, R82, R83, R228) -/

/-- The partition is RESETTING: no ring of it holds a command, nothing of it waits, and no early message for it is kept. -/
def Dev.resetStarted (d : Dev) (p : Fin 64) : Prop :=
  (d.part p).state = .resetting ∧ (∀ q, ((d.part p).rings.at q).cmds = []) ∧ (∀ x ∈ d.waits, x.part ≠ p) ∧
    ∀ m ∈ d.early, m.part ≠ p

/-- A partition that is not RESETTING begins its reset. -/
theorem Dev.startReset_resetStarted (d : Dev) (p : Fin 64) (h : (d.part p).state ≠ .resetting) :
    (d.startReset p).resetStarted p := by
  rw [Dev.startReset, if_neg h]
  refine ⟨?state, fun q => ?rings, fun x hx => ?waits, fun m hm => ?early⟩
  case state => rw [Dev.updPart_part]
  case rings =>
    rw [Dev.updPart_part]
    exact Dev.each_keeps (fun e => (e.ring { fn := .vf p, q := q }).cmds = []) _ _
      (fun e t he => by rwa [e.dropNetReqs_ring]) _ (Dev.each_emptied_ring _ (mem_partRings p q))
  case waits => exact bne_iff_ne.mp (List.mem_filter.mp hx).2
  case early => exact bne_iff_ne.mp (List.mem_filter.mp hm).2

/-- A partition that is RESETTING does not begin again. -/
theorem Dev.startReset_of_resetting (d : Dev) (p : Fin 64) (h : (d.part p).state = .resetting) : d.startReset p = d := by
  rw [Dev.startReset, if_pos h]

/-- PRT_P_CTRL of a partition lies in the physical function's space and in that partition's own window. -/
theorem Dev.owns_pCtrl (d : Dev) (p : Fin 64) :
    d.owns (.host .pf) (.pCtrl p) = true ∧ d.owns (.host (.vf p)) (.pCtrl p) = true :=
  ⟨rfl, beq_self_eq_true p⟩

/-- A write of PRT_P_CTRL.RESET starts the reset; beside it, only clock domains, the journal and the host's memory change. -/
theorem Dev.regCmd_pCtrl_reset (d : Dev) (w : Writer) (p : Fin 64) (hr : d.reachable w = true) (ho : d.owns w (.pCtrl p) = true) :
    ∃ t m hif, d.regCmd w (.pCtrl p) 1 = { (d.woken t d.parts d.plains).startReset p with hostMem := m, hif := hif } := by
  obtain ⟨t, e⟩ := d.demand_of_not_til (.pCtrl p) nofun
  obtain ⟨m, hif, ej⟩ := ((d.woken t d.parts d.plains).startReset p).journal_frame w (Reg.off (.pCtrl p)) (mergeBe 0 1 allBytes)
    (((d.woken t d.parts d.plains).startReset p).readReg (.pCtrl p)) allBytes false false false
  refine ⟨t, m, hif, ?_⟩
  rw [Dev.regCmd_write _ _ _ _ _ hr ho, e]
  exact ej

/-- Settles O20: a write of RESET and a Function Level Reset are both `Dev.startReset`, which acts once. -/
theorem partitionResetStarts : Obligations.PartitionResetStarts := by
  intro s p
  refine ⟨s.dev.owns_pCtrl p, fun h => ⟨fun w hr ho => ?write, ?flr⟩, fun h => ⟨fun w hr ho => ?writeAgain, ?flrAgain⟩⟩
  case write =>
    obtain ⟨t, m, hif, e⟩ := s.dev.regCmd_pCtrl_reset w p hr ho
    refine ⟨{ s with dev := s.dev.regCmd w (.pCtrl p) 1 }, rfl, rfl, ?_⟩
    rw [e]
    exact (s.dev.woken t s.dev.parts s.dev.plains).startReset_resetStarted p h
  case flr => exact ⟨{ s with dev := s.dev.startReset p }, rfl, rfl, s.dev.startReset_resetStarted p h⟩
  case writeAgain =>
    obtain ⟨t, m, hif, e⟩ := s.dev.regCmd_pCtrl_reset w p hr ho
    refine ⟨{ s with dev := s.dev.regCmd w (.pCtrl p) 1 }, rfl, rfl, ?_⟩
    rw [e, (s.dev.woken t s.dev.parts s.dev.plains).startReset_of_resetting p h]
    exact ⟨rfl, rfl, rfl, rfl, rfl, rfl, rfl, rfl, rfl⟩
  case flrAgain => exact ⟨{ s with dev := s.dev.startReset p }, rfl, rfl, s.dev.startReset_of_resetting p h⟩

end Sys2Proof.Machine
end
